-- ==== Sys2Proof/Word.lean ====
section
/-! DEFINITION. The words of the machine: 32-bit registers, 8-bit bytes, 4-bit context numbers (rules R18, R23, R80). -/

namespace Sys2Proof

/-- A word is 32 bits (rule R18): registers, operands, results, command words. -/
abbrev Word := BitVec 32

/-- A byte is 8 bits (rule R18). -/
abbrev Byte := BitVec 8

/-- A context number: the 4-bit `CTX` or `SRC` field of a command word (rule R80). -/
abbrev CtxNum := BitVec 4

/-- A node number of a model's pool, `0` to `POOL_NODES − 1 = 513` (rules R11, R39). `NONE` is `none : Option NodeId`. -/
abbrev NodeId := Fin 514

/-- Sparse data by key: the pairs (key, value), keys strictly rising; an unlisted key reads as a default the user of the
table fixes. Buffers and node pools are tables. -/
abbrev Table (α : Type) := List (Nat × α)

/-- The buffer memory of one context (rules R34, R50): a table of bytes by byte index, in the canonical form `Memory.wf`. -/
abbrev Memory := List Host.Cell

end Sys2Proof
end

