-- ==== Sys2Proof/Syntax.lean ====
section
/-! DEFINITION. The commands of the Q3HUFF codec block, one constructor per row of the opcode table (rule R84). -/

namespace Sys2Proof

/-- A command, its word decoded. `ctx` is the `CTX` field, `src` the `SRC` field, `w7` the width field as the word holds it
(rules R80, R81). The operands `A`, `B`, `K` are registers, not fields of the command word (rule R23). -/
inductive Instr where
  | init (ctx : CtxNum)
  | initOob (ctx : CtxNum)
  | clear (ctx : CtxNum)
  | beginRead (ctx : CtxNum)
  | beginReadOob (ctx : CtxNum)
  | copy (ctx src : CtxNum)
  | modelInit (ctx : CtxNum)
  | writeBits (ctx : CtxNum) (w7 : BitVec 7)
  | readBits (ctx : CtxNum) (w7 : BitVec 7)
  | writeChar (ctx : CtxNum)
  | writeByte (ctx : CtxNum)
  | writeShort (ctx : CtxNum)
  | writeLong (ctx : CtxNum)
  | writeFloat (ctx : CtxNum)
  | readChar (ctx : CtxNum)
  | readByte (ctx : CtxNum)
  | readShort (ctx : CtxNum)
  | readLong (ctx : CtxNum)
  | readFloat (ctx : CtxNum)
  | lookaheadByte (ctx : CtxNum)
  | writeDelta (ctx : CtxNum) (w7 : BitVec 7)
  | readDelta (ctx : CtxNum) (w7 : BitVec 7)
  | writeDeltaFloat (ctx : CtxNum)
  | readDeltaFloat (ctx : CtxNum)
  | writeDeltaKey (ctx : CtxNum) (w7 : BitVec 7)
  | readDeltaKey (ctx : CtxNum) (w7 : BitVec 7)
  | writeDeltaKeyFloat (ctx : CtxNum)
  | readDeltaKeyFloat (ctx : CtxNum)
  | compress (ctx : CtxNum)
  | decompress (ctx : CtxNum)
  | regRead (ctx : CtxNum)
  | regWrite (ctx : CtxNum)
  | bufRead (ctx : CtxNum)
  | bufWrite (ctx : CtxNum)
  deriving DecidableEq, Repr

end Sys2Proof
end

