-- ==== Sys2Proof/Decode.lean ====
section
/-! DEFINITION. The command word: field extraction, the decoder (total, rejecting every word of no row), the encoder
(rules R80 to R86). -/

namespace Sys2Proof

/-- The fields of a command word (rule R80). -/
def fieldOpc (w : Word) : BitVec 8 := w.extractLsb' 24 8
def fieldCtx (w : Word) : CtxNum := w.extractLsb' 20 4
def fieldSrc (w : Word) : CtxNum := w.extractLsb' 16 4
def fieldReserved (w : Word) : BitVec 9 := w.extractLsb' 7 9
def fieldW7 (w : Word) : BitVec 7 := w.extractLsb' 0 7

/-- Format N: `SRC`, the reserved field and `W7` must be 0 (rule R81). -/
def formatN (w : Word) (mk : CtxNum → Instr) : Option Instr :=
  if fieldSrc w = 0 ∧ fieldReserved w = 0 ∧ fieldW7 w = 0 then some (mk (fieldCtx w)) else none

/-- Format W: `SRC` and the reserved field must be 0 (rule R81). -/
def formatW (w : Word) (mk : CtxNum → BitVec 7 → Instr) : Option Instr :=
  if fieldSrc w = 0 ∧ fieldReserved w = 0 then some (mk (fieldCtx w) (fieldW7 w)) else none

/-- Format C: the reserved field and `W7` must be 0 (rule R81). -/
def formatC (w : Word) (mk : CtxNum → CtxNum → Instr) : Option Instr :=
  if fieldReserved w = 0 ∧ fieldW7 w = 0 then some (mk (fieldCtx w) (fieldSrc w)) else none

/-- The command a word names by the opcode table alone (rules R84, R85); `none` for a word that matches no row (rule R86).
The comparison of `CTX` and `SRC` with `NCTX` comes after it, in the command prologue (rule R85). -/
def decode (w : Word) : Option Instr :=
  match fieldOpc w with
  | 0x01#8 => formatN w .init
  | 0x02#8 => formatN w .initOob
  | 0x03#8 => formatN w .clear
  | 0x04#8 => formatN w .beginRead
  | 0x05#8 => formatN w .beginReadOob
  | 0x06#8 => formatC w .copy
  | 0x07#8 => formatN w .modelInit
  | 0x10#8 => formatW w .writeBits
  | 0x11#8 => formatW w .readBits
  | 0x20#8 => formatN w .writeChar
  | 0x21#8 => formatN w .writeByte
  | 0x22#8 => formatN w .writeShort
  | 0x23#8 => formatN w .writeLong
  | 0x24#8 => formatN w .writeFloat
  | 0x28#8 => formatN w .readChar
  | 0x29#8 => formatN w .readByte
  | 0x2A#8 => formatN w .readShort
  | 0x2B#8 => formatN w .readLong
  | 0x2C#8 => formatN w .readFloat
  | 0x2D#8 => formatN w .lookaheadByte
  | 0x30#8 => formatW w .writeDelta
  | 0x31#8 => formatW w .readDelta
  | 0x32#8 => formatN w .writeDeltaFloat
  | 0x33#8 => formatN w .readDeltaFloat
  | 0x34#8 => formatW w .writeDeltaKey
  | 0x35#8 => formatW w .readDeltaKey
  | 0x36#8 => formatN w .writeDeltaKeyFloat
  | 0x37#8 => formatN w .readDeltaKeyFloat
  | 0x40#8 => formatN w .compress
  | 0x41#8 => formatN w .decompress
  | 0x50#8 => formatN w .regRead
  | 0x51#8 => formatN w .regWrite
  | 0x52#8 => formatN w .bufRead
  | 0x53#8 => formatN w .bufWrite
  | _ => none

/-- `OPC[31:24] CTX[23:20] SRC[19:16] 0[15:7] W7[6:0]` (rule R80). -/
def pack (opc : BitVec 8) (ctx src : CtxNum) (w7 : BitVec 7) : Word :=
  opc ++ ctx ++ src ++ (0 : BitVec 9) ++ w7

/-- The command word of a command (rules R80, R81, R84). -/
def encode : Instr → Word
  | .init c => pack 0x01 c 0 0
  | .initOob c => pack 0x02 c 0 0
  | .clear c => pack 0x03 c 0 0
  | .beginRead c => pack 0x04 c 0 0
  | .beginReadOob c => pack 0x05 c 0 0
  | .copy c d => pack 0x06 c d 0
  | .modelInit c => pack 0x07 c 0 0
  | .writeBits c n => pack 0x10 c 0 n
  | .readBits c n => pack 0x11 c 0 n
  | .writeChar c => pack 0x20 c 0 0
  | .writeByte c => pack 0x21 c 0 0
  | .writeShort c => pack 0x22 c 0 0
  | .writeLong c => pack 0x23 c 0 0
  | .writeFloat c => pack 0x24 c 0 0
  | .readChar c => pack 0x28 c 0 0
  | .readByte c => pack 0x29 c 0 0
  | .readShort c => pack 0x2A c 0 0
  | .readLong c => pack 0x2B c 0 0
  | .readFloat c => pack 0x2C c 0 0
  | .lookaheadByte c => pack 0x2D c 0 0
  | .writeDelta c n => pack 0x30 c 0 n
  | .readDelta c n => pack 0x31 c 0 n
  | .writeDeltaFloat c => pack 0x32 c 0 0
  | .readDeltaFloat c => pack 0x33 c 0 0
  | .writeDeltaKey c n => pack 0x34 c 0 n
  | .readDeltaKey c n => pack 0x35 c 0 n
  | .writeDeltaKeyFloat c => pack 0x36 c 0 0
  | .readDeltaKeyFloat c => pack 0x37 c 0 0
  | .compress c => pack 0x40 c 0 0
  | .decompress c => pack 0x41 c 0 0
  | .regRead c => pack 0x50 c 0 0
  | .regWrite c => pack 0x51 c 0 0
  | .bufRead c => pack 0x52 c 0 0
  | .bufWrite c => pack 0x53 c 0 0

/-- The instruction the decoder reads from a table row's word: one 32-bit command word, bit 0 its least significant bit
(rule R80); bits from `nbits` up are 0. -/
def decodeTableWord (nbits w : Nat) : Option Instr :=
  decode (BitVec.ofNat 32 (w % 2 ^ nbits))

end Sys2Proof
end

