-- ==== Sys2Proof/Machine/Types.lean ====
section
/-! DEFINITION. The records the state is made of: the nodes of a model, a model, a message context (rules R26 to R40). -/

namespace Sys2Proof.Machine

/-- What a node's `SYMBOL` field holds (rule R39). The spec's 9-bit codes are `0..255` for a byte leaf, `256` (`NYT`) for the
not-yet-seen leaf and `257` (`INTERNAL`) for an internal node; no command reads the field, so the codes are not kept. -/
inductive Symbol where
  | byte (b : Byte)
  | nyt
  | internal
  deriving DecidableEq, Repr, Inhabited

/-- One node of a model's pool (rule R39). `HEAD` is not held: the only thing any rule reads through it is `leader`
(rule R40). -/
structure Node where
  symbol : Symbol
  weight : Word
  parent : Option NodeId
  left   : Option NodeId
  right  : Option NodeId
  next   : Option NodeId
  prev   : Option NodeId
  deriving DecidableEq, Repr, Inhabited

/-- A pool node nothing has written: what an unlisted node number reads as. No rule reads one. -/
def Node.unused : Node :=
  { symbol := .internal, weight := 0, parent := none, left := none, right := none, next := none, prev := none }

/-- A model `M` (rule R39): its pool by node number, and the per-model registers `ROOT`, `LHEAD`, `LOC[0..255]`,
`LOC[NYT]`, `NNODES`. An unlisted node reads as `Node.unused`, an unlisted `LOC[s]` as `NONE`. -/
structure Model where
  nodes  : Table Node
  root   : NodeId
  lhead  : NodeId
  loc    : Table NodeId
  locNyt : Option NodeId
  nnodes : Nat
  deriving DecidableEq, Repr, Inhabited

/-- The registers and the buffer of one message context (rules R26 to R34). -/
structure Context where
  maxsize       : Word
  cursize       : Word
  readcount     : Word
  bit           : Word
  oob           : Bool
  overflowed    : Bool
  allowOverflow : Bool
  buf           : Memory
  deriving DecidableEq, Repr, Inhabited

end Sys2Proof.Machine
end

