-- ==== Sys2Proof/Config.lean ====
section
/-! DEFINITION. What an implementation fixes (the parameters of rules R10 to R16, carried by every state and changed by no
command), the values the model names for power-up, and the free values of what the spec leaves unspecified. -/

namespace Sys2Proof

/-- The open parameters of the hardware (rules R12 to R14; P1 to P3 of `93_implementation_defined.md`). They are no state
(rule R45): a state carries them because `step` takes nothing else, and no step changes them. -/
structure Params where
  /-- `NCTX`, the number of message contexts (rule R13). -/
  nctx     : Nat
  /-- `BUF_BYTES`, the bytes of buffer memory of each context (rule R14). -/
  bufBytes : Nat
  /-- `FREQ[0..255]`, the static frequency table, entry `i` at place `i` (rule R12). -/
  freq     : List Word
  deriving DecidableEq, Repr

/-- The constraints the spec puts on the parameters (rules R12, R13, R14). -/
abbrev Params.Ok (p : Params) : Prop :=
  1 ≤ p.nctx ∧ p.nctx ≤ 16 ∧ 4 ≤ p.bufBytes ∧ p.bufBytes ≤ 2 ^ 28 ∧ p.freq.length = 256 ∧
    (p.freq.map BitVec.toNat).sum + 1 < 2 ^ 32

/-- The parameters `State.reset` is built with: the values `93_implementation_defined.md` suggests for tests, `NCTX = 2`,
`BUF_BYTES = 64` and the test table `Z` (`FREQ` all zero). DESIGN CHOICE, unsafe (log entry 1). -/
def Config.params : Params := { nctx := 2, bufBytes := 64, freq := List.replicate 256 0 }

/-- What a buffer byte that nothing has written since hardware reset reads as (rule R44, U1: "some value").
DESIGN CHOICE, unsafe (log entry 2). -/
def Config.unwrittenByte : Byte := 0

/-- `HEADROOM`, the bytes of capacity a write needs (rule R15). -/
def Config.headroom : Word := 4

/-- The largest `size` the compressed-buffer header can hold (rules R190, R192). -/
def Config.compressLimit : Nat := 65535

/-- `POOL_NODES` (rule R11): the bound of every walk over a model's links. -/
def Config.poolNodes : Nat := 514

/-- More free values than one command can draw (log entry 5). -/
def Config.drawsPerCommand : Nat := 2 ^ 32

/-- The unspecified byte of an engine read at or beyond `MAXSIZE` (rule R52, U2), fresh at every draw. -/
opaque Config.freeByte : Nat → Byte

/-- The unspecified value of a register read in the faulted state (rules R250, R266, U5), fresh at every draw. -/
opaque Config.freeWord : Nat → Word

/-- The unspecified `MODEL_READY` after a fault (rule R266, U5). -/
opaque Config.freeBit : Nat → Bool

/-- The unspecified context registers and buffer after a fault (rule R266, U5): draw number, context number. -/
opaque Config.freeContext : Nat → Nat → Machine.Context

/-- The unspecified `ENC` and `DEC` after a fault (rule R266, U5): draw number, `0` for `ENC` and `1` for `DEC`. -/
opaque Config.freeModel : Nat → Nat → Machine.Model

end Sys2Proof
end

