-- ==== Sys2Proof/Machine/State.lean ====
section
/-! DEFINITION. The state of the block as plain data (rules R23 to R39), the ways a step can stop, the state after reset
(rules R44, R290). -/

namespace Sys2Proof.Machine

/-- The response codes of the block: exactly the seven codes 0 to 6 (rule R260, U9). -/
inductive RespCode where
  | ok | invalidArg | copyTooSmall | illegalCmd | writeRange | weightOvf | faulted
  deriving DecidableEq, Repr, Inhabited

/-- The two causes of a fault (rules R267, R268). A fault of the block is no stop of the model: taking one is a next state
with `FAULT = 1` (rule R266). -/
inductive FaultCause where
  | writeRange | weightOvf
  deriving DecidableEq, Repr, Inhabited

/-- The ways a step can stop with a fault of the MODEL: none. Every command, legal or not, ends with a response, in the
faulted state too (rules R260, R266), so no reason is ever needed; safe. -/
inductive Fault where
  deriving DecidableEq, Repr

/-- The ways a step can be refused. -/
inductive Refusal where
  /-- An instruction of the opcode table with no meaning yet, raised by `exec`'s arm; no arm raises it now. Safe. -/
  | notModelled (mnemonic : String)
  deriving DecidableEq, Repr

/-- What the host presents at the command port in one transaction: the command word and the current values of the operand
registers (rule R22). -/
structure Command where
  cw : Word
  a  : Word
  b  : Word
  k  : Word
  deriving DecidableEq, Repr

/-- What can arrive from outside the block: a transaction of the command port (rule R22), or the reset input (rule R290). -/
inductive PortEvent where
  | command (t : Command)
  | reset
  deriving DecidableEq, Repr

/-- The state of the block, with what the host has presented and the block has not yet taken. -/
structure State where
  /-- `NCTX`, `BUF_BYTES`, `FREQ`: constants no step changes (rule R45). -/
  params     : Params
  /-- MODEL's own: what the host has issued and the engine has not yet executed, in order of issue (rules R20, R22). -/
  pending    : List PortEvent
  /-- Operand register `A` (rule R23). -/
  a          : Word
  /-- Operand register `B` (rule R23). -/
  b          : Word
  /-- Operand register `K` (rule R23). -/
  k          : Word
  /-- Result register `R` (rule R24). -/
  r          : Word
  /-- Response register `RC`, 4 bits (rules R24, R260). -/
  rc         : RespCode
  /-- The message contexts (rule R26); those from `NCTX` up do not exist and no command reaches them. -/
  ctxs       : Vector Context 16
  /-- `MODEL_READY` (rule R37). -/
  modelReady : Bool
  /-- `FAULT` (rule R37). -/
  fault      : Bool
  /-- `FCAUSE`, 4 bits (rule R37). -/
  fcause     : BitVec 4
  /-- The encoder model `ENC` (rule R38). -/
  enc        : Model
  /-- The decoder model `DEC` (rule R38). -/
  dec        : Model
  /-- MODEL's own: how many free values have been drawn (log entry 5). -/
  freeCount  : Nat
  deriving DecidableEq, Repr

/-- A context after hardware reset: every register and flag 0, nothing written in the buffer (rule R44). -/
def Context.reset : Context :=
  { maxsize := 0, cursize := 0, readcount := 0, bit := 0, oob := false, overflowed := false, allowOverflow := false, buf := [] }

/-- What the model holds for `ENC` and `DEC` while `MODEL_READY = 0`: nothing in use. Unspecified by the spec and read by no
rule (rule R44, U4); DESIGN CHOICE (log entry 4). -/
def Model.unseeded : Model :=
  { nodes := [], root := 0, lhead := 0, loc := [], locNyt := none, nnodes := 0 }

/-- The state after hardware reset of a block with parameters `p` (rules R44, R290), nothing presented at the port. -/
def State.resetWith (p : Params) : State :=
  { params := p, pending := [], a := 0, b := 0, k := 0, r := 0, rc := .ok, ctxs := Vector.replicate 16 Context.reset,
    modelReady := false, fault := false, fcause := 0, enc := Model.unseeded, dec := Model.unseeded, freeCount := 0 }

/-- The machine right after reset (rules R44, R290), with the parameters of `Config.params`. -/
def State.reset : State := State.resetWith Config.params

end Sys2Proof.Machine
end

