-- ==== Sys2Proof/Machine/Flags.lean ====
section
/-! DEFINITION. The flags: the overflow test, and the images of `FLAGS` and `GSTATUS` (rules R32, R43, R121, R250, R260). -/

namespace Sys2Proof.Machine

/-- The in-band overflow test: fewer than `HEADROOM` bytes of capacity remain (rules R15, R121, R261). -/
def headroomShort (C : Context) : Bool := decide (C.maxsize - C.cursize < Config.headroom)

/-- Register 4, `FLAGS`: bit 0 `OOB`, bit 1 `OVERFLOWED`, bit 2 `ALLOWOVERFLOW`, the others 0 (rules R43, R250). -/
def flagsImage (C : Context) : Word :=
  (BitVec.ofBool C.oob).setWidth 32 ||| ((BitVec.ofBool C.overflowed).setWidth 32 <<< 1) |||
    ((BitVec.ofBool C.allowOverflow).setWidth 32 <<< 2)

/-- Register 8, `GSTATUS`: bit 0 `MODEL_READY`, bit 1 `FAULT`, bits 7:4 `FCAUSE`, the others 0 (rules R43, R250). -/
def gstatusImage (ready fault : Bool) (fcause : BitVec 4) : Word :=
  (BitVec.ofBool ready).setWidth 32 ||| ((BitVec.ofBool fault).setWidth 32 <<< 1) ||| (fcause.setWidth 32 <<< 4)

/-- The 4-bit value of a response code (rule R260). -/
def respBits : RespCode → BitVec 4
  | .ok => 0
  | .invalidArg => 1
  | .copyTooSmall => 2
  | .illegalCmd => 3
  | .writeRange => 4
  | .weightOvf => 5
  | .faulted => 6

/-- The response code of a fault (rules R260, R266). -/
def respOfFault : FaultCause → RespCode
  | .writeRange => .writeRange
  | .weightOvf => .weightOvf

end Sys2Proof.Machine
end

