-- ==== Sys2Proof/Machine/Operands.lean ====
section
/-! DEFINITION. Operand forms: the signed width and its checks, masks and extensions, the residual bits and whole bytes of a
field, byte counts (rules R18, R54 to R57, R82, R120, R210). -/

namespace Sys2Proof.Machine

/-- The signed width `W` of a format-W command: `W7` in two's complement (rule R82). -/
def widthOf (w7 : BitVec 7) : Int := w7.toInt

/-- `|W|` (rule R18). -/
def magnitude (w : Int) : Nat := w.natAbs

/-- `WidthOK(C, W)` (rule R120). -/
def widthOk (oob : Bool) (w : Int) : Bool :=
  decide (1 ≤ magnitude w ∧ magnitude w ≤ 32) &&
    (!oob || decide (magnitude w = 8 ∨ magnitude w = 16 ∨ magnitude w = 32))

/-- `DeltaOK(C, W)` (rule R210). -/
def deltaOk (oob : Bool) (w : Int) : Bool :=
  !oob && decide (1 ≤ magnitude w ∧ magnitude w ≤ 32)

/-- `mask(n) = 2^n − 1`, computed without overflow at `n = 32` (rule R18). -/
def mask (n : Nat) : Word := BitVec.ofNat 32 (2 ^ n - 1)

/-- `zext(n, v) = v & mask(n)` (rule R18). -/
def zext (n : Nat) (v : Word) : Word := v &&& mask n

/-- `sext(n, v)`: the low `n` bits of `v`, and bits 31 to `n` copies of bit `n − 1` (rule R18). -/
def sext (n : Nat) (v : Word) : Word :=
  if v.getLsbD (n - 1) then zext n v ||| ~~~ mask n else zext n v

/-- `ceil8(b) = (b + 7) >> 3` on naturals (rule R18). -/
def ceil8 (b : Nat) : Nat := (b + 7) / 8

/-- `v[lo+7 : lo]`, one byte of a word. -/
def byteAt (v : Word) (lo : Nat) : Byte := v.extractLsb' lo 8

/-- The bytes of an `8·count`-bit raw field, least significant first (rule R54). -/
def littleEndian (v : Word) (count : Nat) : List Byte :=
  (List.range count).map fun k => byteAt v (8 * k)

/-- The residual bits of an `n`-bit field, `v[0]` to `v[r−1]` with `r = n & 7`, least significant first (rule R57). -/
def residualBits (v : Word) (n : Nat) : List Bool :=
  (List.range (n % 8)).map fun i => v.getLsbD i

/-- The whole bytes of an `n`-bit field after its `r` residual bits, least significant first (rules R55, R57). -/
def wholeBytes (v : Word) (n : Nat) : List Byte :=
  (List.range (n / 8)).map fun j => byteAt v (n % 8 + 8 * j)

/-- A byte put at bit `lo` of a word. -/
def byteIn (b : Byte) (lo : Nat) : Word := b.setWidth 32 <<< lo

/-- A bit put at bit `i` of a word. -/
def bitIn (b : Bool) (i : Nat) : Word := (BitVec.ofBool b).setWidth 32 <<< i

/-- The byte whose bit `i` is entry `i` of a list of at most eight bits, the missing ones 0 (rule R56). -/
def byteOfBits (bits : List Bool) : Byte :=
  BitVec.ofNat 8 (bits.foldr (fun b n => 2 * n + b.toNat) 0)

/-- A bit sequence packed into bytes, first bit in bit 0 of the first byte, the last byte padded with 0 (rules R56, R192). -/
def packBits (bits : List Bool) : List Byte :=
  (List.range (ceil8 bits.length)).map fun k => byteOfBits ((bits.drop (8 * k)).take 8)

end Sys2Proof.Machine
end

