-- ==== Sys2Proof/WellFormed.lean ====
section
/-! DEFINITION. Which commands name contexts that exist: the part of legality that depends on `NCTX` (rules R80, R85, R86).
The must-be-zero fields and the opcode are the decoder's. A width outside the legal set is no illegal encoding but an invalid
argument (rule R82), so it is not checked here. -/

namespace Sys2Proof

/-- The context fields of a command: `CTX`, and `SRC` for format C (rule R81). -/
def Instr.contexts : Instr → List CtxNum
  | .init c => [c]
  | .initOob c => [c]
  | .clear c => [c]
  | .beginRead c => [c]
  | .beginReadOob c => [c]
  | .copy c d => [c, d]
  | .modelInit c => [c]
  | .writeBits c _ => [c]
  | .readBits c _ => [c]
  | .writeChar c => [c]
  | .writeByte c => [c]
  | .writeShort c => [c]
  | .writeLong c => [c]
  | .writeFloat c => [c]
  | .readChar c => [c]
  | .readByte c => [c]
  | .readShort c => [c]
  | .readLong c => [c]
  | .readFloat c => [c]
  | .lookaheadByte c => [c]
  | .writeDelta c _ => [c]
  | .readDelta c _ => [c]
  | .writeDeltaFloat c => [c]
  | .readDeltaFloat c => [c]
  | .writeDeltaKey c _ => [c]
  | .readDeltaKey c _ => [c]
  | .writeDeltaKeyFloat c => [c]
  | .readDeltaKeyFloat c => [c]
  | .compress c => [c]
  | .decompress c => [c]
  | .regRead c => [c]
  | .regWrite c => [c]
  | .bufRead c => [c]
  | .bufWrite c => [c]

/-- Every context the command names is below `NCTX` (rule R86: `CTX ≥ NCTX`, or `SRC ≥ NCTX` in format C, is illegal). -/
def Instr.wellFormed (nctx : Nat) (i : Instr) : Bool :=
  i.contexts.all fun c => decide (c.toNat < nctx)

end Sys2Proof
end

