-- ==== Sys2Proof/Machine/Ops.lean ====
section
/-! DEFINITION. The named operations over memory and registers: tables, buffer bytes, contexts, the response, taking a fault
and leaving the faulted state, the prologue every command shares, the engine's accesses to a buffer byte and a buffer bit. -/

namespace Sys2Proof.Machine

/-! ## Tables -/

/-- The entry listed for a key, if any; keys rise, so the search ends at the first larger one. -/
def tableFind {α : Type} : Table α → Nat → Option α
  | [], _ => none
  | (j, v) :: rest, i => if i < j then none else if i = j then some v else tableFind rest i

/-- The table with `v` listed for key `i`, keys still rising. -/
def tablePut {α : Type} : Table α → Nat → α → Table α
  | [], i, v => [(i, v)]
  | (j, w) :: rest, i, v =>
    if i < j then (i, v) :: (j, w) :: rest
    else if i = j then (i, v) :: rest
    else (j, w) :: tablePut rest i v

/-- The table with nothing listed for key `i`. -/
def tableDrop {α : Type} : Table α → Nat → Table α
  | [], _ => []
  | (j, w) :: rest, i =>
    if i < j then (j, w) :: rest
    else if i = j then rest
    else (j, w) :: tableDrop rest i

/-! ## Buffer memory -/

/-- `BUF[i]` (rule R34): the byte listed, or what a byte nothing has written reads as. -/
def bufGet (m : Memory) (i : Nat) : Byte := (tableFind m i).getD Config.unwrittenByte

/-- `BUF[i] <- v`, in canonical form: the value an unlisted byte reads as is not listed. -/
def bufSet (m : Memory) (i : Nat) (v : Byte) : Memory :=
  if v = Config.unwrittenByte then tableDrop m i else tablePut m i v

/-- `BUF[i + j] <- vs[j]` for each `j`, in ascending order. -/
def bufSetMany (m : Memory) (i : Nat) : List Byte → Memory
  | [] => m
  | v :: vs => bufSetMany (bufSet m i v) (i + 1) vs

/-- The canonical buffer that holds the listed cells. -/
def bufOfCells (cells : List Host.Cell) : Memory :=
  cells.foldr (fun cell m => bufSet m cell.1 cell.2) []

/-- The keys of a table above `lo`, strictly rising, none listed with the unwritten value. -/
def bufWfAbove (lo : Nat) : Memory → Bool
  | [] => true
  | (i, v) :: rest => decide (lo ≤ i) && decide (v ≠ Config.unwrittenByte) && bufWfAbove (i + 1) rest

/-- The canonical form of a buffer: addresses strictly rising, no entry equal to what an unlisted address reads as. -/
def Memory.wf (m : Memory) : Bool := bufWfAbove 0 m

/-! ## Contexts -/

/-- The context a field names (rule R26). -/
def ctxOf (s : State) (c : CtxNum) : Context := s.ctxs[c.toNat]'c.isLt

/-- The state with that context replaced. -/
def setCtx (c : CtxNum) (C : Context) (s : State) : State :=
  { s with ctxs := s.ctxs.set c.toNat C c.isLt }

/-! ## Responses, faults, reset -/

/-- `respond(rc, v)`: `R <- v`, `RC <- rc`, the command ends (rule R24). -/
def respond (rc : RespCode) (v : Word) (s : State) : State := { s with r := v, rc := rc }

/-- What a context holds after a fault: anything, its buffer in canonical form (rule R266). -/
def unspecifiedContext (draw ctx : Nat) : Context :=
  { Config.freeContext draw ctx with buf := bufOfCells (Config.freeContext draw ctx).buf }

/-- `raise Fault(code)` in a command that began in state `s` (rule R266): `FAULT <- 1`, `FCAUSE <- code`,
`respond(code, 0)`; every context, `ENC`, `DEC` and `MODEL_READY` unspecified, whatever the command had done. The block's
taking of an exception: no saved state, no handler, no mode (rule R272). -/
def takeFault (e : FaultCause) (s : State) : State :=
  respond (respOfFault e) 0
    { s with
      ctxs := Vector.ofFn fun i => unspecifiedContext s.freeCount i.val
      enc := Config.freeModel s.freeCount 0
      dec := Config.freeModel s.freeCount 1
      modelReady := Config.freeBit s.freeCount
      fault := true
      fcause := respBits (respOfFault e)
      freeCount := s.freeCount + Config.drawsPerCommand }

/-- Hardware reset, an event outside the command set and the only way out of the faulted state (rules R273, R290): the state
of rule R44, with what the host has issued after it still to come. -/
def hardReset (rest : List PortEvent) (s : State) : State :=
  { State.resetWith s.params with pending := rest, freeCount := s.freeCount }

/-- How a command's pseudocode ends: a result with `OK`, or a fault raised on the way (rules R260, R266). `s` is the state
the command began in. -/
def conclude (s : State) : Except FaultCause (Word × State) → State
  | .ok (v, t) => respond .ok v t
  | .error e => takeFault e s

/-- The first two checks of every command (rules R100, R263): the faulted state (skipped by `REG_READ`), then contexts that
do not exist. The argument checks and the rest of the command are `body`. -/
def prologue (inFault : Bool) (cs : List CtxNum) (s : State) (body : State → State) : State :=
  if s.fault && !inFault then respond .faulted 0 s
  else if cs.all fun c => decide (c.toNat < s.params.nctx) then body s
  else respond .illegalCmd 0 s

/-- A word that matches no row of the opcode table (rules R86, R263, R265): `FAULTED` first, unless its opcode is
`REG_READ`'s. -/
def rejectWord (cw : Word) (s : State) : State :=
  if s.fault && decide (fieldOpc cw ≠ 0x50#8) then respond .faulted 0 s else respond .illegalCmd 0 s

/-- The engine takes a transaction from the port: the operand registers hold what the host presented (rules R22, R23). -/
def loadPort (t : Command) (rest : List PortEvent) (s : State) : State :=
  { s with pending := rest, a := t.a, b := t.b, k := t.k }

/-! ## The engine's accesses -/

/-- `MemRead(C, i)` (rule R52): at or beyond `MAXSIZE` an unspecified byte, fresh at each read. -/
def memRead (c : CtxNum) (i : Nat) (s : State) : Byte × State :=
  if i < (ctxOf s c).maxsize.toNat then (bufGet (ctxOf s c).buf i, s)
  else (Config.freeByte s.freeCount, { s with freeCount := s.freeCount + 1 })

/-- `MemRead(C, i)` to `MemRead(C, i + n − 1)`, in ascending order. -/
def memReadMany (c : CtxNum) (i : Nat) : Nat → State → List Byte × State
  | 0, s => ([], s)
  | n + 1, s =>
    let first := memRead c i s
    let others := memReadMany c (i + 1) n first.2
    (first.1 :: others.1, others.2)

/-- `MemWrite(C, i, v)` (rule R53): at or beyond `MAXSIZE` the fault `WRITE_RANGE`. -/
def memWrite (C : Context) (i : Nat) (v : Byte) : Except FaultCause Context :=
  if i < C.maxsize.toNat then .ok { C with buf := bufSet C.buf i v } else .error .writeRange

/-- `MemWrite` of consecutive bytes at `i`, `i + 1`, ..., addresses formed modulo `2^32` (rule R18; log entry 7). -/
def memWriteMany (C : Context) (i : Word) : List Byte → Except FaultCause Context
  | [] => .ok C
  | v :: vs => do
    let C ← memWrite C i.toNat v
    memWriteMany C (i + 1) vs

/-- `PutBit(C, b)` (rule R172): the first bit of a byte clears the other seven, a later one is OR-ed in. -/
def putBit (C : Context) (b : Bool) : Except FaultCause Context :=
  let i := C.bit.toNat / 8
  let k := C.bit.toNat % 8
  if C.maxsize.toNat ≤ i then .error .writeRange
  else
    let old := if k = 0 then 0 else bufGet C.buf i
    .ok { C with buf := bufSet C.buf i (old ||| ((BitVec.ofBool b).setWidth 8 <<< k)), bit := C.bit + 1 }

/-- `PutBit` of each bit in order. -/
def putBits (C : Context) : List Bool → Except FaultCause Context
  | [] => .ok C
  | b :: bs => do
    let C ← putBit C b
    putBits C bs

/-- `GetBit(C)` (rule R173). -/
def getBit (c : CtxNum) (s : State) : Bool × State :=
  let bit := (ctxOf s c).bit
  let got := memRead c (bit.toNat / 8) s
  (got.1.getLsbD (bit.toNat % 8), setCtx c { ctxOf got.2 c with bit := bit + 1 } got.2)

end Sys2Proof.Machine
end

