-- ==== Sys2Proof/Machine/Tree.lean ====
section
/-! DEFINITION. The adaptive entropy model: node access, the exchanges, the update rule, seeding, codes, encoding and decoding
a symbol (rules R40, R171 to R184). Every walk over links is bounded by `POOL_NODES`, which no walk of a model built by
`emptyModel` and `update` reaches (rule R175; log entry 6). -/

namespace Sys2Proof.Machine

/-! ## Nodes -/

/-- Node `n` of the pool (rule R39). -/
def node (M : Model) (n : NodeId) : Node := (tableFind M.nodes n.val).getD Node.unused

/-- The model with node `n` replaced. -/
def setNode (M : Model) (n : NodeId) (x : Node) : Model := { M with nodes := tablePut M.nodes n.val x }

def setParent (M : Model) (n : NodeId) (p : Option NodeId) : Model := setNode M n { node M n with parent := p }
def setLeft (M : Model) (n : NodeId) (p : Option NodeId) : Model := setNode M n { node M n with left := p }
def setRight (M : Model) (n : NodeId) (p : Option NodeId) : Model := setNode M n { node M n with right := p }
def setNext (M : Model) (n : NodeId) (p : Option NodeId) : Model := setNode M n { node M n with next := p }
def setPrev (M : Model) (n : NodeId) (p : Option NodeId) : Model := setNode M n { node M n with prev := p }
def setWeight (M : Model) (n : NodeId) (w : Word) : Model := setNode M n { node M n with weight := w }

/-- `M.NEXT[n] <- p` where `n` may be `NONE`: then nothing is written. -/
def setNextOf (M : Model) (n : Option NodeId) (p : NodeId) : Model :=
  match n with
  | none => M
  | some n => setNext M n (some p)

/-- `M.PREV[n] <- p` where `n` may be `NONE`: then nothing is written. -/
def setPrevOf (M : Model) (n : Option NodeId) (p : NodeId) : Model :=
  match n with
  | none => M
  | some n => setPrev M n (some p)

/-- `LOC[s]` (rule R39). -/
def locOf (M : Model) (s : Byte) : Option NodeId := tableFind M.loc s.toNat

/-- `leader(M, n)`: follow `NEXT` while the next node has the same weight (rule R40), at most `fuel` times. -/
def leaderFrom (M : Model) : Nat → NodeId → NodeId
  | 0, n => n
  | fuel + 1, n =>
    match (node M n).next with
    | none => n
    | some m => if (node M m).weight = (node M n).weight then leaderFrom M fuel m else n

/-- `leader(M, n)`, the last node of the block of `n` (rule R40). -/
def leader (M : Model) (n : NodeId) : NodeId := leaderFrom M Config.poolNodes n

/-! ## The exchanges -/

/-- `new` takes the place of `old` under `p`: on the side `old` is on, or as the root when `p` is `NONE` (rules R177, R179). -/
def relink (M : Model) (p : Option NodeId) (old new : NodeId) : Model :=
  match p with
  | none => { M with root := new }
  | some p => if (node M p).left = some old then setLeft M p (some new) else setRight M p (some new)

/-- `SwapTree(M, a, b)` (rule R179). On two siblings the second `relink` sees what the first did. -/
def swapTree (M : Model) (a b : NodeId) : Model :=
  let pa := (node M a).parent
  let pb := (node M b).parent
  let M := relink M pa a b
  let M := relink M pb b a
  let M := setParent M a pb
  setParent M b pa

/-- `SwapList(M, a, b)` (rule R179). -/
def swapList (M : Model) (a b : NodeId) : Model :=
  let t := (node M a).next
  let M := setNext M a (node M b).next
  let M := setNext M b t
  let t := (node M a).prev
  let M := setPrev M a (node M b).prev
  let M := setPrev M b t
  let M := if (node M a).next = some a then setNext M a (some b) else M
  let M := if (node M b).next = some b then setNext M b (some a) else M
  let M := setPrevOf M (node M a).next a
  let M := setPrevOf M (node M b).next b
  let M := setNextOf M (node M a).prev a
  setNextOf M (node M b).prev b

/-! ## The update rule -/

/-- Steps 1 and 2 of `Increment` at node `n`: exchange with the block's leader, the tree exchange skipped when the leader is
the parent (rule R178). -/
def passBlock (M : Model) (n : NodeId) : Model :=
  let l := leader M n
  if l = n then M
  else swapList (if (node M n).parent = some l then M else swapTree M l n) l n

/-- The climb of `Increment` (rule R178) from `n` to the root: exchange, add one to the weight or raise `WEIGHT_OVF`, go to
the parent after the exchange. `path` holds the nodes passed, the last one first. -/
def climb : Nat → Model → Option NodeId → List NodeId → Except FaultCause (Model × List NodeId)
  | 0, M, _, path => .ok (M, path)
  | _ + 1, M, none, path => .ok (M, path)
  | fuel + 1, M, some n, path =>
    let M := passBlock M n
    if (node M n).weight = BitVec.allOnes 32 then .error .weightOvf
    else
      let M := setWeight M n ((node M n).weight + 1)
      climb fuel M (node M n).parent (n :: path)

/-- Step 3 of `Increment` at one node: a parent directly before its child in the list is exchanged with it (rule R178). -/
def repair (M : Model) (n : NodeId) : Model :=
  match (node M n).parent with
  | none => M
  | some p => if (node M n).prev = some p then swapList M n p else M

/-- `Increment(M, n)`, `n` a node or `NONE` (rule R178). -/
def increment (M : Model) (n : Option NodeId) : Except FaultCause Model := do
  let climbed ← climb Config.poolNodes M n []
  .ok (climbed.2.foldl repair climbed.1)

/-- The first part of `Introduce(M, s)` (rule R177): the new leaf and inner node, in the list directly after `LHEAD` and in
the tree in the place of `LHEAD`. -/
def graft (M : Model) (s : Byte) : Model :=
  let leaf : NodeId := Fin.ofNat 514 M.nnodes
  let inner : NodeId := Fin.ofNat 514 (M.nnodes + 1)
  let h := M.lhead
  let on := (node M h).next
  let p := (node M h).parent
  let M := { M with nnodes := M.nnodes + 2 }
  let M := setNode M leaf { node M leaf with symbol := .byte s, weight := 1, left := none, right := none }
  let M := setNode M inner { node M inner with symbol := .internal, weight := 1 }
  let M := setPrev (setNext M h (some leaf)) leaf (some h)
  let M := setPrev (setNext M leaf (some inner)) inner (some leaf)
  let M := setPrevOf (setNext M inner on) on inner
  let M := relink M p h inner
  let M := setParent (setRight (setLeft M inner (some h)) inner (some leaf)) inner p
  let M := setParent (setParent M h (some inner)) leaf (some inner)
  { M with loc := tablePut M.loc s.toNat leaf }

/-- `Introduce(M, s)` (rule R177): the increments start at the old parent of the `NYT` node. -/
def introduce (M : Model) (s : Byte) : Except FaultCause Model :=
  increment (graft M s) (node M M.lhead).parent

/-- `Update(M, s)` (rule R176). -/
def update (M : Model) (s : Byte) : Except FaultCause Model :=
  match locOf M s with
  | none => introduce M s
  | some n => increment M (some n)

/-! ## Seeding -/

/-- `Empty()` (rule R174): one node, `NYT`. -/
def emptyModel : Model :=
  { nodes := [(0, { Node.unused with symbol := .nyt })], root := 0, lhead := 0, loc := [], locNyt := some 0, nnodes := 1 }

/-- `count` times `Update(M, s)`. -/
def updateTimes (s : Byte) : Nat → Model → Except FaultCause Model
  | 0, M => .ok M
  | count + 1, M => do
    let M ← update M s
    updateTimes s count M

/-- `Seeded(FREQ)` from byte value `i` on: all updates of one byte before those of the next, in ascending order (rule R180). -/
def seedFrom : Nat → List Word → Model → Except FaultCause Model
  | _, [], M => .ok M
  | i, count :: counts, M => do
    let M ← updateTimes (BitVec.ofNat 8 i) count.toNat M
    seedFrom (i + 1) counts M

/-- `Seeded(FREQ)` (rule R180). -/
def seeded (p : Params) : Except FaultCause Model := seedFrom 0 p.freq emptyModel

/-- `EnsureModel()` (rule R181). -/
def ensureModel (s : State) : Except FaultCause State :=
  if s.modelReady then .ok s
  else do
    let M ← seeded s.params
    .ok { s with enc := M, dec := M, modelReady := true }

/-! ## Codes -/

/-- `Code(M, n)` before `acc`: the bits from the root to `n`, 1 for a right child (rules R171, R183). -/
def codeFrom (M : Model) : Nat → NodeId → List Bool → List Bool
  | 0, _, acc => acc
  | fuel + 1, n, acc =>
    if n = M.root then acc
    else
      match (node M n).parent with
      | none => acc
      | some p => codeFrom M fuel p (decide ((node M p).right = some n) :: acc)

/-- `Code(M, n)` (rule R183). -/
def code (M : Model) (n : NodeId) : List Bool := codeFrom M Config.poolNodes n []

/-- The eight bits of a byte, most significant first (rule R183). -/
def msbFirst (s : Byte) : List Bool :=
  [s.getLsbD 7, s.getLsbD 6, s.getLsbD 5, s.getLsbD 4, s.getLsbD 3, s.getLsbD 2, s.getLsbD 1, s.getLsbD 0]

/-- The code of the not-yet-seen leaf. -/
def nytCode (M : Model) : List Bool :=
  match M.locNyt with
  | none => []
  | some n => code M n

/-- The bits `EncodeSymbol(M, C, s)` puts (rule R183): the symbol's code, or the not-yet-seen path and the raw byte. -/
def symbolBits (M : Model) (s : Byte) : List Bool :=
  match locOf M s with
  | some n => code M n
  | none => nytCode M ++ msbFirst s

/-- `EncodeSymbol(M, C, s)` (rule R183) on a context: the bits put, then `Update`. -/
def encodeSymbol (M : Model) (C : Context) (s : Byte) : Except FaultCause (Model × Context) := do
  let C ← putBits C (symbolBits M s)
  let M ← update M s
  .ok (M, C)

/-- `EncodeSymbol` of each byte in order, on a context. -/
def encodeBytes (M : Model) (C : Context) : List Byte → Except FaultCause (Model × Context)
  | [] => .ok (M, C)
  | s :: ss => do
    let done ← encodeSymbol M C s
    encodeBytes done.1 done.2 ss

/-- `EncodeSymbol` of each byte in order, on an unbounded stream (rule R190): the bits put, first one first. -/
def encodeStream (M : Model) : List Byte → Except FaultCause (List Bool)
  | [] => .ok []
  | s :: ss => do
    let M' ← update M s
    let bits ← encodeStream M' ss
    .ok (symbolBits M s ++ bits)

/-- The walk of `DecodeSymbol` from node `n` (rule R184) on a source of bits `get`: bit 1 goes right, bit 0 left. -/
def walk {σ : Type} (get : σ → Bool × σ) (M : Model) : Nat → NodeId → σ → Symbol × σ
  | 0, n, t => ((node M n).symbol, t)
  | fuel + 1, n, t =>
    if (node M n).symbol = .internal then
      let got := get t
      match (if got.1 then (node M n).right else (node M n).left) with
      | none => (.internal, got.2)
      | some m => walk get M fuel m got.2
    else ((node M n).symbol, t)

/-- `repeat count times : s <- (s << 1) | GetBit` (rule R184). -/
def rawByte {σ : Type} (get : σ → Bool × σ) : Nat → Byte → σ → Byte × σ
  | 0, s, t => (s, t)
  | count + 1, s, t =>
    let got := get t
    rawByte get count ((s <<< 1) ||| (BitVec.ofBool got.1).setWidth 8) got.2

/-- The byte `DecodeSymbol` reads (rule R184): a leaf's byte, or a raw byte after the not-yet-seen leaf. -/
def readSymbol {σ : Type} (get : σ → Bool × σ) (M : Model) (t : σ) : Byte × σ :=
  let leaf := walk get M Config.poolNodes M.root t
  match leaf.1 with
  | .byte s => (s, leaf.2)
  | _ => rawByte get 8 0 leaf.2

/-- `DecodeSymbol(M, C)` (rule R184) on a source of bits: the byte, then `Update`. -/
def decodeSymbol {σ : Type} (get : σ → Bool × σ) (M : Model) (t : σ) : Except FaultCause (Byte × Model × σ) := do
  let got := readSymbol get M t
  let M ← update M got.1
  .ok (got.1, M, got.2)

/-- `DecodeSymbol` `count` times on a source of bits: the bytes, and where the source stands. -/
def decodeStream {σ : Type} (get : σ → Bool × σ) : Nat → Model → σ → Except FaultCause (List Byte × σ)
  | 0, _, t => .ok ([], t)
  | count + 1, M, t => do
    let first ← decodeSymbol get M t
    let others ← decodeStream get count first.2.1 first.2.2
    .ok (first.1 :: others.1, others.2)

/-- `DecodeSymbol(DEC, C)` (rule R124). -/
def decodeDec (c : CtxNum) (s : State) : Except FaultCause (Byte × State) := do
  let got ← decodeSymbol (getBit c) s.dec s
  .ok (got.1, { got.2.2 with dec := got.2.1 })

end Sys2Proof.Machine
end

