-- ==== Sys2Proof/Machine/Engine.lean ====
section
/-! DEFINITION. The engine's shared bodies: `WriteBitsCore`, `ReadBitsCore`, `TypedRead`, `DeltaWrite`, `DeltaRead` (rules R121,
R124, R146, R210), and the forms of a command built on them. -/

namespace Sys2Proof.Machine

/-! ## Writing a field -/

/-- The raw-mode branch of `WriteBitsCore` on a context (rule R121): little-endian bytes at `CURSIZE`. -/
def writeRaw (C : Context) (v : Word) (n : Nat) : Except FaultCause Context := do
  let C' ← memWriteMany C C.cursize (littleEndian v (n / 8))
  .ok { C' with cursize := C.cursize + BitVec.ofNat 32 (n / 8), bit := C.bit + BitVec.ofNat 32 n }

/-- The compressed-mode branch of `WriteBitsCore` on a context and `ENC` (rule R121): residual bits, then coded bytes, then
`CURSIZE <- ceil8(BIT)`. -/
def writeCoded (M : Model) (C : Context) (v : Word) (n : Nat) : Except FaultCause (Model × Context) := do
  let C ← putBits C (residualBits v n)
  let done ← encodeBytes M C (wholeBytes v n)
  .ok (done.1, { done.2 with cursize := BitVec.ofNat 32 (ceil8 done.2.bit.toNat) })

/-- `WriteBitsCore(C, v, n)` (rule R121). -/
def writeBitsCore (c : CtxNum) (v : Word) (n : Nat) (s : State) : Except FaultCause State :=
  if headroomShort (ctxOf s c) then .ok (setCtx c { ctxOf s c with overflowed := true } s)
  else if (ctxOf s c).oob then do
    let C ← writeRaw (ctxOf s c) (zext n v) n
    .ok (setCtx c C s)
  else do
    let s ← ensureModel s
    let done ← writeCoded s.enc (ctxOf s c) (zext n v) n
    .ok (setCtx c done.2 { s with enc := done.1 })

/-! ## Reading a field -/

/-- `v | MemRead(C, i) << lo | ...` over `count` consecutive bytes (rule R124), addresses formed modulo `2^32` (log entry 7). -/
def readRawBytes (c : CtxNum) : Nat → Word → Nat → Word → State → Word × State
  | 0, _, _, v, s => (v, s)
  | count + 1, i, lo, v, s =>
    let got := memRead c i.toNat s
    readRawBytes c count (i + 1) (lo + 8) (v ||| byteIn got.1 lo) got.2

/-- `v | GetBit(C) << i | ...` over `count` bits (rule R124). -/
def readResidual (c : CtxNum) : Nat → Nat → Word → State → Word × State
  | 0, _, v, s => (v, s)
  | count + 1, i, v, s =>
    let got := getBit c s
    readResidual c count (i + 1) (v ||| bitIn got.1 i) got.2

/-- `v | DecodeSymbol(DEC, C) << lo | ...` over `count` symbols (rule R124). -/
def readCoded (c : CtxNum) : Nat → Nat → Word → State → Except FaultCause (Word × State)
  | 0, _, v, s => .ok (v, s)
  | count + 1, lo, v, s => do
    let got ← decodeDec c s
    readCoded c count (lo + 8) (v ||| byteIn got.1 lo) got.2

/-- The raw-mode branch of `ReadBitsCore` (rule R124): little-endian bytes at `READCOUNT`. -/
def readRaw (c : CtxNum) (n : Nat) (s : State) : Word × State :=
  let C := ctxOf s c
  let got := readRawBytes c (n / 8) C.readcount 0 0 s
  (got.1, setCtx c { ctxOf got.2 c with readcount := C.readcount + BitVec.ofNat 32 (n / 8),
                                        bit := C.bit + BitVec.ofNat 32 n } got.2)

/-- `READCOUNT <- ceil8(C.BIT)` (rule R124). -/
def trackReadcount (c : CtxNum) (s : State) : State :=
  setCtx c { ctxOf s c with readcount := BitVec.ofNat 32 (ceil8 (ctxOf s c).bit.toNat) } s

/-- The compressed-mode branch of `ReadBitsCore` (rule R124). -/
def readBitstream (c : CtxNum) (n : Nat) (s : State) : Except FaultCause (Word × State) := do
  let s ← ensureModel s
  let low := readResidual c (n % 8) 0 0 s
  let got ← readCoded c (n / 8) (n % 8) low.1 low.2
  .ok (got.1, trackReadcount c got.2)

/-- The last step of `ReadBitsCore` (rule R124): a negative width sign-extends. -/
def extend (w : Int) (v : Word) : Word := if w < 0 then sext (magnitude w) v else v

/-- `ReadBitsCore(C, W)` (rule R124). -/
def readBitsCore (c : CtxNum) (w : Int) (s : State) : Except FaultCause (Word × State) :=
  if (ctxOf s c).oob then
    let got := readRaw c (magnitude w) s
    .ok (extend w got.1, got.2)
  else do
    let got ← readBitstream c (magnitude w) s
    .ok (extend w got.1, got.2)

/-- `TypedRead(C, W, s)` (rule R146): the sentinel once `READCOUNT` has passed `CURSIZE`, after the whole read. -/
def typedRead (c : CtxNum) (w : Int) (sentinel : Word) (s : State) : Except FaultCause (Word × State) := do
  let got ← readBitsCore c w s
  .ok (if (ctxOf got.2 c).cursize < (ctxOf got.2 c).readcount then sentinel else got.1, got.2)

/-- The integer sentinel `-1` (rule R146). -/
def sentinelInt : Word := 0xFFFFFFFF

/-- The float sentinel, the pattern of `-1.0` (rule R146). -/
def sentinelFloat : Word := 0xBF800000

/-! ## Delta fields -/

/-- `DeltaWrite(C, old, new, n, key)` (rule R210). -/
def deltaWrite (c : CtxNum) (old new : Word) (n : Nat) (key : Word) (s : State) : Except FaultCause State :=
  if old = new then writeBitsCore c 0 1 s
  else do
    let s ← writeBitsCore c 1 1 s
    writeBitsCore c (new ^^^ key) n s

/-- `DeltaRead(C, old, W, key)` (rule R210). -/
def deltaRead (c : CtxNum) (old : Word) (w : Int) (key : Word) (s : State) : Except FaultCause (Word × State) := do
  let flag ← readBitsCore c 1 s
  if flag.1 = 0 then .ok (old, flag.2)
  else do
    let got ← readBitsCore c w flag.2
    .ok (got.1 ^^^ (key &&& mask (magnitude w)), got.2)

/-! ## Forms of a command -/

/-- A result of 0 beside the state a write leaves. -/
def noResult (e : Except FaultCause State) : Except FaultCause (Word × State) := e.map fun t => (0, t)

/-- The body of a command that writes a field of `n` bits from `A` and responds `OK` (rules R122, R141 to R145). -/
def writeField (c : CtxNum) (n : Nat) (s : State) : State :=
  conclude s (noResult (writeBitsCore c s.a n s))

/-- The body of a typed read (rules R147 to R151). -/
def typedReadField (c : CtxNum) (w : Int) (sentinel : Word) (s : State) : State :=
  conclude s (typedRead c w sentinel s)

/-- An argument check, then the rest of the command (rule R100, step 3). -/
def guardArg (ok : Bool) (body : State → State) (s : State) : State :=
  if ok then body s else respond .invalidArg 0 s

/-- The body of a delta write of `n` bits with a key (rules R211, R213, R215, R217). -/
def deltaWriteField (c : CtxNum) (n : Nat) (key : Word) (s : State) : State :=
  conclude s (noResult (deltaWrite c s.b s.a n key s))

/-- The body of a delta read with a key (rules R212, R214, R216, R218). -/
def deltaReadField (c : CtxNum) (w : Int) (key : Word) (s : State) : State :=
  conclude s (deltaRead c s.b w key s)

end Sys2Proof.Machine
end

