-- ==== Sys2Proof/Machine/Bits.lean ====
section
/-! DEFINITION. The bit primitives `WRITE_BITS` and `READ_BITS` (rules R122, R125). -/

namespace Sys2Proof.Machine

/-- `WRITE_BITS` (rule R122). -/
def execWriteBits (c : CtxNum) (w7 : BitVec 7) (s : State) : Host.Outcome State Fault Refusal :=
  .next (prologue false [c] s
    (guardArg (widthOk (ctxOf s c).oob (widthOf w7)) (writeField c (magnitude (widthOf w7)))))

/-- `READ_BITS` (rule R125). -/
def execReadBits (c : CtxNum) (w7 : BitVec 7) (s : State) : Host.Outcome State Fault Refusal :=
  .next (prologue false [c] s
    (guardArg (widthOk (ctxOf s c).oob (widthOf w7)) fun s => conclude s (readBitsCore c (widthOf w7) s)))

end Sys2Proof.Machine
end

