-- ==== Sys2Proof/Machine/Delta.lean ====
section
/-! DEFINITION. The delta and keyed-delta commands (rules R210 to R218). -/

namespace Sys2Proof.Machine

/-- `WRITE_DELTA` (rule R211). -/
def execWriteDelta (c : CtxNum) (w7 : BitVec 7) (s : State) : Host.Outcome State Fault Refusal :=
  .next (prologue false [c] s
    (guardArg (deltaOk (ctxOf s c).oob (widthOf w7)) (deltaWriteField c (magnitude (widthOf w7)) 0)))

/-- `READ_DELTA` (rule R212). -/
def execReadDelta (c : CtxNum) (w7 : BitVec 7) (s : State) : Host.Outcome State Fault Refusal :=
  .next (prologue false [c] s
    (guardArg (deltaOk (ctxOf s c).oob (widthOf w7)) (deltaReadField c (widthOf w7) 0)))

/-- `WRITE_DELTA_FLOAT` (rule R213). -/
def execWriteDeltaFloat (c : CtxNum) (s : State) : Host.Outcome State Fault Refusal :=
  .next (prologue false [c] s (guardArg (!(ctxOf s c).oob) (deltaWriteField c 32 0)))

/-- `READ_DELTA_FLOAT` (rule R214). -/
def execReadDeltaFloat (c : CtxNum) (s : State) : Host.Outcome State Fault Refusal :=
  .next (prologue false [c] s (guardArg (!(ctxOf s c).oob) (deltaReadField c 32 0)))

/-- `WRITE_DELTA_KEY` (rule R215). -/
def execWriteDeltaKey (c : CtxNum) (w7 : BitVec 7) (s : State) : Host.Outcome State Fault Refusal :=
  .next (prologue false [c] s
    (guardArg (deltaOk (ctxOf s c).oob (widthOf w7)) (deltaWriteField c (magnitude (widthOf w7)) s.k)))

/-- `READ_DELTA_KEY` (rule R216). -/
def execReadDeltaKey (c : CtxNum) (w7 : BitVec 7) (s : State) : Host.Outcome State Fault Refusal :=
  .next (prologue false [c] s
    (guardArg (deltaOk (ctxOf s c).oob (widthOf w7)) (deltaReadField c (widthOf w7) s.k)))

/-- `WRITE_DELTA_KEY_FLOAT` (rule R217). -/
def execWriteDeltaKeyFloat (c : CtxNum) (s : State) : Host.Outcome State Fault Refusal :=
  .next (prologue false [c] s (guardArg (!(ctxOf s c).oob) (deltaWriteField c 32 s.k)))

/-- `READ_DELTA_KEY_FLOAT` (rule R218). -/
def execReadDeltaKeyFloat (c : CtxNum) (s : State) : Host.Outcome State Fault Refusal :=
  .next (prologue false [c] s (guardArg (!(ctxOf s c).oob) (deltaReadField c 32 s.k)))

end Sys2Proof.Machine
end

