-- ==== Sys2Proof/Machine/HostAccess.lean ====
section
/-! DEFINITION. Host access to registers and buffer memory: `REG_READ`, `REG_WRITE`, `BUF_READ`, `BUF_WRITE` (rules R43, R250 to
R253). -/

namespace Sys2Proof.Machine

/-- A register whose value is unspecified in the faulted state: then a fresh free value (rules R250, R266). -/
def regValue (v : Word) (s : State) : State :=
  if s.fault then respond .ok (Config.freeWord s.freeCount) { s with freeCount := s.freeCount + 1 }
  else respond .ok v s

/-- `GSTATUS` (rules R43, R250); in the faulted state `MODEL_READY` is unspecified, `FAULT` and `FCAUSE` are not. -/
def regStatus (s : State) : State :=
  if s.fault then
    respond .ok (gstatusImage (Config.freeBit s.freeCount) s.fault s.fcause) { s with freeCount := s.freeCount + 1 }
  else respond .ok (gstatusImage s.modelReady s.fault s.fcause) s

/-- `REG_READ` (rule R250): register number `A`; the one command that executes in the faulted state. -/
def execRegRead (c : CtxNum) (s : State) : Host.Outcome State Fault Refusal :=
  .next (prologue true [c] s fun s =>
    match s.a with
    | 0#32 => regValue (ctxOf s c).maxsize s
    | 1#32 => regValue (ctxOf s c).cursize s
    | 2#32 => regValue (ctxOf s c).readcount s
    | 3#32 => regValue (ctxOf s c).bit s
    | 4#32 => regValue (flagsImage (ctxOf s c)) s
    | 8#32 => regStatus s
    | 9#32 => respond .ok (BitVec.ofNat 32 s.params.bufBytes) s
    | 10#32 => respond .ok (BitVec.ofNat 32 s.params.nctx) s
    | _ => respond .invalidArg 0 s)

/-- `REG_WRITE` (rule R251): register number `A`, value `B`. Only `CURSIZE` and `ALLOWOVERFLOW` can be written. -/
def execRegWrite (c : CtxNum) (s : State) : Host.Outcome State Fault Refusal :=
  .next (prologue false [c] s fun s =>
    match s.a with
    | 1#32 => guardArg (decide (s.b ≤ (ctxOf s c).maxsize))
        (fun s => respond .ok 0 (setCtx c { ctxOf s c with cursize := s.b } s)) s
    | 4#32 => respond .ok 0 (setCtx c { ctxOf s c with allowOverflow := s.b.getLsbD 2 } s)
    | _ => respond .invalidArg 0 s)

/-- `BUF_READ` (rule R252): byte index `A`. -/
def execBufRead (c : CtxNum) (s : State) : Host.Outcome State Fault Refusal :=
  .next (prologue false [c] s (guardArg (decide (s.a < (ctxOf s c).maxsize)) fun s =>
    respond .ok ((bufGet (ctxOf s c).buf s.a.toNat).setWidth 32) s))

/-- `BUF_WRITE` (rule R253): byte index `A`, byte `B[7:0]`. -/
def execBufWrite (c : CtxNum) (s : State) : Host.Outcome State Fault Refusal :=
  .next (prologue false [c] s (guardArg (decide (s.a < (ctxOf s c).maxsize)) fun s =>
    respond .ok 0 (setCtx c { ctxOf s c with buf := bufSet (ctxOf s c).buf s.a.toNat (s.b.setWidth 8) } s)))

end Sys2Proof.Machine
end

