-- ==== Sys2Proof/Machine/Lifecycle.lean ====
section
/-! DEFINITION. The buffer lifecycle commands `INIT`, `INIT_OOB`, `CLEAR`, `BEGIN_READ`, `BEGIN_READ_OOB`, `COPY` (rules R101 to
R106). -/

namespace Sys2Proof.Machine

/-- The common body of `INIT` and `INIT_OOB` (rules R101, R102): they differ in the mode chosen. -/
def initBody (c : CtxNum) (oob : Bool) (s : State) : State :=
  guardArg (decide (s.a.toNat ≤ s.params.bufBytes))
    (fun s => conclude s (noResult (do
      let t ← ensureModel s
      .ok (setCtx c { ctxOf t c with maxsize := s.a, cursize := 0, readcount := 0, bit := 0, oob := oob,
                                     overflowed := false, allowOverflow := false } t)))) s

/-- `INIT` (rule R101). -/
def execInit (c : CtxNum) (s : State) : Host.Outcome State Fault Refusal :=
  .next (prologue false [c] s (initBody c false))

/-- `INIT_OOB` (rule R102). -/
def execInitOob (c : CtxNum) (s : State) : Host.Outcome State Fault Refusal :=
  .next (prologue false [c] s (initBody c true))

/-- `CLEAR` (rule R103). -/
def execClear (c : CtxNum) (s : State) : Host.Outcome State Fault Refusal :=
  .next (prologue false [c] s fun s =>
    respond .ok 0 (setCtx c { ctxOf s c with cursize := 0, bit := 0, overflowed := false } s))

/-- The common body of `BEGIN_READ` and `BEGIN_READ_OOB` (rules R104, R105). -/
def beginReadBody (c : CtxNum) (oob : Bool) (s : State) : State :=
  respond .ok 0 (setCtx c { ctxOf s c with readcount := 0, bit := 0, oob := oob } s)

/-- `BEGIN_READ` (rule R104). -/
def execBeginRead (c : CtxNum) (s : State) : Host.Outcome State Fault Refusal :=
  .next (prologue false [c] s (beginReadBody c false))

/-- `BEGIN_READ_OOB` (rule R105). -/
def execBeginReadOob (c : CtxNum) (s : State) : Host.Outcome State Fault Refusal :=
  .next (prologue false [c] s (beginReadBody c true))

/-- What `COPY` leaves in the destination `D` (rule R106): the source's registers and flags, the capacity given, the source's
first `CURSIZE` bytes over the destination's own. -/
def copied (D S : Context) (capacity : Word) (bytes : List Byte) : Context :=
  { S with maxsize := capacity, buf := bufSetMany D.buf 0 bytes }

/-- `COPY` (rule R106): destination `CTX`, source `SRC`, destination capacity `A`. All source bytes are read before any byte
is written. -/
def execCopy (c src : CtxNum) (s : State) : Host.Outcome State Fault Refusal :=
  .next (prologue false [c, src] s (guardArg (decide (s.a.toNat ≤ s.params.bufBytes)) fun s =>
    if s.a < (ctxOf s src).cursize then respond .copyTooSmall 0 s
    else
      let got := memReadMany src 0 (ctxOf s src).cursize.toNat s
      respond .ok 0 (setCtx c (copied (ctxOf s c) (ctxOf s src) s.a got.1) got.2)))

end Sys2Proof.Machine
end

