-- ==== Sys2Proof/Machine/Typed.lean ====
section
/-! DEFINITION. The typed writes, the typed reads and `LOOKAHEAD_BYTE` (rules R140 to R152). -/

namespace Sys2Proof.Machine

/-- `WRITE_CHAR` (rule R141): 8 bits. -/
def execWriteChar (c : CtxNum) (s : State) : Host.Outcome State Fault Refusal :=
  .next (prologue false [c] s (writeField c 8))

/-- `WRITE_BYTE` (rule R142): 8 bits. -/
def execWriteByte (c : CtxNum) (s : State) : Host.Outcome State Fault Refusal :=
  .next (prologue false [c] s (writeField c 8))

/-- `WRITE_SHORT` (rule R143): 16 bits. -/
def execWriteShort (c : CtxNum) (s : State) : Host.Outcome State Fault Refusal :=
  .next (prologue false [c] s (writeField c 16))

/-- `WRITE_LONG` (rule R144): 32 bits. -/
def execWriteLong (c : CtxNum) (s : State) : Host.Outcome State Fault Refusal :=
  .next (prologue false [c] s (writeField c 32))

/-- `WRITE_FLOAT` (rule R145): the 32-bit pattern. -/
def execWriteFloat (c : CtxNum) (s : State) : Host.Outcome State Fault Refusal :=
  .next (prologue false [c] s (writeField c 32))

/-- `READ_CHAR` (rule R147): 8 bits, signed. -/
def execReadChar (c : CtxNum) (s : State) : Host.Outcome State Fault Refusal :=
  .next (prologue false [c] s (typedReadField c (-8) sentinelInt))

/-- `READ_BYTE` (rule R148): 8 bits, unsigned. -/
def execReadByte (c : CtxNum) (s : State) : Host.Outcome State Fault Refusal :=
  .next (prologue false [c] s (typedReadField c 8 sentinelInt))

/-- `READ_SHORT` (rule R149): 16 bits, signed. -/
def execReadShort (c : CtxNum) (s : State) : Host.Outcome State Fault Refusal :=
  .next (prologue false [c] s (typedReadField c (-16) sentinelInt))

/-- `READ_LONG` (rule R150): 32 bits. -/
def execReadLong (c : CtxNum) (s : State) : Host.Outcome State Fault Refusal :=
  .next (prologue false [c] s (typedReadField c 32 sentinelInt))

/-- `READ_FLOAT` (rule R151): the 32-bit pattern, with the float sentinel. -/
def execReadFloat (c : CtxNum) (s : State) : Host.Outcome State Fault Refusal :=
  .next (prologue false [c] s (typedReadField c 32 sentinelFloat))

/-- `(C.READCOUNT, C.BIT, DEC) <- ` what they were in `s` (rule R152). -/
def restoreReader (c : CtxNum) (s t : State) : State :=
  setCtx c { ctxOf t c with readcount := (ctxOf s c).readcount, bit := (ctxOf s c).bit } { t with dec := s.dec }

/-- `LOOKAHEAD_BYTE` (rule R152): a byte read whose cursors and decoder model are put back. -/
def execLookaheadByte (c : CtxNum) (s : State) : Host.Outcome State Fault Refusal :=
  .next (prologue false [c] s fun s => conclude s (do
    let s ← ensureModel s
    let got ← typedRead c 8 sentinelInt s
    .ok (got.1, restoreReader c s got.2)))

end Sys2Proof.Machine
end

