-- ==== Sys2Proof/Machine/WholeBuffer.lean ====
section
/-! DEFINITION. `MODEL_INIT`, `COMPRESS`, `DECOMPRESS` (rules R186, R190 to R192). -/

namespace Sys2Proof.Machine

/-- `MODEL_INIT` (rule R186). -/
def execModelInit (c : CtxNum) (s : State) : Host.Outcome State Fault Refusal :=
  .next (prologue false [c] s fun s => conclude s (noResult (ensureModel s)))

/-- The two header bytes of a compressed buffer: `size[15:8]`, `size[7:0]` (rule R192). -/
def sizeHeader (size : Nat) : List Byte := [BitVec.ofNat 8 (size / 256), BitVec.ofNat 8 size]

/-- The compressed form of a byte sequence (rules R190, R192): the header, then from bit 16 the codes a scratch model
`Seeded(FREQ)` gives. -/
def compressedForm (p : Params) (src : List Byte) : Except FaultCause (List Byte) := do
  let M ← seeded p
  let bits ← encodeStream M src
  .ok (sizeHeader src.length ++ packBits bits)

/-- The last steps of `COMPRESS` (rule R190): the fault `WRITE_RANGE` if the result does not fit below `MAXSIZE`, else the
result over the source and `CURSIZE <- A + n`. -/
def storeCompressed (c : CtxNum) (start : Word) (out : List Byte) (s : State) : Except FaultCause State :=
  if (ctxOf s c).maxsize.toNat < start.toNat + out.length then .error .writeRange
  else .ok (setCtx c { ctxOf s c with buf := bufSetMany (ctxOf s c).buf start.toNat out,
                                      cursize := start + BitVec.ofNat 32 out.length } s)

/-- `COMPRESS` (rule R190): start offset `A`. -/
def execCompress (c : CtxNum) (s : State) : Host.Outcome State Fault Refusal :=
  .next (prologue false [c] s fun s =>
    if (ctxOf s c).cursize ≤ s.a then respond .ok 0 s
    else
      let size := ((ctxOf s c).cursize - s.a).toNat
      guardArg (decide (size ≤ Config.compressLimit)) (fun s => conclude s (noResult (do
        let src := memReadMany c s.a.toNat size s
        let out ← compressedForm s.params src.1
        storeCompressed c s.a out src.2))) s)

/-- Byte `k` of the temporary stream of `DECOMPRESS` (rule R191): `MemRead(C, start + k)` taken once, before any write. At or
beyond `MAXSIZE` it is a free value of its own for each byte. -/
def streamByte (C : Context) (start draw k : Nat) : Byte :=
  if start + k < C.maxsize.toNat then bufGet C.buf (start + k)
  else Config.freeByte (draw + (start + k - C.maxsize.toNat))

/-- `GetBit` on that stream; its state is `T.BIT` (rules R173, R191). -/
def streamBit (C : Context) (start draw : Nat) (bit : Nat) : Bool × Nat :=
  ((streamByte C start draw (bit / 8)).getLsbD (bit % 8), bit + 1)

/-- The count `DECOMPRESS` decodes (rule R191): the header's, never more than fits below `MAXSIZE`. -/
def clampCount (header : List Byte) (room : Nat) : Nat :=
  min (header.foldl (fun n b => n * 256 + b.toNat) 0) room

/-- The state after drawing `count` free values. -/
def drawn (count : Nat) (s : State) : State := { s with freeCount := s.freeCount + count }

/-- `DECOMPRESS` (rule R191): start offset `A`. -/
def execDecompress (c : CtxNum) (s : State) : Host.Outcome State Fault Refusal :=
  .next (prologue false [c] s fun s =>
    if (ctxOf s c).cursize ≤ s.a then respond .ok 0 s
    else conclude s (noResult (do
      let header := memReadMany c s.a.toNat 2 s
      let t := header.2
      let count := clampCount header.1 ((ctxOf s c).maxsize.toNat - s.a.toNat)
      let M ← seeded s.params
      let out ← decodeStream (streamBit (ctxOf t c) s.a.toNat t.freeCount) count M 16
      .ok (setCtx c { ctxOf t c with buf := bufSetMany (ctxOf t c).buf s.a.toNat out.1,
                                     cursize := s.a + BitVec.ofNat 32 count } (drawn (ceil8 out.2) t)))))

end Sys2Proof.Machine
end

