-- ==== Sys2Proof/Machine/Dispatch.lean ====
section
/-! DEFINITION. The meaning of every command, one arm per constructor of `Instr`. -/

namespace Sys2Proof.Machine

/-- The meaning of a command whose operand registers are loaded. -/
def exec (i : Instr) (s : State) : Host.Outcome State Fault Refusal :=
  match i with
  | .init c => Sys2Proof.Machine.execInit c s
  | .initOob c => Sys2Proof.Machine.execInitOob c s
  | .clear c => Sys2Proof.Machine.execClear c s
  | .beginRead c => Sys2Proof.Machine.execBeginRead c s
  | .beginReadOob c => Sys2Proof.Machine.execBeginReadOob c s
  | .copy c src => Sys2Proof.Machine.execCopy c src s
  | .modelInit c => Sys2Proof.Machine.execModelInit c s
  | .writeBits c w7 => Sys2Proof.Machine.execWriteBits c w7 s
  | .readBits c w7 => Sys2Proof.Machine.execReadBits c w7 s
  | .writeChar c => Sys2Proof.Machine.execWriteChar c s
  | .writeByte c => Sys2Proof.Machine.execWriteByte c s
  | .writeShort c => Sys2Proof.Machine.execWriteShort c s
  | .writeLong c => Sys2Proof.Machine.execWriteLong c s
  | .writeFloat c => Sys2Proof.Machine.execWriteFloat c s
  | .readChar c => Sys2Proof.Machine.execReadChar c s
  | .readByte c => Sys2Proof.Machine.execReadByte c s
  | .readShort c => Sys2Proof.Machine.execReadShort c s
  | .readLong c => Sys2Proof.Machine.execReadLong c s
  | .readFloat c => Sys2Proof.Machine.execReadFloat c s
  | .lookaheadByte c => Sys2Proof.Machine.execLookaheadByte c s
  | .writeDelta c w7 => Sys2Proof.Machine.execWriteDelta c w7 s
  | .readDelta c w7 => Sys2Proof.Machine.execReadDelta c w7 s
  | .writeDeltaFloat c => Sys2Proof.Machine.execWriteDeltaFloat c s
  | .readDeltaFloat c => Sys2Proof.Machine.execReadDeltaFloat c s
  | .writeDeltaKey c w7 => Sys2Proof.Machine.execWriteDeltaKey c w7 s
  | .readDeltaKey c w7 => Sys2Proof.Machine.execReadDeltaKey c w7 s
  | .writeDeltaKeyFloat c => Sys2Proof.Machine.execWriteDeltaKeyFloat c s
  | .readDeltaKeyFloat c => Sys2Proof.Machine.execReadDeltaKeyFloat c s
  | .compress c => Sys2Proof.Machine.execCompress c s
  | .decompress c => Sys2Proof.Machine.execDecompress c s
  | .regRead c => Sys2Proof.Machine.execRegRead c s
  | .regWrite c => Sys2Proof.Machine.execRegWrite c s
  | .bufRead c => Sys2Proof.Machine.execBufRead c s
  | .bufWrite c => Sys2Proof.Machine.execBufWrite c s

end Sys2Proof.Machine
end

