-- ==== Sys2Proof/Machine/Step.lean ====
section
/-! DEFINITION. One step: the engine takes the first event the host has issued, a transaction of the command port or the reset
input, and carries it out whole (rules R20, R21, R22, R290). -/

namespace Sys2Proof.Machine

/-- The engine executes a transaction whose operands are loaded: decode, then the command; a word of no row is answered
(rules R85, R86, R263). -/
def execWord (cw : Word) (s : State) : Host.Outcome State Fault Refusal :=
  match decode cw with
  | some i => exec i s
  | none => .next (rejectWord cw s)

/-- One step of the block. With nothing issued it stays as it is: nothing acts but the engine and the host (rule R20). -/
def step (s : State) : Host.Outcome State Fault Refusal :=
  match s.pending with
  | [] => .next s
  | .reset :: rest => .next (hardReset rest s)
  | .command t :: rest => execWord t.cw (loadPort t rest s)

/-- The state with one more transaction at the head of what is issued: the word, with the operand registers as they are
(log entry 3). Bits from `nbits` up are 0. -/
def State.withFetchWord (s : State) (nbits w : Nat) : State :=
  { s with pending := .command { cw := BitVec.ofNat 32 (w % 2 ^ nbits), a := s.a, b := s.b, k := s.k } :: s.pending }

end Sys2Proof.Machine
end

