-- ==== Sys2Proof/Machine/Pseudo.lean ====
section
/-! DEFINITION. The pseudo-operations: what the host computes and the commands it issues (rules R230 to R242). They are no
commands of the block; each is a function over steps of it. -/

namespace Sys2Proof.Machine

/-- The parameters of the string pseudo-operations (rule R17; P4, P5): all open but `PCT_FILTER_STRING`, which is true. -/
structure HostParams where
  stringMax    : Nat
  bigstringMax : Nat
  pctBigstring : Bool
  pctLine      : Bool
  pctWrite     : Bool
  deriving DecidableEq, Repr

/-- The constraints on them (P4). -/
abbrev HostParams.Ok (h : HostParams) : Prop := 1 ≤ h.stringMax ∧ h.stringMax < h.bigstringMax

/-- `PCT_FILTER_STRING` (rule R17). -/
def pctString : Bool := true

/-! ## Issuing a command -/

/-- The transaction of a command with given operands (rules R22, R88). -/
def transaction (i : Instr) (a b k : Word) : PortEvent := .command { cw := encode i, a := a, b := b, k := k }

/-- The block after the host has issued one more command and the engine has executed it (rule R22). -/
def issue (i : Instr) (a b k : Word) (s : State) : State :=
  match step { s with pending := transaction i a b k :: s.pending } with
  | .next t => t
  | _ => s

/-- The same with only `A` loaded. -/
def issueA (i : Instr) (a : Word) (s : State) : State := issue i a s.b s.k s

/-- The same with no operand. -/
def issueN (i : Instr) (s : State) : State := issue i s.a s.b s.k s

/-! ## `data[n]` -/

/-- `WRITE_DATA` (rule R231): one `WRITE_BYTE` per byte, in order; a response other than `OK` ends it (rule R230). -/
def writeData (c : CtxNum) : List Byte → State → State
  | [], s => s
  | d :: ds, s =>
    let t := issueA (.writeByte c) (d.setWidth 32) s
    if t.rc = .ok then writeData c ds t else t

/-- `READ_DATA` (rule R232): `R[7:0]` of `n` `READ_BYTE`s; a response other than `OK` ends it (rule R230). The result is then the
bytes read so far, on which the spec is silent: DESIGN CHOICE, unsafe (log entry 14). -/
def readData (c : CtxNum) : Nat → State → List Byte × State
  | 0, s => ([], s)
  | n + 1, s =>
    let t := issueN (.readByte c) s
    if t.rc = .ok then
      let rest := readData c n t
      (t.r.setWidth 8 :: rest.1, rest.2)
    else ([], t)

/-! ## Angles -/

/-- `trunc`: toward zero (rule R233). -/
def truncate (f : ℚ) : ℤ := f.num.tdiv f.den

/-- `trunc(f × steps / 360)`, the quantum of an angle in degrees, exact (rules R233, R236; log entry 12). -/
def angleQuantum (steps : ℕ) (f : ℚ) : ℤ := truncate (f * steps / 360)

/-- `WRITE_ANGLE` (rule R233). -/
def writeAngle (c : CtxNum) (f : ℚ) (s : State) : State :=
  issueA (.writeByte c) ((BitVec.ofInt 8 (angleQuantum 256 f)).setWidth 32) s

/-- `READ_ANGLE` (rule R234); no result when the command is not answered `OK`: DESIGN CHOICE (log entry 14). -/
def readAngle (c : CtxNum) (s : State) : Option ℚ × State :=
  let t := issueN (.readByte c) s
  (if t.rc = .ok then some ((t.r.setWidth 8).toNat * 360 / 256) else none, t)

/-- `WRITE_ANGLE16` (rule R236). -/
def writeAngle16 (c : CtxNum) (f : ℚ) (s : State) : State :=
  issueA (.writeShort c) ((BitVec.ofInt 16 (angleQuantum 65536 f)).setWidth 32) s

/-- `READ_ANGLE16` (rule R235): the unsigned 16 bits; no result when the command is not answered `OK`: DESIGN CHOICE (log
entry 14). -/
def readAngle16 (c : CtxNum) (s : State) : Option ℚ × State :=
  let t := issueN (.readShort c) s
  (if t.rc = .ok then some ((t.r.setWidth 16).toNat * 360 / 65536) else none, t)

/-! ## Strings -/

/-- `san_hi` (rule R242): `'.'` for a byte with the high bit set. -/
def sanHi (b : Byte) : Byte := if 0x80#8 ≤ b then 0x2E else b

/-- `san_pct` (rule R242): `'.'` for `'%'`. -/
def sanPct (b : Byte) : Byte := if b = 0x25 then 0x2E else b

/-- Both filters, the second under its boolean (rule R242). -/
def sanitize (pct : Bool) (b : Byte) : Byte := if pct then sanPct (sanHi b) else sanHi b

/-- The bytes `WRITE_STRING` sends (rule R237): the filtered bytes and the terminator, or the terminator alone for an absent,
empty or too long string. -/
def stringBytes (bound : Nat) (pct : Bool) (str : Option (List Byte)) : List Byte :=
  match str with
  | none => [0]
  | some bytes => if bytes.length = 0 ∨ bound ≤ bytes.length then [0] else bytes.map (sanitize pct) ++ [0]

/-- `WRITE_STRING` (rule R237). -/
def writeString (h : HostParams) (c : CtxNum) (str : Option (List Byte)) (s : State) : State :=
  writeData c (stringBytes h.stringMax h.pctWrite str) s

/-- `WRITE_BIGSTRING` (rule R239). -/
def writeBigstring (h : HostParams) (c : CtxNum) (str : Option (List Byte)) (s : State) : State :=
  writeData c (stringBytes h.bigstringMax h.pctWrite str) s

/-- More `READ_BYTE`s than any message gives before its cursors pass `CURSIZE`: the bound of the readers' loop. -/
def readsAtMost : Nat := 2 ^ 36

/-- The readers' loop (rules R238, R241): stop at the sentinel, the terminator, a line feed if `line`, one short of the
bound, or a response other than `OK` (rule R230). After such a response the result is the bytes read so far, on which the spec
is silent: DESIGN CHOICE, unsafe (log entry 14). -/
def readChars (c : CtxNum) (bound : Nat) (pct line : Bool) : Nat → List Byte → State → List Byte × State
  | 0, out, s => (out, s)
  | fuel + 1, out, s =>
    let t := issueN (.readByte c) s
    if t.rc ≠ .ok ∨ t.r = sentinelInt ∨ t.r = 0 ∨ (line = true ∧ t.r = 0x0A) then (out, t)
    else
      let out := out ++ [sanitize pct (t.r.setWidth 8)]
      if out.length = bound - 1 then (out, t) else readChars c bound pct line fuel out t

/-- `READ_STRING` (rule R238). -/
def readString (h : HostParams) (c : CtxNum) (s : State) : List Byte × State :=
  readChars c h.stringMax pctString false readsAtMost [] s

/-- `READ_BIGSTRING` (rule R240). -/
def readBigstring (h : HostParams) (c : CtxNum) (s : State) : List Byte × State :=
  readChars c h.bigstringMax h.pctBigstring false readsAtMost [] s

/-- `READ_STRINGLINE` (rule R241). -/
def readStringline (h : HostParams) (c : CtxNum) (s : State) : List Byte × State :=
  readChars c h.stringMax h.pctLine true readsAtMost [] s

end Sys2Proof.Machine
end

