-- ==== Sys2Proof/Safety.lean ====
section
/-! DEFINITION. The terms claims use: which states accept a command, what a command leaves alone, the invariants of the state,
the models a run can hold and what rule R175 says of them, the bits of a buffer and of a field. -/

namespace Sys2Proof.Machine

/-! ## Accepting a command, leaving state alone -/

/-- The first two checks of rule R100 let a command on these contexts pass: no fault, every context exists. -/
abbrev State.accepts (s : State) (cs : List CtxNum) : Prop := s.fault = false ∧ ∀ c ∈ cs, c.toNat < s.params.nctx

/-- What no command of the block writes: the operand registers (rule R23), the parameters (rule R45), what the host has
issued. -/
abbrev samePort (s t : State) : Prop :=
  t.params = s.params ∧ t.pending = s.pending ∧ t.a = s.a ∧ t.b = s.b ∧ t.k = s.k

/-- The fault registers are as before (rule R37). -/
abbrev sameFault (s t : State) : Prop := t.fault = s.fault ∧ t.fcause = s.fcause

/-- The model pair and `MODEL_READY` are as before (rules R37, R38). -/
abbrev sameModels (s t : State) : Prop := t.modelReady = s.modelReady ∧ t.enc = s.enc ∧ t.dec = s.dec

/-- Every context but `c` is as before. -/
abbrev othersSame (c : CtxNum) (s t : State) : Prop := ∀ d, d ≠ c → ctxOf t d = ctxOf s d

/-- Every byte of a buffer reads as before. -/
abbrev bytesSame (C D : Context) : Prop := ∀ i, bufGet D.buf i = bufGet C.buf i

/-- The three flags of a context are as before. -/
abbrev flagsSame (C D : Context) : Prop :=
  D.oob = C.oob ∧ D.overflowed = C.overflowed ∧ D.allowOverflow = C.allowOverflow

/-- Nothing but `R`, `RC` differs (rules R86, R100, R269). -/
abbrev onlyResponse (s t : State) : Prop := t = { s with r := t.r, rc := t.rc }

/-! ## The invariants of the state -/

/-- A buffer lists only bytes of the buffer memory (rule R50). -/
abbrev bufWithin (p : Params) (C : Context) : Prop := ∀ cell ∈ C.buf, cell.1 < p.bufBytes

/-- Every buffer is in canonical form, in the faulted state too. -/
abbrev State.buffersWf (s : State) : Prop := ∀ c : CtxNum, Memory.wf (ctxOf s c).buf = true

/-- `MAXSIZE ≤ BUF_BYTES` (rule R27) and no byte listed beyond the buffer memory, outside the faulted state. -/
abbrev State.capacitiesOk (s : State) : Prop :=
  s.fault = false → ∀ c : CtxNum, (ctxOf s c).maxsize.toNat ≤ s.params.bufBytes ∧ bufWithin s.params (ctxOf s c)

/-- `FCAUSE` is 0 while `FAULT = 0` and the code of a fault otherwise (rule R37). -/
abbrev State.causeOk (s : State) : Prop :=
  (s.fault = false → s.fcause = 0) ∧ (s.fault = true → s.fcause = 4 ∨ s.fcause = 5)

/-- The invariant every step keeps. -/
abbrev State.Inv (s : State) : Prop := s.params.Ok ∧ s.buffersWf ∧ s.capacitiesOk ∧ s.causeOk

/-- `CURSIZE ≤ MAXSIZE` in every context, outside the faulted state (rule R36). -/
abbrev State.sizesOk (s : State) : Prop :=
  s.fault = false → ∀ c : CtxNum, (ctxOf s c).cursize ≤ (ctxOf s c).maxsize

/-! ## The models a run can hold -/

/-- `Update` for each byte in order. -/
def updates : Model → List Byte → Except FaultCause Model
  | M, [] => .ok M
  | M, s :: ss => do
    let M ← update M s
    updates M ss

/-- A model that `Empty()` and `Update` reach, as every model of a run is (rules R174, R175, R180). -/
def Model.Reached (M : Model) : Prop := ∃ bytes, updates emptyModel bytes = .ok M

/-- `ENC` and `DEC` are such models once they are seeded, outside the faulted state. -/
def State.modelsReached (s : State) : Prop :=
  s.fault = false → s.modelReady = true → s.enc.Reached ∧ s.dec.Reached

/-- The list from node `n` following `NEXT`, at most `fuel` nodes. -/
def listFrom (M : Model) : Nat → NodeId → List NodeId
  | 0, _ => []
  | fuel + 1, n =>
    n :: match (node M n).next with
      | none => []
      | some m => listFrom M fuel m

/-- The list from `LHEAD` (rule R175). -/
def listNodes (M : Model) : List NodeId := listFrom M Config.poolNodes M.lhead

/-- The nodes of the subtree of `n`, to a depth of `fuel`. -/
def treeFrom (M : Model) : Nat → NodeId → List NodeId
  | 0, _ => []
  | fuel + 1, n =>
    n :: ((match (node M n).left with
      | none => []
      | some m => treeFrom M fuel m) ++
      match (node M n).right with
      | none => []
      | some m => treeFrom M fuel m)

/-- The nodes of the tree under `ROOT` (rule R175). -/
def treeNodes (M : Model) : List NodeId := treeFrom M Config.poolNodes M.root

/-- The nodes in use, `0` to `NNODES − 1` (rule R39). -/
def usedNodes (M : Model) : List NodeId := (List.finRange 514).filter fun n => decide (n.val < M.nnodes)

/-- How many byte symbols have been introduced. -/
def introduced (M : Model) : Nat := ((List.range 256).filter fun s => (locOf M (BitVec.ofNat 8 s)).isSome).length

/-- Rule R175 (a): the list, the tree and the nodes in use are the same nodes, each once; `PREV` inverts `NEXT`. -/
abbrev Model.linksOk (M : Model) : Prop :=
  (listNodes M).Perm (usedNodes M) ∧ (treeNodes M).Perm (usedNodes M) ∧
    ∀ n ∈ usedNodes M, ∀ m ∈ usedNodes M, (node M n).next = some m ↔ (node M m).prev = some n

/-- Rule R175 (b): weights do not decrease along the list, so that equal weights are contiguous. -/
abbrev Model.sorted (M : Model) : Prop := (listNodes M).Pairwise fun n m => (node M n).weight ≤ (node M m).weight

/-- Rule R175 (c): the ends of the list. -/
abbrev Model.endsOk (M : Model) : Prop :=
  (node M M.lhead).symbol = .nyt ∧ (node M M.lhead).weight = 0 ∧ (node M M.lhead).left = none ∧
    (node M M.lhead).right = none ∧ (listNodes M).getLast? = some M.root

/-- Rule R175 (d) at one node: an internal node has two children, whose parent it is and whose weights it sums; a leaf has
none. -/
def Model.nodeOk (M : Model) (n : NodeId) : Bool :=
  match (node M n).symbol, (node M n).left, (node M n).right with
  | .internal, some l, some r =>
    decide ((node M l).parent = some n ∧ (node M r).parent = some n ∧
      (node M n).weight.toNat = (node M l).weight.toNat + (node M r).weight.toNat)
  | .byte _, none, none => true
  | .nyt, none, none => true
  | _, _, _ => false

/-- Rule R175 (d): every node in use is as above; `LOC[s]` is the one leaf of `s`. -/
abbrev Model.treeOk (M : Model) : Prop :=
  (∀ n ∈ usedNodes M, M.nodeOk n = true) ∧ (node M M.root).parent = none ∧ M.locNyt = some M.lhead ∧
    (∀ n ∈ usedNodes M, (node M n).symbol = .nyt → n = M.lhead) ∧
    ∀ s : Byte, ∀ n : NodeId, locOf M s = some n ↔ n ∈ usedNodes M ∧ (node M n).symbol = .byte s

/-- Rule R175 (e): a parent is later in the list than its child, and no lighter. -/
abbrev Model.parentsLater (M : Model) : Prop :=
  ∀ n ∈ usedNodes M, ∀ p ∈ usedNodes M, (node M n).parent = some p →
    (listNodes M).idxOf n < (listNodes M).idxOf p ∧ (node M n).weight ≤ (node M p).weight

/-- Nodes taken two at a time have the same parent, the last is alone. -/
def pairsOk (M : Model) : List NodeId → Bool
  | [] => false
  | [_] => true
  | n :: m :: rest => decide ((node M n).parent = (node M m).parent) && (node M n).parent.isSome && pairsOk M rest

/-- Rule R175 (f): the sibling property. -/
abbrev Model.siblingsOk (M : Model) : Prop := pairsOk M (listNodes M) = true

/-- Rule R175 (g): the nodes in use count the symbols introduced. -/
abbrev Model.countOk (M : Model) : Prop := M.nnodes = 1 + 2 * introduced M ∧ M.nnodes ≤ 513

/-- Where the path `bits` leads from node `n`, through internal nodes only (rules R171, R184). -/
def descend (M : Model) : NodeId → List Bool → Option NodeId
  | n, [] => some n
  | n, b :: bs =>
    if (node M n).symbol = .internal then
      match (if b then (node M n).right else (node M n).left) with
      | none => none
      | some m => descend M m bs
    else none

/-- The code of leaf `n` leads from the root to `n`. -/
abbrev Model.codeLeads (M : Model) (n : NodeId) : Prop := descend M M.root (code M n) = some n

/-- What coding asks of a model: the code of every symbol's leaf, and of the not-yet-seen leaf, leads to it. -/
def Model.codable (M : Model) : Prop :=
  (∀ s n, locOf M s = some n → (node M n).symbol = .byte s ∧ M.codeLeads n) ∧
    ∃ n, M.locNyt = some n ∧ (node M n).symbol = .nyt ∧ M.codeLeads n

/-- The same of the model before each byte of a sequence. -/
def codableAlong : Model → List Byte → Prop
  | _, [] => True
  | M, s :: ss => M.codable ∧ ∀ M', update M s = .ok M' → codableAlong M' ss

/-! ## Bits -/

/-- Bit `b` of a buffer: bit `b & 7` of byte `b >> 3` (rule R56). -/
def bitOf (m : Memory) (b : Nat) : Bool := (bufGet m (b / 8)).getLsbD (b % 8)

/-- The bits a field of `n` bits becomes in compressed mode (rules R57, R60): its residual bits, then the codes of its whole
bytes, each taken from the model as the bytes before have left it. -/
def fieldBits (M : Model) (v : Word) (n : Nat) : Except FaultCause (List Bool) := do
  let codes ← encodeStream M (wholeBytes v n)
  .ok (residualBits v n ++ codes)

/-- What putting `bits` at `BIT` does to a buffer, bit by bit (rules R56, R172): a bit put in the byte `BIT` was already
inside is OR-ed to the old one; the bits above the last one put, in a byte whose bit 0 was put, are 0; the others are as
before. -/
def bitAfterPut (C : Context) (bits : List Bool) (b : Nat) : Bool :=
  if C.bit.toNat ≤ b ∧ b < C.bit.toNat + bits.length then
    bits.getD (b - C.bit.toNat) false || (decide (b / 8 * 8 < C.bit.toNat) && bitOf C.buf b)
  else if C.bit.toNat ≤ b / 8 * 8 ∧ b / 8 * 8 < C.bit.toNat + bits.length then false
  else bitOf C.buf b

/-- The buffer holds `bits` from bit `start` on, all below `MAXSIZE`. -/
def holdsBits (C : Context) (start : Nat) (bits : List Bool) : Prop :=
  start + bits.length ≤ 8 * C.maxsize.toNat ∧ ∀ i, i < bits.length → bitOf C.buf (start + i) = bits.getD i false

/-- A source of bits gives `bits` from state `t`, and is then in state `t'`. -/
def gives {σ : Type} (get : σ → Bool × σ) : σ → List Bool → σ → Prop
  | t, [], t' => t = t'
  | t, b :: bs, t' => (get t).1 = b ∧ gives get (get t).2 bs t'

/-! ## Widths of the writing and reading commands -/

/-- The context and the number of bits of a write of `A` (rules R122, R141 to R145). -/
def writeForm : Instr → Option (CtxNum × Nat)
  | .writeBits c w7 => some (c, magnitude (widthOf w7))
  | .writeChar c => some (c, 8)
  | .writeByte c => some (c, 8)
  | .writeShort c => some (c, 16)
  | .writeLong c => some (c, 32)
  | .writeFloat c => some (c, 32)
  | _ => none

/-- The context, the signed width and the sentinel, if any, of a read (rules R125, R147 to R151). -/
def readForm : Instr → Option (CtxNum × Int × Option Word)
  | .readBits c w7 => some (c, widthOf w7, none)
  | .readChar c => some (c, -8, some 0xFFFFFFFF)
  | .readByte c => some (c, 8, some 0xFFFFFFFF)
  | .readShort c => some (c, -16, some 0xFFFFFFFF)
  | .readLong c => some (c, 32, some 0xFFFFFFFF)
  | .readFloat c => some (c, 32, some 0xBF800000)
  | _ => none

/-- The context, the number of bits and the key of a delta write (rules R211, R213, R215, R217). -/
def deltaWriteForm (s : State) : Instr → Option (CtxNum × Nat × Word)
  | .writeDelta c w7 => some (c, magnitude (widthOf w7), 0)
  | .writeDeltaFloat c => some (c, 32, 0)
  | .writeDeltaKey c w7 => some (c, magnitude (widthOf w7), s.k)
  | .writeDeltaKeyFloat c => some (c, 32, s.k)
  | _ => none

/-- The context, the signed width and the key of a delta read (rules R212, R214, R216, R218). -/
def deltaReadForm (s : State) : Instr → Option (CtxNum × Int × Word)
  | .readDelta c w7 => some (c, widthOf w7, 0)
  | .readDeltaFloat c => some (c, 32, 0)
  | .readDeltaKey c w7 => some (c, widthOf w7, s.k)
  | .readDeltaKeyFloat c => some (c, 32, s.k)
  | _ => none

/-- The context of a command that writes a field (rules R122, R141 to R145, R211 to R217). -/
def writingContext (s : State) (i : Instr) : Option CtxNum :=
  match writeForm i, deltaWriteForm s i with
  | some form, _ => some form.1
  | none, some form => some form.1
  | none, none => none

/-- The context of a command that reads a field (rules R125, R147 to R152, R212 to R218). -/
def readingContext (s : State) (i : Instr) : Option CtxNum :=
  match i, readForm i, deltaReadForm s i with
  | .lookaheadByte c, _, _ => some c
  | _, some form, _ => some form.1
  | _, none, some form => some form.1
  | _, none, none => none

/-- A width every write and read of compressed mode accepts (rules R82, R120). -/
abbrev legalWidth (n : Nat) : Prop := 1 ≤ n ∧ n ≤ 32

/-- A width raw mode accepts (rule R120). -/
abbrev rawWidth (n : Nat) : Prop := n = 8 ∨ n = 16 ∨ n = 32

/-! ## What a coding command leaves -/

/-- `ENC` as a compressed-mode command finds it, after `EnsureModel()` (rule R181). -/
def encBefore (s : State) : Except FaultCause Model := if s.modelReady then .ok s.enc else seeded s.params

/-- `DEC` as a compressed-mode command finds it, after `EnsureModel()` (rule R181). -/
def decBefore (s : State) : Except FaultCause Model := if s.modelReady then .ok s.dec else seeded s.params

/-- `R`, `RC` of a command that did what its rule says (rule R260). -/
abbrev answers (v : Word) (t : State) : Prop := t.rc = .ok ∧ t.r = v

/-- `t` is `s` with `bits` put at `BIT` of context `c` by a writing command: the cursors follow, `DEC` and every other
context are as before, bytes outside those the bits lie in are as before. -/
structure PutsBits (c : CtxNum) (bits : List Bool) (s t : State) : Prop where
  answer    : answers 0 t
  port      : samePort s t
  fault     : sameFault s t
  others    : othersSame c s t
  ready     : t.modelReady = true
  dec       : decBefore s = .ok t.dec
  maxsize   : (ctxOf t c).maxsize = (ctxOf s c).maxsize
  readcount : (ctxOf t c).readcount = (ctxOf s c).readcount
  oob       : (ctxOf t c).oob = (ctxOf s c).oob
  allow     : (ctxOf t c).allowOverflow = (ctxOf s c).allowOverflow
  bit       : (ctxOf t c).bit.toNat = (ctxOf s c).bit.toNat + bits.length
  cursize   : (ctxOf t c).cursize.toNat = ceil8 ((ctxOf s c).bit.toNat + bits.length)
  stored    : ∀ b, bitOf (ctxOf t c).buf b = bitAfterPut (ctxOf s c) bits b
  bytes     : ∀ a, a < (ctxOf s c).bit.toNat / 8 ∨ ceil8 ((ctxOf s c).bit.toNat + bits.length) ≤ a →
                bufGet (ctxOf t c).buf a = bufGet (ctxOf s c).buf a

/-- `t` is `s` after a reading command took the bits of context `c` up to bit `last`: the cursors follow, `ENC`, the message
and every other context are as before. -/
structure TakesBits (c : CtxNum) (last : Nat) (s t : State) : Prop where
  rc     : t.rc = .ok
  port   : samePort s t
  fault  : sameFault s t
  others : othersSame c s t
  ready  : t.modelReady = true
  enc    : encBefore s = .ok t.enc
  own    : ctxOf t c = { ctxOf s c with bit := BitVec.ofNat 32 last, readcount := BitVec.ofNat 32 (ceil8 last) }

/-- A context with room for a compressed-mode write: the sizes in order, at least `HEADROOM` bytes left, the buffer
canonical, no bit offset beyond 31 bits (rule R14). -/
abbrev roomy (C : Context) : Prop :=
  C.cursize ≤ C.maxsize ∧ 4 ≤ C.maxsize.toNat - C.cursize.toNat ∧ C.maxsize.toNat ≤ 2 ^ 28 ∧ Memory.wf C.buf = true

/-- A context right after `INIT` or `INIT_OOB`, with the capacity given (rules R101, R102). -/
abbrev freshContext (C : Context) : Prop := C.cursize = 0 ∧ C.readcount = 0 ∧ C.bit = 0 ∧ C.overflowed = false

/-- The word of a command of format N has this opcode and this context and 0 elsewhere (rules R80, R81, R84). -/
abbrev wordIsN (i : Instr) (opc : BitVec 8) (c : CtxNum) : Prop :=
  fieldOpc (encode i) = opc ∧ fieldCtx (encode i) = c ∧ fieldSrc (encode i) = 0 ∧ fieldReserved (encode i) = 0 ∧
    fieldW7 (encode i) = 0

/-! ## Invalid arguments -/

/-- The causes of `INVALID_ARG` as rule R262 tables them. -/
def invalidArgCause (s : State) : Instr → Prop
  | .init _ => s.params.bufBytes < s.a.toNat
  | .initOob _ => s.params.bufBytes < s.a.toNat
  | .copy _ _ => s.params.bufBytes < s.a.toNat
  | .writeBits c w7 => illegalWidth w7 ∨ ((ctxOf s c).oob = true ∧ ¬ rawWidth (widthOf w7).natAbs)
  | .readBits c w7 => illegalWidth w7 ∨ ((ctxOf s c).oob = true ∧ ¬ rawWidth (widthOf w7).natAbs)
  | .writeDelta c w7 => illegalWidth w7 ∨ (ctxOf s c).oob = true
  | .readDelta c w7 => illegalWidth w7 ∨ (ctxOf s c).oob = true
  | .writeDeltaKey c w7 => illegalWidth w7 ∨ (ctxOf s c).oob = true
  | .readDeltaKey c w7 => illegalWidth w7 ∨ (ctxOf s c).oob = true
  | .writeDeltaFloat c => (ctxOf s c).oob = true
  | .readDeltaFloat c => (ctxOf s c).oob = true
  | .writeDeltaKeyFloat c => (ctxOf s c).oob = true
  | .readDeltaKeyFloat c => (ctxOf s c).oob = true
  | .compress c => s.a < (ctxOf s c).cursize ∧ 65535 < (ctxOf s c).cursize.toNat - s.a.toNat
  | .regRead _ => s.a ∉ ([0, 1, 2, 3, 4, 8, 9, 10] : List Word)
  | .regWrite c => (s.a ≠ 1 ∧ s.a ≠ 4) ∨ (s.a = 1 ∧ (ctxOf s c).maxsize < s.b)
  | .bufRead c => (ctxOf s c).maxsize ≤ s.a
  | .bufWrite c => (ctxOf s c).maxsize ≤ s.a
  | .clear _ => False
  | .beginRead _ => False
  | .beginReadOob _ => False
  | .modelInit _ => False
  | .writeChar _ => False
  | .writeByte _ => False
  | .writeShort _ => False
  | .writeLong _ => False
  | .writeFloat _ => False
  | .readChar _ => False
  | .readByte _ => False
  | .readShort _ => False
  | .readLong _ => False
  | .readFloat _ => False
  | .lookaheadByte _ => False
  | .decompress _ => False
where
  /-- `|W| = 0` or `|W| > 32`, that is `W7` one of 0, 33 to 95. -/
  illegalWidth (w7 : BitVec 7) : Prop := w7.toNat = 0 ∨ (33 ≤ w7.toNat ∧ w7.toNat ≤ 95)

/-! ## Rows of the opcode table -/

/-- The opcode of a command (rule R84). -/
def opcodeOf : Instr → BitVec 8
  | .init _ => 0x01
  | .initOob _ => 0x02
  | .clear _ => 0x03
  | .beginRead _ => 0x04
  | .beginReadOob _ => 0x05
  | .copy _ _ => 0x06
  | .modelInit _ => 0x07
  | .writeBits _ _ => 0x10
  | .readBits _ _ => 0x11
  | .writeChar _ => 0x20
  | .writeByte _ => 0x21
  | .writeShort _ => 0x22
  | .writeLong _ => 0x23
  | .writeFloat _ => 0x24
  | .readChar _ => 0x28
  | .readByte _ => 0x29
  | .readShort _ => 0x2A
  | .readLong _ => 0x2B
  | .readFloat _ => 0x2C
  | .lookaheadByte _ => 0x2D
  | .writeDelta _ _ => 0x30
  | .readDelta _ _ => 0x31
  | .writeDeltaFloat _ => 0x32
  | .readDeltaFloat _ => 0x33
  | .writeDeltaKey _ _ => 0x34
  | .readDeltaKey _ _ => 0x35
  | .writeDeltaKeyFloat _ => 0x36
  | .readDeltaKeyFloat _ => 0x37
  | .compress _ => 0x40
  | .decompress _ => 0x41
  | .regRead _ => 0x50
  | .regWrite _ => 0x51
  | .bufRead _ => 0x52
  | .bufWrite _ => 0x53

/-- The mask of a command's format (rule R85). -/
def rowMask : Instr → Word
  | .init _ => 0xFF0FFFFF
  | .initOob _ => 0xFF0FFFFF
  | .clear _ => 0xFF0FFFFF
  | .beginRead _ => 0xFF0FFFFF
  | .beginReadOob _ => 0xFF0FFFFF
  | .copy _ _ => 0xFF00FFFF
  | .modelInit _ => 0xFF0FFFFF
  | .writeBits _ _ => 0xFF0FFF80
  | .readBits _ _ => 0xFF0FFF80
  | .writeChar _ => 0xFF0FFFFF
  | .writeByte _ => 0xFF0FFFFF
  | .writeShort _ => 0xFF0FFFFF
  | .writeLong _ => 0xFF0FFFFF
  | .writeFloat _ => 0xFF0FFFFF
  | .readChar _ => 0xFF0FFFFF
  | .readByte _ => 0xFF0FFFFF
  | .readShort _ => 0xFF0FFFFF
  | .readLong _ => 0xFF0FFFFF
  | .readFloat _ => 0xFF0FFFFF
  | .lookaheadByte _ => 0xFF0FFFFF
  | .writeDelta _ _ => 0xFF0FFF80
  | .readDelta _ _ => 0xFF0FFF80
  | .writeDeltaFloat _ => 0xFF0FFFFF
  | .readDeltaFloat _ => 0xFF0FFFFF
  | .writeDeltaKey _ _ => 0xFF0FFF80
  | .readDeltaKey _ _ => 0xFF0FFF80
  | .writeDeltaKeyFloat _ => 0xFF0FFFFF
  | .readDeltaKeyFloat _ => 0xFF0FFFFF
  | .compress _ => 0xFF0FFFFF
  | .decompress _ => 0xFF0FFFFF
  | .regRead _ => 0xFF0FFFFF
  | .regWrite _ => 0xFF0FFFFF
  | .bufRead _ => 0xFF0FFFFF
  | .bufWrite _ => 0xFF0FFFFF

/-- The `match` of a command's row, `OPC << 24` (rule R85). -/
def rowMatch (i : Instr) : Word := (opcodeOf i).setWidth 32 <<< 24

end Sys2Proof.Machine
end

