-- ==== Sys2Proof/Certificates/Slice0/Obligations.lean ====
section
/-! DEFINITION. The statements for the provers. Each docstring names the rule of spec/ a statement formalises, or the sections
it rests on. A state is any state, reachable or not, but for the premises written out. -/

open Sys2Proof Sys2Proof.Machine

/-! ## Encoding and decoding -/

/-- Decode and encode agree: every command, with every context number and every width field, is what its word decodes to
(`30_encoding.md`, sections 1 to 3). -/
def Obligations.DecodeInvertsEncode : Prop := ∀ i : Instr, decode (encode i) = some i

/-- A word that decodes to a command is the word of that command: no bit of a legal word is free (`30_encoding.md`, sections
1 and 4). -/
def Obligations.EncodeInvertsDecode : Prop := ∀ (w : Word) (i : Instr), decode w = some i → encode i = w

/-- Rule R85: a word selects the row whose `match` is `CW & mask`; a word of no row selects none; then `CTX`, and `SRC` in
format C, are compared with `NCTX`. -/
def Obligations.DecodeSelectsTableRow : Prop :=
  (∀ (w : Word) (i : Instr), decode w = some i →
    w &&& rowMask i = rowMatch i ∧
      (i.contexts = [fieldCtx w] ∨ (opcodeOf i = 0x06 ∧ i.contexts = [fieldCtx w, fieldSrc w]))) ∧
  (∀ (w : Word) (j : Instr), w &&& rowMask j = rowMatch j → ∃ i, decode w = some i ∧ opcodeOf i = opcodeOf j) ∧
  ∀ (w : Word) (i : Instr) (s : State), decode w = some i → s.fault = false → (∃ c ∈ i.contexts, s.params.nctx ≤ c.toNat) →
    execWord w s = .next { s with r := 0, rc := .illegalCmd }

/-- Rule R89, the worked encodings: the ten words, the words that are illegal, the legal words with an invalid width. -/
def Obligations.WorkedEncodings : Prop :=
  decode 0x01000000 = some (.init 0) ∧ decode 0x02100000 = some (.initOob 1) ∧
  decode 0x06100000 = some (.copy 1 0) ∧ decode 0x06010000 = some (.copy 0 1) ∧
  decode 0x1000000A = some (.writeBits 0 10) ∧ decode 0x1000007B = some (.writeBits 0 0x7B) ∧ widthOf 0x7B = -5 ∧
  decode 0x11100020 = some (.readBits 1 32) ∧ widthOf 32 = 32 ∧
  decode 0x11000060 = some (.readBits 0 0x60) ∧ widthOf 0x60 = -32 ∧
  decode 0x35000008 = some (.readDeltaKey 0 8) ∧ decode 0x52000000 = some (.bufRead 0) ∧
  decode 0x00000000 = none ∧ decode 0x10000100 = none ∧ decode 0x03000008 = none ∧ decode 0x01010000 = none ∧
  decode 0x03F00000 = some (.clear 15) ∧ (∀ n, n < 16 → (Instr.clear 15).wellFormed n = false) ∧
  decode 0x10000000 = some (.writeBits 0 0) ∧ decode 0x10000021 = some (.writeBits 0 33) ∧
  decode 0x10000040 = some (.writeBits 0 64) ∧ widthOf 0 = 0 ∧ widthOf 33 = 33 ∧ widthOf 64 = -64 ∧
  ∀ oob, widthOk oob 0 = false ∧ widthOk oob 33 = false ∧ widthOk oob (-64) = false

/-! ## Steps -/

/-- A step carries out the command the host issued first: its word decoded, its operands loaded, the issue consumed
(`10_state.md`, sections 1 and 2). Model's choice (log entry 3, DESIGN CHOICE): that what the host has issued stands in a queue
whose first entry a step takes, and the second clause, that a word placed by `withFetchWord` is that command. -/
def Obligations.StepRunsDecodedCommand : Prop :=
  (∀ (s : State) (t : Command) (rest : List PortEvent) (i : Instr), s.pending = .command t :: rest →
    decode t.cw = some i → step s = exec i { s with pending := rest, a := t.a, b := t.b, k := t.k }) ∧
  ∀ (s : State) (w : Nat) (i : Instr), w < 2 ^ 32 → decode (BitVec.ofNat 32 w) = some i →
    step (s.withFetchWord 32 w) = exec i s

/-- Rule R86: which command words are illegal, and that an illegal word changes nothing but `R` and `RC`; of the 256
opcodes 222 name no command, 0 among them. -/
def Obligations.IllegalWordsChangeOnlyTheResponse : Prop :=
  (∀ (s : State) (w : Word), s.fault = false →
    (∃ j : Instr, w &&& rowMask j = rowMatch j ∧ (fieldCtx w).toNat < s.params.nctx ∧
      (opcodeOf j = 0x06 → (fieldSrc w).toNat < s.params.nctx)) ∨
    execWord w s = .next { s with r := 0, rc := .illegalCmd }) ∧
  (∀ (s : State) (w : Word) (j : Instr), s.fault = false → w &&& rowMask j = rowMatch j →
    (fieldCtx w).toNat < s.params.nctx → (opcodeOf j = 0x06 → (fieldSrc w).toNat < s.params.nctx) →
    ∃ i t, opcodeOf i = opcodeOf j ∧ encode i = w ∧ execWord w s = exec i s ∧ exec i s = .next t ∧ t.rc ≠ .illegalCmd) ∧
  ((List.range 256).filter fun o => (decode (BitVec.ofNat 32 (o * 2 ^ 24))).isNone).length = 222 ∧
  (∀ w : Word, decode ((fieldOpc w).setWidth 32 <<< 24) = none → decode w = none) ∧ decode 0 = none

/-- The reset input gives every register and flag its reset value (`10_state.md`, section 9; `70_reset_and_hazards.md`, section
1). Model's choice: that commands issued after the reset still come (`t.pending = rest`; log entry 9, DEDUCED) and the first
clause, that a step with nothing issued changes nothing (log entry 3, DESIGN CHOICE). -/
def Obligations.ResetEventClearsEveryRegister : Prop :=
  (∀ s : State, s.pending = [] → step s = .next s) ∧
  ∀ (s : State) (rest : List PortEvent), s.pending = .reset :: rest →
    ∃ t, step s = .next t ∧ t.pending = rest ∧ t.params = s.params ∧ t.r = 0 ∧ t.rc = .ok ∧ t.modelReady = false ∧
      t.fault = false ∧ t.fcause = 0 ∧
      ∀ c : CtxNum, (ctxOf t c).maxsize = 0 ∧ (ctxOf t c).cursize = 0 ∧ (ctxOf t c).readcount = 0 ∧ (ctxOf t c).bit = 0 ∧
        (ctxOf t c).oob = false ∧ (ctxOf t c).overflowed = false ∧ (ctxOf t c).allowOverflow = false

/-! ## Faults and reported errors -/

/-- In the faulted state every command but `REG_READ`, and every word of no row but one with its opcode, answers `FAULTED`
and changes nothing else (`60_exceptions.md`, sections 4 and 5). -/
def Obligations.FaultedStateAnswersFaulted : Prop :=
  (∀ (s : State) (i : Instr), s.fault = true → (∀ c, i ≠ .regRead c) → exec i s = .next { s with r := 0, rc := .faulted }) ∧
  ∀ (s : State) (w : Word), s.fault = true → fieldOpc w ≠ 0x50 → execWord w s = .next { s with r := 0, rc := .faulted }

/-- `FAULT`, once set, stays set with its cause through every command, and the reset event clears it (`10_state.md`, section
6; `60_exceptions.md`, sections 5 and 6). That commands and the reset stand in one queue is the model's choice (log entries 3
and 9). -/
def Obligations.FaultStaysUntilReset : Prop :=
  (∀ (s t : State) (e : Command) (rest : List PortEvent), s.fault = true → s.pending = .command e :: rest →
    step s = .next t →
    sameFault s t ∧ sameModels s t ∧ t.ctxs = s.ctxs ∧ t.params = s.params ∧
      (t.rc = .faulted ∨ fieldOpc e.cw = 0x50)) ∧
  ∀ (s : State) (rest : List PortEvent), s.pending = .reset :: rest → ∃ t, step s = .next t ∧ t.fault = false ∧ t.fcause = 0

/-- A reported error changes nothing but `R`, which becomes 0, and `RC` (`40_bitbuffer_lifecycle.md`, the common prologue;
`60_exceptions.md`, sections 1 and 5). -/
def Obligations.ReportedErrorsArePrecise : Prop :=
  ∀ (i : Instr) (s t : State), exec i s = .next t →
    t.rc = .invalidArg ∨ t.rc = .copyTooSmall ∨ t.rc = .illegalCmd ∨ t.rc = .faulted →
    t = { s with r := 0, rc := t.rc }

/-- A command ends with the code of a fault exactly when it sets `FAULT`; `FCAUSE` then holds that code, `R` is 0, and what
the host has loaded and issued is as before (`60_exceptions.md`, sections 1 and 5). -/
def Obligations.FaultRecordsItsCause : Prop :=
  ∀ (i : Instr) (s t : State), s.fault = false → exec i s = .next t →
    (t.fault = true ↔ t.rc = .writeRange ∨ t.rc = .weightOvf) ∧
    (t.rc = .writeRange → t.fcause = 4 ∧ t.r = 0 ∧ samePort s t) ∧
    (t.rc = .weightOvf → t.fcause = 5 ∧ t.r = 0 ∧ samePort s t) ∧
    (t.fault = false → t.fcause = s.fcause)

/-- `WRITE_RANGE` is raised by the compressed-mode writes and by `COMPRESS` alone, `WEIGHT_OVF` by none of the commands that
neither code nor seed; so reads, raw writes and host accesses never raise `WRITE_RANGE` (`60_exceptions.md`, section 5). -/
def Obligations.OnlyCodingCommandsFault : Prop :=
  ∀ (i : Instr) (s t : State), s.fault = false → s.sizesOk → exec i s = .next t →
    (t.rc = .writeRange → (∃ c, writingContext s i = some c ∧ (ctxOf s c).oob = false) ∨ ∃ c, i = .compress c) ∧
    (t.rc = .weightOvf →
      (∃ c, writingContext s i = some c ∧ (ctxOf s c).oob = false) ∨
      (∃ c, readingContext s i = some c ∧ ((ctxOf s c).oob = false ∨ i = .lookaheadByte c)) ∨
      (∃ c, i = .compress c) ∨ (∃ c, i = .decompress c) ∨ (∃ c, i = .init c) ∨ (∃ c, i = .initOob c) ∨
      ∃ c, i = .modelInit c)

/-- Rule R262: a command that passes the first two checks answers `INVALID_ARG` exactly for the causes of the table, and
`INVALID_ARG` then leaves all but `R` and `RC`. -/
def Obligations.InvalidArgExactlyAsTabled : Prop :=
  ∀ (i : Instr) (s t : State), s.accepts i.contexts → exec i s = .next t →
    (t.rc = .invalidArg ↔ invalidArgCause s i) ∧ (invalidArgCause s i → t = { s with r := 0, rc := .invalidArg })

/-! ## Invariants -/

/-- Every step keeps the invariant of the state: parameters within their bounds, buffers canonical, `MAXSIZE ≤ BUF_BYTES`
and no byte beyond the buffer memory, `FCAUSE` the code of the fault (`10_state.md`, sections 5 and 6; `20_memory.md`,
section 1). -/
def Obligations.StepKeepsStateInv : Prop := ∀ s t : State, s.Inv → step s = .next t → t.Inv

/-- The invariant holds after reset, for any parameters within their bounds (`10_state.md`, section 9). The parameters of
`State.reset` itself are the model's choice (log entry 1). -/
def Obligations.ResetMeetsStateInv : Prop :=
  (∀ p : Params, p.Ok → (State.resetWith p).Inv ∧ (State.resetWith p).sizesOk ∧ (State.resetWith p).modelsReached) ∧
    State.reset.Inv

/-- Outside the faulted state a seeded pair is always a pair of models that `Empty()` and `Update` reach (`43_entropy_model.md`,
sections 3 and 4). -/
def Obligations.StepKeepsModelsReached : Prop :=
  ∀ s t : State, s.modelsReached → step s = .next t → t.modelsReached

/-- Rule R36: every step keeps `CURSIZE ≤ MAXSIZE ≤ BUF_BYTES` in every context, outside the faulted state. -/
def Obligations.StepKeepsSizesInOrder : Prop :=
  ∀ s t : State, s.Inv → s.modelsReached → s.sizesOk → step s = .next t →
    t.fault = false → ∀ c : CtxNum, (ctxOf t c).cursize ≤ (ctxOf t c).maxsize ∧
      (ctxOf t c).maxsize.toNat ≤ t.params.bufBytes

/-- Rule R175: the invariants (a) to (g) of every model after `Empty()` and after every `Update`. -/
def Obligations.ReachedModelsMeetTheSiblingInvariants : Prop :=
  ∀ M : Model, M.Reached →
    M.linksOk ∧ M.sorted ∧ M.endsOk ∧ M.treeOk ∧ M.parentsLater ∧ M.siblingsOk ∧ M.countOk

/-- In every reached model the code of each symbol's leaf, followed from the root, leads to that leaf
(`43_entropy_model.md`, sections 1, 3 and 5). -/
def Obligations.ReachedModelsAreCodable : Prop := ∀ M : Model, M.Reached → M.codable

/-- The root's weight counts the updates, and no update faults below `2^32` of them; so a table `FREQ` that meets its
constraint is seeded without a fault (`43_entropy_model.md`, section 4). -/
def Obligations.UpdatesSucceedBelowTheWeightLimit : Prop :=
  (∀ bytes : List Byte, bytes.length < 2 ^ 32 →
    ∃ M, updates emptyModel bytes = .ok M ∧ (node M M.root).weight.toNat = bytes.length) ∧
  ∀ p : Params, p.Ok → ∃ M, seeded p = .ok M ∧ (node M M.root).weight.toNat = (p.freq.map BitVec.toNat).sum

/-- No command writes an operand register, a parameter, or what the host has issued (`10_state.md`, sections 3 and 10). -/
def Obligations.CommandsKeepPortAndParameters : Prop :=
  ∀ (i : Instr) (s t : State), exec i s = .next t → samePort s t

/-- A command that does not fault leaves every context but its own (`CTX`) as it was, the source of `COPY` too
(`10_state.md`, section 5; `40_bitbuffer_lifecycle.md`, COPY). -/
def Obligations.OtherContextsAreUntouched : Prop :=
  ∀ (i : Instr) (s t : State) (d : CtxNum), exec i s = .next t → t.fault = s.fault → i.contexts.head? ≠ some d →
    ctxOf t d = ctxOf s d

/-! ## Lifecycle -/

/-- `INIT` and `INIT_OOB` (`40_bitbuffer_lifecycle.md`, INIT and INIT_OOB): a capacity beyond the buffer memory is refused;
else the context's cursors and flags are cleared, the mode chosen, the bytes kept, the pair seeded if it never was. -/
def Obligations.InitClearsCursorsAndSelectsMode : Prop :=
  ∀ (s : State) (c : CtxNum), s.accepts [c] →
    (s.params.bufBytes < s.a.toNat →
      exec (.init c) s = .next { s with r := 0, rc := .invalidArg } ∧
      exec (.initOob c) s = .next { s with r := 0, rc := .invalidArg }) ∧
    ∀ E, s.a.toNat ≤ s.params.bufBytes → encBefore s = .ok E →
      ∀ (i : Instr) (oob : Bool), (i = .init c ∧ oob = false) ∨ (i = .initOob c ∧ oob = true) →
        ∃ t, exec i s = .next t ∧ answers 0 t ∧ samePort s t ∧ sameFault s t ∧ othersSame c s t ∧
          t.modelReady = true ∧ t.enc = E ∧ decBefore s = .ok t.dec ∧
          (ctxOf t c).maxsize = s.a ∧ (ctxOf t c).cursize = 0 ∧ (ctxOf t c).readcount = 0 ∧ (ctxOf t c).bit = 0 ∧
          (ctxOf t c).oob = oob ∧ (ctxOf t c).overflowed = false ∧ (ctxOf t c).allowOverflow = false ∧
          bytesSame (ctxOf s c) (ctxOf t c)

/-- Rule R103, `CLEAR`. -/
def Obligations.ClearResetsSizeAndBitCursor : Prop :=
  ∀ (s : State) (c : CtxNum), wordIsN (.clear c) 0x03 c ∧ (s.accepts [c] →
    ∃ t, exec (.clear c) s = .next t ∧ answers 0 t ∧ samePort s t ∧ sameFault s t ∧ sameModels s t ∧ othersSame c s t ∧
      (ctxOf t c).cursize = 0 ∧ (ctxOf t c).bit = 0 ∧ (ctxOf t c).overflowed = false ∧
      (ctxOf t c).maxsize = (ctxOf s c).maxsize ∧ (ctxOf t c).readcount = (ctxOf s c).readcount ∧
      (ctxOf t c).oob = (ctxOf s c).oob ∧ (ctxOf t c).allowOverflow = (ctxOf s c).allowOverflow ∧
      bytesSame (ctxOf s c) (ctxOf t c))

/-- Rules R104 and R105, `BEGIN_READ` and `BEGIN_READ_OOB`. -/
def Obligations.BeginReadResetsReadCursorAndSelectsMode : Prop :=
  ∀ (s : State) (c : CtxNum), wordIsN (.beginRead c) 0x04 c ∧ wordIsN (.beginReadOob c) 0x05 c ∧ (s.accepts [c] →
    ∀ (i : Instr) (oob : Bool), (i = .beginRead c ∧ oob = false) ∨ (i = .beginReadOob c ∧ oob = true) →
      ∃ t, exec i s = .next t ∧ answers 0 t ∧ samePort s t ∧ sameFault s t ∧ sameModels s t ∧ othersSame c s t ∧
        (ctxOf t c).readcount = 0 ∧ (ctxOf t c).bit = 0 ∧ (ctxOf t c).oob = oob ∧
        (ctxOf t c).cursize = (ctxOf s c).cursize ∧ (ctxOf t c).maxsize = (ctxOf s c).maxsize ∧
        (ctxOf t c).overflowed = (ctxOf s c).overflowed ∧ (ctxOf t c).allowOverflow = (ctxOf s c).allowOverflow ∧
        bytesSame (ctxOf s c) (ctxOf t c))

/-- Rule R106, `COPY`: the two refusals in their order, else the destination holds the source's registers and flags, the
capacity given and the source's first `CURSIZE` bytes over its own, and the source, where it is another context, is as it
was. -/
def Obligations.CopyDuplicatesTheSource : Prop :=
  ∀ (s : State) (c d : CtxNum),
    (fieldOpc (encode (.copy c d)) = 0x06 ∧ fieldCtx (encode (.copy c d)) = c ∧ fieldSrc (encode (.copy c d)) = d ∧
      fieldReserved (encode (.copy c d)) = 0 ∧ fieldW7 (encode (.copy c d)) = 0) ∧
    (s.accepts [c, d] → (ctxOf s d).cursize ≤ (ctxOf s d).maxsize → Memory.wf (ctxOf s c).buf = true →
      (s.params.bufBytes < s.a.toNat → exec (.copy c d) s = .next { s with r := 0, rc := .invalidArg }) ∧
      (s.a.toNat ≤ s.params.bufBytes → s.a < (ctxOf s d).cursize →
        exec (.copy c d) s = .next { s with r := 0, rc := .copyTooSmall }) ∧
      (s.a.toNat ≤ s.params.bufBytes → (ctxOf s d).cursize ≤ s.a →
        ∃ t, exec (.copy c d) s = .next t ∧ answers 0 t ∧ samePort s t ∧ sameFault s t ∧ sameModels s t ∧
          othersSame c s t ∧ (ctxOf t c).maxsize = s.a ∧ (ctxOf t c).cursize = (ctxOf s d).cursize ∧
          (ctxOf t c).readcount = (ctxOf s d).readcount ∧ (ctxOf t c).bit = (ctxOf s d).bit ∧
          flagsSame (ctxOf s d) (ctxOf t c) ∧
          ∀ a, bufGet (ctxOf t c).buf a =
            if a < (ctxOf s d).cursize.toNat then bufGet (ctxOf s d).buf a else bufGet (ctxOf s c).buf a))

/-- `MODEL_INIT` (`43_entropy_model.md`, section 6): it seeds a pair never seeded, both models alike, and does nothing to a
pair that was. -/
def Obligations.ModelInitSeedsOnce : Prop :=
  ∀ (s : State) (c : CtxNum), s.accepts [c] →
    (s.modelReady = true → exec (.modelInit c) s = .next { s with r := 0, rc := .ok }) ∧
    (s.modelReady = false → ∀ M, seeded s.params = .ok M →
      exec (.modelInit c) s = .next { s with r := 0, rc := .ok, enc := M, dec := M, modelReady := true })

/-! ## Writes -/

/-- A raw-mode write with headroom stores the low bytes of `A`, least significant first, at `CURSIZE`, and moves `CURSIZE`
and `BIT`; every other byte, register and model is as it was (`20_memory.md`, section 3; `41_bitbuffer_bits.md`,
WriteBitsCore; `42_bitbuffer_typed.md`, typed writes). -/
def Obligations.RawWriteStoresLittleEndianBytes : Prop :=
  ∀ (s : State) (i : Instr) (c : CtxNum) (n : Nat), writeForm i = some (c, n) → s.accepts [c] →
    (ctxOf s c).oob = true → rawWidth n → (ctxOf s c).cursize ≤ (ctxOf s c).maxsize →
    4 ≤ (ctxOf s c).maxsize.toNat - (ctxOf s c).cursize.toNat → Memory.wf (ctxOf s c).buf = true →
    ∃ t, exec i s = .next t ∧ answers 0 t ∧ samePort s t ∧ sameFault s t ∧ sameModels s t ∧ othersSame c s t ∧
      (ctxOf t c).maxsize = (ctxOf s c).maxsize ∧ (ctxOf t c).readcount = (ctxOf s c).readcount ∧
      flagsSame (ctxOf s c) (ctxOf t c) ∧ (ctxOf t c).cursize.toNat = (ctxOf s c).cursize.toNat + n / 8 ∧
      (ctxOf t c).bit = (ctxOf s c).bit + BitVec.ofNat 32 n ∧
      (∀ k, k < n / 8 → bufGet (ctxOf t c).buf ((ctxOf s c).cursize.toNat + k) = s.a.extractLsb' (8 * k) 8) ∧
      ∀ a, a < (ctxOf s c).cursize.toNat ∨ (ctxOf s c).cursize.toNat + n / 8 ≤ a →
        bufGet (ctxOf t c).buf a = bufGet (ctxOf s c).buf a

/-- A write or delta write, in either mode, that finds fewer than 4 bytes of capacity left sets `OVERFLOWED`, changes nothing
else, and answers `OK` (`41_bitbuffer_bits.md`, WRITE_BITS; `44_delta.md`, WRITE_DELTA; `60_exceptions.md`, section 2). -/
def Obligations.WriteWithoutHeadroomOnlySetsOverflowed : Prop :=
  ∀ (s : State) (i : Instr) (c : CtxNum) (n : Nat),
    (writeForm i = some (c, n) ∧ ((ctxOf s c).oob = true → rawWidth n)) ∨
      (∃ key, deltaWriteForm s i = some (c, n, key) ∧ (ctxOf s c).oob = false) →
    legalWidth n → s.accepts [c] → (ctxOf s c).cursize ≤ (ctxOf s c).maxsize →
    (ctxOf s c).maxsize.toNat - (ctxOf s c).cursize.toNat < 4 →
    ∃ t, exec i s = .next t ∧ answers 0 t ∧ samePort s t ∧ sameFault s t ∧ sameModels s t ∧ othersSame c s t ∧
      ctxOf t c = { ctxOf s c with overflowed := true }

/-- A compressed-mode write with headroom whose bits fit below `MAXSIZE` puts the field's residual bits and the codes of its
whole bytes at `BIT`, updates `ENC` by those bytes, and sets `CURSIZE` to the bytes that hold `BIT` bits
(`20_memory.md`, sections 3 and 4; `41_bitbuffer_bits.md`, WriteBitsCore). -/
def Obligations.CompressedWritePutsTheFieldBits : Prop :=
  ∀ (s : State) (i : Instr) (c : CtxNum) (n : Nat) (E : Model) (bits : List Bool), writeForm i = some (c, n) →
    legalWidth n → s.accepts [c] → (ctxOf s c).oob = false → roomy (ctxOf s c) → encBefore s = .ok E →
    fieldBits E (zext n s.a) n = .ok bits →
    (ctxOf s c).bit.toNat + bits.length ≤ 8 * (ctxOf s c).maxsize.toNat →
    ∃ t, exec i s = .next t ∧ PutsBits c bits s t ∧ (ctxOf t c).overflowed = (ctxOf s c).overflowed ∧
      updates E (wholeBytes (zext n s.a) n) = .ok t.enc

/-- A compressed-mode write whose bits do not fit below `MAXSIZE` ends in the fault `WRITE_RANGE` (`20_memory.md`, section 2;
`60_exceptions.md`, section 5). -/
def Obligations.CompressedWritePastMaxsizeFaults : Prop :=
  ∀ (s : State) (i : Instr) (c : CtxNum) (n : Nat) (E : Model) (bits : List Bool), writeForm i = some (c, n) →
    legalWidth n → s.accepts [c] → (ctxOf s c).oob = false → roomy (ctxOf s c) → encBefore s = .ok E →
    fieldBits E (zext n s.a) n = .ok bits → bits ≠ [] →
    8 * (ctxOf s c).maxsize.toNat < (ctxOf s c).bit.toNat + bits.length →
    ∃ t, exec i s = .next t ∧ t.rc = .writeRange ∧ t.r = 0 ∧ t.fault = true ∧ t.fcause = 4 ∧ samePort s t

/-- A write ignores the sign of its width and the bits of `A` above the field (`30_encoding.md`, section 2;
`41_bitbuffer_bits.md`, WRITE_BITS (a), (b)). -/
def Obligations.WriteIgnoresSignAndHighBits : Prop :=
  (∀ (s : State) (c : CtxNum) (w7 : BitVec 7), exec (.writeBits c w7) s = exec (.writeBits c (-w7)) s) ∧
  ∀ (s t : State) (c : CtxNum) (w7 : BitVec 7) (v : Word),
    zext (widthOf w7).natAbs v = zext (widthOf w7).natAbs s.a → exec (.writeBits c w7) s = .next t →
    exec (.writeBits c w7) { s with a := v } = .next { t with a := v }

/-- Every typed write is `WRITE_BITS` at its width, in every state (`42_bitbuffer_typed.md`, typed writes). -/
def Obligations.TypedWritesAreWriteBits : Prop :=
  ∀ (s : State) (c : CtxNum),
    exec (.writeChar c) s = exec (.writeBits c 8) s ∧ exec (.writeByte c) s = exec (.writeBits c 8) s ∧
    exec (.writeShort c) s = exec (.writeBits c 16) s ∧ exec (.writeLong c) s = exec (.writeBits c 32) s ∧
    exec (.writeFloat c) s = exec (.writeBits c 32) s

/-- What a write or delta write that does not fault leaves: everything but its context's `CURSIZE`, `BIT`, `OVERFLOWED`
(which it never clears), the bytes it stores to (raw mode: from `CURSIZE` on, as many as the field has; compressed mode: the
bytes its bits lie in, from `BIT` to the new `BIT`) and the model pair (of a seeded one `ENC` alone)
(`41_bitbuffer_bits.md`, WRITE_BITS; `44_delta.md`, WRITE_DELTA). -/
def Obligations.WritesLeaveTheReaderAlone : Prop :=
  ∀ (s t : State) (i : Instr) (c : CtxNum), writingContext s i = some c → (ctxOf s c).maxsize.toNat ≤ 2 ^ 28 →
    Memory.wf (ctxOf s c).buf = true → exec i s = .next t → t.fault = false →
    samePort s t ∧ sameFault s t ∧ othersSame c s t ∧ (s.modelReady = true → t.modelReady = true ∧ t.dec = s.dec) ∧
      (ctxOf t c).maxsize = (ctxOf s c).maxsize ∧ (ctxOf t c).readcount = (ctxOf s c).readcount ∧
      (ctxOf t c).oob = (ctxOf s c).oob ∧ (ctxOf t c).allowOverflow = (ctxOf s c).allowOverflow ∧
      ((ctxOf s c).overflowed = true → (ctxOf t c).overflowed = true) ∧
      ((ctxOf s c).oob = true → ∀ n, writeForm i = some (c, n) → ∀ a,
        a < (ctxOf s c).cursize.toNat ∨ (ctxOf s c).cursize.toNat + n / 8 ≤ a →
          bufGet (ctxOf t c).buf a = bufGet (ctxOf s c).buf a) ∧
      ((ctxOf s c).oob = true → writeForm i = none → bytesSame (ctxOf s c) (ctxOf t c)) ∧
      ((ctxOf s c).oob = false → ∀ a, a < (ctxOf s c).bit.toNat / 8 ∨ ceil8 (ctxOf t c).bit.toNat ≤ a →
          bufGet (ctxOf t c).buf a = bufGet (ctxOf s c).buf a)

/-! ## Reads -/

/-- A raw-mode read takes the little-endian value at `READCOUNT`, sign-extended for a negative width, moves `READCOUNT` and
`BIT` and nothing else; a typed read gives its sentinel once `READCOUNT` has passed `CURSIZE` (`20_memory.md`, sections 2
and 3; `41_bitbuffer_bits.md`, ReadBitsCore; `42_bitbuffer_typed.md`, the sentinel). -/
def Obligations.RawReadReturnsLittleEndianValue : Prop :=
  ∀ (s : State) (i : Instr) (c : CtxNum) (w : Int) (sentinel : Option Word), readForm i = some (c, w, sentinel) →
    s.accepts [c] → (ctxOf s c).oob = true → rawWidth w.natAbs →
    ∃ t, exec i s = .next t ∧ t.rc = .ok ∧ samePort s t ∧ sameFault s t ∧ sameModels s t ∧ othersSame c s t ∧
      ctxOf t c = { ctxOf s c with
        readcount := (ctxOf s c).readcount + BitVec.ofNat 32 (w.natAbs / 8)
        bit := (ctxOf s c).bit + BitVec.ofNat 32 w.natAbs } ∧
      (∀ e, sentinel = some e → (ctxOf s c).cursize < (ctxOf t c).readcount → t.r = e) ∧
      (sentinel = none ∨ (ctxOf t c).readcount ≤ (ctxOf s c).cursize →
        (ctxOf s c).readcount.toNat + w.natAbs / 8 ≤ (ctxOf s c).maxsize.toNat →
        ∀ j, j < 32 → t.r.getLsbD j =
          if j < w.natAbs then bitOf (ctxOf s c).buf (8 * (ctxOf s c).readcount.toNat + j)
          else decide (w < 0) && bitOf (ctxOf s c).buf (8 * (ctxOf s c).readcount.toNat + (w.natAbs - 1)))

/-- A compressed-mode `READ_BITS` of fewer than 8 bits takes them raw from `BIT`, first bit lowest, and leaves `DEC` alone
(`20_memory.md`, section 3; `41_bitbuffer_bits.md`, READ_BITS (d)). -/
def Obligations.NarrowReadTakesRawBits : Prop :=
  ∀ (s : State) (c : CtxNum) (w7 : BitVec 7) (D : Model), s.accepts [c] → (ctxOf s c).oob = false →
    1 ≤ (widthOf w7).natAbs → (widthOf w7).natAbs < 8 → (ctxOf s c).maxsize.toNat ≤ 2 ^ 28 →
    (ctxOf s c).bit.toNat + (widthOf w7).natAbs ≤ 8 * (ctxOf s c).maxsize.toNat → decBefore s = .ok D →
    ∃ t, exec (.readBits c w7) s = .next t ∧ TakesBits c ((ctxOf s c).bit.toNat + (widthOf w7).natAbs) s t ∧ t.dec = D ∧
      ∀ j, j < 32 → t.r.getLsbD j =
        if j < (widthOf w7).natAbs then bitOf (ctxOf s c).buf ((ctxOf s c).bit.toNat + j)
        else decide (widthOf w7 < 0) &&
          bitOf (ctxOf s c).buf ((ctxOf s c).bit.toNat + ((widthOf w7).natAbs - 1))

/-- A compressed-mode read from a buffer that holds, at `BIT`, the bits a value becomes under `DEC`, gives that value
(sign-extended for a negative width), updates `DEC` by its whole bytes and moves the cursors past the bits; a typed read
gives its sentinel if `READCOUNT` has then passed `CURSIZE` (`41_bitbuffer_bits.md`, ReadBitsCore; `43_entropy_model.md`,
section 5). `codableAlong` is what every reached model meets (`ReachedModelsAreCodable`). -/
def Obligations.CompressedReadReturnsTheFieldHeld : Prop :=
  ∀ (s : State) (i : Instr) (c : CtxNum) (w : Int) (sentinel : Option Word) (D : Model) (v : Word) (bits : List Bool),
    readForm i = some (c, w, sentinel) → legalWidth w.natAbs → s.accepts [c] → (ctxOf s c).oob = false →
    (ctxOf s c).maxsize.toNat ≤ 2 ^ 28 → decBefore s = .ok D → zext w.natAbs v = v → fieldBits D v w.natAbs = .ok bits →
    codableAlong D (wholeBytes v w.natAbs) → holdsBits (ctxOf s c) (ctxOf s c).bit.toNat bits →
    ∃ t, exec i s = .next t ∧ TakesBits c ((ctxOf s c).bit.toNat + bits.length) s t ∧
      updates D (wholeBytes v w.natAbs) = .ok t.dec ∧
      (∀ e, sentinel = some e → (ctxOf t c).cursize < (ctxOf t c).readcount → t.r = e) ∧
      (sentinel = none ∨ (ctxOf t c).readcount ≤ (ctxOf t c).cursize →
        t.r = if w < 0 then sext w.natAbs v else v)

/-- What a read, a delta read or a lookahead that does not fault leaves: everything but its context's `READCOUNT`, `BIT` and
the model pair (of a seeded one `DEC` alone); no read ends with `WRITE_RANGE` (`41_bitbuffer_bits.md`, READ_BITS;
`42_bitbuffer_typed.md`, typed reads; `44_delta.md`, READ_DELTA). -/
def Obligations.ReadsLeaveTheMessageAlone : Prop :=
  ∀ (s t : State) (i : Instr) (c : CtxNum), readingContext s i = some c → exec i s = .next t →
    t.rc ≠ .writeRange ∧ (t.fault = false →
      samePort s t ∧ sameFault s t ∧ othersSame c s t ∧ (s.modelReady = true → t.modelReady = true ∧ t.enc = s.enc) ∧
      (ctxOf t c).maxsize = (ctxOf s c).maxsize ∧ (ctxOf t c).cursize = (ctxOf s c).cursize ∧
      flagsSame (ctxOf s c) (ctxOf t c) ∧ bytesSame (ctxOf s c) (ctxOf t c))

/-- Rule R146: a typed read is `READ_BITS` at its width and sign, in full, and then the sentinel in place of the value if
`READCOUNT` has passed `CURSIZE`; `RC` is `OK` in both cases, and any other answer is the same. -/
def Obligations.TypedReadIsReadBitsThenSentinel : Prop :=
  ∀ (s u : State) (i : Instr) (c : CtxNum) (w7 : BitVec 7) (e : Word), readForm i = some (c, widthOf w7, some e) →
    exec (.readBits c w7) s = .next u →
    (u.rc = .ok → exec i s = .next { u with r := if (ctxOf u c).cursize < (ctxOf u c).readcount then e else u.r }) ∧
    (u.rc ≠ .ok → exec i s = .next u)

/-- Rule R152, `LOOKAHEAD_BYTE`: every piece of state but `R`, `RC` and the seeding is as before it; the value is the one
`READ_BYTE` would have given, and a real `READ_BYTE` after it gives it again (where no byte beyond `MAXSIZE`, which may
differ at every read, is taken: `freeCount`, log entry 5, counts them). -/
def Obligations.LookaheadPeeksTheNextByte : Prop :=
  ∀ (s t : State) (c : CtxNum), wordIsN (.lookaheadByte c) 0x2D c ∧ (s.accepts [c] → exec (.lookaheadByte c) s = .next t →
    (t.rc = .ok ∨ t.rc = .weightOvf) ∧
    (t.rc = .ok → samePort s t ∧ sameFault s t ∧ t.ctxs = s.ctxs ∧ t.modelReady = true ∧
      encBefore s = .ok t.enc ∧ decBefore s = .ok t.dec) ∧
    (∀ u, exec (.readByte c) s = .next u → u.rc = .ok → t.rc = .ok → t.r = u.r) ∧
    (t.rc = .ok → t.freeCount = s.freeCount → ∃ u, exec (.readByte c) t = .next u ∧ u.rc = .ok ∧ u.r = t.r))

/-- In raw mode `LOOKAHEAD_BYTE` gives the byte at `READCOUNT`, or the sentinel when that byte is past `CURSIZE`, and moves
nothing (`42_bitbuffer_typed.md`, LOOKAHEAD_BYTE). -/
def Obligations.RawLookaheadReturnsTheByte : Prop :=
  ∀ (s : State) (c : CtxNum) (E : Model), s.accepts [c] → (ctxOf s c).oob = true → encBefore s = .ok E →
    ∃ t, exec (.lookaheadByte c) s = .next t ∧ t.rc = .ok ∧ samePort s t ∧ sameFault s t ∧ t.ctxs = s.ctxs ∧ t.enc = E ∧
      decBefore s = .ok t.dec ∧ t.modelReady = true ∧
      ((ctxOf s c).cursize < (ctxOf s c).readcount + 1 → t.r = 0xFFFFFFFF) ∧
      ((ctxOf s c).readcount + 1 ≤ (ctxOf s c).cursize → (ctxOf s c).readcount < (ctxOf s c).maxsize →
        t.r = (bufGet (ctxOf s c).buf (ctxOf s c).readcount.toNat).setWidth 32)

/-! ## Delta fields -/

/-- A delta write puts the flag 0 for equal words, the flag 1 and the low bits of new XOR key for different ones, and the
flag 1 alone, with `OVERFLOWED` set, when the flag leaves fewer than 4 bytes (`44_delta.md`, the common bodies and WRITE_DELTA
(c), (d)). -/
def Obligations.DeltaWritePutsFlagThenValue : Prop :=
  ∀ (s : State) (i : Instr) (c : CtxNum) (n : Nat) (key : Word) (E : Model), deltaWriteForm s i = some (c, n, key) →
    legalWidth n → s.accepts [c] → (ctxOf s c).oob = false → roomy (ctxOf s c) →
    (ctxOf s c).bit.toNat < 8 * (ctxOf s c).maxsize.toNat → encBefore s = .ok E →
    (s.a = s.b → ∃ t, exec i s = .next t ∧ PutsBits c [false] s t ∧ t.enc = E ∧
      (ctxOf t c).overflowed = (ctxOf s c).overflowed) ∧
    (s.a ≠ s.b → (ctxOf s c).maxsize.toNat < ceil8 ((ctxOf s c).bit.toNat + 1) + 4 →
      ∃ t, exec i s = .next t ∧ PutsBits c [true] s t ∧ t.enc = E ∧ (ctxOf t c).overflowed = true) ∧
    (s.a ≠ s.b → ceil8 ((ctxOf s c).bit.toNat + 1) + 4 ≤ (ctxOf s c).maxsize.toNat →
      ∀ bits, fieldBits E (zext n (s.a ^^^ key)) n = .ok bits →
      (ctxOf s c).bit.toNat + 1 + bits.length ≤ 8 * (ctxOf s c).maxsize.toNat →
      ∃ t, exec i s = .next t ∧ PutsBits c (true :: bits) s t ∧ (ctxOf t c).overflowed = (ctxOf s c).overflowed ∧
        updates E (wholeBytes (zext n (s.a ^^^ key)) n) = .ok t.enc)

/-- A delta read of the flag 0 gives the whole old word `B` and takes one bit; of the flag 1, the value held XOR the key
masked to the width, the value sign-extended before the XOR (`44_delta.md`, the common bodies, READ_DELTA and
READ_DELTA_KEY). -/
def Obligations.DeltaReadTakesFlagThenValue : Prop :=
  ∀ (s : State) (i : Instr) (c : CtxNum) (w : Int) (key : Word) (D : Model), deltaReadForm s i = some (c, w, key) →
    legalWidth w.natAbs → s.accepts [c] → (ctxOf s c).oob = false → (ctxOf s c).maxsize.toNat ≤ 2 ^ 28 →
    decBefore s = .ok D →
    (holdsBits (ctxOf s c) (ctxOf s c).bit.toNat [false] →
      ∃ t, exec i s = .next t ∧ TakesBits c ((ctxOf s c).bit.toNat + 1) s t ∧ t.dec = D ∧ t.r = s.b) ∧
    ∀ (v : Word) (bits : List Bool), zext w.natAbs v = v → fieldBits D v w.natAbs = .ok bits →
      codableAlong D (wholeBytes v w.natAbs) → holdsBits (ctxOf s c) (ctxOf s c).bit.toNat (true :: bits) →
      ∃ t, exec i s = .next t ∧ TakesBits c ((ctxOf s c).bit.toNat + 1 + bits.length) s t ∧
        updates D (wholeBytes v w.natAbs) = .ok t.dec ∧
        t.r = (if w < 0 then sext w.natAbs v else v) ^^^ (key &&& BitVec.ofNat 32 (2 ^ w.natAbs - 1))

/-- Rule R219: delta idempotence, the delta change path, keyed reversibility, and the float forms. A delta write in a fresh
compressed message, `BEGIN_READ`, and the matching delta read with the same old word and key give the new word back and
leave `ENC = DEC`; equal words cost exactly one bit each way, different ones `1 + (w & 7)` bits and the code lengths. For a
negative width the property asks the key's bit `|W| - 1` to be 0, as rule R216 (c) says. A message of 4 bytes has room for equal
words alone: `DeltaWritePutsFlagThenValue` and `DeltaReadTakesFlagThenValue` say what happens there. -/
def Obligations.DeltaFieldReadsBack : Prop :=
  ∀ (s t u v : State) (wi ri : Instr) (c : CtxNum) (n : Nat) (w : Int) (key : Word),
    deltaWriteForm s wi = some (c, n, key) → deltaReadForm s ri = some (c, w, key) → w.natAbs = n → legalWidth n →
    s.accepts [c] → (ctxOf s c).oob = false → freshContext (ctxOf s c) → 5 ≤ (ctxOf s c).maxsize.toNat →
    (ctxOf s c).maxsize.toNat ≤ 2 ^ 28 → Memory.wf (ctxOf s c).buf = true →
    s.modelReady = true → s.enc = s.dec → s.enc.Reached →
    s.a = s.b ∨ (0 < w ∧ zext n s.a = s.a) ∨ (w < 0 ∧ sext n (zext n s.a) = s.a ∧ key.getLsbD (n - 1) = false) →
    exec wi s = .next t → t.fault = false → exec (.beginRead c) t = .next u → exec ri u = .next v →
    answers s.a v ∧ v.enc = v.dec ∧ (ctxOf v c).bit = (ctxOf t c).bit ∧
      (s.a = s.b → (ctxOf t c).bit = 1) ∧
      (s.a ≠ s.b → ∀ bits, fieldBits s.enc (zext n (s.a ^^^ key)) n = .ok bits →
        (ctxOf t c).bit.toNat = 1 + bits.length)

/-! ## Whole-buffer commands -/

/-- `COMPRESS` (`43_entropy_model.md`, section 8): nothing from the offset on, nothing done; else the bytes from the offset to
`CURSIZE` are replaced by their count, high byte first, and their codes under a freshly seeded model from bit 16 on, the
last byte padded with 0, or the fault `WRITE_RANGE` if that does not fit. -/
def Obligations.CompressReplacesTheRangeByItsCodes : Prop :=
  ∀ (s : State) (c : CtxNum), s.accepts [c] → (ctxOf s c).cursize ≤ (ctxOf s c).maxsize →
    Memory.wf (ctxOf s c).buf = true →
    ((ctxOf s c).cursize ≤ s.a → exec (.compress c) s = .next { s with r := 0, rc := .ok }) ∧
    ∀ (M : Model) (codes : List Bool) (src : List Byte), s.a < (ctxOf s c).cursize →
      src = (List.range ((ctxOf s c).cursize.toNat - s.a.toNat)).map (fun k => bufGet (ctxOf s c).buf (s.a.toNat + k)) →
      src.length ≤ 65535 → seeded s.params = .ok M → encodeStream M src = .ok codes →
      (s.a.toNat + ceil8 (16 + codes.length) ≤ (ctxOf s c).maxsize.toNat →
        ∃ t, exec (.compress c) s = .next t ∧ answers 0 t ∧ samePort s t ∧ sameFault s t ∧ sameModels s t ∧
          othersSame c s t ∧ (ctxOf t c).maxsize = (ctxOf s c).maxsize ∧
          (ctxOf t c).readcount = (ctxOf s c).readcount ∧ (ctxOf t c).bit = (ctxOf s c).bit ∧
          flagsSame (ctxOf s c) (ctxOf t c) ∧
          (ctxOf t c).cursize.toNat = s.a.toNat + ceil8 (16 + codes.length) ∧
          bufGet (ctxOf t c).buf s.a.toNat = BitVec.ofNat 8 (src.length / 256) ∧
          bufGet (ctxOf t c).buf (s.a.toNat + 1) = BitVec.ofNat 8 src.length ∧
          (∀ j, 16 + j < 8 * ceil8 (16 + codes.length) →
            bitOf (ctxOf t c).buf (8 * s.a.toNat + 16 + j) = codes.getD j false) ∧
          ∀ a, a < s.a.toNat ∨ s.a.toNat + ceil8 (16 + codes.length) ≤ a →
            bufGet (ctxOf t c).buf a = bufGet (ctxOf s c).buf a) ∧
      ((ctxOf s c).maxsize.toNat < s.a.toNat + ceil8 (16 + codes.length) →
        ∃ t, exec (.compress c) s = .next t ∧ t.rc = .writeRange ∧ t.fault = true ∧ t.fcause = 4)

/-- `DECOMPRESS` (`43_entropy_model.md`, section 8): nothing from the offset on, nothing done; a count and the codes of that
many bytes at the offset are replaced by the bytes, `CURSIZE` after the last one, whatever `CURSIZE` was. -/
def Obligations.DecompressReplacesTheCodesByTheBytes : Prop :=
  ∀ (s : State) (c : CtxNum), s.accepts [c] → (ctxOf s c).cursize ≤ (ctxOf s c).maxsize →
    Memory.wf (ctxOf s c).buf = true →
    ((ctxOf s c).cursize ≤ s.a → exec (.decompress c) s = .next { s with r := 0, rc := .ok }) ∧
    ∀ (M : Model) (codes : List Bool) (src : List Byte), s.a < (ctxOf s c).cursize → src.length ≤ 65535 →
      seeded s.params = .ok M → encodeStream M src = .ok codes → codableAlong M src →
      s.a.toNat + 2 ≤ (ctxOf s c).maxsize.toNat → s.a.toNat + src.length ≤ (ctxOf s c).maxsize.toNat →
      bufGet (ctxOf s c).buf s.a.toNat = BitVec.ofNat 8 (src.length / 256) →
      bufGet (ctxOf s c).buf (s.a.toNat + 1) = BitVec.ofNat 8 src.length →
      holdsBits (ctxOf s c) (8 * s.a.toNat + 16) codes →
      ∃ t, exec (.decompress c) s = .next t ∧ answers 0 t ∧ samePort s t ∧ sameFault s t ∧ sameModels s t ∧
        othersSame c s t ∧ (ctxOf t c).maxsize = (ctxOf s c).maxsize ∧ (ctxOf t c).readcount = (ctxOf s c).readcount ∧
        (ctxOf t c).bit = (ctxOf s c).bit ∧ flagsSame (ctxOf s c) (ctxOf t c) ∧
        (ctxOf t c).cursize.toNat = s.a.toNat + src.length ∧
        ∀ a, bufGet (ctxOf t c).buf a =
          if s.a.toNat ≤ a ∧ a < s.a.toNat + src.length then src.getD (a - s.a.toNat) 0 else bufGet (ctxOf s c).buf a

/-- Rule R193, losslessness: after a `COMPRESS` that answers `OK`, `DECOMPRESS` at the same offset restores the bytes from the
offset to `CURSIZE`, and `CURSIZE`, whatever `ENC` and `DEC` hold. -/
def Obligations.DecompressUndoesCompress : Prop :=
  ∀ (s t u : State) (c : CtxNum), s.accepts [c] → (ctxOf s c).cursize ≤ (ctxOf s c).maxsize →
    Memory.wf (ctxOf s c).buf = true → exec (.compress c) s = .next t → t.rc = .ok → exec (.decompress c) t = .next u →
    answers 0 u ∧ (ctxOf u c).cursize = (ctxOf s c).cursize ∧
      ∀ a, a < (ctxOf s c).cursize.toNat → bufGet (ctxOf u c).buf a = bufGet (ctxOf s c).buf a

/-- Rule R126, the round trip: a field written into a fresh message, in either mode, from `ENC = DEC`, is read back
zero-extended for a positive width and sign-extended for a negative one, and `ENC = DEC` again. -/
def Obligations.WrittenFieldReadsBack : Prop :=
  ∀ (s t u v : State) (c : CtxNum) (w7 : BitVec 7), s.accepts [c] → freshContext (ctxOf s c) →
    widthOk (ctxOf s c).oob (widthOf w7) = true → 4 ≤ (ctxOf s c).maxsize.toNat →
    (ctxOf s c).maxsize.toNat ≤ 2 ^ 28 → Memory.wf (ctxOf s c).buf = true →
    s.modelReady = true → s.enc = s.dec → s.enc.Reached →
    exec (.writeBits c w7) s = .next t → t.fault = false →
    exec (if (ctxOf s c).oob then .beginReadOob c else .beginRead c) t = .next u → exec (.readBits c w7) u = .next v →
    v.rc = .ok ∧ v.enc = v.dec ∧
      v.r = if 0 < widthOf w7 then zext (widthOf w7).natAbs s.a
        else sext (widthOf w7).natAbs (zext (widthOf w7).natAbs s.a)

/-- A decoder that starts from the encoder's model and is given the encoder's bits gives the encoder's bytes, the first of them
with the model the encoder has after it (`43_entropy_model.md`, section 5; `70_reset_and_hazards.md`, section 3). -/
def Obligations.DecoderInvertsEncoder : Prop :=
  ∀ (σ : Type) (get : σ → Bool × σ) (M : Model) (bytes : List Byte) (bits : List Bool) (t t' : σ),
    codableAlong M bytes → encodeStream M bytes = .ok bits → gives get t bits t' →
    decodeStream get bytes.length M t = .ok (bytes, t') ∧
    ∀ s rest, bytes = s :: rest → ∃ N t₁, update M s = .ok N ∧ decodeSymbol get M t = .ok (s, N, t₁)

/-! ## Host access -/

/-- Rule R250, `REG_READ`: each register by its number, any other number refused, in the faulted state too, where the
per-context registers and `MODEL_READY` may read as anything; nothing is written but `R` and `RC`. -/
def Obligations.RegReadReturnsTheRegister : Prop :=
  ∀ (s : State) (c : CtxNum), wordIsN (.regRead c) 0x50 c ∧ (c.toNat < s.params.nctx →
    ∃ t, exec (.regRead c) s = .next t ∧
      (samePort s t ∧ sameFault s t ∧ sameModels s t ∧ t.ctxs = s.ctxs) ∧
      (s.a ∈ ([0, 1, 2, 3, 4, 8, 9, 10] : List Word) → t.rc = .ok) ∧
      (s.a ∉ ([0, 1, 2, 3, 4, 8, 9, 10] : List Word) → t.rc = .invalidArg ∧ t.r = 0) ∧
      (s.a = 9 → t.r = BitVec.ofNat 32 s.params.bufBytes) ∧ (s.a = 10 → t.r = BitVec.ofNat 32 s.params.nctx) ∧
      (s.a = 8 → ∀ j, 1 ≤ j → j < 32 → t.r.getLsbD j =
        if j = 1 then s.fault else if 4 ≤ j ∧ j < 8 then s.fcause.getLsbD (j - 4) else false) ∧
      (s.fault = false → (s.a = 8 → t.r.getLsbD 0 = s.modelReady) ∧ (s.a = 0 → t.r = (ctxOf s c).maxsize) ∧
        (s.a = 1 → t.r = (ctxOf s c).cursize) ∧ (s.a = 2 → t.r = (ctxOf s c).readcount) ∧
        (s.a = 3 → t.r = (ctxOf s c).bit) ∧
        (s.a = 4 → ∀ j, j < 32 → t.r.getLsbD j =
          if j = 0 then (ctxOf s c).oob else if j = 1 then (ctxOf s c).overflowed
          else if j = 2 then (ctxOf s c).allowOverflow else false)))

/-- Rule R251, `REG_WRITE`: `CURSIZE` up to `MAXSIZE`, bit 2 of `FLAGS`, and no other register. -/
def Obligations.RegWriteWritesCursizeAndAllowoverflow : Prop :=
  ∀ (s : State) (c : CtxNum), wordIsN (.regWrite c) 0x51 c ∧ (s.accepts [c] →
    (s.a = 1 → (ctxOf s c).maxsize < s.b → exec (.regWrite c) s = .next { s with r := 0, rc := .invalidArg }) ∧
    (s.a ≠ 1 → s.a ≠ 4 → exec (.regWrite c) s = .next { s with r := 0, rc := .invalidArg }) ∧
    (s.a = 1 → s.b ≤ (ctxOf s c).maxsize → ∃ t, exec (.regWrite c) s = .next t ∧ answers 0 t ∧ samePort s t ∧
      sameFault s t ∧ sameModels s t ∧ othersSame c s t ∧ ctxOf t c = { ctxOf s c with cursize := s.b }) ∧
    (s.a = 4 → ∃ t, exec (.regWrite c) s = .next t ∧ answers 0 t ∧ samePort s t ∧ sameFault s t ∧ sameModels s t ∧
      othersSame c s t ∧ ctxOf t c = { ctxOf s c with allowOverflow := s.b.getLsbD 2 }))

/-- Rule R252, `BUF_READ`. -/
def Obligations.BufReadReturnsTheByte : Prop :=
  ∀ (s : State) (c : CtxNum), wordIsN (.bufRead c) 0x52 c ∧ (s.accepts [c] →
    ((ctxOf s c).maxsize ≤ s.a → exec (.bufRead c) s = .next { s with r := 0, rc := .invalidArg }) ∧
    (s.a < (ctxOf s c).maxsize →
      exec (.bufRead c) s = .next { s with r := (bufGet (ctxOf s c).buf s.a.toNat).setWidth 32, rc := .ok }))

/-- Rule R253, `BUF_WRITE`. -/
def Obligations.BufWriteStoresTheByte : Prop :=
  ∀ (s : State) (c : CtxNum), wordIsN (.bufWrite c) 0x53 c ∧ (s.accepts [c] → Memory.wf (ctxOf s c).buf = true →
    ((ctxOf s c).maxsize ≤ s.a → exec (.bufWrite c) s = .next { s with r := 0, rc := .invalidArg }) ∧
    (s.a < (ctxOf s c).maxsize → ∃ t, exec (.bufWrite c) s = .next t ∧ answers 0 t ∧ samePort s t ∧ sameFault s t ∧
      sameModels s t ∧ othersSame c s t ∧ (ctxOf t c).maxsize = (ctxOf s c).maxsize ∧
      (ctxOf t c).cursize = (ctxOf s c).cursize ∧ (ctxOf t c).readcount = (ctxOf s c).readcount ∧
      (ctxOf t c).bit = (ctxOf s c).bit ∧ flagsSame (ctxOf s c) (ctxOf t c) ∧
      ∀ a, bufGet (ctxOf t c).buf a = if a = s.a.toNat then s.b.setWidth 8 else bufGet (ctxOf s c).buf a))

/-! ## The tree -/

/-- `SwapTree` on two siblings (`43_entropy_model.md`, section 3, the cases of the exchanges, (c)): left child first, nothing
changes; right child first, the two sides are exchanged. -/
def Obligations.SwapTreeOnSiblings : Prop :=
  ∀ (M : Model) (p l r : NodeId), l ≠ r → p ≠ l → p ≠ r → (node M p).left = some l → (node M p).right = some r →
    (node M l).parent = some p → (node M r).parent = some p →
    ((swapTree M l r).root = M.root ∧ ∀ n, node (swapTree M l r) n = node M n) ∧
    (swapTree M r l).root = M.root ∧ (∀ n, n ≠ p → node (swapTree M r l) n = node M n) ∧
      node (swapTree M r l) p = { node M p with left := some r, right := some l }

/-- A node whose weight is `2^32 - 1` when its turn comes is not incremented: the fault `WEIGHT_OVF` (`43_entropy_model.md`,
section 4). -/
def Obligations.IncrementAtTheWeightLimitFaults : Prop :=
  ∀ (M : Model) (n : NodeId), (node (passBlock M n) n).weight = BitVec.allOnes 32 →
    increment M (some n) = .error .weightOvf ∧
    ∀ s, locOf M s = some n → update M s = .error .weightOvf ∧
      ∀ (t : State) (c : CtxNum), t.accepts [c] → t.modelReady = true → t.enc = M → (ctxOf t c).oob = false →
        roomy (ctxOf t c) → t.a.setWidth 8 = s →
        (ctxOf t c).bit.toNat + (symbolBits M s).length ≤ 8 * (ctxOf t c).maxsize.toNat →
        ∃ u, exec (.writeByte c) t = .next u ∧ u.rc = .weightOvf ∧ u.r = 0 ∧ u.fault = true ∧ u.fcause = 5

/-! ## Pseudo-operations -/

/-- `WRITE_DATA` in raw mode, with headroom for every byte, stores the bytes in order at `CURSIZE`, and `READ_DATA` gives
them back (`45_pseudo_ops.md`, data[n]). That a pseudo-operation is a function over steps is the model's choice (log entries 3
and 12). -/
def Obligations.RawDataReadsBack : Prop :=
  ∀ (s : State) (c : CtxNum) (ds : List Byte), s.accepts [c] → (ctxOf s c).oob = true → freshContext (ctxOf s c) →
    ds ≠ [] → ds.length + 3 ≤ (ctxOf s c).maxsize.toNat → Memory.wf (ctxOf s c).buf = true →
    answers 0 (writeData c ds s) ∧ (ctxOf (writeData c ds s) c).cursize.toNat = ds.length ∧
      (∀ k, k < ds.length → bufGet (ctxOf (writeData c ds s) c).buf k = ds.getD k 0) ∧
      (readData c ds.length (issueN (.beginReadOob c) (writeData c ds s))).1 = ds

/-- An angle from 0 to below 360 degrees written by `WRITE_ANGLE16` or `WRITE_ANGLE` in raw mode reads back within one step
below it; minus 90 degrees is the byte 192 (`45_pseudo_ops.md`, angle and angle16). That the host's arithmetic is exact is the
model's choice (log entry 12, DESIGN CHOICE). -/
def Obligations.AngleReadsBackWithinOneStep : Prop :=
  BitVec.ofInt 8 (angleQuantum 256 (-90)) = 192 ∧
  ∀ (s : State) (c : CtxNum) (f : ℚ), s.accepts [c] → (ctxOf s c).oob = true → freshContext (ctxOf s c) →
    4 ≤ (ctxOf s c).maxsize.toNat → Memory.wf (ctxOf s c).buf = true → 0 ≤ f → f < 360 →
    (∃ g, (readAngle16 c (issueN (.beginReadOob c) (writeAngle16 c f s))).1 = some g ∧
      g ≤ f ∧ f < g + 360 / 65536) ∧
    ∃ g, (readAngle c (issueN (.beginReadOob c) (writeAngle c f s))).1 = some g ∧ g ≤ f ∧ f < g + 360 / 256

/-- A string that fits its bound, written by `WRITE_STRING` in raw mode, reads back through `READ_STRING` with its high-bit
bytes and percent signs replaced by dots; one that does not fit reads back empty (`45_pseudo_ops.md`, strings). That a
pseudo-operation is a function over steps is the model's choice (log entries 3 and 12). -/
def Obligations.StringReadsBackSanitized : Prop :=
  ∀ (s : State) (c : CtxNum) (h : HostParams) (str : List Byte), s.accepts [c] → (ctxOf s c).oob = true →
    freshContext (ctxOf s c) → str.length + 4 ≤ (ctxOf s c).maxsize.toNat → Memory.wf (ctxOf s c).buf = true →
    (∀ b ∈ str, b ≠ 0) →
    (str.length < h.stringMax →
      (readString h c (issueN (.beginReadOob c) (writeString h c (some str) s))).1 =
        str.map fun b => if 0x80 ≤ b.toNat ∨ b = 0x25 then 0x2E else b) ∧
    (h.stringMax ≤ str.length → (readString h c (issueN (.beginReadOob c) (writeString h c (some str) s))).1 = [])
end

