-- ==== Sys2Proof/Laws/Memory.lean ====
section
/-! SUPPORT. Tables and buffers: what a read gives after a write, and that every memory operation keeps the canonical form. -/

namespace Sys2Proof.Machine

/-! ## Tables -/

/-- The keys of a table rise strictly and start at `lo` or later. -/
def keysFrom {α : Type} (lo : Nat) : Table α → Prop
  | [] => True
  | (i, _) :: rest => lo ≤ i ∧ keysFrom (i + 1) rest

theorem keysFrom_mono {α : Type} {lo lo' : Nat} (h : lo' ≤ lo) :
    ∀ {t : Table α}, keysFrom lo t → keysFrom lo' t
  | [], _ => trivial
  | (_, _) :: _, hk => ⟨h.trans hk.1, hk.2⟩

theorem tableFind_lt {α : Type} {lo i : Nat} (h : i < lo) : ∀ {t : Table α}, keysFrom lo t → tableFind t i = none
  | [], _ => rfl
  | (j, v) :: _, hk => by
    have : i < j := h.trans_le hk.1
    simp [tableFind, this]

theorem keysFrom_tablePut {α : Type} {lo i : Nat} {v : α} (hi : lo ≤ i) :
    ∀ {t : Table α}, keysFrom lo t → keysFrom lo (tablePut t i v)
  | [], _ => ⟨hi, trivial⟩
  | (j, w) :: rest, hk => by
    unfold tablePut
    split
    · exact ⟨hi, by omega, hk.2⟩
    · split
      · subst_vars; exact ⟨hi, hk.2⟩
      · exact ⟨hk.1, keysFrom_tablePut (by omega) hk.2⟩

theorem keysFrom_tableDrop {α : Type} {lo i : Nat} :
    ∀ {t : Table α}, keysFrom lo t → keysFrom lo (tableDrop t i)
  | [], _ => trivial
  | (j, w) :: rest, hk => by
    unfold tableDrop
    split
    · exact hk
    · split
      · exact keysFrom_mono (by have := hk.1; omega) hk.2
      · exact ⟨hk.1, keysFrom_tableDrop hk.2⟩

/-- Reading a table after a write, at any key: no order of the keys is needed. -/
theorem tableFind_tablePut {α : Type} (i k : Nat) (v : α) :
    ∀ t : Table α, tableFind (tablePut t i v) k = if k = i then some v else tableFind t k
  | [] => by
    simp only [tablePut, tableFind]
    split <;> split <;> first | rfl | omega
  | (j, w) :: rest => by
    have ih := tableFind_tablePut i k v rest
    by_cases hij : i < j
    · simp only [tablePut, hij, if_true, tableFind]
      by_cases hk : k = i
      · simp [hk]
      · by_cases hki : k < i
        · have : k < j := by omega
          simp [hk, hki, this]
        · simp [hk, hki]
    · by_cases he : i = j
      · subst he
        simp only [tablePut, lt_irrefl, if_false, if_true, tableFind]
        by_cases hk : k = i
        · simp [hk]
        · simp [hk]
      · simp only [tablePut, hij, he, if_false, tableFind]
        by_cases hkj : k < j
        · have : ¬ k = i := by omega
          simp [hkj, this]
        · by_cases hke : k = j
          · simp [hke]; omega
          · simp [hkj, hke, ih]

/-- Reading a table after dropping a key, the keys rising. -/
theorem tableFind_tableDrop {α : Type} (i k : Nat) :
    ∀ {lo : Nat} {t : Table α}, keysFrom lo t → tableFind (tableDrop t i) k = if k = i then none else tableFind t k
  | _, [], _ => by simp [tableDrop, tableFind]
  | lo, (j, w) :: rest, hk => by
    have ih := tableFind_tableDrop i k hk.2
    by_cases hij : i < j
    · simp only [tableDrop, hij, if_true]
      by_cases hki : k = i
      · simp [tableFind, hki, hij]
      · simp [hki]
    · by_cases he : i = j
      · subst he
        simp only [tableDrop, lt_irrefl, if_false, if_true]
        by_cases hki : k = i
        · subst hki; simp [tableFind_lt (Nat.lt_succ_self k) hk.2]
        · by_cases hlt : k < i
          · simp [tableFind, hki, hlt, tableFind_lt (show k < i + 1 by omega) hk.2]
          · simp [tableFind, hki, hlt]
      · simp only [tableDrop, hij, he, if_false, tableFind]
        by_cases hkj : k < j
        · have : ¬ k = i := by omega
          simp [hkj, this]
        · by_cases hke : k = j
          · simp [hke]; omega
          · simp [hkj, hke, ih]

theorem mem_tablePut {α : Type} {i : Nat} {v : α} {x : Nat × α} :
    ∀ {t : Table α}, x ∈ tablePut t i v → x = (i, v) ∨ x ∈ t
  | [], h => by simpa [tablePut] using h
  | (j, w) :: rest, h => by
    unfold tablePut at h
    split at h
    · simpa using h
    · split at h
      · rcases List.mem_cons.1 h with h | h
        · exact .inl h
        · exact .inr (List.mem_cons_of_mem _ h)
      · rcases List.mem_cons.1 h with h | h
        · exact .inr (h ▸ List.mem_cons_self ..)
        · rcases mem_tablePut h with h | h
          · exact .inl h
          · exact .inr (List.mem_cons_of_mem _ h)

theorem mem_tableDrop {α : Type} {i : Nat} {x : Nat × α} : ∀ {t : Table α}, x ∈ tableDrop t i → x ∈ t
  | [], h => h
  | (j, w) :: rest, h => by
    unfold tableDrop at h
    split at h
    · exact h
    · split at h
      · exact List.mem_cons_of_mem _ h
      · rcases List.mem_cons.1 h with h | h
        · exact h ▸ List.mem_cons_self ..
        · exact List.mem_cons_of_mem _ (mem_tableDrop h)

/-! ## Canonical form -/

theorem bufWfAbove_iff {lo : Nat} : ∀ {m : Memory},
    bufWfAbove lo m = true ↔ keysFrom lo m ∧ ∀ x ∈ m, x.2 ≠ Config.unwrittenByte
  | [] => by simp [bufWfAbove, keysFrom]
  | (i, v) :: rest => by
    simp only [bufWfAbove, Bool.and_eq_true, decide_eq_true_eq, bufWfAbove_iff (m := rest), keysFrom, List.mem_cons]
    constructor
    · rintro ⟨⟨h1, h2⟩, h3, h4⟩
      refine ⟨⟨h1, h3⟩, ?_⟩
      rintro x (rfl | hx)
      · exact h2
      · exact h4 x hx
    · rintro ⟨⟨h1, h3⟩, h4⟩
      exact ⟨⟨h1, h4 _ (.inl rfl)⟩, h3, fun x hx => h4 x (.inr hx)⟩

theorem wf_iff {m : Memory} : Memory.wf m = true ↔ keysFrom 0 m ∧ ∀ x ∈ m, x.2 ≠ Config.unwrittenByte := bufWfAbove_iff

/-- The empty buffer is canonical. -/
@[simp] theorem wf_nil : Memory.wf [] = true := rfl

/-- A write keeps the canonical form. -/
theorem wf_bufSet {m : Memory} (h : Memory.wf m = true) (i : Nat) (v : Byte) : Memory.wf (bufSet m i v) = true := by
  rw [wf_iff] at h ⊢
  unfold bufSet
  split
  · exact ⟨keysFrom_tableDrop h.1, fun x hx => h.2 x (mem_tableDrop hx)⟩
  · rename_i hv
    refine ⟨keysFrom_tablePut (Nat.zero_le i) h.1, fun x hx => ?_⟩
    rcases mem_tablePut hx with rfl | hx
    · exact hv
    · exact h.2 x hx

/-- Writes of consecutive bytes keep the canonical form. -/
theorem wf_bufSetMany : ∀ (vs : List Byte) {m : Memory} (i : Nat), Memory.wf m = true → Memory.wf (bufSetMany m i vs) = true
  | [], _, _, h => h
  | v :: vs, _, i, h => wf_bufSetMany vs (i + 1) (wf_bufSet h i v)

/-- A buffer made from any cells is canonical. -/
theorem wf_bufOfCells : ∀ cells : List Host.Cell, Memory.wf (bufOfCells cells) = true
  | [] => rfl
  | cell :: rest => wf_bufSet (wf_bufOfCells rest) cell.1 cell.2

/-! ## Read after write -/

/-- One byte read after one byte written. -/
theorem bufGet_bufSet {m : Memory} (h : Memory.wf m = true) (i k : Nat) (v : Byte) :
    bufGet (bufSet m i v) k = if k = i then v else bufGet m k := by
  unfold bufGet bufSet
  split
  · rename_i hv
    rw [tableFind_tableDrop i k (wf_iff.1 h).1]
    split <;> simp [hv]
  · rw [tableFind_tablePut]
    split <;> simp

/-- One byte read after consecutive bytes written. -/
theorem bufGet_bufSetMany : ∀ (vs : List Byte) {m : Memory} (_ : Memory.wf m = true) (i k : Nat),
    bufGet (bufSetMany m i vs) k = if i ≤ k ∧ k < i + vs.length then vs.getD (k - i) 0 else bufGet m k
  | [], _, _, i, k => by simp [bufSetMany]
  | v :: vs, m, h, i, k => by
    rw [bufSetMany, bufGet_bufSetMany vs (wf_bufSet h i v), bufGet_bufSet h]
    by_cases hk : k = i
    · subst hk; simp
    · by_cases h1 : i + 1 ≤ k ∧ k < i + 1 + vs.length
      · have h2 : i ≤ k ∧ k < i + (v :: vs).length := by simp; omega
        have h3 : k - i = (k - (i + 1)) + 1 := by omega
        rw [if_pos h1, if_pos h2, h3, List.getD_cons_succ]
      · have h2 : ¬ (i ≤ k ∧ k < i + (v :: vs).length) := by simp; omega
        rw [if_neg h1, if_neg h2, if_neg hk]

/-- A byte nothing has written reads as the byte the model names (log entry 2). -/
@[simp] theorem bufGet_nil (i : Nat) : bufGet [] i = Config.unwrittenByte := rfl

theorem tableFind_eq_some_of_mem {lo : Nat} : ∀ {m : Memory} {i : Nat} {v : Byte}, keysFrom lo m → (i, v) ∈ m →
    tableFind m i = some v
  | (j, w) :: rest, i, v, hk, hx => by
    rcases List.mem_cons.1 hx with e | hx
    · cases e; simp [tableFind]
    · have hlt : ∀ {lo : Nat} {m : Memory}, keysFrom lo m → (i, v) ∈ m → lo ≤ i := by
        intro lo m
        induction m generalizing lo with
        | nil => simp
        | cons y ys ih =>
          intro hk hx
          rcases List.mem_cons.1 hx with e | hx
          · subst e; exact hk.1
          · have := ih hk.2 hx
            have := hk.1
            omega
      have hj := hlt hk.2 hx
      simp [tableFind, show ¬ i < j by omega, show ¬ i = j by omega, tableFind_eq_some_of_mem hk.2 hx]

/-- Canonical buffers that read alike everywhere are equal. -/
theorem buf_ext {m m' : Memory} (h : Memory.wf m = true) (h' : Memory.wf m' = true)
    (hg : ∀ i, bufGet m i = bufGet m' i) : m = m' := by
  have key : ∀ (m m' : Memory) (lo : Nat), bufWfAbove lo m = true → bufWfAbove lo m' = true →
      (∀ i, tableFind m i = tableFind m' i) → m = m' := by
    intro m
    induction m with
    | nil =>
      rintro (_ | ⟨⟨j, w⟩, rest⟩) lo _ _ hf
      · rfl
      · simpa [tableFind] using hf j
    | cons x xs ih =>
      obtain ⟨j, w⟩ := x
      rintro (_ | ⟨⟨j', w'⟩, rest⟩) lo h1 h2 hf
      · simpa [tableFind] using hf j
      · simp only [bufWfAbove, Bool.and_eq_true, decide_eq_true_eq] at h1 h2
        have hj : j = j' := by
          rcases Nat.lt_trichotomy j j' with hlt | he | hgt
          · have := hf j
            simp [tableFind, hlt] at this
          · exact he
          · have := hf j'
            simp [tableFind, hgt] at this
        subst hj
        have hw : w = w' := by simpa [tableFind] using hf j
        subst hw
        congr 1
        refine ih rest (j + 1) h1.2 h2.2 fun i => ?_
        by_cases hi : i < j + 1
        · rw [tableFind_lt hi (bufWfAbove_iff.1 h1.2).1, tableFind_lt hi (bufWfAbove_iff.1 h2.2).1]
        · have := hf i
          simpa [tableFind, show ¬ i < j by omega, show ¬ i = j by omega] using this
  refine key m m' 0 h h' fun i => ?_
  have hi := hg i
  unfold bufGet at hi
  cases hm : tableFind m i with
  | none =>
    cases hm' : tableFind m' i with
    | none => rfl
    | some v =>
      rw [hm, hm'] at hi
      have hv : v ≠ Config.unwrittenByte := by
        have hmem : (i, v) ∈ m' := mem_of_tableFind hm'
        exact (wf_iff.1 h').2 _ hmem
      exact absurd hi.symm hv
  | some v =>
    have hv : v ≠ Config.unwrittenByte := (wf_iff.1 h).2 _ (mem_of_tableFind hm)
    cases hm' : tableFind m' i with
    | none =>
      rw [hm, hm'] at hi
      exact absurd hi hv
    | some v' =>
      rw [hm, hm'] at hi
      exact congrArg some hi
where
  mem_of_tableFind : ∀ {m : Memory} {i : Nat} {v : Byte}, tableFind m i = some v → (i, v) ∈ m
  | [], _, _, h => by simp [tableFind] at h
  | (j, w) :: rest, i, v, h => by
    unfold tableFind at h
    split at h
    · cases h
    · split at h
      · subst_vars; cases h; exact List.mem_cons_self ..
      · exact List.mem_cons_of_mem _ (mem_of_tableFind h)

/-- The cells a write leaves are the old ones and the one written. -/
theorem mem_bufSet {m : Memory} {i : Nat} {v : Byte} {x : Host.Cell} (h : x ∈ bufSet m i v) : x.1 = i ∨ x ∈ m := by
  unfold bufSet at h
  split at h
  · exact .inr (mem_tableDrop h)
  · rcases mem_tablePut h with rfl | h
    · exact .inl rfl
    · exact .inr h

/-- The cells consecutive writes leave are the old ones and the ones written. -/
theorem mem_bufSetMany {x : Host.Cell} : ∀ (vs : List Byte) {m : Memory} {i : Nat}, x ∈ bufSetMany m i vs →
    (i ≤ x.1 ∧ x.1 < i + vs.length) ∨ x ∈ m
  | [], _, _, h => .inr h
  | v :: vs, m, i, h => by
    rcases mem_bufSetMany vs h with h | h
    · left; simp; omega
    · rcases mem_bufSet h with h | h
      · left; simp; omega
      · exact .inr h

/-- Every buffer after reset is canonical. -/
theorem reset_buffersWf (p : Params) : (State.resetWith p).buffersWf := by
  intro c
  simp [ctxOf, State.resetWith, Context.reset]

/-- Every buffer after a fault is canonical. -/
theorem unspecified_wf (draw ctx : Nat) : Memory.wf (unspecifiedContext draw ctx).buf = true := wf_bufOfCells _

end Sys2Proof.Machine
end

