-- ==== Sys2Proof/Laws/State.lean ====
section
/-! SUPPORT. What each named update of the state does to each field of it. -/

namespace Sys2Proof.Machine

/-! ## `respond` -/

@[simp] theorem respond_params (rc : RespCode) (v : Word) (s : State) : (respond rc v s).params = s.params := rfl
@[simp] theorem respond_pending (rc : RespCode) (v : Word) (s : State) : (respond rc v s).pending = s.pending := rfl
@[simp] theorem respond_a (rc : RespCode) (v : Word) (s : State) : (respond rc v s).a = s.a := rfl
@[simp] theorem respond_b (rc : RespCode) (v : Word) (s : State) : (respond rc v s).b = s.b := rfl
@[simp] theorem respond_k (rc : RespCode) (v : Word) (s : State) : (respond rc v s).k = s.k := rfl
@[simp] theorem respond_r (rc : RespCode) (v : Word) (s : State) : (respond rc v s).r = v := rfl
@[simp] theorem respond_rc (rc : RespCode) (v : Word) (s : State) : (respond rc v s).rc = rc := rfl
@[simp] theorem respond_ctxs (rc : RespCode) (v : Word) (s : State) : (respond rc v s).ctxs = s.ctxs := rfl
@[simp] theorem respond_modelReady (rc : RespCode) (v : Word) (s : State) :
    (respond rc v s).modelReady = s.modelReady := rfl
@[simp] theorem respond_fault (rc : RespCode) (v : Word) (s : State) : (respond rc v s).fault = s.fault := rfl
@[simp] theorem respond_fcause (rc : RespCode) (v : Word) (s : State) : (respond rc v s).fcause = s.fcause := rfl
@[simp] theorem respond_enc (rc : RespCode) (v : Word) (s : State) : (respond rc v s).enc = s.enc := rfl
@[simp] theorem respond_dec (rc : RespCode) (v : Word) (s : State) : (respond rc v s).dec = s.dec := rfl
@[simp] theorem respond_freeCount (rc : RespCode) (v : Word) (s : State) :
    (respond rc v s).freeCount = s.freeCount := rfl
@[simp] theorem respond_ctxOf (rc : RespCode) (v : Word) (s : State) (c : CtxNum) :
    ctxOf (respond rc v s) c = ctxOf s c := rfl

/-! ## `setCtx` -/

@[simp] theorem setCtx_params (c : CtxNum) (C : Context) (s : State) : (setCtx c C s).params = s.params := rfl
@[simp] theorem setCtx_pending (c : CtxNum) (C : Context) (s : State) : (setCtx c C s).pending = s.pending := rfl
@[simp] theorem setCtx_a (c : CtxNum) (C : Context) (s : State) : (setCtx c C s).a = s.a := rfl
@[simp] theorem setCtx_b (c : CtxNum) (C : Context) (s : State) : (setCtx c C s).b = s.b := rfl
@[simp] theorem setCtx_k (c : CtxNum) (C : Context) (s : State) : (setCtx c C s).k = s.k := rfl
@[simp] theorem setCtx_r (c : CtxNum) (C : Context) (s : State) : (setCtx c C s).r = s.r := rfl
@[simp] theorem setCtx_rc (c : CtxNum) (C : Context) (s : State) : (setCtx c C s).rc = s.rc := rfl
@[simp] theorem setCtx_modelReady (c : CtxNum) (C : Context) (s : State) :
    (setCtx c C s).modelReady = s.modelReady := rfl
@[simp] theorem setCtx_fault (c : CtxNum) (C : Context) (s : State) : (setCtx c C s).fault = s.fault := rfl
@[simp] theorem setCtx_fcause (c : CtxNum) (C : Context) (s : State) : (setCtx c C s).fcause = s.fcause := rfl
@[simp] theorem setCtx_enc (c : CtxNum) (C : Context) (s : State) : (setCtx c C s).enc = s.enc := rfl
@[simp] theorem setCtx_dec (c : CtxNum) (C : Context) (s : State) : (setCtx c C s).dec = s.dec := rfl
@[simp] theorem setCtx_freeCount (c : CtxNum) (C : Context) (s : State) :
    (setCtx c C s).freeCount = s.freeCount := rfl

/-- The context just written reads as written. -/
@[simp] theorem ctxOf_setCtx_self (c : CtxNum) (C : Context) (s : State) : ctxOf (setCtx c C s) c = C := by
  simp [ctxOf, setCtx]

/-- Writing a context leaves every other one alone. -/
theorem ctxOf_setCtx_of_ne {c d : CtxNum} (h : d ≠ c) (C : Context) (s : State) :
    ctxOf (setCtx c C s) d = ctxOf s d := by
  have h' : c.toNat ≠ d.toNat := fun e => h (BitVec.eq_of_toNat_eq e.symm)
  simp [ctxOf, setCtx, h']

/-- Writing a context twice keeps the last one. -/
@[simp] theorem setCtx_setCtx (c : CtxNum) (C D : Context) (s : State) :
    setCtx c D (setCtx c C s) = setCtx c D s := by
  simp only [setCtx]
  congr 1
  ext i hi
  all_goals simp [Vector.getElem_set]

/-- Writing back what a context holds changes nothing. -/
@[simp] theorem setCtx_ctxOf (c : CtxNum) (s : State) : setCtx c (ctxOf s c) s = s := by
  simp [setCtx, ctxOf]

/-- Reading a context looks at the contexts alone. -/
theorem ctxOf_congr {s t : State} (h : t.ctxs = s.ctxs) (c : CtxNum) : ctxOf t c = ctxOf s c := by
  simp [ctxOf, h]

/-- Equal contexts at every number are equal context files. -/
theorem ctxs_ext {s t : State} (h : ∀ c, ctxOf t c = ctxOf s c) : t.ctxs = s.ctxs := by
  ext1 i hi
  have := h (BitVec.ofNat 4 i)
  simpa [ctxOf, Nat.mod_eq_of_lt hi] using this

/-! ## `loadPort` -/

@[simp] theorem loadPort_params (t : Command) (rest : List PortEvent) (s : State) :
    (loadPort t rest s).params = s.params := rfl
@[simp] theorem loadPort_pending (t : Command) (rest : List PortEvent) (s : State) :
    (loadPort t rest s).pending = rest := rfl
@[simp] theorem loadPort_a (t : Command) (rest : List PortEvent) (s : State) : (loadPort t rest s).a = t.a := rfl
@[simp] theorem loadPort_b (t : Command) (rest : List PortEvent) (s : State) : (loadPort t rest s).b = t.b := rfl
@[simp] theorem loadPort_k (t : Command) (rest : List PortEvent) (s : State) : (loadPort t rest s).k = t.k := rfl
@[simp] theorem loadPort_r (t : Command) (rest : List PortEvent) (s : State) : (loadPort t rest s).r = s.r := rfl
@[simp] theorem loadPort_rc (t : Command) (rest : List PortEvent) (s : State) : (loadPort t rest s).rc = s.rc := rfl
@[simp] theorem loadPort_ctxs (t : Command) (rest : List PortEvent) (s : State) :
    (loadPort t rest s).ctxs = s.ctxs := rfl
@[simp] theorem loadPort_ctxOf (t : Command) (rest : List PortEvent) (s : State) (c : CtxNum) :
    ctxOf (loadPort t rest s) c = ctxOf s c := rfl
@[simp] theorem loadPort_modelReady (t : Command) (rest : List PortEvent) (s : State) :
    (loadPort t rest s).modelReady = s.modelReady := rfl
@[simp] theorem loadPort_fault (t : Command) (rest : List PortEvent) (s : State) :
    (loadPort t rest s).fault = s.fault := rfl
@[simp] theorem loadPort_fcause (t : Command) (rest : List PortEvent) (s : State) :
    (loadPort t rest s).fcause = s.fcause := rfl
@[simp] theorem loadPort_enc (t : Command) (rest : List PortEvent) (s : State) : (loadPort t rest s).enc = s.enc := rfl
@[simp] theorem loadPort_dec (t : Command) (rest : List PortEvent) (s : State) : (loadPort t rest s).dec = s.dec := rfl
@[simp] theorem loadPort_freeCount (t : Command) (rest : List PortEvent) (s : State) :
    (loadPort t rest s).freeCount = s.freeCount := rfl

/-! ## `drawn` -/

@[simp] theorem drawn_params (n : Nat) (s : State) : (drawn n s).params = s.params := rfl
@[simp] theorem drawn_pending (n : Nat) (s : State) : (drawn n s).pending = s.pending := rfl
@[simp] theorem drawn_a (n : Nat) (s : State) : (drawn n s).a = s.a := rfl
@[simp] theorem drawn_b (n : Nat) (s : State) : (drawn n s).b = s.b := rfl
@[simp] theorem drawn_k (n : Nat) (s : State) : (drawn n s).k = s.k := rfl
@[simp] theorem drawn_r (n : Nat) (s : State) : (drawn n s).r = s.r := rfl
@[simp] theorem drawn_rc (n : Nat) (s : State) : (drawn n s).rc = s.rc := rfl
@[simp] theorem drawn_ctxs (n : Nat) (s : State) : (drawn n s).ctxs = s.ctxs := rfl
@[simp] theorem drawn_ctxOf (n : Nat) (s : State) (c : CtxNum) : ctxOf (drawn n s) c = ctxOf s c := rfl
@[simp] theorem drawn_modelReady (n : Nat) (s : State) : (drawn n s).modelReady = s.modelReady := rfl
@[simp] theorem drawn_fault (n : Nat) (s : State) : (drawn n s).fault = s.fault := rfl
@[simp] theorem drawn_fcause (n : Nat) (s : State) : (drawn n s).fcause = s.fcause := rfl
@[simp] theorem drawn_enc (n : Nat) (s : State) : (drawn n s).enc = s.enc := rfl
@[simp] theorem drawn_dec (n : Nat) (s : State) : (drawn n s).dec = s.dec := rfl
@[simp] theorem drawn_freeCount (n : Nat) (s : State) : (drawn n s).freeCount = s.freeCount + n := rfl

/-! ## `takeFault` -/

@[simp] theorem takeFault_params (e : FaultCause) (s : State) : (takeFault e s).params = s.params := rfl
@[simp] theorem takeFault_pending (e : FaultCause) (s : State) : (takeFault e s).pending = s.pending := rfl
@[simp] theorem takeFault_a (e : FaultCause) (s : State) : (takeFault e s).a = s.a := rfl
@[simp] theorem takeFault_b (e : FaultCause) (s : State) : (takeFault e s).b = s.b := rfl
@[simp] theorem takeFault_k (e : FaultCause) (s : State) : (takeFault e s).k = s.k := rfl
@[simp] theorem takeFault_r (e : FaultCause) (s : State) : (takeFault e s).r = 0 := rfl
@[simp] theorem takeFault_rc (e : FaultCause) (s : State) : (takeFault e s).rc = respOfFault e := rfl
@[simp] theorem takeFault_fault (e : FaultCause) (s : State) : (takeFault e s).fault = true := rfl
@[simp] theorem takeFault_fcause (e : FaultCause) (s : State) :
    (takeFault e s).fcause = respBits (respOfFault e) := rfl

/-- After a fault every context is a free value (log entry 5). -/
@[simp] theorem takeFault_ctxOf (e : FaultCause) (s : State) (c : CtxNum) :
    ctxOf (takeFault e s) c = unspecifiedContext s.freeCount c.toNat := by
  simp [ctxOf, takeFault, respond]

/-! ## `hardReset` -/

@[simp] theorem hardReset_params (rest : List PortEvent) (s : State) : (hardReset rest s).params = s.params := rfl
@[simp] theorem hardReset_pending (rest : List PortEvent) (s : State) : (hardReset rest s).pending = rest := rfl
@[simp] theorem hardReset_fault (rest : List PortEvent) (s : State) : (hardReset rest s).fault = false := rfl
@[simp] theorem hardReset_fcause (rest : List PortEvent) (s : State) : (hardReset rest s).fcause = 0 := rfl
@[simp] theorem hardReset_modelReady (rest : List PortEvent) (s : State) : (hardReset rest s).modelReady = false := rfl
@[simp] theorem hardReset_rc (rest : List PortEvent) (s : State) : (hardReset rest s).rc = .ok := rfl
@[simp] theorem hardReset_r (rest : List PortEvent) (s : State) : (hardReset rest s).r = 0 := rfl

/-- After reset every context is the reset context (rule R44). -/
@[simp] theorem resetWith_ctxOf (p : Params) (c : CtxNum) : ctxOf (State.resetWith p) c = Context.reset := by
  simp [ctxOf, State.resetWith]

@[simp] theorem hardReset_ctxOf (rest : List PortEvent) (s : State) (c : CtxNum) :
    ctxOf (hardReset rest s) c = Context.reset := by
  simp [ctxOf, hardReset, State.resetWith]

end Sys2Proof.Machine
end

