-- ==== Sys2Proof/Laws/Ops.lean ====
section
/-! SUPPORT. What each shared operation can do, said once: the checks before a command, the accesses of the engine, the bit
primitives, the seeding, the two cores. -/

namespace Sys2Proof.Machine

/-! ## The ends of a command -/

@[simp] theorem conclude_ok (s t : State) (v : Word) : conclude s (.ok (v, t)) = respond .ok v t := rfl
@[simp] theorem conclude_error (s : State) (e : FaultCause) : conclude s (.error e) = takeFault e s := rfl

/-- A command ends with `OK` and a result, or takes a fault. -/
theorem conclude_cases (s : State) (e : Except FaultCause (Word × State)) :
    (∃ v t, e = .ok (v, t) ∧ conclude s e = respond .ok v t) ∨ (∃ f, e = .error f ∧ conclude s e = takeFault f s) := by
  rcases e with f | ⟨v, t⟩
  · exact .inr ⟨f, rfl, rfl⟩
  · exact .inl ⟨v, t, rfl, rfl⟩

@[simp] theorem noResult_ok (t : State) : noResult (.ok t) = .ok (0, t) := rfl
@[simp] theorem noResult_error (e : FaultCause) : noResult (.error e) = .error e := rfl

/-- Rule R100, steps 1 and 2: the faulted state, then a context that does not exist, then the command. -/
theorem prologue_cases (inFault : Bool) (cs : List CtxNum) (s : State) (body : State → State) :
    (s.fault = true ∧ inFault = false ∧ prologue inFault cs s body = respond .faulted 0 s) ∨
    ((s.fault = false ∨ inFault = true) ∧ (∃ c ∈ cs, s.params.nctx ≤ c.toNat) ∧
      prologue inFault cs s body = respond .illegalCmd 0 s) ∨
    ((s.fault = false ∨ inFault = true) ∧ (∀ c ∈ cs, c.toNat < s.params.nctx) ∧
      prologue inFault cs s body = body s) := by
  unfold prologue
  by_cases hf : (s.fault && !inFault) = true
  · left
    simp only [hf, if_true, and_true]
    simpa using hf
  · right
    simp only [hf]
    have hf' : s.fault = false ∨ inFault = true := by
      cases h1 : s.fault <;> cases h2 : inFault <;> simp_all
    by_cases hc : (cs.all fun c => decide (c.toNat < s.params.nctx)) = true
    · right
      refine ⟨hf', ?_, by simp [hc]⟩
      simpa using hc
    · left
      refine ⟨hf', ?_, by simp [hc]⟩
      simpa using hc

/-- An accepted command runs. -/
theorem prologue_accepts {cs : List CtxNum} {s : State} (h : s.accepts cs) (inFault : Bool) (body : State → State) :
    prologue inFault cs s body = body s := by
  have hc : (cs.all fun c => decide (c.toNat < s.params.nctx)) = true := by simpa using h.2
  simp [prologue, h.1, hc]

@[simp] theorem guardArg_true (body : State → State) (s : State) : guardArg true body s = body s := rfl
@[simp] theorem guardArg_false (body : State → State) (s : State) : guardArg false body s = respond .invalidArg 0 s := rfl

/-! ## Reading bytes -/

/-- Below `MAXSIZE` the byte stored, nothing else (rule R52). -/
theorem memRead_below {c : CtxNum} {i : Nat} {s : State} (h : i < (ctxOf s c).maxsize.toNat) :
    memRead c i s = (bufGet (ctxOf s c).buf i, s) := by
  simp [memRead, h]

/-- At or beyond `MAXSIZE` a free byte, fresh at the next draw (rule R52). -/
theorem memRead_beyond {c : CtxNum} {i : Nat} {s : State} (h : (ctxOf s c).maxsize.toNat ≤ i) :
    memRead c i s = (Config.freeByte s.freeCount, drawn 1 s) := by
  simp [memRead, Nat.not_lt.2 h, drawn]

/-- A read changes nothing but the count of free values drawn. -/
theorem memRead_frame (c : CtxNum) (i : Nat) (s : State) : ∃ n, (memRead c i s).2 = drawn n s := by
  rcases Nat.lt_or_ge i (ctxOf s c).maxsize.toNat with h | h
  · exact ⟨0, by rw [memRead_below h]; rfl⟩
  · exact ⟨1, by rw [memRead_beyond h]⟩

@[simp] theorem drawn_drawn (m n : Nat) (s : State) : drawn n (drawn m s) = drawn (m + n) s := by
  simp [drawn, Nat.add_assoc]

/-- Reads of consecutive bytes change nothing but the count of free values drawn. -/
theorem memReadMany_frame (c : CtxNum) : ∀ (count i : Nat) (s : State), ∃ n, (memReadMany c i count s).2 = drawn n s
  | 0, _, _ => ⟨0, rfl⟩
  | count + 1, i, s => by
    obtain ⟨m, hm⟩ := memRead_frame c i s
    obtain ⟨n, hn⟩ := memReadMany_frame c count (i + 1) (memRead c i s).2
    exact ⟨m + n, by simp only [memReadMany]; rw [hn, hm, drawn_drawn]⟩

theorem memReadMany_length (c : CtxNum) : ∀ (count i : Nat) (s : State), (memReadMany c i count s).1.length = count
  | 0, _, _ => rfl
  | count + 1, i, s => by simp [memReadMany, memReadMany_length c count]

/-- Consecutive bytes below `MAXSIZE` read as stored, and nothing changes. -/
theorem memReadMany_below (c : CtxNum) : ∀ (count i : Nat) (s : State), i + count ≤ (ctxOf s c).maxsize.toNat →
    memReadMany c i count s = ((List.range count).map fun j => bufGet (ctxOf s c).buf (i + j), s)
  | 0, _, _, _ => rfl
  | count + 1, i, s, h => by
    simp only [memReadMany]
    rw [memRead_below (by omega), memReadMany_below c count (i + 1) s (by omega), List.range_succ_eq_map]
    simp only [List.map_cons, List.map_map, Nat.add_zero]
    congr 2
    apply List.map_congr_left
    intro j _
    simp only [Function.comp]
    congr 1
    omega

/-! ## Writing bytes -/

/-- Rule R53. -/
theorem memWrite_below {C : Context} {i : Nat} (h : i < C.maxsize.toNat) (v : Byte) :
    memWrite C i v = .ok { C with buf := bufSet C.buf i v } := by
  simp [memWrite, h]

theorem memWrite_beyond {C : Context} {i : Nat} (h : C.maxsize.toNat ≤ i) (v : Byte) :
    memWrite C i v = .error .writeRange := by
  simp [memWrite, Nat.not_lt.2 h]

/-- Consecutive bytes below `MAXSIZE` are all stored. -/
theorem memWriteMany_below : ∀ (vs : List Byte) (C : Context) (i : Word), i.toNat + vs.length ≤ C.maxsize.toNat →
    memWriteMany C i vs = .ok { C with buf := bufSetMany C.buf i.toNat vs }
  | [], _, _, _ => rfl
  | v :: vs, C, i, h => by
    simp only [List.length_cons] at h
    have hlt : i.toNat < C.maxsize.toNat := by omega
    simp only [memWriteMany, memWrite_below hlt, bufSetMany, bind, Except.bind]
    rcases vs with _ | ⟨w, ws⟩
    · simp [memWriteMany, bufSetMany]
    · have hm := C.maxsize.isLt
      have hi : (i + 1).toNat = i.toNat + 1 := by
        have h1 : (1 : Word).toNat = 1 := rfl
        rw [BitVec.toNat_add, h1]
        simp only [List.length_cons] at h
        omega
      rw [memWriteMany_below (w :: ws) _ (i + 1) (by simp only [hi]; omega), hi]

/-- A write of bytes, if it does not fault, changes the buffer alone, in canonical form, below `MAXSIZE` alone. -/
theorem memWriteMany_ok : ∀ (vs : List Byte) {C D : Context} {i : Word}, memWriteMany C i vs = .ok D →
    ∃ m, D = { C with buf := m } ∧ (Memory.wf C.buf = true → Memory.wf m = true) ∧
      ∀ x ∈ m, x.1 < C.maxsize.toNat ∨ x ∈ C.buf
  | [], C, D, i, h => by cases h; exact ⟨C.buf, rfl, id, fun x hx => .inr hx⟩
  | v :: vs, C, D, i, h => by
    rcases Nat.lt_or_ge i.toNat C.maxsize.toNat with hi | hi
    · simp only [memWriteMany, memWrite_below hi, bind, Except.bind] at h
      obtain ⟨m, rfl, hwf, hm⟩ := memWriteMany_ok vs h
      refine ⟨m, rfl, fun hC => hwf (wf_bufSet hC _ _), fun x hx => ?_⟩
      rcases hm x hx with h | h
      · exact .inl h
      · rcases mem_bufSet h with h | h
        · exact .inl (by omega)
        · exact .inr h
    · simp [memWriteMany, memWrite_beyond hi, bind, Except.bind] at h

/-! ## Bits -/

/-- Rule R172: what `PutBit` does below `MAXSIZE`. -/
theorem putBit_below {C : Context} (h : C.bit.toNat / 8 < C.maxsize.toNat) (b : Bool) :
    putBit C b = .ok { C with
      buf := bufSet C.buf (C.bit.toNat / 8)
        ((if C.bit.toNat % 8 = 0 then 0 else bufGet C.buf (C.bit.toNat / 8)) |||
          ((BitVec.ofBool b).setWidth 8 <<< (C.bit.toNat % 8)))
      bit := C.bit + 1 } := by
  simp [putBit, Nat.not_le.2 h]

theorem putBit_beyond {C : Context} (h : C.maxsize.toNat ≤ C.bit.toNat / 8) (b : Bool) :
    putBit C b = .error .writeRange := by
  simp [putBit, h]

/-- `PutBit`s, if they do not fault, change the buffer and `BIT` alone, the buffer in canonical form, below `MAXSIZE`
alone. -/
theorem putBits_ok : ∀ (bits : List Bool) {C D : Context}, putBits C bits = .ok D →
    ∃ m, D = { C with buf := m, bit := C.bit + BitVec.ofNat 32 bits.length } ∧
      (Memory.wf C.buf = true → Memory.wf m = true) ∧ ∀ x ∈ m, x.1 < C.maxsize.toNat ∨ x ∈ C.buf
  | [], C, D, h => by cases h; exact ⟨C.buf, by simp, id, fun x hx => .inr hx⟩
  | b :: bs, C, D, h => by
    rcases Nat.lt_or_ge (C.bit.toNat / 8) C.maxsize.toNat with hi | hi
    · simp only [putBits, putBit_below hi, bind, Except.bind] at h
      obtain ⟨m, rfl, hwf, hm⟩ := putBits_ok bs h
      refine ⟨m, ?_, fun hC => hwf (wf_bufSet hC _ _), fun x hx => ?_⟩
      · simp only [List.length_cons]
        congr 1
        rw [BitVec.add_assoc]
        congr 1
        apply BitVec.eq_of_toNat_eq
        simp [BitVec.toNat_add, Nat.add_comm]
      · rcases hm x hx with h | h
        · exact .inl h
        · rcases mem_bufSet h with h | h
          · exact .inl (by omega)
          · exact .inr h
    · simp [putBits, putBit_beyond hi, bind, Except.bind] at h

/-- The only fault of `PutBit`s. -/
theorem putBits_error : ∀ (bits : List Bool) {C : Context} {e : FaultCause}, putBits C bits = .error e → e = .writeRange
  | [], _, _, h => by cases h
  | b :: bs, C, e, h => by
    rcases Nat.lt_or_ge (C.bit.toNat / 8) C.maxsize.toNat with hi | hi
    · simp only [putBits, putBit_below hi, bind, Except.bind] at h
      exact putBits_error bs h
    · simp only [putBits, putBit_beyond hi, bind, Except.bind] at h
      cases h; rfl

/-- One bit sequence after another. -/
theorem putBits_append : ∀ (xs ys : List Bool) (C : Context),
    putBits C (xs ++ ys) = (do let D ← putBits C xs; putBits D ys)
  | [], _, _ => rfl
  | b :: bs, ys, C => by
    simp only [List.cons_append, putBits, bind, Except.bind]
    cases putBit C b with
    | error e => rfl
    | ok D => exact putBits_append bs ys D

/-- Rule R173: `GetBit` moves `BIT` by one and changes nothing else but the count of free values drawn. -/
theorem getBit_frame (c : CtxNum) (s : State) :
    ∃ n, (getBit c s).2 = setCtx c { ctxOf s c with bit := (ctxOf s c).bit + 1 } (drawn n s) := by
  obtain ⟨n, hn⟩ := memRead_frame c ((ctxOf s c).bit.toNat / 8) s
  exact ⟨n, by simp only [getBit, hn, drawn_ctxOf]⟩

/-- Rule R173 below `MAXSIZE`: the bit stored. -/
theorem getBit_below {c : CtxNum} {s : State} (h : (ctxOf s c).bit.toNat / 8 < (ctxOf s c).maxsize.toNat) :
    getBit c s = (bitOf (ctxOf s c).buf (ctxOf s c).bit.toNat,
      setCtx c { ctxOf s c with bit := (ctxOf s c).bit + 1 } s) := by
  simp only [getBit, memRead_below h, bitOf]

/-! ## Seeding -/

/-- Rule R181: `EnsureModel` does nothing to a seeded pair, and else sets both models to `Seeded(FREQ)`. -/
theorem ensureModel_cases {s t : State} (h : ensureModel s = .ok t) :
    (s.modelReady = true ∧ t = s) ∨
      ∃ M, s.modelReady = false ∧ seeded s.params = .ok M ∧ t = { s with enc := M, dec := M, modelReady := true } := by
  unfold ensureModel at h
  split at h
  · rename_i hr
    cases h; exact .inl ⟨hr, rfl⟩
  · rename_i hr
    right
    cases hM : seeded s.params with
    | error e => simp [hM, bind, Except.bind] at h
    | ok M =>
      simp only [hM, bind, Except.bind, Except.ok.injEq] at h
      exact ⟨M, by simpa using hr, rfl, h.symm⟩

@[simp] theorem ensureModel_ready {s : State} (h : s.modelReady = true) : ensureModel s = .ok s := by
  simp [ensureModel, h]

theorem ensureModel_seed {s : State} {M : Model} (h : s.modelReady = false) (hM : seeded s.params = .ok M) :
    ensureModel s = .ok { s with enc := M, dec := M, modelReady := true } := by
  simp [ensureModel, h, hM, bind, Except.bind]

/-! ## `WriteBitsCore` -/

/-- The bytes an encoder puts, if it does not fault: the codes of rule R60, in one run of bits, and the model updated by
each byte. -/
theorem encodeBytes_ok : ∀ (ss : List Byte) {M M' : Model} {C D : Context}, encodeBytes M C ss = .ok (M', D) →
    ∃ bits, encodeStream M ss = .ok bits ∧ putBits C bits = .ok D ∧ updates M ss = .ok M'
  | [], M, M', C, D, h => by
    simp only [encodeBytes, Except.ok.injEq, Prod.mk.injEq] at h
    obtain ⟨rfl, rfl⟩ := h
    exact ⟨[], rfl, rfl, rfl⟩
  | s :: ss, M, M', C, D, h => by
    simp only [encodeBytes, encodeSymbol, bind, Except.bind] at h
    cases hp : putBits C (symbolBits M s) with
    | error e => simp [hp] at h
    | ok E =>
      cases hu : update M s with
      | error e => simp [hp, hu] at h
      | ok N =>
        simp only [hp, hu] at h
        obtain ⟨bits, h1, h2, h3⟩ := encodeBytes_ok ss h
        refine ⟨symbolBits M s ++ bits, ?_, ?_, ?_⟩
        · simp [encodeStream, hu, h1, bind, Except.bind]
        · rw [putBits_append, hp]; exact h2
        · simp [updates, hu, h3, bind, Except.bind]

/-- The compressed branch of `WriteBitsCore` (rules R60, R121), if it does not fault. -/
theorem writeCoded_ok {M M' : Model} {C D : Context} {v : Word} {n : Nat} (h : writeCoded M C v n = .ok (M', D)) :
    ∃ bits E, fieldBits M v n = .ok bits ∧ putBits C bits = .ok E ∧ updates M (wholeBytes v n) = .ok M' ∧
      D = { E with cursize := BitVec.ofNat 32 (ceil8 E.bit.toNat) } := by
  simp only [writeCoded, bind, Except.bind] at h
  cases hp : putBits C (residualBits v n) with
  | error e => simp [hp] at h
  | ok E =>
    cases he : encodeBytes M E (wholeBytes v n) with
    | error e => simp [hp, he] at h
    | ok done =>
      obtain ⟨N, F⟩ := done
      simp only [hp, he, Except.ok.injEq, Prod.mk.injEq] at h
      obtain ⟨rfl, rfl⟩ := h
      obtain ⟨bits, h1, h2, h3⟩ := encodeBytes_ok _ he
      refine ⟨residualBits v n ++ bits, F, ?_, ?_, h3, rfl⟩
      · simp [fieldBits, h1, bind, Except.bind]
      · rw [putBits_append, hp]; exact h2

/-- All `WriteBitsCore` can do (rule R121) when it does not fault: overflow, a raw write, a compressed write. -/
theorem writeBitsCore_cases {c : CtxNum} {v : Word} {n : Nat} {s t : State} (h : writeBitsCore c v n s = .ok t) :
    (headroomShort (ctxOf s c) = true ∧ t = setCtx c { ctxOf s c with overflowed := true } s) ∨
    (headroomShort (ctxOf s c) = false ∧ (ctxOf s c).oob = true ∧
      ∃ C, writeRaw (ctxOf s c) (zext n v) n = .ok C ∧ t = setCtx c C s) ∨
    (headroomShort (ctxOf s c) = false ∧ (ctxOf s c).oob = false ∧
      ∃ u M C, ensureModel s = .ok u ∧ writeCoded u.enc (ctxOf u c) (zext n v) n = .ok (M, C) ∧
        t = setCtx c C { u with enc := M }) := by
  unfold writeBitsCore at h
  by_cases hh : headroomShort (ctxOf s c) = true
  · simp only [hh, if_true, Except.ok.injEq] at h
    exact .inl ⟨hh, h.symm⟩
  · have hh' : headroomShort (ctxOf s c) = false := by simpa using hh
    simp only [hh', Bool.false_eq_true, if_false] at h
    right
    by_cases ho : (ctxOf s c).oob = true
    · left
      simp only [ho, if_true, bind, Except.bind] at h
      cases hw : writeRaw (ctxOf s c) (zext n v) n with
      | error e => simp [hw] at h
      | ok C =>
        simp only [hw, Except.ok.injEq] at h
        exact ⟨hh', ho, C, rfl, h.symm⟩
    · right
      have ho' : (ctxOf s c).oob = false := by simpa using ho
      simp only [ho', Bool.false_eq_true, if_false, bind, Except.bind] at h
      cases hu : ensureModel s with
      | error e => simp [hu] at h
      | ok u =>
        cases hw : writeCoded u.enc (ctxOf u c) (zext n v) n with
        | error e => simp [hu, hw] at h
        | ok done =>
          obtain ⟨M, C⟩ := done
          simp only [hu, hw, Except.ok.injEq] at h
          exact ⟨hh', ho', u, M, C, rfl, hw, h.symm⟩

/-! ## `ReadBitsCore` -/

/-- What a read of the engine may change: the cursors of its context, `DEC` and the seeding, the count of free values. -/
structure ReadFrame (c : CtxNum) (s t : State) : Prop where
  port : samePort s t
  fault : sameFault s t
  resp : t.r = s.r ∧ t.rc = s.rc
  others : othersSame c s t
  own : ctxOf t c = { ctxOf s c with readcount := (ctxOf t c).readcount, bit := (ctxOf t c).bit }
  ready : s.modelReady = true → t.modelReady = true ∧ t.enc = s.enc

theorem ReadFrame.refl (c : CtxNum) (s : State) : ReadFrame c s s where
  port := ⟨rfl, rfl, rfl, rfl, rfl⟩
  fault := ⟨rfl, rfl⟩
  resp := ⟨rfl, rfl⟩
  others := fun _ _ => rfl
  own := rfl
  ready := fun h => ⟨h, rfl⟩

theorem ReadFrame.trans {c : CtxNum} {s t u : State} (h : ReadFrame c s t) (h' : ReadFrame c t u) : ReadFrame c s u where
  port := by
    obtain ⟨a1, a2, a3, a4, a5⟩ := h.port
    obtain ⟨b1, b2, b3, b4, b5⟩ := h'.port
    exact ⟨b1.trans a1, b2.trans a2, b3.trans a3, b4.trans a4, b5.trans a5⟩
  fault := ⟨h'.fault.1.trans h.fault.1, h'.fault.2.trans h.fault.2⟩
  resp := ⟨h'.resp.1.trans h.resp.1, h'.resp.2.trans h.resp.2⟩
  others := fun d hd => (h'.others d hd).trans (h.others d hd)
  own := by rw [h'.own, h.own]
  ready := fun hr => by
    obtain ⟨h1, h2⟩ := h.ready hr
    obtain ⟨h3, h4⟩ := h'.ready h1
    exact ⟨h3, h4.trans h2⟩

theorem readFrame_drawn (c : CtxNum) (n : Nat) (s : State) : ReadFrame c s (drawn n s) where
  port := ⟨rfl, rfl, rfl, rfl, rfl⟩
  fault := ⟨rfl, rfl⟩
  resp := ⟨rfl, rfl⟩
  others := fun _ _ => rfl
  own := rfl
  ready := fun h => ⟨h, rfl⟩

theorem readFrame_cursors (c : CtxNum) (r b : Word) (s : State) :
    ReadFrame c s (setCtx c { ctxOf s c with readcount := r, bit := b } s) where
  port := ⟨rfl, rfl, rfl, rfl, rfl⟩
  fault := ⟨rfl, rfl⟩
  resp := ⟨rfl, rfl⟩
  others := fun _ hd => ctxOf_setCtx_of_ne hd _ _
  own := by simp
  ready := fun h => ⟨h, rfl⟩

theorem readFrame_memRead (c : CtxNum) (i : Nat) (s : State) : ReadFrame c s (memRead c i s).2 := by
  obtain ⟨n, hn⟩ := memRead_frame c i s
  rw [hn]; exact readFrame_drawn c n s

theorem readFrame_getBit (c : CtxNum) (s : State) : ReadFrame c s (getBit c s).2 := by
  obtain ⟨n, hn⟩ := getBit_frame c s
  rw [hn]
  exact (readFrame_drawn c n s).trans (readFrame_cursors c _ _ (drawn n s))

theorem readFrame_ensureModel {c : CtxNum} {s t : State} (h : ensureModel s = .ok t) : ReadFrame c s t := by
  rcases ensureModel_cases h with ⟨_, rfl⟩ | ⟨M, hr, _, rfl⟩
  · exact .refl c _
  · exact ⟨⟨rfl, rfl, rfl, rfl, rfl⟩, ⟨rfl, rfl⟩, ⟨rfl, rfl⟩, fun _ _ => rfl, rfl, fun h => by simp [hr] at h⟩

theorem readFrame_readRawBytes (c : CtxNum) : ∀ (count : Nat) (i : Word) (lo : Nat) (v : Word) (s : State),
    ReadFrame c s (readRawBytes c count i lo v s).2
  | 0, _, _, _, s => .refl c s
  | count + 1, i, _, _, s => (readFrame_memRead c i.toNat s).trans (readFrame_readRawBytes c count _ _ _ _)

theorem readFrame_readResidual (c : CtxNum) : ∀ (count i : Nat) (v : Word) (s : State),
    ReadFrame c s (readResidual c count i v s).2
  | 0, _, _, s => .refl c s
  | count + 1, _, _, s => (readFrame_getBit c s).trans (readFrame_readResidual c count _ _ _)

theorem readFrame_walk (c : CtxNum) (M : Model) : ∀ (fuel : Nat) (n : NodeId) (s : State),
    ReadFrame c s (walk (getBit c) M fuel n s).2
  | 0, _, s => .refl c s
  | fuel + 1, n, s => by
    unfold walk
    simp only
    split
    · split
      · exact readFrame_getBit c s
      · exact (readFrame_getBit c s).trans (readFrame_walk c M fuel _ _)
    · exact .refl c s

theorem readFrame_rawByte (c : CtxNum) : ∀ (count : Nat) (b : Byte) (s : State),
    ReadFrame c s (rawByte (getBit c) count b s).2
  | 0, _, s => .refl c s
  | count + 1, _, s => (readFrame_getBit c s).trans (readFrame_rawByte c count _ _)

theorem readFrame_readSymbol (c : CtxNum) (M : Model) (s : State) :
    ReadFrame c s (readSymbol (getBit c) M s).2 := by
  unfold readSymbol
  simp only
  split
  · exact readFrame_walk c M _ _ s
  · exact (readFrame_walk c M _ _ s).trans (readFrame_rawByte c _ _ _)

theorem readFrame_decodeDec {c : CtxNum} {s t : State} {b : Byte} (h : decodeDec c s = .ok (b, t)) :
    ReadFrame c s t := by
  simp only [decodeDec, decodeSymbol, bind, Except.bind] at h
  cases hu : update s.dec (readSymbol (getBit c) s.dec s).1 with
  | error e => simp [hu] at h
  | ok M =>
    simp only [hu, Except.ok.injEq, Prod.mk.injEq] at h
    obtain ⟨_, rfl⟩ := h
    have f := readFrame_readSymbol c s.dec s
    exact ⟨f.port, f.fault, f.resp, f.others, f.own, f.ready⟩

theorem readFrame_readCoded (c : CtxNum) : ∀ (count lo : Nat) (v w : Word) (s t : State),
    readCoded c count lo v s = .ok (w, t) → ReadFrame c s t
  | 0, _, _, w, s, t, h => by
    simp only [readCoded, Except.ok.injEq, Prod.mk.injEq] at h
    rw [h.2]; exact .refl c _
  | count + 1, _, _, w, s, t, h => by
    simp only [readCoded, bind, Except.bind] at h
    cases hd : decodeDec c s with
    | error e => simp [hd] at h
    | ok got =>
      obtain ⟨b, u⟩ := got
      simp only [hd] at h
      exact (readFrame_decodeDec hd).trans (readFrame_readCoded c count _ _ _ _ _ h)

/-- All `ReadBitsCore` can change (rule R124). -/
theorem readBitsCore_frame {c : CtxNum} {w : Int} {v : Word} {s t : State} (h : readBitsCore c w s = .ok (v, t)) :
    ReadFrame c s t := by
  unfold readBitsCore at h
  split at h
  · simp only [readRaw, Except.ok.injEq, Prod.mk.injEq] at h
    rw [← h.2]
    exact (readFrame_readRawBytes c (magnitude w / 8) (ctxOf s c).readcount 0 0 s).trans (readFrame_cursors c _ _ _)
  · simp only [readBitstream, bind, Except.bind] at h
    cases hu : ensureModel s with
    | error e => simp [hu] at h
    | ok u =>
      simp only [hu] at h
      split at h
      · cases h
      · rename_i done hdone
        split at hdone
        · cases hdone
        · rename_i got hc
          simp only [Except.ok.injEq, Prod.mk.injEq] at h hdone
          rw [← h.2, ← hdone]
          exact (((readFrame_ensureModel hu).trans (readFrame_readResidual c (magnitude w % 8) 0 0 u)).trans
            (readFrame_readCoded c _ _ _ _ _ _ hc)).trans (readFrame_cursors c _ (ctxOf got.2 c).bit _)

/-- All a typed read can change (rule R146). -/
theorem typedRead_frame {c : CtxNum} {w : Int} {e v : Word} {s t : State} (h : typedRead c w e s = .ok (v, t)) :
    ReadFrame c s t := by
  simp only [typedRead, bind, Except.bind] at h
  cases hr : readBitsCore c w s with
  | error e => simp [hr] at h
  | ok got =>
    simp only [hr, Except.ok.injEq, Prod.mk.injEq] at h
    rw [← h.2]; exact readBitsCore_frame hr

/-- All a delta read can change (rule R210). -/
theorem deltaRead_frame {c : CtxNum} {old v key : Word} {w : Int} {s t : State}
    (h : deltaRead c old w key s = .ok (v, t)) : ReadFrame c s t := by
  simp only [deltaRead, bind, Except.bind] at h
  cases hf : readBitsCore c 1 s with
  | error e => simp [hf] at h
  | ok flag =>
    simp only [hf] at h
    split at h
    · simp only [Except.ok.injEq, Prod.mk.injEq] at h
      rw [← h.2]; exact readBitsCore_frame hf
    · cases hr : readBitsCore c w flag.2 with
      | error e => simp [hr] at h
      | ok got =>
        simp only [hr, Except.ok.injEq, Prod.mk.injEq] at h
        rw [← h.2]; exact (readBitsCore_frame hf).trans (readBitsCore_frame hr)

/-! ## A command's next state -/

/-- Every command of the table answers with a next state (rule R260). -/
theorem exec_next (i : Instr) (s : State) : ∃ t, exec i s = .next t := by
  cases i <;> exact ⟨_, rfl⟩

end Sys2Proof.Machine
end

