-- ==== Sys2Proof/Laws/Bits.lean ====
section
/-! SUPPORT. What a run of `PutBit`s leaves, bit by bit (rules R56, R172). -/

namespace Sys2Proof.Machine

/-- The byte `PutBit` stores, bit by bit. -/
theorem putByte_bit (old : Byte) (b : Bool) (k j : Nat) (hj : j < 8) :
    (old ||| ((BitVec.ofBool b).setWidth 8 <<< k)).getLsbD j = (old.getLsbD j || (decide (j = k) && b)) := by
  simp only [BitVec.getLsbD_or, BitVec.getLsbD_shiftLeft, BitVec.getLsbD_setWidth, BitVec.getLsbD_ofBool]
  by_cases h : j = k
  · subst h; simp [hj]
  · by_cases h2 : j < k
    · simp [h, h2]
    · have : j - k ≠ 0 := by omega
      simp [h, this]

/-- One `PutBit`, bit by bit. -/
theorem bitOf_putBit {C : Context} (hwf : Memory.wf C.buf = true) (b : Bool) (x : Nat) :
    bitOf (bufSet C.buf (C.bit.toNat / 8)
      ((if C.bit.toNat % 8 = 0 then 0 else bufGet C.buf (C.bit.toNat / 8)) |||
        ((BitVec.ofBool b).setWidth 8 <<< (C.bit.toNat % 8)))) x = bitAfterPut C [b] x := by
  have hx : x % 8 < 8 := Nat.mod_lt _ (by decide)
  unfold bitOf bitAfterPut
  rw [bufGet_bufSet hwf]
  by_cases hi : x / 8 = C.bit.toNat / 8
  · rw [if_pos hi, putByte_bit _ _ _ _ hx, ← hi]
    by_cases hk : C.bit.toNat % 8 = 0
    · by_cases he : x = C.bit.toNat
      · subst he; simp [hk]; omega
      · have h1 : ¬ (x % 8 = 0) := by omega
        have h2 : ¬ (C.bit.toNat ≤ x ∧ x < C.bit.toNat + [b].length) := by simp; omega
        have h3 : C.bit.toNat ≤ x / 8 * 8 ∧ x / 8 * 8 < C.bit.toNat + [b].length := by simp; omega
        rw [if_neg h2, if_pos h3]
        simp [hk, h1]
    · by_cases he : x = C.bit.toNat
      · subst he
        have : C.bit.toNat / 8 * 8 < C.bit.toNat := by omega
        simp [hk, bitOf, this, Bool.or_comm]
      · have h1 : ¬ (x % 8 = C.bit.toNat % 8) := by omega
        have h2 : ¬ (C.bit.toNat ≤ x ∧ x < C.bit.toNat + [b].length) := by simp; omega
        have h3 : ¬ (C.bit.toNat ≤ x / 8 * 8 ∧ x / 8 * 8 < C.bit.toNat + [b].length) := by simp; omega
        rw [if_neg h2, if_neg h3]
        simp [hk, h1, bitOf]
  · have h2 : ¬ (C.bit.toNat ≤ x ∧ x < C.bit.toNat + [b].length) := by simp; omega
    have h3 : ¬ (C.bit.toNat ≤ x / 8 * 8 ∧ x / 8 * 8 < C.bit.toNat + [b].length) := by simp; omega
    rw [if_neg hi, if_neg h2, if_neg h3]
    rfl

/-- A run of bits is its first bit, then the others. -/
theorem bitAfterPut_cons {C D : Context} (b : Bool) (bs : List Bool) (hbit : D.bit.toNat = C.bit.toNat + 1)
    (hbuf : ∀ x, bitOf D.buf x = bitAfterPut C [b] x) (x : Nat) :
    bitAfterPut D bs x = bitAfterPut C (b :: bs) x := by
  unfold bitAfterPut
  rw [hbuf, hbit]
  unfold bitAfterPut
  simp only [List.length_cons, List.length_nil]
  rcases Nat.lt_trichotomy x C.bit.toNat with h | h | h
  · rw [if_neg (by omega), if_neg (by omega), if_neg (by omega), if_neg (by omega), if_neg (by omega),
      if_neg (by omega)]
  · subst h
    rw [if_neg (by omega), if_neg (by omega), if_pos (by omega), if_pos (by omega)]
    simp
  · by_cases h1 : x < C.bit.toNat + 1 + bs.length
    · have e : x - C.bit.toNat = (x - (C.bit.toNat + 1)) + 1 := by omega
      rw [if_pos (by omega), if_neg (by omega), if_pos (show C.bit.toNat ≤ x ∧ x < C.bit.toNat + (bs.length + 1) by omega),
        e, List.getD_cons_succ]
      by_cases h2 : C.bit.toNat ≤ x / 8 * 8 ∧ x / 8 * 8 < C.bit.toNat + (0 + 1)
      · rw [if_pos h2]
        simp [show ¬ x / 8 * 8 < C.bit.toNat by omega]
      · rw [if_neg h2]
        by_cases h3 : x / 8 * 8 < C.bit.toNat
        · simp [h3, show x / 8 * 8 < C.bit.toNat + 1 by omega]
        · simp [h3, show ¬ x / 8 * 8 < C.bit.toNat + 1 by omega]
    · rw [if_neg (show ¬ (C.bit.toNat + 1 ≤ x ∧ x < C.bit.toNat + 1 + bs.length) by omega),
        if_neg (show ¬ (C.bit.toNat ≤ x ∧ x < C.bit.toNat + (0 + 1)) by omega),
        if_neg (show ¬ (C.bit.toNat ≤ x ∧ x < C.bit.toNat + (bs.length + 1)) by omega)]
      by_cases h2 : C.bit.toNat + 1 ≤ x / 8 * 8 ∧ x / 8 * 8 < C.bit.toNat + 1 + bs.length
      · rw [if_pos h2, if_pos (by omega)]
      · rw [if_neg h2]
        by_cases h3 : C.bit.toNat ≤ x / 8 * 8 ∧ x / 8 * 8 < C.bit.toNat + (0 + 1)
        · rw [if_pos h3, if_pos (by omega)]
        · rw [if_neg h3, if_neg (by omega)]

/-- No bits put leave every bit as it was. -/
theorem bitAfterPut_nil (C : Context) (x : Nat) : bitAfterPut C [] x = bitOf C.buf x := by
  unfold bitAfterPut
  rw [if_neg (by simp), if_neg (by simp)]

/-- Bits that fit below `MAXSIZE` are all put, and the buffer then reads as `bitAfterPut` says. -/
theorem putBits_fit : ∀ (bits : List Bool) {C : Context}, Memory.wf C.buf = true → C.maxsize.toNat ≤ 2 ^ 28 →
    C.bit.toNat + bits.length ≤ 8 * C.maxsize.toNat →
    ∃ m, putBits C bits = .ok { C with buf := m, bit := C.bit + BitVec.ofNat 32 bits.length } ∧
      Memory.wf m = true ∧ ∀ x, bitOf m x = bitAfterPut C bits x
  | [], C, hwf, _, _ => ⟨C.buf, by simp [putBits], hwf, fun x => (bitAfterPut_nil C x).symm⟩
  | b :: bs, C, hwf, hmax, hfit => by
    simp only [List.length_cons] at hfit
    have hi : C.bit.toNat / 8 < C.maxsize.toNat := by omega
    have h1 : (1 : Word).toNat = 1 := rfl
    have hbit : (C.bit + 1).toNat = C.bit.toNat + 1 := by
      rw [BitVec.toNat_add, h1]; omega
    obtain ⟨D, hD, hDbit, hDmax, hDwf, hDbuf, hDrest⟩ : ∃ D, putBit C b = .ok D ∧ D.bit = C.bit + 1 ∧
        D.maxsize = C.maxsize ∧ Memory.wf D.buf = true ∧ (∀ x, bitOf D.buf x = bitAfterPut C [b] x) ∧
        ∀ m n, { D with buf := m, bit := n } = { C with buf := m, bit := n } :=
      ⟨_, putBit_below hi b, rfl, rfl, wf_bufSet hwf _ _, bitOf_putBit hwf b, fun _ _ => rfl⟩
    obtain ⟨m, hm, hwf', hbits⟩ := putBits_fit bs hDwf (hDmax ▸ hmax) (by rw [hDbit, hbit, hDmax]; omega)
    have e : C.bit + 1 + BitVec.ofNat 32 bs.length = C.bit + BitVec.ofNat 32 (bs.length + 1) := by
      rw [BitVec.add_assoc]
      congr 1
      apply BitVec.eq_of_toNat_eq
      simp [BitVec.toNat_add, Nat.add_comm]
    refine ⟨m, ?_, hwf', fun x => ?_⟩
    · simp only [putBits, hD, bind, Except.bind, List.length_cons]
      rw [hm, hDrest, hDbit, e]
    · rw [hbits]
      exact bitAfterPut_cons b bs (by rw [hDbit, hbit]) hDbuf x

/-- Bits that do not fit below `MAXSIZE` fault. -/
theorem putBits_unfit : ∀ (bits : List Bool) {C : Context}, C.maxsize.toNat ≤ 2 ^ 28 → bits ≠ [] →
    8 * C.maxsize.toNat < C.bit.toNat + bits.length → putBits C bits = .error .writeRange
  | [], _, _, h, _ => absurd rfl h
  | b :: bs, C, hmax, _, hfit => by
    simp only [List.length_cons] at hfit
    rcases Nat.lt_or_ge (C.bit.toNat / 8) C.maxsize.toNat with hi | hi
    · have h1 : (1 : Word).toNat = 1 := rfl
      have hbit : (C.bit + 1).toNat = C.bit.toNat + 1 := by
        rw [BitVec.toNat_add, h1]; omega
      simp only [putBits, putBit_below hi, bind, Except.bind]
      refine putBits_unfit bs hmax ?_ (by simp only [hbit]; omega)
      rintro rfl
      simp only [List.length_nil] at hfit
      omega
    · simp [putBits, putBit_beyond hi, bind, Except.bind]

end Sys2Proof.Machine
end

