-- ==== Sys2Proof/Laws/PerInstr.lean ====
section
/-! SUPPORT. What holds of every instruction, said instruction by instruction: its word belongs to its row of the opcode table
(rule R85). -/

namespace Sys2Proof.Laws.InRow

open Sys2Proof.Machine

/-- The word of `i` has the opcode of `i`'s row and zero in the fields its format says must be 0. -/
def Statement (i : Instr) : Prop := encode i &&& rowMask i = rowMatch i

/-- A packed word, bit by bit (rule R80). -/
theorem pack_bit (opc : BitVec 8) (c d : CtxNum) (w7 : BitVec 7) (i : Nat) :
    (pack opc c d w7).getLsbD i = if i < 7 then w7.getLsbD i else if i < 16 then false else
      if i < 20 then d.getLsbD (i - 16) else if i < 24 then c.getLsbD (i - 20) else opc.getLsbD (i - 24) := by
  have h : (pack opc c d w7).getLsbD i = (opc ++ c ++ d ++ (0 : BitVec 9) ++ w7).getLsbD i := rfl
  rw [h]
  simp only [BitVec.getLsbD_append]
  by_cases h1 : i < 7
  · simp [h1]
  · by_cases h2 : i < 16
    · simp [h1, h2, show i - 7 < 9 by omega]
    · by_cases h3 : i < 20
      · simp [h1, h2, h3, show ¬ i - 7 < 9 by omega, show i - 16 < 4 by omega, Nat.sub_sub]
      · by_cases h4 : i < 24
        · simp [h1, h2, h3, h4, show ¬ i - 7 < 9 by omega, show ¬ i - 16 < 4 by omega, show i - 20 < 4 by omega,
            Nat.sub_sub]
        · simp [h1, h2, h3, h4, show ¬ i - 7 < 9 by omega, show ¬ i - 16 < 4 by omega, show ¬ i - 20 < 4 by omega,
            Nat.sub_sub]

/-- A word of format N. -/
theorem packed_n (opc : BitVec 8) (c : CtxNum) : pack opc c 0 0 &&& 0xFF0FFFFF = opc.setWidth 32 <<< 24 := by
  apply BitVec.eq_of_getLsbD_eq
  intro i hi
  rw [BitVec.getLsbD_and, pack_bit]
  interval_cases i <;> simp

/-- A word of format W. -/
theorem packed_w (opc : BitVec 8) (c : CtxNum) (w7 : BitVec 7) :
    pack opc c 0 w7 &&& 0xFF0FFF80 = opc.setWidth 32 <<< 24 := by
  apply BitVec.eq_of_getLsbD_eq
  intro i hi
  rw [BitVec.getLsbD_and, pack_bit]
  interval_cases i <;> simp

/-- A word of format C. -/
theorem packed_c (opc : BitVec 8) (c d : CtxNum) : pack opc c d 0 &&& 0xFF00FFFF = opc.setWidth 32 <<< 24 := by
  apply BitVec.eq_of_getLsbD_eq
  intro i hi
  rw [BitVec.getLsbD_and, pack_bit]
  interval_cases i <;> simp

theorem init (c : CtxNum) : Statement (.init c) := packed_n _ c
theorem initOob (c : CtxNum) : Statement (.initOob c) := packed_n _ c
theorem clear (c : CtxNum) : Statement (.clear c) := packed_n _ c
theorem beginRead (c : CtxNum) : Statement (.beginRead c) := packed_n _ c
theorem beginReadOob (c : CtxNum) : Statement (.beginReadOob c) := packed_n _ c
theorem copy (c src : CtxNum) : Statement (.copy c src) := packed_c _ c src
theorem modelInit (c : CtxNum) : Statement (.modelInit c) := packed_n _ c
theorem writeBits (c : CtxNum) (w7 : BitVec 7) : Statement (.writeBits c w7) := packed_w _ c w7
theorem readBits (c : CtxNum) (w7 : BitVec 7) : Statement (.readBits c w7) := packed_w _ c w7
theorem writeChar (c : CtxNum) : Statement (.writeChar c) := packed_n _ c
theorem writeByte (c : CtxNum) : Statement (.writeByte c) := packed_n _ c
theorem writeShort (c : CtxNum) : Statement (.writeShort c) := packed_n _ c
theorem writeLong (c : CtxNum) : Statement (.writeLong c) := packed_n _ c
theorem writeFloat (c : CtxNum) : Statement (.writeFloat c) := packed_n _ c
theorem readChar (c : CtxNum) : Statement (.readChar c) := packed_n _ c
theorem readByte (c : CtxNum) : Statement (.readByte c) := packed_n _ c
theorem readShort (c : CtxNum) : Statement (.readShort c) := packed_n _ c
theorem readLong (c : CtxNum) : Statement (.readLong c) := packed_n _ c
theorem readFloat (c : CtxNum) : Statement (.readFloat c) := packed_n _ c
theorem lookaheadByte (c : CtxNum) : Statement (.lookaheadByte c) := packed_n _ c
theorem writeDelta (c : CtxNum) (w7 : BitVec 7) : Statement (.writeDelta c w7) := packed_w _ c w7
theorem readDelta (c : CtxNum) (w7 : BitVec 7) : Statement (.readDelta c w7) := packed_w _ c w7
theorem writeDeltaFloat (c : CtxNum) : Statement (.writeDeltaFloat c) := packed_n _ c
theorem readDeltaFloat (c : CtxNum) : Statement (.readDeltaFloat c) := packed_n _ c
theorem writeDeltaKey (c : CtxNum) (w7 : BitVec 7) : Statement (.writeDeltaKey c w7) := packed_w _ c w7
theorem readDeltaKey (c : CtxNum) (w7 : BitVec 7) : Statement (.readDeltaKey c w7) := packed_w _ c w7
theorem writeDeltaKeyFloat (c : CtxNum) : Statement (.writeDeltaKeyFloat c) := packed_n _ c
theorem readDeltaKeyFloat (c : CtxNum) : Statement (.readDeltaKeyFloat c) := packed_n _ c
theorem compress (c : CtxNum) : Statement (.compress c) := packed_n _ c
theorem decompress (c : CtxNum) : Statement (.decompress c) := packed_n _ c
theorem regRead (c : CtxNum) : Statement (.regRead c) := packed_n _ c
theorem regWrite (c : CtxNum) : Statement (.regWrite c) := packed_n _ c
theorem bufRead (c : CtxNum) : Statement (.bufRead c) := packed_n _ c
theorem bufWrite (c : CtxNum) : Statement (.bufWrite c) := packed_n _ c

end Sys2Proof.Laws.InRow
end

