-- ==== Sys2Proof/Laws/Tree.lean ====
section
/-! SUPPORT. What each named update of a model does to each field of it, and to each node. -/

namespace Sys2Proof.Machine

/-- A node read after a node was written: no order of the pool's keys is needed. -/
theorem node_setNode (M : Model) (n k : NodeId) (x : Node) :
    node (setNode M n x) k = if k = n then x else node M k := by
  simp only [node, setNode, tableFind_tablePut, Fin.val_inj]
  split <;> rfl

@[simp] theorem node_setNode_self (M : Model) (n : NodeId) (x : Node) : node (setNode M n x) n = x := by
  simp [node_setNode]

theorem node_setNode_of_ne {M : Model} {n k : NodeId} (h : k ≠ n) (x : Node) :
    node (setNode M n x) k = node M k := by
  simp [node_setNode, h]

@[simp] theorem setNode_root (M : Model) (n : NodeId) (x : Node) : (setNode M n x).root = M.root := rfl
@[simp] theorem setNode_lhead (M : Model) (n : NodeId) (x : Node) : (setNode M n x).lhead = M.lhead := rfl
@[simp] theorem setNode_loc (M : Model) (n : NodeId) (x : Node) : (setNode M n x).loc = M.loc := rfl
@[simp] theorem setNode_locNyt (M : Model) (n : NodeId) (x : Node) : (setNode M n x).locNyt = M.locNyt := rfl
@[simp] theorem setNode_nnodes (M : Model) (n : NodeId) (x : Node) : (setNode M n x).nnodes = M.nnodes := rfl

/-- Each link, and the weight, of each node after one of them was written. -/
theorem node_setParent (M : Model) (n k : NodeId) (p : Option NodeId) :
    node (setParent M n p) k = if k = n then { node M k with parent := p } else node M k := by
  rw [setParent, node_setNode]; split <;> simp_all

theorem node_setLeft (M : Model) (n k : NodeId) (p : Option NodeId) :
    node (setLeft M n p) k = if k = n then { node M k with left := p } else node M k := by
  rw [setLeft, node_setNode]; split <;> simp_all

theorem node_setRight (M : Model) (n k : NodeId) (p : Option NodeId) :
    node (setRight M n p) k = if k = n then { node M k with right := p } else node M k := by
  rw [setRight, node_setNode]; split <;> simp_all

theorem node_setNext (M : Model) (n k : NodeId) (p : Option NodeId) :
    node (setNext M n p) k = if k = n then { node M k with next := p } else node M k := by
  rw [setNext, node_setNode]; split <;> simp_all

theorem node_setPrev (M : Model) (n k : NodeId) (p : Option NodeId) :
    node (setPrev M n p) k = if k = n then { node M k with prev := p } else node M k := by
  rw [setPrev, node_setNode]; split <;> simp_all

theorem node_setWeight (M : Model) (n k : NodeId) (w : Word) :
    node (setWeight M n w) k = if k = n then { node M k with weight := w } else node M k := by
  rw [setWeight, node_setNode]; split <;> simp_all

@[simp] theorem setParent_root (M : Model) (n : NodeId) (p : Option NodeId) : (setParent M n p).root = M.root := rfl
@[simp] theorem setLeft_root (M : Model) (n : NodeId) (p : Option NodeId) : (setLeft M n p).root = M.root := rfl
@[simp] theorem setRight_root (M : Model) (n : NodeId) (p : Option NodeId) : (setRight M n p).root = M.root := rfl
@[simp] theorem setNext_root (M : Model) (n : NodeId) (p : Option NodeId) : (setNext M n p).root = M.root := rfl
@[simp] theorem setPrev_root (M : Model) (n : NodeId) (p : Option NodeId) : (setPrev M n p).root = M.root := rfl
@[simp] theorem setWeight_root (M : Model) (n : NodeId) (w : Word) : (setWeight M n w).root = M.root := rfl
@[simp] theorem setParent_lhead (M : Model) (n : NodeId) (p : Option NodeId) : (setParent M n p).lhead = M.lhead := rfl
@[simp] theorem setLeft_lhead (M : Model) (n : NodeId) (p : Option NodeId) : (setLeft M n p).lhead = M.lhead := rfl
@[simp] theorem setRight_lhead (M : Model) (n : NodeId) (p : Option NodeId) : (setRight M n p).lhead = M.lhead := rfl
@[simp] theorem setNext_lhead (M : Model) (n : NodeId) (p : Option NodeId) : (setNext M n p).lhead = M.lhead := rfl
@[simp] theorem setPrev_lhead (M : Model) (n : NodeId) (p : Option NodeId) : (setPrev M n p).lhead = M.lhead := rfl
@[simp] theorem setWeight_lhead (M : Model) (n : NodeId) (w : Word) : (setWeight M n w).lhead = M.lhead := rfl

/-- `LOC[s]` after a symbol was introduced. -/
theorem tableFind_loc (t : Table NodeId) (s s' : Byte) (n : NodeId) :
    tableFind (tablePut t s.toNat n) s'.toNat = if s' = s then some n else tableFind t s'.toNat := by
  rw [tableFind_tablePut]
  by_cases h : s' = s
  · simp [h]
  · have h' : ¬ s'.toNat = s.toNat := fun e => h (BitVec.eq_of_toNat_eq e)
    simp [h, h']

/-- `Update` is one of its two parts (rule R176). -/
theorem update_cases (M : Model) (s : Byte) :
    (locOf M s = none ∧ update M s = introduce M s) ∨ ∃ n, locOf M s = some n ∧ update M s = increment M (some n) := by
  unfold update
  cases h : locOf M s with
  | none => exact .inl ⟨rfl, rfl⟩
  | some n => exact .inr ⟨n, rfl, rfl⟩

/-- Updates by one sequence after another. -/
theorem updates_append : ∀ (xs ys : List Byte) (M : Model),
    updates M (xs ++ ys) = (do let N ← updates M xs; updates N ys)
  | [], _, _ => rfl
  | x :: xs, ys, M => by
    simp only [List.cons_append, updates, bind, Except.bind]
    cases update M x with
    | error e => rfl
    | ok N => exact updates_append xs ys N

/-- A reached model stays one under `Update`. -/
theorem Model.Reached.update {M N : Model} {s : Byte} (h : M.Reached) (hu : Machine.update M s = .ok N) : N.Reached := by
  obtain ⟨bytes, hb⟩ := h
  exact ⟨bytes ++ [s], by rw [updates_append, hb]; simp [updates, hu, bind, Except.bind]⟩

/-- The empty model is reached. -/
theorem reached_empty : emptyModel.Reached := ⟨[], rfl⟩

/-! ## Walking a path -/

/-- Where the source gives the bits of a path to a leaf, the decoder's walk ends at that leaf (rule R184). -/
theorem walk_descend {σ : Type} (get : σ → Bool × σ) (M : Model) :
    ∀ (bits : List Bool) (fuel : Nat) (n m : NodeId) (t t' : σ), bits.length ≤ fuel → descend M n bits = some m →
      (node M m).symbol ≠ .internal → gives get t bits t' → walk get M fuel n t = ((node M m).symbol, t')
  | [], fuel, n, m, t, t', _, hd, hm, hg => by
    simp only [descend, Option.some.injEq] at hd
    subst hd
    cases hg
    cases fuel <;> simp [walk, hm]
  | b :: bs, 0, _, _, _, _, hl, _, _, _ => by simp at hl
  | b :: bs, fuel + 1, n, m, t, t', hl, hd, hm, hg => by
    obtain ⟨hb, hg⟩ := hg
    unfold descend at hd
    by_cases hi : (node M n).symbol = .internal
    · rw [if_pos hi] at hd
      split at hd
      · cases hd
      · rename_i k hk
        simp only [walk, hi, if_true, hb, hk]
        exact walk_descend get M bs fuel k m _ t' (by simpa using hl) hd hm hg
    · rw [if_neg hi] at hd; cases hd

/-- A walk over parents gives no more bits than its bound. -/
theorem codeFrom_length (M : Model) : ∀ (fuel : Nat) (n : NodeId) (acc : List Bool),
    (codeFrom M fuel n acc).length ≤ fuel + acc.length
  | 0, _, _ => by simp [codeFrom]
  | fuel + 1, n, acc => by
    unfold codeFrom
    split
    · omega
    · split
      · omega
      · refine (codeFrom_length M fuel _ _).trans ?_
        simp only [List.length_cons]; omega

theorem code_length (M : Model) (n : NodeId) : (code M n).length ≤ Config.poolNodes := codeFrom_length M _ n []

end Sys2Proof.Machine
end

