-- ==== Sys2Proof/Tests/Slice0.lean ====
section
/-! SUPPORT. Tests: words written out from the spec's encoding, one-step tests whose results are those of
`95_test_vectors.md` (table `Z`), and for each statement a state and operands that meet its hypotheses. -/

namespace Sys2Proof.Tests

-- One theorem at a time: some 150 at once ask for more threads than the check's memory limit allows.
set_option Elab.async false

open Sys2Proof.Machine

/-! ## Small states -/

/-- The state a command leaves. -/
def after (i : Instr) (s : State) : State :=
  match exec i s with
  | .next t => t
  | .fault _ => s
  | .refused _ => s

/-- A block whose pair is seeded with table `Z`, context 0 and the operand registers given. -/
def ready (C : Context) (a b k : Word) : State :=
  setCtx 0 C { State.reset with modelReady := true, enc := emptyModel, dec := emptyModel, a := a, b := b, k := k }

/-- A fresh context of 64 bytes. -/
def fresh (oob : Bool) : Context := { Context.reset with maxsize := 64, oob := oob }

/-- A raw-mode message of the bytes `78 56 34 12 00 80 FE` (program P2). -/
def packet : Context :=
  { fresh true with cursize := 7, buf := [(0, 0x78), (1, 0x56), (2, 0x34), (3, 0x12), (5, 0x80), (6, 0xFE)] }

/-- A compressed-mode message whose bytes are given. -/
def message (maxsize cursize bit : Word) (buf : Memory) : Context :=
  { Context.reset with maxsize := maxsize, cursize := cursize, bit := bit, buf := buf }

/-- A model whose only leaf, `0x41`, is the root and can be incremented no more. -/
def heavy : Model :=
  { nodes := [(0, { Node.unused with symbol := .byte 0x41, weight := 0xFFFFFFFF })], root := 0, lhead := 0,
    loc := [(0x41, 0)], locNyt := none, nnodes := 1 }

/-- The faulted block: the fault of V71. -/
def faulted : State := after (.writeLong 0) (ready (message 4 0 0 []) 0x04030201 0 0)

/-- A command ends in a next state, which is `after`. -/
theorem exec_after (i : Instr) (s : State) : exec i s = .next (after i s) := by
  obtain ⟨t, h⟩ := exec_next i s
  simp [after, h]

/-- What holds after a command holds of a next state. -/
theorem runs {P : State → Prop} {i : Instr} {s : State} (h : P (after i s)) : ∃ t, exec i s = .next t ∧ P t :=
  ⟨_, exec_after i s, h⟩

/-- The state a step leaves. -/
def stepped (s : State) : State :=
  match step s with
  | .next t => t
  | .fault _ => s
  | .refused _ => s

/-- A step ends in a next state, which is `stepped`. -/
theorem step_stepped (s : State) : step s = .next (stepped s) := by
  have h : ∃ t, step s = .next t := by
    unfold step
    split
    · exact ⟨_, rfl⟩
    · exact ⟨_, rfl⟩
    · unfold execWord
      split
      · exact exec_next _ _
      · exact ⟨_, rfl⟩
  obtain ⟨t, h⟩ := h
  simp [stepped, h]

/-- `Empty()` can be coded with. -/
theorem codable_empty : emptyModel.codable :=
  ⟨fun s n h => by simp [locOf, emptyModel, tableFind] at h, 0, rfl, rfl, by decide⟩

/-! ## Well-formedness -/

theorem test_wellformed_ctx : (Instr.clear 1).wellFormed 2 = true ∧ (Instr.clear 2).wellFormed 2 = false := by decide
theorem test_wellformed_src : (Instr.copy 1 1).wellFormed 2 = true ∧ (Instr.copy 1 2).wellFormed 2 = false := by decide
theorem test_wellformed_copy_ctx : (Instr.copy 2 1).wellFormed 2 = false := by decide

/-! ## Words (section 3 of `95_test_vectors.md`) -/

theorem test_decode_lifecycle :
    decode 0x01000000 = some (.init 0) ∧ decode 0x02100000 = some (.initOob 1) ∧ decode 0x03000000 = some (.clear 0) ∧
    decode 0x04100000 = some (.beginRead 1) ∧ decode 0x05000000 = some (.beginReadOob 0) ∧
    decode 0x06100000 = some (.copy 1 0) ∧ decode 0x06010000 = some (.copy 0 1) := by decide

theorem test_decode_bits :
    decode 0x1000000A = some (.writeBits 0 10) ∧ decode 0x10100078 = some (.writeBits 1 0x78) ∧ widthOf 0x78 = -8 ∧
    decode 0x11000060 = some (.readBits 0 0x60) ∧ widthOf 0x60 = -32 := by decide

theorem test_decode_typed_writes :
    decode 0x20000000 = some (.writeChar 0) ∧ decode 0x21000000 = some (.writeByte 0) ∧
    decode 0x22000000 = some (.writeShort 0) ∧ decode 0x23000000 = some (.writeLong 0) ∧
    decode 0x24000000 = some (.writeFloat 0) := by decide

theorem test_decode_typed_reads :
    decode 0x28000000 = some (.readChar 0) ∧ decode 0x29000000 = some (.readByte 0) ∧
    decode 0x2A100000 = some (.readShort 1) ∧ decode 0x2B000000 = some (.readLong 0) ∧
    decode 0x2C000000 = some (.readFloat 0) ∧ decode 0x2D000000 = some (.lookaheadByte 0) := by decide

theorem test_decode_delta :
    decode 0x3000000A = some (.writeDelta 0 10) ∧ decode 0x31100076 = some (.readDelta 1 0x76) ∧ widthOf 0x76 = -10 ∧
    decode 0x32000000 = some (.writeDeltaFloat 0) ∧ decode 0x33000000 = some (.readDeltaFloat 0) ∧
    decode 0x34000020 = some (.writeDeltaKey 0 32) ∧ decode 0x35000004 = some (.readDeltaKey 0 4) ∧
    decode 0x36000000 = some (.writeDeltaKeyFloat 0) ∧ decode 0x37100000 = some (.readDeltaKeyFloat 1) := by decide

theorem test_decode_model :
    decode 0x07000000 = some (.modelInit 0) ∧ decode 0x40000000 = some (.compress 0) ∧
    decode 0x41000000 = some (.decompress 0) := by decide

theorem test_decode_host :
    decode 0x50100000 = some (.regRead 1) ∧ decode 0x51000000 = some (.regWrite 0) ∧
    decode 0x52000000 = some (.bufRead 0) ∧ decode 0x53100000 = some (.bufWrite 1) := by decide

/-- V70, the words that are no row's. -/
theorem test_decode_refuses :
    decode 0x00000000 = none ∧ decode 0x60000000 = none ∧ decode 0x01000080 = none ∧ decode 0x01000001 = none ∧
    decode 0x01010000 = none ∧ decode 0x10000100 = none ∧ decode 0x0600000A = none := by decide

theorem test_encode_fields : encode (.copy 3 9) = 0x06390000 ∧ encode (.readDelta 1 0x76) = 0x31100076 := by decide

theorem test_table_word : decodeTableWord 32 0x50100000 = some (.regRead 1) ∧ decodeTableWord 32 0x60000000 = none := by
  decide

/-! ## The whole step -/

/-- V70: a context at `NCTX` in `CTX`, in `SRC`. -/
theorem test_illegal_contexts :
    (after (.init 2) (ready (fresh true) 4 0 0)).rc = .illegalCmd ∧
    (after (.copy 1 2) (ready (fresh true) 4 0 0)).rc = .illegalCmd := by decide

theorem test_step_fetches :
    let t := stepped ((ready (fresh true) 9 0 0).withFetchWord 32 0x50000000)
    t.rc = .ok ∧ t.r = 64 ∧ t.pending = [] := by decide

theorem test_step_illegal_word :
    let t := stepped ((ready (fresh true) 9 0 0).withFetchWord 32 0x60000000)
    t.rc = .illegalCmd ∧ t.r = 0 := by decide

theorem test_reset_memory : ∀ c : CtxNum, Memory.wf (ctxOf State.reset c).buf = true := by decide

theorem test_core_reset : Sys2Proof.core.reset = State.reset := rfl

/-! ## Memory and operands -/

theorem test_buffer_canonical :
    bufSet (bufSet [] 3 7) 1 9 = [(1, 9), (3, 7)] ∧ bufSet [(1, 9), (3, 7)] 1 0 = [(3, 7)] ∧
    bufGet [(1, 9), (3, 7)] 2 = 0 := by decide

theorem test_sext : sext 10 0x2A5 = 0xFFFFFEA5 ∧ sext 32 0x80000001 = 0x80000001 ∧ zext 4 0xFFFFFFFF = 0xF := by decide

theorem test_headroom :
    headroomShort { fresh true with maxsize := 8, cursize := 4 } = false ∧
    headroomShort { fresh true with maxsize := 8, cursize := 5 } = true := by decide

/-! ## The entropy model -/

/-- The nodes of a model, in order of the list. -/
def listed (M : Model) : List (Nat × Nat) := (listNodes M).map fun n => (n.val, (node M n).weight.toNat)

/-- The trace of rule R188, the parent case: after `61 61`. -/
theorem test_update_parent_case :
    (updates emptyModel [0x61, 0x61]).map listed = .ok [(0, 0), (1, 2), (2, 2)] := by decide +kernel

/-- The trace of rule R188, the sibling case: the list and the codes after `61 61 62 63 62`. -/
theorem test_update_sibling_case :
    (updates emptyModel [0x61, 0x61, 0x62, 0x63, 0x62]).map (fun M => (listed M, symbolBits M 0x61, symbolBits M 0x62,
      symbolBits M 0x63, nytCode M)) =
    .ok ([(0, 0), (5, 1), (6, 1), (3, 2), (1, 2), (4, 3), (2, 5)], [false], [true, true], [true, false, true],
      [true, false, false]) := by decide +kernel

/-! ## Lifecycle (V2 to V6, V32) -/

theorem test_init :
    let t := after (.init 0) { ready packet 64 0 0 with modelReady := false, enc := heavy }
    t.rc = .ok ∧ ctxOf t 0 = { packet with cursize := 0, oob := false } ∧ t.modelReady = true ∧ t.enc = emptyModel := by
  decide +kernel

theorem test_init_too_large : (after (.init 0) (ready (fresh true) 65 0 0)).rc = .invalidArg := by decide

theorem test_initOob :
    (ctxOf (after (.initOob 1) (ready packet 64 0 0)) 1) = fresh true ∧
    (ctxOf (after (.initOob 1) (ready packet 64 0 0)) 0) = packet := by decide

/-- V4. -/
theorem test_clear :
    ctxOf (after (.clear 0) (ready { fresh true with maxsize := 8, cursize := 5, readcount := 2, bit := 40, overflowed := true }
      0 0 0)) 0 = { fresh true with maxsize := 8, readcount := 2 } := by decide

/-- V5. -/
theorem test_beginRead :
    ctxOf (after (.beginRead 0) (ready { fresh true with cursize := 3, readcount := 3, bit := 17, overflowed := true } 0 0 0)) 0 =
      { fresh false with cursize := 3, overflowed := true } := by decide

theorem test_beginReadOob :
    ctxOf (after (.beginReadOob 0) (ready { fresh false with cursize := 3, readcount := 3, bit := 17 } 0 0 0)) 0 =
      { fresh true with cursize := 3 } := by decide

/-- V6, with a destination byte beyond the copy kept. -/
theorem test_copy :
    let t := after (.copy 1 0) (setCtx 1 { fresh true with buf := [(0, 1), (9, 7)] }
      (ready (message 64 3 24 [(0, 0x15), (1, 0x1C), (2, 0x55)]) 3 0 0))
    t.rc = .ok ∧ ctxOf t 1 = message 3 3 24 [(0, 0x15), (1, 0x1C), (2, 0x55), (9, 7)] := by decide

theorem test_copy_too_small :
    (after (.copy 1 0) (ready (message 64 3 24 []) 2 0 0)).rc = .copyTooSmall := by decide

theorem test_modelInit :
    let t := after (.modelInit 0) { State.reset with enc := heavy }
    t.rc = .ok ∧ t.modelReady = true ∧ t.enc = emptyModel ∧ t.dec = emptyModel := by decide +kernel

/-! ## Bits (E1, V10) -/

theorem test_writeBits :
    ctxOf (after (.writeBits 0 10) (ready (fresh false) 0x2A5 0 0)) 0 = message 64 2 10 [(0, 0x55), (1, 0x02)] := by
  decide +kernel

theorem test_writeBits_raw :
    ctxOf (after (.writeBits 0 16) (ready (fresh true) 0xABEEF 0 0)) 0 =
      { fresh true with cursize := 2, bit := 16, buf := [(0, 0xEF), (1, 0xBE)] } := by decide +kernel

theorem test_readBits :
    let t := after (.readBits 0 0x76) (ready (message 64 2 0 [(0, 0x55), (1, 0x02)]) 0 0 0)
    t.r = 0xFFFFFEA5 ∧ (ctxOf t 0).bit = 10 ∧ (ctxOf t 0).readcount = 2 ∧ (locOf t.dec 0xA9).isSome := by decide +kernel

theorem test_readBits_raw :
    let t := after (.readBits 0 0x70) (ready { packet with readcount := 4, bit := 32 } 0 0 0)
    t.r = 0xFFFF8000 ∧ (ctxOf t 0).bit = 48 ∧ (ctxOf t 0).readcount = 6 := by decide +kernel

/-! ## Typed accesses (E6, E8, V20, P2) -/

theorem test_writeChar :
    ctxOf (after (.writeChar 0) (ready (fresh false) 0xFFFFFFFE 0 0)) 0 = message 64 1 8 [(0, 0x7F)] := by decide +kernel

/-- E6, step 2: headroom 4, the write proceeds. -/
theorem test_writeByte :
    ctxOf (after (.writeByte 0) (ready { fresh true with maxsize := 8, cursize := 4, bit := 32 } 0x55 0 0)) 0 =
      { fresh true with maxsize := 8, cursize := 5, bit := 40, buf := [(4, 0x55)] } := by decide +kernel

/-- E6, step 3: headroom 3. -/
theorem test_writeByte_overflow :
    ctxOf (after (.writeByte 0) (ready { fresh true with maxsize := 8, cursize := 5, bit := 40 } 0x66 0 0)) 0 =
      { fresh true with maxsize := 8, cursize := 5, bit := 40, overflowed := true } := by decide +kernel

/-- E8, step 2. -/
theorem test_writeShort :
    ctxOf (after (.writeShort 0) (ready (fresh false) 0x4000 0 0)) 0 = message 64 3 17 [(1, 0x04)] := by decide +kernel

theorem test_writeLong :
    ctxOf (after (.writeLong 0) (ready { fresh true with maxsize := 8 } 0x11223344 0 0)) 0 =
      { fresh true with maxsize := 8, cursize := 4, bit := 32, buf := [(0, 0x44), (1, 0x33), (2, 0x22), (3, 0x11)] } := by
  decide +kernel

/-- V71. -/
theorem test_writeLong_fault : faulted.rc = .writeRange ∧ faulted.fault = true ∧ faulted.fcause = 4 ∧ faulted.r = 0 := by
  decide +kernel

theorem test_writeFloat :
    (ctxOf (after (.writeFloat 0) (ready (fresh true) 0x42B40000 0 0)) 0).buf = [(2, 0xB4), (3, 0x42)] := by decide +kernel

theorem test_readChar :
    (after (.readChar 0) (ready { packet with readcount := 6, bit := 48 } 0 0 0)).r = 0xFFFFFFFE := by decide +kernel

theorem test_readByte :
    (after (.readByte 0) (ready { packet with readcount := 6, bit := 48 } 0 0 0)).r = 0xFE := by decide +kernel

/-- P2, step 15. -/
theorem test_readByte_sentinel :
    let t := after (.readByte 0) (ready { packet with readcount := 7, bit := 56 } 0 0 0)
    t.r = 0xFFFFFFFF ∧ t.rc = .ok ∧ (ctxOf t 0).readcount = 8 ∧ (ctxOf t 0).bit = 64 := by decide +kernel

theorem test_readShort :
    (after (.readShort 0) (ready { packet with readcount := 4, bit := 32 } 0 0 0)).r = 0xFFFF8000 := by decide +kernel

theorem test_readLong : (after (.readLong 0) (ready packet 0 0 0)).r = 0x12345678 := by decide +kernel

theorem test_readFloat_sentinel :
    (after (.readFloat 0) (ready { packet with readcount := 4 } 0 0 0)).r = 0xBF800000 := by decide +kernel

theorem test_lookaheadByte :
    let t := after (.lookaheadByte 0) (ready (message 64 1 0 [(0, 0x7F)]) 0 0 0)
    t.r = 0xFE ∧ ctxOf t 0 = message 64 1 0 [(0, 0x7F)] ∧ t.dec = emptyModel := by decide +kernel

/-! ## Delta fields (E2, E3, E4, V50 to V54) -/

theorem test_writeDelta :
    ctxOf (after (.writeDelta 0 12) (ready (fresh false) 0xABC 0x155 0)) 0 = message 64 2 13 [(0, 0xB9), (1, 0x1A)] := by
  decide +kernel

/-- V53: the flag fits, the value does not. -/
theorem test_writeDelta_cut :
    ctxOf (after (.writeDelta 0 8) (ready (message 5 1 8 [(0, 0xFF)]) 0x5A 0 0)) 0 =
      { message 5 2 9 [(0, 0xFF), (1, 0x01)] with overflowed := true } := by decide +kernel

theorem test_readDelta :
    (after (.readDelta 0 12) (ready (message 64 2 0 [(0, 0xB9), (1, 0x1A)]) 0 0x155 0)).r = 0xABC := by decide +kernel

theorem test_readDelta_same :
    let t := after (.readDelta 0 12) (ready (message 64 1 0 []) 0 0x155 0)
    t.r = 0x155 ∧ (ctxOf t 0).bit = 1 := by decide +kernel

theorem test_writeDeltaFloat :
    ctxOf (after (.writeDeltaFloat 0) (ready (fresh false) 0x42B40000 0 0)) 0 =
      message 64 4 29 [(0, 0x01), (1, 0x6A), (2, 0x41), (3, 0x08)] := by decide +kernel

theorem test_readDeltaFloat :
    (after (.readDeltaFloat 0) (ready (message 64 4 0 [(0, 0x01), (1, 0x6A), (2, 0x41), (3, 0x08)]) 0 0 0)).r =
      0x42B40000 := by decide +kernel

theorem test_writeDeltaKey :
    ctxOf (after (.writeDeltaKey 0 12) (ready (fresh false) 0xABC 0x155 0xDEADBEEF)) 0 =
      message 64 2 13 [(0, 0x47), (1, 0x14)] := by decide +kernel

theorem test_readDeltaKey :
    (after (.readDeltaKey 0 12) (ready (message 64 2 0 [(0, 0x47), (1, 0x14)]) 0 0x155 0xDEADBEEF)).r = 0xABC := by
  decide +kernel

/-- E4: a negative width whose key has bit `|W| - 1` set, or not. -/
theorem test_readDeltaKey_negative :
    (after (.readDeltaKey 0 0x7C) (ready (message 64 1 0 [(0, 0x1D)]) 0 3 0xDEADBEE7)).r = 0xFFFFFFF9 := by decide +kernel

theorem test_writeDeltaKeyFloat :
    ctxOf (after (.writeDeltaKeyFloat 0) (ready (fresh false) 0x42B40000 0 0xFFFF)) 0 =
      message 64 4 29 [(0, 0xFF), (1, 0x6B), (2, 0x41), (3, 0x08)] := by decide +kernel

theorem test_readDeltaKeyFloat :
    (after (.readDeltaKeyFloat 0) (ready (message 64 4 0 [(0, 0xFF), (1, 0x6B), (2, 0x41), (3, 0x08)]) 0 0 0xFFFF)).r =
      0x42B40000 := by decide +kernel

/-! ## Whole buffers (V40, V42) -/

theorem test_compress :
    ctxOf (after (.compress 0) (ready (message 64 3 0 [(0, 0x61), (1, 0x61), (2, 0x62)]) 0 0 0)) 0 =
      message 64 5 0 [(1, 0x03), (2, 0x86), (3, 0x19), (4, 0x01)] := by decide +kernel

theorem test_compress_fault :
    (after (.compress 0) (ready (message 4 3 0 [(0, 1), (1, 2), (2, 3)]) 0 0 0)).rc = .writeRange := by decide +kernel

theorem test_decompress :
    ctxOf (after (.decompress 0) (ready (message 64 5 0 [(1, 0x03), (2, 0x86), (3, 0x19), (4, 0x01)]) 0 0 0)) 0 =
      message 64 3 0 [(0, 0x61), (1, 0x61), (2, 0x62), (3, 0x19), (4, 0x01)] := by decide +kernel

/-! ## Host access (V60, V61, V72) -/

theorem test_regRead :
    (after (.regRead 0) (ready { packet with overflowed := true } 4 0 0)).r = 3 ∧
    (after (.regRead 0) (ready packet 5 0 0)).rc = .invalidArg := by decide

/-- V72: the fault and its cause are read in the faulted state. -/
theorem test_regRead_faulted : (after (.regRead 0) { faulted with a := 8 }).r &&& 0xF2 = 0x42 ∧
    (after (.regRead 0) { faulted with a := 8 }).rc = .ok := by
  have key : ∀ b : Bool, (gstatusImage b true 4) &&& 0xF2 = 0x42 := by decide
  refine ⟨?_, by decide +kernel⟩
  have h : (after (.regRead 0) { faulted with a := 8 }).r = gstatusImage (Config.freeBit faulted.freeCount) true 4 := rfl
  rw [h]
  exact key _

theorem test_regWrite :
    ctxOf (after (.regWrite 0) (ready (fresh false) 1 5 0)) 0 = { fresh false with cursize := 5 } ∧
    (after (.regWrite 0) (ready (fresh false) 1 65 0)).rc = .invalidArg := by decide

theorem test_regWrite_flags :
    ctxOf (after (.regWrite 0) (ready (fresh false) 4 0xFFFFFFFF 0)) 0 = { fresh false with allowOverflow := true } ∧
    (after (.regWrite 0) (ready (fresh false) 3 0 0)).rc = .invalidArg := by decide

theorem test_bufRead :
    (after (.bufRead 0) (ready packet 1 0 0)).r = 0x56 ∧ (after (.bufRead 0) (ready packet 64 0 0)).rc = .invalidArg := by
  decide

theorem test_bufWrite :
    (ctxOf (after (.bufWrite 0) (ready (fresh true) 63 0x1FF 0)) 0).buf = [(63, 0xFF)] ∧
    (after (.bufWrite 0) (ready (fresh true) 64 0 0)).rc = .invalidArg := by decide

/-! ## Pseudo-operations (E7, E8) -/

theorem test_angle : angleQuantum 65536 90 = 0x4000 ∧ angleQuantum 256 (-90) = -64 ∧ truncate (-3 / 2) = -1 := by
  decide +kernel

theorem test_string :
    stringBytes 1024 false (some [0x61, 0x25, 0xE9]) = [0x61, 0x25, 0x2E, 0x00] ∧
    stringBytes 3 false (some [0x61, 0x25, 0xE9]) = [0x00] ∧ stringBytes 1024 true (some [0x25]) = [0x2E, 0x00] := by decide

theorem test_readString :
    (readString { stringMax := 1024, bigstringMax := 8192, pctBigstring := false, pctLine := false, pctWrite := false } 0
      (ready { fresh true with cursize := 4, buf := [(0, 0x61), (1, 0x25), (2, 0x62)] } 0 0 0)).1 = [0x61, 0x2E, 0x62] := by
  decide +kernel

/-! ## Witnesses: states and operands that meet the hypotheses of the statements, each clause at a boundary of its range -/

/-- A seeded block whose context 0 is `packet`, a command issued. -/
def issued (w : Word) : State := { ready packet 0 0 0 with pending := [.command { cw := w, a := 1, b := 7, k := 3 }] }

/-- A context at the last bit that still fits a byte: bit 24 of 32. -/
def lastByte : Context := message 4 0 24 [(3, 0x82)]

/-- The code of `0x41` in the empty model. -/
def code41 : List Bool := [false, true, false, false, false, false, false, true]

theorem witness_EncodeInvertsDecode : decode 0x31100076 = some (.readDelta 1 0x76) := by decide

theorem witness_DecodeSelectsTableRow :
    decode 0x06120000 = some (.copy 1 2) ∧ (0x06120000#32 &&& rowMask (.copy 0 0)) = rowMatch (.copy 0 0) ∧
    State.reset.fault = false ∧ ∃ c ∈ (Instr.copy 1 2).contexts, State.reset.params.nctx ≤ c.toNat :=
  ⟨by decide, by decide, rfl, 2, by decide, by decide⟩

theorem witness_StepRunsDecodedCommand :
    (issued 0x53100000).pending = .command { cw := 0x53100000, a := 1, b := 7, k := 3 } :: [] ∧
    decode 0x53100000 = some (.bufWrite 1) ∧ 0x53F00000 < 2 ^ 32 ∧ decode (BitVec.ofNat 32 0x53F00000) = some (.bufWrite 15) :=
  ⟨rfl, by decide, by decide, by decide⟩

theorem witness_IllegalWordsChangeOnlyTheResponse :
    State.reset.fault = false ∧ (0x06110000#32 &&& rowMask (.copy 0 0)) = rowMatch (.copy 0 0) ∧
    (fieldCtx 0x06110000).toNat < State.reset.params.nctx ∧
    (opcodeOf (.copy 0 0) = 0x06 → (fieldSrc 0x06110000).toNat < State.reset.params.nctx) ∧
    decode ((fieldOpc 0x60123456).setWidth 32 <<< 24) = none := by decide

theorem witness_ResetEventClearsEveryRegister :
    State.reset.pending = [] ∧ { faulted with pending := [.reset, .reset] }.pending = PortEvent.reset :: [.reset] :=
  ⟨rfl, rfl⟩

theorem witness_FaultedStateAnswersFaulted :
    faulted.fault = true ∧ (∀ c, Instr.clear 0 ≠ .regRead c) ∧ fieldOpc 0x51000000 ≠ 0x50 :=
  ⟨by decide +kernel, fun c h => (nomatch h), by decide⟩

theorem witness_FaultStaysUntilReset :
    let s := { faulted with pending := [.command { cw := 0x03000000, a := 0, b := 0, k := 0 }] }
    let u := { faulted with pending := [.reset] }
    s.fault = true ∧ s.pending = .command { cw := 0x03000000, a := 0, b := 0, k := 0 } :: [] ∧ (∃ t, step s = .next t) ∧
    u.pending = .reset :: [] :=
  ⟨by decide +kernel, rfl, ⟨_, step_stepped _⟩, rfl⟩

theorem witness_ReportedErrorsArePrecise :
    (∃ t, exec (.init 0) (ready packet 65 0 0) = .next t ∧ t.rc = .invalidArg) ∧
    (∃ t, exec (.copy 1 0) (ready packet 6 0 0) = .next t ∧ t.rc = .copyTooSmall) ∧
    (∃ t, exec (.clear 2) (ready packet 0 0 0) = .next t ∧ t.rc = .illegalCmd) ∧
    ∃ t, exec (.clear 0) faulted = .next t ∧ t.rc = .faulted :=
  ⟨runs (by decide), runs (by decide), runs (by decide), runs (by decide +kernel)⟩

theorem witness_FaultRecordsItsCause :
    (∃ t, exec (.writeLong 0) (ready (message 4 0 0 []) 0x04030201 0 0) = .next t ∧ t.rc = .writeRange) ∧
    (∃ t, exec (.writeByte 0) { ready (fresh false) 0x41 0 0 with enc := heavy } = .next t ∧ t.rc = .weightOvf) ∧
    ∃ t, exec (.clear 0) (ready packet 0 0 0) = .next t ∧ t.fault = false :=
  ⟨runs (by decide +kernel), runs (by decide +kernel), runs (by decide)⟩

theorem witness_OnlyCodingCommandsFault :
    (let s := ready (message 4 3 0 [(0, 1), (1, 2), (2, 3)]) 0 0 0
     s.fault = false ∧ s.sizesOk ∧ ∃ t, exec (.compress 0) s = .next t ∧ t.rc = .writeRange) ∧
    let s := { ready (message 64 1 0 [(0, 1)]) 0 0 0 with dec := heavy }
    s.fault = false ∧ s.sizesOk ∧ ∃ t, exec (.lookaheadByte 0) s = .next t ∧ t.rc = .weightOvf :=
  ⟨⟨rfl, fun _ => by decide, runs (by decide +kernel)⟩, rfl, fun _ => by decide, runs (by decide +kernel)⟩

theorem witness_InvalidArgExactlyAsTabled :
    (let s := ready packet 1 65 0
     s.accepts (Instr.regWrite 0).contexts ∧ (∃ t, exec (.regWrite 0) s = .next t ∧ t.rc = .invalidArg) ∧
       invalidArgCause s (.regWrite 0)) ∧
    let s := ready packet 1 64 0
    s.accepts (Instr.regWrite 0).contexts ∧ ∃ t, exec (.regWrite 0) s = .next t ∧ t.rc = .ok :=
  ⟨⟨by decide, runs (by decide), .inr ⟨rfl, by decide⟩⟩, by decide, runs (by decide)⟩

/-- The premises of the three invariants, at a state with a command to run. -/
theorem witness_Invariants :
    (issued 0x21000000).Inv ∧ (issued 0x21000000).modelsReached ∧ (issued 0x21000000).sizesOk ∧
    ∃ t, step (issued 0x21000000) = .next t ∧ t.fault = false :=
  ⟨⟨by decide +kernel, by decide, fun _ => by decide, by decide⟩, fun _ _ => ⟨reached_empty, reached_empty⟩,
    fun _ => by decide, ⟨_, step_stepped _, by decide +kernel⟩⟩

theorem witness_ResetMeetsStateInv : Config.params.Ok := by decide +kernel

/-- A reached model with an inner node and two leaves. -/
theorem witness_Reached : ∃ M : Model, M.Reached ∧ M.nnodes = 5 :=
  ⟨{ nodes := [(0, { Node.unused with symbol := .nyt, parent := some 4, next := some 3 }),
        (1, { Node.unused with symbol := .byte 0x61, weight := 2, parent := some 2, next := some 2, prev := some 4 }),
        (2, { Node.unused with symbol := .internal, weight := 3, left := some 4, right := some 1, prev := some 1 }),
        (3, { Node.unused with symbol := .byte 0x62, weight := 1, parent := some 4, next := some 4, prev := some 0 }),
        (4, { Node.unused with symbol := .internal, weight := 1, parent := some 2, left := some 0, right := some 3,
                               next := some 1, prev := some 3 })],
     root := 2, lhead := 0, loc := [(0x61, 1), (0x62, 3)], locNyt := some 0, nnodes := 5 },
   ⟨[0x61, 0x61, 0x62], by decide +kernel⟩, rfl⟩

theorem witness_UpdatesSucceedBelowTheWeightLimit :
    ([0x61, 0x61] : List Byte).length < 2 ^ 32 ∧ Config.params.Ok := ⟨by decide, by decide +kernel⟩

theorem witness_CommandsKeepPortAndParameters : ∃ t, exec (.regRead 0) (ready packet 9 0 0) = .next t := ⟨_, exec_after _ _⟩

theorem witness_OtherContextsAreUntouched :
    ∃ t, exec (.copy 1 0) (ready packet 64 0 0) = .next t ∧ t.fault = (ready packet 64 0 0).fault ∧
      (Instr.copy 1 0).contexts.head? ≠ some 0 := runs (by decide)

theorem witness_InitClearsCursorsAndSelectsMode :
    (ready packet 65 0 0).accepts [0] ∧ (ready packet 65 0 0).params.bufBytes < (ready packet 65 0 0).a.toNat ∧
    (ready packet 64 0 0).accepts [0] ∧ (ready packet 64 0 0).a.toNat ≤ (ready packet 64 0 0).params.bufBytes ∧
    encBefore (ready packet 64 0 0) = .ok emptyModel ∧
    encBefore { ready packet 64 0 0 with modelReady := false } = .ok emptyModel := by decide +kernel

/-- The one premise of `CLEAR`, `BEGIN_READ`, `BEGIN_READ_OOB` and of the accepted commands of host access: the last context
that exists. -/
theorem witness_accepts : (ready packet 0 0 0).accepts [1] := by decide

theorem witness_CopyDuplicatesTheSource :
    (ready packet 65 0 0).accepts [1, 0] ∧ (ctxOf (ready packet 65 0 0) 0).cursize ≤ (ctxOf (ready packet 65 0 0) 0).maxsize ∧
    Memory.wf (ctxOf (ready packet 65 0 0) 1).buf = true ∧
    (ready packet 65 0 0).params.bufBytes < (ready packet 65 0 0).a.toNat ∧
    (ready packet 6 0 0).a < (ctxOf (ready packet 6 0 0) 0).cursize ∧
    (ctxOf (ready packet 7 0 0) 0).cursize ≤ (ready packet 7 0 0).a := by decide

theorem witness_ModelInitSeedsOnce :
    State.reset.accepts [1] ∧ State.reset.modelReady = false ∧ seeded State.reset.params = .ok emptyModel ∧
    (ready packet 0 0 0).modelReady = true := by decide +kernel

theorem witness_RawWriteStoresLittleEndianBytes :
    let s := ready { fresh true with cursize := 60 } 0xBEEF 0 0
    writeForm (.writeBits 0 0x70) = some (0, 16) ∧ s.accepts [0] ∧ (ctxOf s 0).oob = true ∧ rawWidth 16 ∧
    (ctxOf s 0).cursize ≤ (ctxOf s 0).maxsize ∧ 4 ≤ (ctxOf s 0).maxsize.toNat - (ctxOf s 0).cursize.toNat ∧
    Memory.wf (ctxOf s 0).buf = true := by decide

theorem witness_WriteWithoutHeadroomOnlySetsOverflowed :
    (let s := ready { fresh true with cursize := 61 } 1 0 0
     (writeForm (.writeByte 0) = some (0, 8) ∧ ((ctxOf s 0).oob = true → rawWidth 8)) ∧ legalWidth 8 ∧ s.accepts [0] ∧
       (ctxOf s 0).cursize ≤ (ctxOf s 0).maxsize ∧ (ctxOf s 0).maxsize.toNat - (ctxOf s 0).cursize.toNat < 4) ∧
    let s := ready { fresh false with cursize := 64 } 1 0 9
    (deltaWriteForm s (.writeDeltaKeyFloat 0) = some (0, 32, 9) ∧ (ctxOf s 0).oob = false) ∧ legalWidth 32 ∧
      s.accepts [0] ∧ (ctxOf s 0).maxsize.toNat - (ctxOf s 0).cursize.toNat < 4 := by decide

theorem witness_CompressedWritePutsTheFieldBits :
    let s := ready lastByte 0x141 0 0
    writeForm (.writeByte 0) = some (0, 8) ∧ legalWidth 8 ∧ s.accepts [0] ∧ (ctxOf s 0).oob = false ∧ roomy (ctxOf s 0) ∧
    encBefore s = .ok emptyModel ∧ fieldBits emptyModel (zext 8 s.a) 8 = .ok code41 ∧
    (ctxOf s 0).bit.toNat + code41.length ≤ 8 * (ctxOf s 0).maxsize.toNat := by decide +kernel

theorem witness_CompressedWritePastMaxsizeFaults :
    let s := ready { lastByte with bit := 25 } 0x141 0 0
    s.accepts [0] ∧ (ctxOf s 0).oob = false ∧ roomy (ctxOf s 0) ∧ encBefore s = .ok emptyModel ∧
    fieldBits emptyModel (zext 8 s.a) 8 = .ok code41 ∧ code41 ≠ [] ∧
    8 * (ctxOf s 0).maxsize.toNat < (ctxOf s 0).bit.toNat + code41.length := by decide +kernel

theorem witness_WriteIgnoresSignAndHighBits :
    zext (widthOf 0x78).natAbs 0xFFFFFF41 = zext (widthOf 0x78).natAbs (ready (fresh true) 0x41 0 0).a ∧
    ∃ t, exec (.writeBits 0 0x78) (ready (fresh true) 0x41 0 0) = .next t := ⟨by decide, _, exec_after _ _⟩

theorem witness_WritesLeaveTheReaderAlone :
    (let s := ready { fresh true with cursize := 60 } 1 0 0
     writingContext s (.writeLong 0) = some 0 ∧ (ctxOf s 0).maxsize.toNat ≤ 2 ^ 28 ∧ Memory.wf (ctxOf s 0).buf = true ∧
       writeForm (.writeLong 0) = some (0, 32) ∧ ∃ t, exec (.writeLong 0) s = .next t ∧ t.fault = false) ∧
    (let s := ready (fresh true) 1 0 0
     writingContext s (.writeDelta 0 8) = some 0 ∧ writeForm (.writeDelta 0 8) = none ∧
       ∃ t, exec (.writeDelta 0 8) s = .next t ∧ t.fault = false) ∧
    let s := ready lastByte 0x41 0 0
    writingContext s (.writeByte 0) = some 0 ∧ (ctxOf s 0).oob = false ∧ Memory.wf (ctxOf s 0).buf = true ∧
      ∃ t, exec (.writeByte 0) s = .next t ∧ t.fault = false :=
  ⟨⟨by decide, by decide, by decide, by decide, runs (by decide +kernel)⟩, ⟨by decide, by decide, runs (by decide)⟩,
    by decide, by decide, by decide, runs (by decide +kernel)⟩

theorem witness_RawReadReturnsLittleEndianValue :
    (let s := ready { packet with readcount := 7 } 0 0 0
     readForm (.readByte 0) = some (0, 8, some 0xFFFFFFFF) ∧ s.accepts [0] ∧ (ctxOf s 0).oob = true ∧
       rawWidth (8 : Int).natAbs ∧
       ∃ t, exec (.readByte 0) s = .next t ∧ (ctxOf s 0).cursize < (ctxOf t 0).readcount) ∧
    (let s := ready { packet with readcount := 5 } 0 0 0
     readForm (.readShort 0) = some (0, -16, some 0xFFFFFFFF) ∧ rawWidth (-16 : Int).natAbs ∧
       (∃ t, exec (.readShort 0) s = .next t ∧ (ctxOf t 0).readcount ≤ (ctxOf s 0).cursize) ∧
       (ctxOf s 0).readcount.toNat + (-16 : Int).natAbs / 8 ≤ (ctxOf s 0).maxsize.toNat) ∧
    let s := ready { packet with readcount := 60 } 0 0 0
    readForm (.readBits 0 32) = some (0, 32, none) ∧
      (ctxOf s 0).readcount.toNat + (32 : Int).natAbs / 8 ≤ (ctxOf s 0).maxsize.toNat :=
  ⟨⟨by decide, by decide, by decide, by decide, runs (by decide +kernel)⟩,
    ⟨by decide, by decide, runs (by decide +kernel), by decide⟩, by decide, by decide⟩

theorem witness_NarrowReadTakesRawBits :
    let s := ready (message 1 1 1 [(0, 0x82)]) 0 0 0
    s.accepts [0] ∧ (ctxOf s 0).oob = false ∧ 1 ≤ (widthOf 0x79).natAbs ∧ (widthOf 0x79).natAbs < 8 ∧
    (ctxOf s 0).maxsize.toNat ≤ 2 ^ 28 ∧ (ctxOf s 0).bit.toNat + (widthOf 0x79).natAbs ≤ 8 * (ctxOf s 0).maxsize.toNat ∧
    decBefore s = .ok emptyModel := by decide

/-- `lastByte` holds the code of `0x41` in its last byte. -/
theorem holds_lastByte : holdsBits lastByte 24 code41 := ⟨by decide, by decide⟩

/-- One byte can be coded from the empty model. -/
theorem codableAlong_byte (s : Byte) : codableAlong emptyModel [s] := ⟨codable_empty, fun _ _ => trivial⟩

theorem witness_CompressedReadReturnsTheFieldHeld :
    let s := ready { lastByte with cursize := 4 } 0 0 0
    readForm (.readChar 0) = some (0, -8, some 0xFFFFFFFF) ∧ legalWidth (-8 : Int).natAbs ∧ s.accepts [0] ∧
    (ctxOf s 0).oob = false ∧ (ctxOf s 0).maxsize.toNat ≤ 2 ^ 28 ∧ decBefore s = .ok emptyModel ∧
    zext (-8 : Int).natAbs 0x41 = 0x41 ∧ fieldBits emptyModel 0x41 (-8 : Int).natAbs = .ok code41 ∧
    codableAlong emptyModel (wholeBytes 0x41 (-8 : Int).natAbs) ∧ holdsBits (ctxOf s 0) (ctxOf s 0).bit.toNat code41 ∧
    (∃ t, exec (.readChar 0) s = .next t ∧ (ctxOf t 0).readcount ≤ (ctxOf t 0).cursize) ∧
    ∃ t, exec (.readChar 0) (ready { lastByte with cursize := 3 } 0 0 0) = .next t ∧
      (ctxOf t 0).cursize < (ctxOf t 0).readcount :=
  ⟨by decide, by decide, by decide, by decide, by decide, by decide, by decide, by decide +kernel, codableAlong_byte 0x41,
    ⟨by decide, by decide⟩, runs (by decide +kernel), runs (by decide +kernel)⟩

theorem witness_ReadsLeaveTheMessageAlone :
    let s := ready (message 4 4 24 [(3, 0x82)]) 0 0 0
    readingContext s (.lookaheadByte 0) = some 0 ∧ readingContext s (.readDeltaFloat 0) = some 0 ∧
    readingContext s (.readByte 0) = some 0 ∧ ∃ t, exec (.readByte 0) s = .next t ∧ t.fault = false :=
  ⟨by decide, by decide, by decide, runs (by decide +kernel)⟩

theorem witness_TypedReadIsReadBitsThenSentinel :
    readForm (.readShort 0) = some (0, widthOf 0x70, some 0xFFFFFFFF) ∧
    (∃ u, exec (.readBits 0 0x70) (ready packet 0 0 0) = .next u ∧ u.rc = .ok) ∧
    ∃ u, exec (.readBits 0 0x70) faulted = .next u ∧ u.rc ≠ .ok :=
  ⟨by decide, runs (by decide +kernel), runs (by decide +kernel)⟩

theorem witness_LookaheadPeeksTheNextByte :
    let s := ready { lastByte with cursize := 4 } 0 0 0
    s.accepts [0] ∧ (∃ t, exec (.lookaheadByte 0) s = .next t ∧ t.rc = .ok ∧ t.freeCount = s.freeCount) ∧
    ∃ u, exec (.readByte 0) s = .next u ∧ u.rc = .ok :=
  ⟨by decide, runs (by decide +kernel), runs (by decide +kernel)⟩

theorem witness_RawLookaheadReturnsTheByte :
    (ready packet 0 0 0).accepts [0] ∧ packet.oob = true ∧ encBefore (ready packet 0 0 0) = .ok emptyModel ∧
    (let C := ctxOf (ready { packet with readcount := 7 } 0 0 0) 0
     C.cursize < C.readcount + 1) ∧
    let C := ctxOf (ready { packet with readcount := 6 } 0 0 0) 0
    C.readcount + 1 ≤ C.cursize ∧ C.readcount < C.maxsize := by decide

theorem witness_DeltaWritePutsFlagThenValue :
    (let s := ready (message 4 0 31 []) 5 5 9
     deltaWriteForm s (.writeDeltaKey 0 0x78) = some (0, 8, 9) ∧ legalWidth 8 ∧ s.accepts [0] ∧ (ctxOf s 0).oob = false ∧
       roomy (ctxOf s 0) ∧ (ctxOf s 0).bit.toNat < 8 * (ctxOf s 0).maxsize.toNat ∧ encBefore s = .ok emptyModel ∧
       s.a = s.b) ∧
    (let s := ready (message 5 1 8 []) 0x5A 0 0
     roomy (ctxOf s 0) ∧ s.a ≠ s.b ∧ (ctxOf s 0).maxsize.toNat < ceil8 ((ctxOf s 0).bit.toNat + 1) + 4) ∧
    let s := ready (message 6 2 15 []) 0x48 0 9
    deltaWriteForm s (.writeDeltaKey 0 8) = some (0, 8, 9) ∧ roomy (ctxOf s 0) ∧ s.a ≠ s.b ∧
      ceil8 ((ctxOf s 0).bit.toNat + 1) + 4 ≤ (ctxOf s 0).maxsize.toNat ∧
      fieldBits emptyModel (zext 8 (s.a ^^^ 9)) 8 = .ok code41 ∧
      (ctxOf s 0).bit.toNat + 1 + code41.length ≤ 8 * (ctxOf s 0).maxsize.toNat := by decide +kernel

theorem witness_DeltaReadTakesFlagThenValue :
    (let s := ready (message 1 1 7 []) 0 0x155 0
     deltaReadForm s (.readDelta 0 12) = some (0, 12, 0) ∧ legalWidth (12 : Int).natAbs ∧ s.accepts [0] ∧
       (ctxOf s 0).oob = false ∧ (ctxOf s 0).maxsize.toNat ≤ 2 ^ 28 ∧ decBefore s = .ok emptyModel ∧
       holdsBits (ctxOf s 0) (ctxOf s 0).bit.toNat [false]) ∧
    let s := ready (message 4 4 23 [(2, 0x80), (3, 0x82)]) 0 0 9
    deltaReadForm s (.readDeltaKey 0 0x78) = some (0, -8, 9) ∧ legalWidth (-8 : Int).natAbs ∧ (ctxOf s 0).oob = false ∧
      zext (-8 : Int).natAbs 0x41 = 0x41 ∧ fieldBits emptyModel 0x41 (-8 : Int).natAbs = .ok code41 ∧
      codableAlong emptyModel (wholeBytes 0x41 (-8 : Int).natAbs) ∧
      holdsBits (ctxOf s 0) (ctxOf s 0).bit.toNat (true :: code41) :=
  ⟨⟨by decide, by decide, by decide, by decide, by decide, by decide, by decide, by decide⟩, by decide, by decide, by decide,
    by decide, by decide +kernel, codableAlong_byte 0x41, by decide, by decide⟩

/-- The premises of the delta round trip: equal words, different words and a positive width, a negative width with the key's
bit 7 clear. -/
theorem witness_DeltaFieldReadsBack (a b : Word) (w7 : BitVec 7)
    (h : (a, b, w7) = (0x155, 0x155, 8) ∨ (a, b, w7) = (0x55, 0x155, 8) ∨ (a, b, w7) = (0xFFFFFF85, 0, 0x78)) :
    let s := ready (message 5 0 0 []) a b 0xDEADBE0F
    deltaWriteForm s (.writeDeltaKey 0 w7) = some (0, 8, 0xDEADBE0F) ∧
    deltaReadForm s (.readDeltaKey 0 w7) = some (0, widthOf w7, 0xDEADBE0F) ∧ (widthOf w7).natAbs = 8 ∧ legalWidth 8 ∧
    s.accepts [0] ∧ (ctxOf s 0).oob = false ∧ freshContext (ctxOf s 0) ∧ 5 ≤ (ctxOf s 0).maxsize.toNat ∧
    (ctxOf s 0).maxsize.toNat ≤ 2 ^ 28 ∧ Memory.wf (ctxOf s 0).buf = true ∧ s.modelReady = true ∧ s.enc = s.dec ∧
    s.enc.Reached ∧
    (s.a = s.b ∨ (0 < widthOf w7 ∧ zext 8 s.a = s.a) ∨
      (widthOf w7 < 0 ∧ sext 8 (zext 8 s.a) = s.a ∧ (0xDEADBE0F#32).getLsbD (8 - 1) = false)) ∧
    ∃ t u v, exec (.writeDeltaKey 0 w7) s = .next t ∧ t.fault = false ∧ exec (.beginRead 0) t = .next u ∧
      exec (.readDeltaKey 0 w7) u = .next v := by
  simp only [Prod.mk.injEq] at h
  rcases h with ⟨rfl, rfl, rfl⟩ | ⟨rfl, rfl, rfl⟩ | ⟨rfl, rfl, rfl⟩ <;>
  exact ⟨by decide, by decide, by decide, by decide, by decide, by decide, by decide, by decide, by decide, by decide,
    by decide, by decide, reached_empty, by decide, _, _, _, exec_after _ _, by decide +kernel, exec_after _ _,
    exec_after _ _⟩

theorem witness_CompressReplacesTheRangeByItsCodes :
    (let s := ready (message 64 3 0 []) 3 0 0
     s.accepts [0] ∧ (ctxOf s 0).cursize ≤ (ctxOf s 0).maxsize ∧ Memory.wf (ctxOf s 0).buf = true ∧ (ctxOf s 0).cursize ≤ s.a) ∧
    (let s := ready (message 5 3 0 [(2, 0x41)]) 2 0 0
     s.a < (ctxOf s 0).cursize ∧
       [0x41] = (List.range ((ctxOf s 0).cursize.toNat - s.a.toNat)).map (fun k => bufGet (ctxOf s 0).buf (s.a.toNat + k)) ∧
       [0x41#8].length ≤ 65535 ∧ seeded s.params = .ok emptyModel ∧ encodeStream emptyModel [0x41] = .ok code41 ∧
       s.a.toNat + ceil8 (16 + code41.length) ≤ (ctxOf s 0).maxsize.toNat) ∧
    let s := ready (message 4 3 0 [(2, 0x41)]) 2 0 0
    (ctxOf s 0).maxsize.toNat < s.a.toNat + ceil8 (16 + code41.length) := by decide +kernel

theorem witness_DecompressReplacesTheCodesByTheBytes :
    let s := ready (message 5 3 0 [(3, 1), (4, 0x82)]) 2 0 0
    s.accepts [0] ∧ (ctxOf s 0).cursize ≤ (ctxOf s 0).maxsize ∧ Memory.wf (ctxOf s 0).buf = true ∧
    s.a < (ctxOf s 0).cursize ∧ [0x41#8].length ≤ 65535 ∧ seeded s.params = .ok emptyModel ∧
    encodeStream emptyModel [0x41] = .ok code41 ∧ codableAlong emptyModel [0x41] ∧
    s.a.toNat + 2 ≤ (ctxOf s 0).maxsize.toNat ∧ s.a.toNat + [0x41#8].length ≤ (ctxOf s 0).maxsize.toNat ∧
    bufGet (ctxOf s 0).buf s.a.toNat = BitVec.ofNat 8 ([0x41#8].length / 256) ∧
    bufGet (ctxOf s 0).buf (s.a.toNat + 1) = BitVec.ofNat 8 [0x41#8].length ∧
    holdsBits (ctxOf s 0) (8 * s.a.toNat + 16) code41 ∧ (ctxOf (ready (message 5 3 0 []) 3 0 0) 0).cursize ≤ (3 : Word) :=
  ⟨by decide, by decide, by decide, by decide, by decide, by decide +kernel, by decide +kernel, codableAlong_byte 0x41,
    by decide, by decide, by decide, by decide, ⟨by decide, by decide⟩, by decide⟩

theorem witness_DecompressUndoesCompress :
    let s := ready (message 5 3 0 [(2, 0x41)]) 2 0 0
    s.accepts [0] ∧ (ctxOf s 0).cursize ≤ (ctxOf s 0).maxsize ∧ Memory.wf (ctxOf s 0).buf = true ∧
    ∃ t u, exec (.compress 0) s = .next t ∧ t.rc = .ok ∧ exec (.decompress 0) t = .next u :=
  ⟨by decide, by decide, by decide, _, _, exec_after _ _, by decide +kernel, exec_after _ _⟩

theorem witness_WrittenFieldReadsBack (oob : Bool) :
    let s := ready { message 4 0 0 [] with oob := oob } 0x141 0 0
    s.accepts [0] ∧ freshContext (ctxOf s 0) ∧ widthOk (ctxOf s 0).oob (widthOf 0x78) = true ∧
    4 ≤ (ctxOf s 0).maxsize.toNat ∧ (ctxOf s 0).maxsize.toNat ≤ 2 ^ 28 ∧ Memory.wf (ctxOf s 0).buf = true ∧
    s.modelReady = true ∧ s.enc = s.dec ∧ s.enc.Reached ∧
    ∃ t u v, exec (.writeBits 0 0x78) s = .next t ∧ t.fault = false ∧
      exec (if (ctxOf s 0).oob then .beginReadOob 0 else .beginRead 0) t = .next u ∧ exec (.readBits 0 0x78) u = .next v := by
  cases oob <;>
  exact ⟨by decide, by decide, by decide, by decide, by decide, by decide, by decide, by decide, reached_empty, _, _, _,
    exec_after _ _, by decide +kernel, exec_after _ _, exec_after _ _⟩

/-- Bits read from the front of a list. -/
def takeBit : List Bool → Bool × List Bool
  | [] => (false, [])
  | b :: bs => (b, bs)

theorem witness_DecoderInvertsEncoder :
    codableAlong emptyModel [0x41] ∧ encodeStream emptyModel [0x41] = .ok code41 ∧
    gives takeBit (code41 ++ [true]) code41 [true] :=
  ⟨codableAlong_byte 0x41, by decide +kernel, by simp [gives, takeBit, code41]⟩

theorem witness_RegReadReturnsTheRegister :
    (1 : CtxNum).toNat < (ready packet 11 0 0).params.nctx ∧ (ready packet 10 0 0).a ∈ ([0, 1, 2, 3, 4, 8, 9, 10] : List Word) ∧
    (ready packet 11 0 0).a ∉ ([0, 1, 2, 3, 4, 8, 9, 10] : List Word) ∧ (ready packet 8 0 0).fault = false := by decide

theorem witness_RegWriteWritesCursizeAndAllowoverflow :
    (let s := ready packet 1 65 0
     s.accepts [0] ∧ s.a = 1 ∧ (ctxOf s 0).maxsize < s.b) ∧
    ((ready packet 2 0 0).a ≠ 1 ∧ (ready packet 2 0 0).a ≠ 4) ∧
    (let s := ready packet 1 64 0
     s.a = 1 ∧ s.b ≤ (ctxOf s 0).maxsize) ∧ (ready packet 4 4 0).a = 4 := by decide

theorem witness_BufReadReturnsTheByte :
    (ready packet 64 0 0).accepts [0] ∧ (ctxOf (ready packet 64 0 0) 0).maxsize ≤ (ready packet 64 0 0).a ∧
    (ready packet 63 0 0).a < (ctxOf (ready packet 63 0 0) 0).maxsize := by decide

theorem witness_BufWriteStoresTheByte :
    (ready packet 64 0 0).accepts [0] ∧ Memory.wf (ctxOf (ready packet 64 0 0) 0).buf = true ∧
    (ctxOf (ready packet 64 0 0) 0).maxsize ≤ (ready packet 64 0 0).a ∧
    (ready packet 63 0 0).a < (ctxOf (ready packet 63 0 0) 0).maxsize := by decide

theorem witness_SwapTreeOnSiblings :
    let M := setParent (setParent (setRight (setLeft emptyModel 2 (some 0)) 2 (some 1)) 0 (some 2)) 1 (some 2)
    (0 : NodeId) ≠ 1 ∧ (2 : NodeId) ≠ 0 ∧ (2 : NodeId) ≠ 1 ∧ (node M 2).left = some 0 ∧ (node M 2).right = some 1 ∧
    (node M 0).parent = some 2 ∧ (node M 1).parent = some 2 := by decide

theorem witness_IncrementAtTheWeightLimitFaults :
    let t := { ready (message 4 0 32 []) 0x41 0 0 with enc := heavy }
    (node (passBlock heavy 0) 0).weight = BitVec.allOnes 32 ∧ locOf heavy 0x41 = some 0 ∧ t.accepts [0] ∧
    t.modelReady = true ∧ t.enc = heavy ∧ (ctxOf t 0).oob = false ∧ roomy (ctxOf t 0) ∧ t.a.setWidth 8 = (0x41 : Byte) ∧
    (ctxOf t 0).bit.toNat + (symbolBits heavy 0x41).length ≤ 8 * (ctxOf t 0).maxsize.toNat := by decide +kernel

theorem witness_RawDataReadsBack :
    let s := ready { fresh true with maxsize := 4 } 0 0 0
    s.accepts [0] ∧ (ctxOf s 0).oob = true ∧ freshContext (ctxOf s 0) ∧ ([0x61] : List Byte) ≠ [] ∧
    ([0x61] : List Byte).length + 3 ≤ (ctxOf s 0).maxsize.toNat ∧ Memory.wf (ctxOf s 0).buf = true := by decide

theorem witness_AngleReadsBackWithinOneStep :
    let s := ready { fresh true with maxsize := 4 } 0 0 0
    s.accepts [0] ∧ (ctxOf s 0).oob = true ∧ freshContext (ctxOf s 0) ∧ 4 ≤ (ctxOf s 0).maxsize.toNat ∧
    Memory.wf (ctxOf s 0).buf = true ∧ (0 : ℚ) ≤ 719 / 2 ∧ (719 / 2 : ℚ) < 360 :=
  ⟨by decide, by decide, by decide, by decide, by decide, by norm_num, by norm_num⟩

theorem witness_StringReadsBackSanitized :
    let s := ready { fresh true with maxsize := 6 } 0 0 0
    s.accepts [0] ∧ (ctxOf s 0).oob = true ∧ freshContext (ctxOf s 0) ∧
    ([0x61, 0x25] : List Byte).length + 4 ≤ (ctxOf s 0).maxsize.toNat ∧ Memory.wf (ctxOf s 0).buf = true ∧
    (∀ b ∈ ([0x61, 0x25] : List Byte), b ≠ 0) ∧ ([0x61, 0x25] : List Byte).length < 3 ∧
    2 ≤ ([0x61, 0x25] : List Byte).length := by decide

end Sys2Proof.Tests
end

section
/-! SUPPORT. What the updates of a model's links leave alone: those of the list (`NEXT`, `PREV`), those of the tree
(`PARENT`, `LEFT`, `RIGHT`, `ROOT`), and one more to a weight. -/

namespace Sys2Proof.Machine

theorem next_setNext (M : Model) (n k : NodeId) (p : Option NodeId) :
    (node (setNext M n p) k).next = if k = n then p else (node M k).next := by
  rw [node_setNext]; split <;> rfl

@[simp] theorem prev_setNext (M : Model) (n k : NodeId) (p : Option NodeId) :
    (node (setNext M n p) k).prev = (node M k).prev := by
  rw [node_setNext]; split <;> rfl

theorem prev_setPrev (M : Model) (n k : NodeId) (p : Option NodeId) :
    (node (setPrev M n p) k).prev = if k = n then p else (node M k).prev := by
  rw [node_setPrev]; split <;> rfl

@[simp] theorem next_setPrev (M : Model) (n k : NodeId) (p : Option NodeId) :
    (node (setPrev M n p) k).next = (node M k).next := by
  rw [node_setPrev]; split <;> rfl

theorem next_setNextOf (M : Model) (o : Option NodeId) (p k : NodeId) :
    (node (setNextOf M o p) k).next = if o = some k then some p else (node M k).next := by
  cases o <;> simp [setNextOf, next_setNext, eq_comm]

@[simp] theorem prev_setNextOf (M : Model) (o : Option NodeId) (p k : NodeId) :
    (node (setNextOf M o p) k).prev = (node M k).prev := by
  cases o <;> simp [setNextOf]

theorem prev_setPrevOf (M : Model) (o : Option NodeId) (p k : NodeId) :
    (node (setPrevOf M o p) k).prev = if o = some k then some p else (node M k).prev := by
  cases o <;> simp [setPrevOf, prev_setPrev, eq_comm]

@[simp] theorem next_setPrevOf (M : Model) (o : Option NodeId) (p k : NodeId) :
    (node (setPrevOf M o p) k).next = (node M k).next := by
  cases o <;> simp [setPrevOf]

/-- `M'` differs from `M` in the links of the list alone. -/
structure SameTree (M M' : Model) : Prop where
  root : M'.root = M.root
  lhead : M'.lhead = M.lhead
  loc : M'.loc = M.loc
  nnodes : M'.nnodes = M.nnodes
  parent : ∀ k, (node M' k).parent = (node M k).parent
  weight : ∀ k, (node M' k).weight = (node M k).weight

theorem SameTree.refl (M : Model) : SameTree M M := ⟨rfl, rfl, rfl, rfl, fun _ => rfl, fun _ => rfl⟩

theorem SameTree.trans {M M' M'' : Model} (h : SameTree M M') (h' : SameTree M' M'') : SameTree M M'' where
  root := h'.root.trans h.root
  lhead := h'.lhead.trans h.lhead
  loc := h'.loc.trans h.loc
  nnodes := h'.nnodes.trans h.nnodes
  parent k := (h'.parent k).trans (h.parent k)
  weight k := (h'.weight k).trans (h.weight k)

theorem sameTree_setNode {M : Model} {n : NodeId} {x : Node} (hp : x.parent = (node M n).parent)
    (hw : x.weight = (node M n).weight) : SameTree M (setNode M n x) where
  root := rfl
  lhead := rfl
  loc := rfl
  nnodes := rfl
  parent k := by rw [node_setNode]; split <;> simp_all
  weight k := by rw [node_setNode]; split <;> simp_all

theorem sameTree_setNext (M : Model) (n : NodeId) (p : Option NodeId) : SameTree M (setNext M n p) :=
  sameTree_setNode rfl rfl

theorem sameTree_setPrev (M : Model) (n : NodeId) (p : Option NodeId) : SameTree M (setPrev M n p) :=
  sameTree_setNode rfl rfl

theorem sameTree_setNextOf (M : Model) (o : Option NodeId) (p : NodeId) : SameTree M (setNextOf M o p) := by
  cases o with
  | none => exact .refl M
  | some n => exact sameTree_setNext M n (some p)

theorem sameTree_setPrevOf (M : Model) (o : Option NodeId) (p : NodeId) : SameTree M (setPrevOf M o p) := by
  cases o with
  | none => exact .refl M
  | some n => exact sameTree_setPrev M n (some p)

/-- `M'` differs from `M` in the root and the links of the tree alone. -/
structure SameList (M M' : Model) : Prop where
  lhead : M'.lhead = M.lhead
  loc : M'.loc = M.loc
  nnodes : M'.nnodes = M.nnodes
  weight : ∀ k, (node M' k).weight = (node M k).weight
  next : ∀ k, (node M' k).next = (node M k).next
  prev : ∀ k, (node M' k).prev = (node M k).prev

theorem SameList.trans {M M' M'' : Model} (h : SameList M M') (h' : SameList M' M'') : SameList M M'' where
  lhead := h'.lhead.trans h.lhead
  loc := h'.loc.trans h.loc
  nnodes := h'.nnodes.trans h.nnodes
  weight k := (h'.weight k).trans (h.weight k)
  next k := (h'.next k).trans (h.next k)
  prev k := (h'.prev k).trans (h.prev k)

theorem sameList_setNode {M : Model} {n : NodeId} {x : Node} (hw : x.weight = (node M n).weight)
    (hn : x.next = (node M n).next) (hp : x.prev = (node M n).prev) : SameList M (setNode M n x) where
  lhead := rfl
  loc := rfl
  nnodes := rfl
  weight k := by rw [node_setNode]; split <;> simp_all
  next k := by rw [node_setNode]; split <;> simp_all
  prev k := by rw [node_setNode]; split <;> simp_all

theorem sameList_setParent (M : Model) (n : NodeId) (p : Option NodeId) : SameList M (setParent M n p) :=
  sameList_setNode rfl rfl rfl

theorem sameList_setLeft (M : Model) (n : NodeId) (p : Option NodeId) : SameList M (setLeft M n p) :=
  sameList_setNode rfl rfl rfl

theorem sameList_setRight (M : Model) (n : NodeId) (p : Option NodeId) : SameList M (setRight M n p) :=
  sameList_setNode rfl rfl rfl

theorem sameList_relink (M : Model) (p : Option NodeId) (old new : NodeId) : SameList M (relink M p old new) := by
  unfold relink
  split
  · exact ⟨rfl, rfl, rfl, fun _ => rfl, fun _ => rfl, fun _ => rfl⟩
  · split <;> exact sameList_setNode rfl rfl rfl

theorem parent_setParent (M : Model) (n k : NodeId) (p : Option NodeId) :
    (node (setParent M n p) k).parent = if k = n then p else (node M k).parent := by
  rw [node_setParent]; split <;> rfl

@[simp] theorem parent_setLeft (M : Model) (n k : NodeId) (p : Option NodeId) :
    (node (setLeft M n p) k).parent = (node M k).parent := by
  rw [node_setLeft]; split <;> rfl

@[simp] theorem parent_setRight (M : Model) (n k : NodeId) (p : Option NodeId) :
    (node (setRight M n p) k).parent = (node M k).parent := by
  rw [node_setRight]; split <;> rfl

/-- Rule R179: taking a place in the tree changes no parent. -/
@[simp] theorem parent_relink (M : Model) (p : Option NodeId) (old new k : NodeId) :
    (node (relink M p old new) k).parent = (node M k).parent := by
  unfold relink
  split
  · rfl
  · split
    · exact parent_setLeft ..
    · exact parent_setRight ..

/-- Rule R179: the node that takes the place of the root is the root. -/
@[simp] theorem root_relink (M : Model) (p : Option NodeId) (old new : NodeId) :
    (relink M p old new).root = if p = none then new else M.root := by
  unfold relink
  split
  · rfl
  · split <;> rfl

/-- The weight of a node as a number. -/
def wt (M : Model) (k : NodeId) : Nat := (node M k).weight.toNat

/-- The model with one more at the weight of `n`. -/
def bump (M : Model) (n : NodeId) : Model := setWeight M n ((node M n).weight + 1)

@[simp] theorem bump_lhead (M : Model) (n : NodeId) : (bump M n).lhead = M.lhead := rfl
@[simp] theorem bump_nnodes (M : Model) (n : NodeId) : (bump M n).nnodes = M.nnodes := rfl

theorem node_bump (M : Model) (n k : NodeId) :
    node (bump M n) k = if k = n then { node M k with weight := (node M n).weight + 1 } else node M k :=
  node_setWeight ..

@[simp] theorem parent_bump (M : Model) (n k : NodeId) : (node (bump M n) k).parent = (node M k).parent := by
  rw [node_bump]; split <;> rfl

@[simp] theorem next_bump (M : Model) (n k : NodeId) : (node (bump M n) k).next = (node M k).next := by
  rw [node_bump]; split <;> rfl

@[simp] theorem prev_bump (M : Model) (n k : NodeId) : (node (bump M n) k).prev = (node M k).prev := by
  rw [node_bump]; split <;> rfl

theorem weight_bump_of_ne {M : Model} {n k : NodeId} (h : k ≠ n) :
    (node (bump M n) k).weight = (node M k).weight := by
  rw [node_bump, if_neg h]

/-- Below the limit of rule R178 the one more is one more as a number. -/
theorem wt_bump {M : Model} {n : NodeId} (h : (node M n).weight ≠ BitVec.allOnes 32) (k : NodeId) :
    wt (bump M n) k = wt M k + if k = n then 1 else 0 := by
  by_cases hk : k = n
  · subst hk
    have hne : wt M k ≠ 2 ^ 32 - 1 := fun e => h (BitVec.eq_of_toNat_eq e)
    have hlt := (node M k).weight.isLt
    have h1 : (1 : Word).toNat = 1 := rfl
    rw [if_pos rfl, wt, node_bump, if_pos rfl, BitVec.toNat_add, h1]
    unfold wt at hne ⊢
    omega
  · rw [wt, weight_bump_of_ne hk, if_neg hk, wt, Nat.add_zero]

end Sys2Proof.Machine
end

section
/-! SUPPORT. The exchanges of rule R179: `SwapList` exchanges two places of the list, `SwapTree` two places of the
tree. -/

namespace Sys2Proof.Machine

/-- Node `k` is in use (rule R39). -/
def Model.uses (M : Model) (k : NodeId) : Prop := k.val < M.nnodes

theorem uses_congr {M M' : Model} (h : M'.nnodes = M.nnodes) (k : NodeId) : M'.uses k ↔ M.uses k := by
  simp [Model.uses, h]

@[simp] theorem uses_bump (M : Model) (n k : NodeId) : (bump M n).uses k ↔ M.uses k := uses_congr (bump_nnodes M n) k

theorem uses_swap {M : Model} {a b : NodeId} (ha : M.uses a) (hb : M.uses b) (k : NodeId) :
    M.uses (Equiv.swap a b k) ↔ M.uses k := by
  rw [Equiv.swap_apply_def]
  split
  · simp_all
  · split <;> simp_all

/-- `NEXT` and `PREV` of the nodes in use are those of a list in which node `k` has place `pos k` (rule R175 (a)). -/
structure Linked (M : Model) (pos : NodeId → Nat) : Prop where
  next : ∀ k m, M.uses k → ((node M k).next = some m ↔ M.uses m ∧ pos m = pos k + 1)
  prev : ∀ k m, M.uses k → ((node M k).prev = some m ↔ M.uses m ∧ pos k = pos m + 1)

/-- Different nodes in use have different places. -/
def Placed (M : Model) (pos : NodeId → Nat) : Prop := ∀ k m, M.uses k → M.uses m → pos k = pos m → k = m

theorem Placed.swap {M : Model} {pos : NodeId → Nat} {a b : NodeId} (h : Placed M pos) (ha : M.uses a) (hb : M.uses b) :
    Placed M (pos ∘ Equiv.swap a b) := fun k m hk hm e =>
  (Equiv.swap a b).injective (h _ _ ((uses_swap ha hb k).2 hk) ((uses_swap ha hb m).2 hm) e)

/-- The first step of `SwapList`: the two nodes exchange their links (rule R179). -/
def crossLinks (M : Model) (a b : NodeId) : Model :=
  let t := (node M a).next
  let M := setNext M a (node M b).next
  let M := setNext M b t
  let t := (node M a).prev
  let M := setPrev M a (node M b).prev
  setPrev M b t

/-- The step of `SwapList` that keeps neighbours apart: a node that would follow itself follows the other (rule
R179). -/
def unloop (M : Model) (x y : NodeId) : Model := if (node M x).next = some x then setNext M x (some y) else M

theorem sameTree_unloop (M : Model) (x y : NodeId) : SameTree M (unloop M x y) := by
  unfold unloop
  split
  · exact sameTree_setNext M x _
  · exact .refl M

/-- The last step of `SwapList`: the neighbours of each node are linked to it (rule R179). -/
def linkNeighbours (M : Model) (a b : NodeId) : Model :=
  let M := setPrevOf M (node M a).next a
  let M := setPrevOf M (node M b).next b
  let M := setNextOf M (node M a).prev a
  setNextOf M (node M b).prev b

/-- `SwapList` step by step (rule R179). -/
theorem swapList_eq (M : Model) (a b : NodeId) :
    swapList M a b = linkNeighbours (unloop (unloop (crossLinks M a b) a b) b a) a b := rfl

theorem sameTree_swapList (M : Model) (a b : NodeId) : SameTree M (swapList M a b) := by
  have hcross : SameTree M (crossLinks M a b) :=
    (((sameTree_setNext ..).trans (sameTree_setNext ..)).trans (sameTree_setPrev ..)).trans (sameTree_setPrev ..)
  have hlink : ∀ N, SameTree N (linkNeighbours N a b) := fun N =>
    (((sameTree_setPrevOf ..).trans (sameTree_setPrevOf ..)).trans (sameTree_setNextOf ..)).trans
      (sameTree_setNextOf ..)
  exact ((hcross.trans (sameTree_unloop ..)).trans (sameTree_unloop ..)).trans (hlink _)

/-- A link to `x`, turned to `y`. -/
def turned (o : Option NodeId) (x y : NodeId) : Option NodeId := if o = some x then some y else o

theorem next_unloop (M : Model) (x y k : NodeId) :
    (node (unloop M x y) k).next = if k = x then turned (node M x).next x y else (node M k).next := by
  unfold turned unloop
  split
  · rw [next_setNext]
  · split <;> simp_all

@[simp] theorem prev_unloop (M : Model) (x y k : NodeId) : (node (unloop M x y) k).prev = (node M k).prev := by
  unfold unloop
  split
  · rw [prev_setNext]
  · rfl

/-- `PREV` of node `k` after `SwapList`, in terms of the links before. -/
def prevSwapped (M : Model) (a b k : NodeId) : Option NodeId :=
  if turned (node M a).next b a = some k then some b
  else if turned (node M b).next a b = some k then some a
  else if k = b then (node M a).prev else if k = a then (node M b).prev else (node M k).prev

/-- `NEXT` of node `k` after `SwapList`, in terms of the links before. -/
def nextSwapped (M : Model) (a b k : NodeId) : Option NodeId :=
  if prevSwapped M a b b = some k then some b
  else if prevSwapped M a b a = some k then some a
  else if k = b then turned (node M a).next b a else if k = a then turned (node M b).next a b else (node M k).next

theorem prev_swapList {M : Model} {a b : NodeId} (hab : a ≠ b) (k : NodeId) :
    (node (swapList M a b) k).prev = prevSwapped M a b k := by
  simp only [swapList_eq, linkNeighbours, crossLinks, prev_setNextOf, prev_setPrevOf, next_setPrevOf, next_unloop,
    prev_unloop, next_setPrev, prev_setPrev, next_setNext, prev_setNext, hab, hab.symm, if_true, if_false, prevSwapped]

theorem next_swapList {M : Model} {a b : NodeId} (hab : a ≠ b) (k : NodeId) :
    (node (swapList M a b) k).next = nextSwapped M a b k := by
  simp only [swapList_eq, linkNeighbours, crossLinks, next_setNextOf, prev_setNextOf, prev_setPrevOf, next_setPrevOf,
    next_unloop, prev_unloop, next_setPrev, prev_setPrev, next_setNext, prev_setNext, hab, hab.symm, if_true,
    if_false, prevSwapped, nextSwapped]
  grind

/-- Rule R179: `SwapList` exchanges the places of two nodes of the list, adjacent or not. -/
theorem Linked.swapList {M : Model} {pos : NodeId → Nat} {a b : NodeId} (h : Linked M pos) (hp : Placed M pos)
    (ha : M.uses a) (hb : M.uses b) (hab : a ≠ b) : Linked (swapList M a b) (pos ∘ Equiv.swap a b) := by
  obtain ⟨hn, hv⟩ := h
  unfold Placed at hp
  have hu := uses_congr (sameTree_swapList M a b).nnodes
  constructor
  · intro k m hk
    rw [hu] at hk ⊢
    rw [next_swapList hab]
    simp only [nextSwapped, prevSwapped, turned, Function.comp, Equiv.swap_apply_def]
    grind
  · intro k m hk
    rw [hu] at hk ⊢
    rw [prev_swapList hab]
    simp only [prevSwapped, turned, Function.comp, Equiv.swap_apply_def]
    grind

theorem sameList_swapTree (M : Model) (a b : NodeId) : SameList M (swapTree M a b) :=
  (((sameList_relink ..).trans (sameList_relink ..)).trans (sameList_setParent ..)).trans (sameList_setParent ..)

/-- `M'` is `M` with the places of `a` and `b` in the tree exchanged (rule R179). -/
structure Exchanged (M M' : Model) (a b : NodeId) : Prop where
  lhead : M'.lhead = M.lhead
  loc : M'.loc = M.loc
  nnodes : M'.nnodes = M.nnodes
  weight : ∀ k, (node M' k).weight = (node M k).weight
  root : M'.root = Equiv.swap a b M.root
  parent : ∀ k, (node M' k).parent = (node M (Equiv.swap a b k)).parent

/-- Rule R179: `SwapTree` exchanges the places of two nodes in the tree. -/
theorem exchanged_swapTree {M : Model} {a b : NodeId} (hab : a ≠ b) (ha : (node M a).parent = none ↔ a = M.root)
    (hb : (node M b).parent = none ↔ b = M.root) : Exchanged M (swapTree M a b) a b where
  lhead := (sameList_swapTree M a b).lhead
  loc := (sameList_swapTree M a b).loc
  nnodes := (sameList_swapTree M a b).nnodes
  weight := (sameList_swapTree M a b).weight
  root := by
    simp only [swapTree, setParent_root, root_relink, ha, hb, Equiv.swap_apply_def]
    grind
  parent k := by
    simp only [swapTree, parent_setParent, parent_relink, Equiv.swap_apply_def]
    grind

/-- A list is the same after a change to the tree alone. -/
theorem Linked.sameList {M M' : Model} {pos : NodeId → Nat} (h : Linked M pos) (hs : SameList M M') :
    Linked M' pos where
  next k m hk := by
    rw [hs.next, uses_congr hs.nnodes]; exact h.next k m ((uses_congr hs.nnodes k).1 hk)
  prev k m hk := by
    rw [hs.prev, uses_congr hs.nnodes]; exact h.prev k m ((uses_congr hs.nnodes k).1 hk)

/-- Step 1 of `Increment` at a node and the leader of its block (rule R178): both exchanges. -/
def exchange (M : Model) (a b : NodeId) : Model := swapList (swapTree M a b) a b

theorem exchanged_exchange {M : Model} {a b : NodeId} (hab : a ≠ b) (ha : (node M a).parent = none ↔ a = M.root)
    (hb : (node M b).parent = none ↔ b = M.root) : Exchanged M (exchange M a b) a b := by
  have hx := exchanged_swapTree hab ha hb
  have hs := sameTree_swapList (swapTree M a b) a b
  exact ⟨hs.lhead.trans hx.lhead, hs.loc.trans hx.loc, hs.nnodes.trans hx.nnodes,
    fun k => (hs.weight k).trans (hx.weight k), hs.root.trans hx.root, fun k => (hs.parent k).trans (hx.parent k)⟩

theorem Linked.exchange {M : Model} {pos : NodeId → Nat} {a b : NodeId} (h : Linked M pos) (hp : Placed M pos)
    (ha : M.uses a) (hb : M.uses b) (hab : a ≠ b) : Linked (exchange M a b) (pos ∘ Equiv.swap a b) := by
  have hs := sameList_swapTree M a b
  have hu := uses_congr hs.nnodes
  exact (h.sameList hs).swapList (fun k m hk hm => hp k m ((hu k).1 hk) ((hu m).1 hm)) ((hu a).2 ha) ((hu b).2 hb) hab

theorem Linked.bump {M : Model} {pos : NodeId → Nat} (h : Linked M pos) (n : NodeId) : Linked (bump M n) pos where
  next k m hk := by rw [next_bump]; exact h.next k m hk
  prev k m hk := by rw [prev_bump]; exact h.prev k m hk

end Sys2Proof.Machine
end

section
/-! SUPPORT. The invariants of a model (rule R175) as far as codes need them, and what each part of `Increment` does
to them. -/

namespace Sys2Proof.Machine

/-- How many byte values have a leaf. -/
def seen (M : Model) : Nat := (Finset.univ.filter fun s : Byte => (locOf M s).isSome).card

/-- The invariants of a model (rule R175), node `k` having place `pos k` in an order of the nodes in use. `due` is
the node that `Increment` comes to next (rule R178): its children's weights are counted already, its own is one
short of their sum. -/
structure TreeShape (M : Model) (pos : NodeId → Nat) (due : Option NodeId) : Prop where
  /-- The places are those from 0 on, each taken once. -/
  placed : Placed M pos
  below : ∀ k, M.uses k → pos k < M.nnodes
  filled : ∀ i, i < M.nnodes → ∃ k, M.uses k ∧ pos k = i
  /-- The not-yet-seen leaf comes first and is the one node of weight 0. -/
  head_uses : M.uses M.lhead
  head_pos : pos M.lhead = 0
  head_wt : wt M M.lhead = 0
  positive : ∀ k, M.uses k → k ≠ M.lhead → 1 ≤ wt M k
  /-- A parent is later than its child, and only the root has none. -/
  later : ∀ k p, M.uses k → (node M k).parent = some p → M.uses p ∧ pos k < pos p
  root_uses : M.uses M.root
  rooted : ∀ k, M.uses k → ((node M k).parent = none ↔ k = M.root)
  /-- A node with a parent has exactly one sibling, and their weights sum to the parent's, unless that is due. -/
  sibling : ∀ k p, M.uses k → (node M k).parent = some p →
    ∃ j, M.uses j ∧ j ≠ k ∧ (node M j).parent = some p ∧
      (∀ i, M.uses i → (node M i).parent = some p → i = j ∨ i = k) ∧
      wt M j + wt M k = wt M p + if due = some p then 1 else 0
  /-- The not-yet-seen leaf, its sibling and their parent have the first three places. -/
  headPair : ∀ q, (node M M.lhead).parent = some q →
    pos q = 2 ∧ ∀ y, M.uses y → pos y = 1 → (node M y).parent = some q
  /-- The leaf of a byte has no children. -/
  leaf : ∀ s n, locOf M s = some n → M.uses n ∧ n ≠ M.lhead ∧ ∀ k, M.uses k → (node M k).parent ≠ some n
  /-- Each byte introduced brought two nodes. -/
  count : M.nnodes = 1 + 2 * seen M

/-- Weights do not decrease along the order (rule R175 (b)). -/
def Sorted (M : Model) (pos : NodeId → Nat) : Prop :=
  ∀ k m, M.uses k → M.uses m → pos k ≤ pos m → wt M k ≤ wt M m

theorem seen_congr {M M' : Model} (h : M'.loc = M.loc) : seen M' = seen M := by
  unfold seen locOf
  rw [h]

theorem card_byte : Fintype.card Byte = 2 ^ 8 :=
  (Fintype.card_congr BitVec.equivFin.toEquiv).trans (Fintype.card_fin _)

theorem seen_le (M : Model) : seen M ≤ 2 ^ 8 := (Finset.card_le_univ _).trans_eq card_byte

theorem seen_lt {M : Model} {s : Byte} (h : locOf M s = none) : seen M < 2 ^ 8 :=
  (Finset.card_lt_univ_of_notMem (x := s) (by simp [h])).trans_eq card_byte

theorem wt_swap {M : Model} {a b : NodeId} (h : wt M a = wt M b) (k : NodeId) : wt M (Equiv.swap a b k) = wt M k := by
  rw [Equiv.swap_apply_def]
  split
  · simp_all
  · split <;> simp_all

variable {M : Model} {pos : NodeId → Nat} {due : Option NodeId}

/-- Rule R175 (e), (b): of two siblings, one is no lighter than the parent only if the other is the not-yet-seen
leaf. -/
theorem TreeShape.eq_lhead_of_le (h : TreeShape M pos due) {k j p : NodeId} (hj : M.uses j) (hk : M.uses k)
    (hjk : j ≠ k) (hpk : (node M k).parent = some p) (hpj : (node M j).parent = some p) (hd : due ≠ some p)
    (hw : wt M p ≤ wt M k) : j = M.lhead ∧ wt M p = wt M k := by
  obtain ⟨i, hi, hik, _, honly, hsum⟩ := h.sibling k p hk hpk
  have hji : j = i := (honly j hj hpj).resolve_right hjk
  subst hji
  rw [if_neg hd] at hsum
  have hz : wt M j = 0 := by omega
  refine ⟨?_, by omega⟩
  by_contra hne
  have := h.positive j hj hne
  omega

/-- Only the not-yet-seen leaf has place 0. -/
theorem TreeShape.pos_pos (h : TreeShape M pos due) {k : NodeId} (hk : M.uses k) (hh : k ≠ M.lhead) : 1 ≤ pos k := by
  have h0 : pos k ≠ 0 := fun e => hh (h.placed _ _ hk h.head_uses (by rw [e, h.head_pos]))
  omega

/-- The parent of the not-yet-seen leaf has its other child directly before it. -/
theorem TreeShape.parent_of_head (h : TreeShape M pos due) {n q : NodeId} (hn : M.uses n) (hh : n ≠ M.lhead)
    (hlt : pos n < pos q) (hq : (node M M.lhead).parent = some q) : (node M n).parent = some q ∧ pos n = 1 := by
  obtain ⟨h2, h1⟩ := h.headPair q hq
  have h0 := h.pos_pos hn hh
  exact ⟨h1 n hn (by omega), by omega⟩

/-- The root is the last node (rule R175 (c)). -/
theorem TreeShape.root_last (h : TreeShape M pos due) :
    M.nnodes = pos M.root + 1 := by
  have hsize := h.below M.root h.root_uses
  obtain ⟨z, hz, hzpos⟩ := h.filled (M.nnodes - 1) (by omega)
  have hzroot : z = M.root := by
    refine (h.rooted z hz).1 (Option.eq_none_iff_forall_ne_some.2 fun p hp => ?_)
    obtain ⟨hpu, hlt⟩ := h.later z p hz hp
    have := h.below p hpu
    omega
  subst hzroot
  omega

/-- Rule R175 (g). -/
theorem TreeShape.nnodes_le (h : TreeShape M pos due) : M.nnodes ≤ Config.poolNodes := by
  have := h.count
  have := seen_le M
  unfold Config.poolNodes
  omega

/-- While a byte has no leaf the pool has room for one (rule R175 (g)). -/
theorem TreeShape.room {s : Byte} (h : TreeShape M pos due) (hs : locOf M s = none) : M.nnodes + 1 < 514 := by
  have := h.count
  have := seen_lt hs
  omega

/-- The invariants do not speak of the links of the list. -/
theorem TreeShape.sameTree {M' : Model} (h : TreeShape M pos due)
    (hs : SameTree M M') : TreeShape M' pos due := by
  have hu : M'.uses = M.uses := funext fun k => propext (uses_congr hs.nnodes k)
  have hw : wt M' = wt M := funext fun k => congrArg BitVec.toNat (hs.weight k)
  constructor
  all_goals simp only [Placed, hu, hw, hs.parent, hs.root, hs.lhead, hs.nnodes, locOf, hs.loc, seen_congr hs.loc]
  exacts [h.placed, h.below, h.filled, h.head_uses, h.head_pos, h.head_wt, h.positive, h.later, h.root_uses, h.rooted,
    h.sibling, h.headPair, h.leaf, h.count]

theorem Sorted.sameTree {M' : Model} (h : Sorted M pos) (hs : SameTree M M') : Sorted M' pos := fun k m hk hm hkm => by
  rw [wt, wt, hs.weight, hs.weight]
  exact h k m ((uses_congr hs.nnodes k).1 hk) ((uses_congr hs.nnodes m).1 hm) hkm

/-! ## The exchange with a leader -/

/-- From place `i` on, `NEXT` leads to the next place. -/
def LinkedFrom (M : Model) (pos : NodeId → Nat) (i : Nat) : Prop :=
  ∀ k m, M.uses k → i ≤ pos k → ((node M k).next = some m ↔ M.uses m ∧ pos m = pos k + 1)

theorem Linked.from (h : Linked M pos) (i : Nat) : LinkedFrom M pos i :=
  fun k m hk _ => h.next k m hk

/-- The walk of rule R40 ends at a later node of the same weight that no node of that weight follows. -/
theorem leaderFrom_spec : ∀ (fuel : Nat) (n : NodeId), LinkedFrom M pos (pos n) →
    M.uses n → (∀ k, M.uses k → pos k < pos n + fuel) →
    M.uses (leaderFrom M fuel n) ∧ pos n ≤ pos (leaderFrom M fuel n) ∧ wt M (leaderFrom M fuel n) = wt M n ∧
      ∀ m, M.uses m → pos m = pos (leaderFrom M fuel n) + 1 → wt M m ≠ wt M n
  | 0, n, _, hn, hf => absurd (hf n hn) (by omega)
  | fuel + 1, n, hl, hn, hf => by
    unfold leaderFrom
    split
    · rename_i hnone
      refine ⟨hn, le_rfl, rfl, fun m hm e => ?_⟩
      rw [(hl n m hn le_rfl).2 ⟨hm, e⟩] at hnone
      cases hnone
    · rename_i m hm
      obtain ⟨hmu, hpos⟩ := (hl n m hn le_rfl).1 hm
      split
      · rename_i hw
        obtain ⟨h1, h2, h3, h4⟩ := leaderFrom_spec fuel m (fun k j hk hle => hl k j hk (by omega)) hmu
          (fun k hk => by have := hf k hk; omega)
        have hwm : wt M m = wt M n := congrArg BitVec.toNat hw
        exact ⟨h1, by omega, h3.trans hwm, fun j hj e => hwm ▸ h4 j hj e⟩
      · rename_i hw
        refine ⟨hn, le_rfl, rfl, fun j hj e => ?_⟩
        obtain rfl : m = j := Option.some.inj (hm.symm.trans ((hl n j hn le_rfl).2 ⟨hj, e⟩))
        exact fun e => hw (BitVec.eq_of_toNat_eq e)

/-- Rule R40: the leader is the last node of its block in a sorted order. -/
theorem TreeShape.leader_spec {n : NodeId} (h : TreeShape M pos due) (hs : Sorted M pos)
    (hl : LinkedFrom M pos (pos n)) (hn : M.uses n) :
    M.uses (leader M n) ∧ pos n ≤ pos (leader M n) ∧ wt M (leader M n) = wt M n ∧
      ∀ m, M.uses m → pos (leader M n) < pos m → wt M n < wt M m := by
  have hsize := h.nnodes_le
  obtain ⟨h1, h2, h3, h4⟩ := leaderFrom_spec Config.poolNodes n hl hn
    (fun k hk => by have := h.below k hk; omega)
  refine ⟨h1, h2, h3, fun m hm hlt => ?_⟩
  obtain ⟨j, hj, hjpos⟩ := h.filled (pos (leader M n) + 1) (by have := h.below m hm; omega)
  have hjm := hs j m hj hm (by omega)
  have hnj : wt M (leader M n) ≤ wt M j := hs _ j h1 hj (by omega)
  have hne := h4 j hj hjpos
  have hw : wt M (leader M n) = wt M n := h3
  omega

/-- No walk past a node of another weight (rule R40). -/
theorem leaderFrom_of_next {n m : NodeId} (hn : (node M n).next = some m)
    (hw : (node M m).weight ≠ (node M n).weight) (fuel : Nat) : leaderFrom M fuel n = n := by
  cases fuel with
  | zero => rfl
  | succ fuel => simp [leaderFrom, hn, hw]

/-- The children of a later node of the same weight that is not the parent come before. -/
theorem TreeShape.child_before {n l k : NodeId} (h : TreeShape M pos (some n)) (hs : Sorted M pos)
    (hn : M.uses n) (hlt : pos n < pos l) (hw : wt M l = wt M n) (hnl : (node M n).parent ≠ some l)
    (hh : n ≠ M.lhead) (hk : M.uses k) (hp : (node M k).parent = some l) : pos k < pos n := by
  by_contra hge
  have hle : wt M l ≤ wt M k := hw ▸ hs n k hn hk (by omega)
  obtain ⟨j, hj, hjk, hjp, -, -⟩ := h.sibling k l hk hp
  obtain ⟨rfl, -⟩ := h.eq_lhead_of_le hj hk hjk hp hjp (by rintro ⟨rfl⟩; omega) hle
  exact hnl (h.parent_of_head hn hh hlt hjp).1

/-- Exchanging two nodes of equal weight in the tree and in the order keeps the invariants (rule R178), when the
earlier one is the node due, which is not the parent of the not-yet-seen leaf nor a child of the other. -/
theorem TreeShape.exchange {M' : Model} {n l : NodeId} (h : TreeShape M pos (some n)) (hs : Sorted M pos)
    (hn : M.uses n) (hl : M.uses l) (hlt : pos n < pos l) (hw : wt M l = wt M n) (hnl : (node M n).parent ≠ some l)
    (hh : n ≠ M.lhead) (hq : (node M M.lhead).parent ≠ some n) (hx : Exchanged M M' l n) :
    TreeShape M' (pos ∘ Equiv.swap l n) (some n) := by
  obtain ⟨xlhead, xloc, xnnodes, xweight, xroot, xparent⟩ := hx
  have hwt : ∀ k, wt M' k = wt M k := fun k => by simp [wt, xweight]
  have hu := uses_congr xnnodes
  have hsw := uses_swap hl hn
  have hwsw := wt_swap hw
  have hlh : l ≠ M.lhead := by
    rintro rfl
    have := h.positive n hn hh
    have := h.head_wt
    omega
  have hswh : Equiv.swap l n M.lhead = M.lhead := Equiv.swap_apply_of_ne_of_ne hlh.symm hh.symm
  constructor
  case placed =>
    intro k m hk hm e
    rw [hu] at hk hm
    exact h.placed.swap hl hn k m hk hm e
  case below =>
    intro k hk
    rw [xnnodes]
    exact h.below _ ((hsw k).2 ((hu k).1 hk))
  case filled =>
    intro i hi
    obtain ⟨k, hk, e⟩ := h.filled i (xnnodes ▸ hi)
    exact ⟨Equiv.swap l n k, (hu _).2 ((hsw k).2 hk), by simp [e]⟩
  case head_uses => simpa [xlhead, hu] using h.head_uses
  case head_pos => simpa [xlhead, hswh] using h.head_pos
  case head_wt => simpa [xlhead, hwt] using h.head_wt
  case positive => simpa [xlhead, hu, hwt] using h.positive
  case root_uses =>
    rw [xroot, hu, hsw]
    exact h.root_uses
  case rooted =>
    intro k hk
    rw [xparent, xroot, h.rooted _ ((hsw k).2 ((hu k).1 hk)), Equiv.swap_apply_eq_iff]
  case leaf =>
    intro s m hm
    obtain ⟨h1, h2, h3⟩ := h.leaf s m (by simpa [locOf, xloc] using hm)
    refine ⟨(hu m).2 h1, by rwa [xlhead], fun k hk => ?_⟩
    rw [xparent]
    exact h3 _ ((hsw k).2 ((hu k).1 hk))
  case count => rw [xnnodes, seen_congr xloc, h.count]
  case sibling =>
    intro k p hk hp
    rw [xparent] at hp
    obtain ⟨j, hj, hjk, hjp, honly, hsum⟩ := h.sibling _ p ((hsw k).2 ((hu k).1 hk)) hp
    refine ⟨Equiv.swap l n j, (hu _).2 ((hsw j).2 hj), ?_, ?_, ?_, ?_⟩
    · rintro rfl; simp at hjk
    · rw [xparent]; simpa using hjp
    · intro i hi hip
      rw [xparent] at hip
      rcases honly _ ((hsw i).2 ((hu i).1 hi)) hip with e | e
      · exact .inl (by rw [← e]; simp)
      · exact .inr ((Equiv.swap l n).injective e)
    · simpa [hwt, hwsw] using hsum
  case headPair =>
    intro q hq'
    rw [xparent, xlhead, hswh] at hq'
    obtain ⟨h2, h1⟩ := h.headPair q hq'
    have hqn : q ≠ n := by rintro rfl; exact hq hq'
    have hql : q ≠ l := by
      rintro rfl
      exact hnl (h.parent_of_head hn hh hlt hq').1
    refine ⟨by simp [Equiv.swap_apply_of_ne_of_ne hql hqn, h2], fun y hy hy1 => ?_⟩
    rw [xparent]
    exact h1 _ ((hsw y).2 ((hu y).1 hy)) hy1
  case later =>
    intro k p hk hp
    rw [xparent] at hp
    obtain ⟨hpu, hlater⟩ := h.later _ p ((hsw k).2 ((hu k).1 hk)) hp
    refine ⟨(hu p).2 hpu, ?_⟩
    simp only [Function.comp]
    by_cases hpn : p = n
    · subst hpn; simp only [Equiv.swap_apply_right]; omega
    · by_cases hpl : p = l
      · subst hpl
        simp only [Equiv.swap_apply_left]
        exact h.child_before hs hn hlt hw hnl hh ((hsw k).2 ((hu k).1 hk)) hp
      · rwa [Equiv.swap_apply_of_ne_of_ne hpl hpn]

/-- Nodes of equal weight exchanged leave the order sorted. -/
theorem Sorted.exchange {M' : Model} {n l : NodeId} (hs : Sorted M pos) (hn : M.uses n) (hl : M.uses l)
    (hw : wt M l = wt M n) (hx : Exchanged M M' l n) : Sorted M' (pos ∘ Equiv.swap l n) := fun k m hk hm hkm => by
  rw [wt, wt, hx.weight, hx.weight, ← wt, ← wt, ← wt_swap hw k, ← wt_swap hw m]
  have hu := fun k => (uses_swap hl hn k).trans (uses_congr hx.nnodes k).symm
  exact hs _ _ ((hu k).2 hk) ((hu m).2 hm) hkm

/-! ## One more to a weight -/

/-- Rule R178: once the node due has its one more, its parent is due. -/
theorem TreeShape.bump {n : NodeId} (h : TreeShape M pos (some n)) (hn : M.uses n) (hh : n ≠ M.lhead)
    (hw : (node M n).weight ≠ BitVec.allOnes 32) : TreeShape (bump M n) pos (node M n).parent := by
  have hwt := wt_bump hw
  constructor
  case placed => exact h.placed
  case below => exact h.below
  case filled => exact h.filled
  case head_uses => exact h.head_uses
  case head_pos => exact h.head_pos
  case head_wt => rw [bump_lhead, hwt, if_neg hh.symm, h.head_wt]
  case positive =>
    intro k hk hkh
    have := h.positive k hk hkh
    rw [hwt]; omega
  case later => intro k p hk; rw [parent_bump]; exact h.later k p hk
  case root_uses => exact h.root_uses
  case rooted => intro k hk; rw [parent_bump]; exact h.rooted k hk
  case sibling =>
    intro k p hk hp
    rw [parent_bump] at hp
    obtain ⟨j, hj, hjk, hjp, honly, hsum⟩ := h.sibling k p hk hp
    have hkp : k ≠ p := by rintro rfl; exact lt_irrefl _ (h.later _ _ hk hp).2
    have hjp' : j ≠ p := by rintro rfl; exact lt_irrefl _ (h.later _ _ hj hjp).2
    refine ⟨j, hj, hjk, by rwa [parent_bump], fun i hi => by rw [parent_bump]; exact honly i hi, ?_⟩
    have hdue : (node M n).parent = some p ↔ n = j ∨ n = k :=
      ⟨honly n hn, by rintro (rfl | rfl) <;> assumption⟩
    simp only [hwt, hdue, Option.some.injEq] at hsum ⊢
    grind
  case headPair => intro q; simp only [parent_bump]; exact h.headPair q
  case leaf => intro s m hm; simp only [parent_bump]; exact h.leaf s m hm
  case count => exact h.count

/-- One more to the node due, the last of its block, keeps the order sorted. -/
theorem Sorted.bump {n : NodeId} (hs : Sorted M pos) (hp : Placed M pos)
    (hn : M.uses n) (hlast : ∀ m, M.uses m → pos n < pos m → wt M n < wt M m)
    (hw : (node M n).weight ≠ BitVec.allOnes 32) : Sorted (bump M n) pos := by
  intro k m hk hm hkm
  have hkm' := hs k m hk hm hkm
  rw [wt_bump hw, wt_bump hw]
  by_cases hkn : k = n
  · subst hkn
    by_cases hmk : m = k
    · simp [hmk]
    · have := hlast m hm (lt_of_le_of_ne hkm fun e => hmk (hp m k hm hn e.symm))
      simp [hmk]; omega
  · simp only [hkn, if_false]; omega

end Sys2Proof.Machine
end

section
/-! SUPPORT. `Increment` (rule R178): its climb to the root and the repair of the list. -/

namespace Sys2Proof.Machine

/-- A computation that does not fault did not fault on the way. -/
theorem bind_eq_ok {α β : Type} {e : Except FaultCause α} {f : α → Except FaultCause β} {b : β}
    (h : (e >>= f) = .ok b) : ∃ a, e = .ok a ∧ f a = .ok b := by
  cases e with
  | error e => cases h
  | ok a => exact ⟨a, rfl, h⟩

/-- The list is in the order `pos` but for the node at place 1, on the climb's path, which has changed places with
its parent at place 2 (rule R178, step 3, undoes it). -/
def Flipped (M : Model) (pos : NodeId → Nat) (path : List NodeId) : Prop :=
  ∃ y q, M.uses y ∧ M.uses q ∧ pos y = 1 ∧ pos q = 2 ∧ (node M y).parent = some q ∧ y ∈ path ∧
    Linked M (pos ∘ Equiv.swap y q)

/-- Where the climb of `Increment` stands (rule R178): the invariants with the node it has come to due, and a list
in order but for a flip below that node. -/
structure Climbing (M : Model) (pos : NodeId → Nat) (due : Option NodeId) (path : List NodeId) : Prop where
  tree : TreeShape M pos due
  sorted : Sorted M pos
  list : Linked M pos ∨ Flipped M pos path
  path_uses : ∀ k ∈ path, M.uses k
  at_due : ∀ n, due = some n → M.uses n ∧ n ≠ M.lhead ∧ (node M M.lhead).parent ≠ some n ∧ (Linked M pos ∨ 3 ≤ pos n)

theorem swap_comp_swap {y q l n : NodeId} (hyl : y ≠ l) (hyn : y ≠ n) (hql : q ≠ l) (hqn : q ≠ n) :
    Equiv.swap y q ∘ Equiv.swap l n = Equiv.swap l n ∘ Equiv.swap y q := by
  funext k
  simp only [Function.comp, Equiv.swap_apply_def]
  grind

/-- The flip does not touch the places from 3 on. -/
theorem Flipped.linkedFrom {M : Model} {pos : NodeId → Nat} {path : List NodeId} (h : Flipped M pos path) {i : Nat}
    (hi : 3 ≤ i) : LinkedFrom M pos i := by
  obtain ⟨y, q, hy, hq, hy1, hq2, -, -, hl⟩ := h
  intro k m hk hik
  rw [hl.next k m hk]
  simp only [Function.comp, Equiv.swap_apply_def]
  grind

theorem Climbing.linkedFrom {M : Model} {pos : NodeId → Nat} {n : NodeId} {path : List NodeId}
    (h : Climbing M pos (some n) path) : LinkedFrom M pos (pos n) := by
  obtain ⟨-, -, -, hn⟩ := h.at_due n rfl
  rcases h.list with hl | hf
  · exact hl.from _
  · rcases hn with hl | h3
    · exact hl.from _
    · exact hf.linkedFrom h3

theorem passBlock_of_leader_self {M : Model} {n : NodeId} (h : leader M n = n) : passBlock M n = M := by
  simp [passBlock, h]

theorem passBlock_of_leader_parent {M : Model} {n l : NodeId} (h : leader M n = l) (hln : l ≠ n)
    (hl : (node M n).parent = some l) : passBlock M n = swapList M l n := by
  simp [passBlock, h, hln, hl]

theorem passBlock_of_leader_other {M : Model} {n l : NodeId} (h : leader M n = l) (hln : l ≠ n)
    (hl : (node M n).parent ≠ some l) : passBlock M n = exchange M l n := by
  simp [passBlock, exchange, h, hln, hl]

/-- Exchanging two nodes above the flip leaves the flip. -/
theorem Flipped.exchange {M : Model} {pos : NodeId → Nat} {path : List NodeId} {n l : NodeId}
    (h : Flipped M pos path) (hp : Placed M pos) (hn : M.uses n) (hl : M.uses l) (hn3 : 3 ≤ pos n)
    (hlt : pos n < pos l) (hx : Exchanged M (exchange M l n) l n) :
    Flipped (exchange M l n) (pos ∘ Equiv.swap l n) path := by
  obtain ⟨y, q, hy, hq, hy1, hq2, hyq, hpath, hlist⟩ := h
  have hu := uses_congr hx.nnodes
  have hyn : y ≠ n := by rintro rfl; omega
  have hyl : y ≠ l := by rintro rfl; omega
  have hqn : q ≠ n := by rintro rfl; omega
  have hql : q ≠ l := by rintro rfl; omega
  have hln : l ≠ n := by rintro rfl; omega
  refine ⟨y, q, (hu y).2 hy, (hu q).2 hq, ?_, ?_, ?_, hpath, ?_⟩
  · simp [Equiv.swap_apply_of_ne_of_ne hyl hyn, hy1]
  · simp [Equiv.swap_apply_of_ne_of_ne hql hqn, hq2]
  · rwa [hx.parent, Equiv.swap_apply_of_ne_of_ne hyl hyn]
  · have := hlist.exchange (hp.swap hy hq) hl hn hln
    rwa [Function.comp_assoc, swap_comp_swap hyl hyn hql hqn] at this

/-- Rule R178, steps 1 and 2, where the leader is not the parent: afterwards the node due is the last of its block. -/
theorem Climbing.passBlock {M : Model} {pos : NodeId → Nat} {n : NodeId} {path : List NodeId}
    (h : Climbing M pos (some n) path) (hl : (node M n).parent ≠ some (leader M n)) :
    ∃ pos', Climbing (passBlock M n) pos' (some n) path ∧ pos n ≤ pos' n ∧ (passBlock M n).nnodes = M.nnodes ∧
      ∀ m, (passBlock M n).uses m → pos' n < pos' m → wt (passBlock M n) n < wt (passBlock M n) m := by
  obtain ⟨hn, hh, hq, hn3⟩ := h.at_due n rfl
  obtain ⟨hlu, hle, hwl, hlast⟩ := h.tree.leader_spec h.sorted h.linkedFrom hn
  obtain ⟨l, hlead⟩ : ∃ l, leader M n = l := ⟨_, rfl⟩
  rw [hlead] at hl hlu hle hwl hlast
  by_cases hln : l = n
  · subst hln
    rw [passBlock_of_leader_self hlead]
    exact ⟨pos, h, le_rfl, rfl, hlast⟩
  · rw [passBlock_of_leader_other hlead hln hl]
    have hlt : pos n < pos l := lt_of_le_of_ne hle fun e => hln (h.tree.placed _ _ hlu hn e.symm)
    have hx := exchanged_exchange hln (h.tree.rooted l hlu) (h.tree.rooted n hn)
    have hu := uses_congr hx.nnodes
    have hlh : l ≠ M.lhead := by
      rintro rfl
      have := h.tree.head_pos
      omega
    have hlist : Linked M pos → Linked (exchange M l n) (pos ∘ Equiv.swap l n) :=
      fun hp => hp.exchange h.tree.placed hlu hn hln
    have hpos : (pos ∘ Equiv.swap l n) n = pos l := by simp
    refine ⟨pos ∘ Equiv.swap l n, ⟨?_, h.sorted.exchange hn hlu hwl hx, ?_, ?_, ?_⟩, hpos ▸ hle, hx.nnodes, ?_⟩
    · exact h.tree.exchange h.sorted hn hlu hlt hwl hl hh hq hx
    · rcases hn3 with hp | h3
      · exact .inl (hlist hp)
      · exact h.list.imp hlist fun hf => hf.exchange h.tree.placed hn hlu h3 hlt hx
    · exact fun k hk => (hu k).2 (h.path_uses k hk)
    · rintro _ ⟨rfl⟩
      refine ⟨(hu n).2 hn, by rwa [hx.lhead], ?_, hn3.imp hlist fun h3 => ?_⟩
      · rwa [hx.parent, hx.lhead, Equiv.swap_apply_of_ne_of_ne hlh.symm hh.symm]
      · omega
    · intro m hm hlm
      rw [wt, wt, hx.weight, hx.weight, ← wt, ← wt, ← wt_swap hwl m]
      exact hlast _ ((uses_swap hlu hn m).2 ((hu m).1 hm)) (hpos ▸ hlm)

/-- Rule R178, step 2: the node due, the last of its block, gets its one more and the climb goes on at its parent. -/
theorem Climbing.bump {M : Model} {pos : NodeId → Nat} {n : NodeId} {path : List NodeId}
    (h : Climbing M pos (some n) path) (hlast : ∀ m, M.uses m → pos n < pos m → wt M n < wt M m)
    (hw : (node M n).weight ≠ BitVec.allOnes 32) : Climbing (bump M n) pos (node M n).parent (n :: path) := by
  obtain ⟨hn, hh, -, hn3⟩ := h.at_due n rfl
  refine ⟨h.tree.bump hn hh hw, h.sorted.bump h.tree.placed hn hlast hw, ?_,
    List.forall_mem_cons.2 ⟨hn, h.path_uses⟩, ?_⟩
  · rcases h.list with hl | ⟨y, q, hy, hq, hy1, hq2, hyq, hpath, hl⟩
    · exact .inl (hl.bump n)
    · exact .inr ⟨y, q, hy, hq, hy1, hq2, by rwa [parent_bump], List.mem_cons_of_mem _ hpath,
        hl.bump n⟩
  · intro p hp
    obtain ⟨hpu, hlt⟩ := h.tree.later n p hn hp
    refine ⟨hpu, ?_, ?_, ?_⟩
    · rintro rfl
      have := h.tree.head_pos
      rw [bump_lhead] at hlt
      omega
    · intro hq
      rw [parent_bump, bump_lhead] at hq
      have hbefore := hlast p hpu hlt
      obtain ⟨j, hj, hjn, hjp, honly, hsum⟩ := h.tree.sibling n p hn hp
      obtain rfl : M.lhead = j := (honly _ h.tree.head_uses hq).resolve_right hh.symm
      have hnp : n ≠ p := by rintro rfl; omega
      have := h.tree.head_wt
      simp [hnp] at hsum
      omega
    · exact hn3.imp (·.bump n) (by omega)

/-- Rule R178 where the leader is the parent: the node due is the other child of the not-yet-seen leaf's parent. -/
theorem Climbing.leader_parent {M : Model} {pos : NodeId → Nat} {n l : NodeId} {path : List NodeId}
    (h : Climbing M pos (some n) path) (hl : (node M n).parent = some l) (hlead : leader M n = l) :
    pos n = 1 ∧ pos l = 2 ∧ (node M M.lhead).parent = some l ∧ Linked M pos := by
  obtain ⟨hn, hh, hq, hn3⟩ := h.at_due n rfl
  obtain ⟨-, -, hwl, -⟩ := h.tree.leader_spec h.sorted h.linkedFrom hn
  rw [hlead] at hwl
  obtain ⟨-, hlt⟩ := h.tree.later n l hn hl
  obtain ⟨j, hj, hjn, hjl, -, -⟩ := h.tree.sibling n l hn hl
  have hnl : some n ≠ some l := fun e => by rw [Option.some.inj e] at hlt; omega
  obtain ⟨rfl, -⟩ := h.tree.eq_lhead_of_le hj hn hjn hl hjl hnl hwl.le
  have h1 := (h.tree.parent_of_head hn hh hlt hjl).2
  exact ⟨h1, (h.tree.headPair l hjl).1, hjl, hn3.resolve_right (by omega)⟩

/-- The model after the node due and its parent, the leader, have changed places in the list and have their one more. -/
def turn (M : Model) (n l : NodeId) : Model := bump (bump (swapList M l n) n) l

@[simp] theorem turn_lhead (M : Model) (n l : NodeId) : (turn M n l).lhead = M.lhead := by
  rw [turn, bump_lhead, bump_lhead, (sameTree_swapList M l n).lhead]

@[simp] theorem turn_nnodes (M : Model) (n l : NodeId) : (turn M n l).nnodes = M.nnodes := by
  rw [turn, bump_nnodes, bump_nnodes, (sameTree_swapList M l n).nnodes]

@[simp] theorem parent_turn (M : Model) (n l k : NodeId) : (node (turn M n l) k).parent = (node M k).parent := by
  rw [turn, parent_bump, parent_bump, (sameTree_swapList M l n).parent]

section
variable {M : Model} {pos : NodeId → Nat} {n l : NodeId} {path : List NodeId}

/-- The weight of `l` when the round of `n` is done. -/
theorem weight_half_turn (hln : l ≠ n) : (node (bump (swapList M l n) n) l).weight = (node M l).weight := by
  rw [weight_bump_of_ne hln, (sameTree_swapList M l n).weight]

theorem wt_half_turn (hwn : (node M n).weight ≠ BitVec.allOnes 32) (k : NodeId) :
    wt (bump (swapList M l n) n) k = wt M k + if k = n then 1 else 0 := by
  have hs := sameTree_swapList M l n
  rw [wt_bump (by rwa [hs.weight]), wt, hs.weight, wt]

theorem wt_turn (hln : l ≠ n) (hwn : (node M n).weight ≠ BitVec.allOnes 32)
    (hwl : (node M l).weight ≠ BitVec.allOnes 32) (k : NodeId) :
    wt (turn M n l) k = wt M k + (if k = n then 1 else 0) + if k = l then 1 else 0 := by
  rw [turn, wt_bump (by rwa [weight_half_turn hln]), wt_half_turn hwn]

/-- The weights of a node and its parent grow in two rounds, whatever their order in the list. -/
theorem TreeShape.turn (h : TreeShape M pos (some n)) (hn : M.uses n) (hh : n ≠ M.lhead)
    (hl : (node M n).parent = some l) (hwn : (node M n).weight ≠ BitVec.allOnes 32)
    (hwl : (node M l).weight ≠ BitVec.allOnes 32) : TreeShape (turn M n l) pos (node M l).parent := by
  obtain ⟨hlu, hlt⟩ := h.later n l hn hl
  have hln : l ≠ n := by rintro rfl; omega
  have hlh : l ≠ M.lhead := by
    rintro rfl
    have := h.head_pos
    omega
  have hs := sameTree_swapList M l n
  have hu := uses_congr hs.nnodes
  have hhalf := (h.sameTree hs).bump ((hu n).2 hn) (by rwa [hs.lhead]) (by rwa [hs.weight])
  rw [hs.parent, hl] at hhalf
  have := hhalf.bump ((uses_bump ..).2 ((hu l).2 hlu)) (by rwa [bump_lhead, hs.lhead]) (by rwa [weight_half_turn hln])
  rwa [parent_bump, hs.parent] at this

/-- Rule R178 where the leader is the parent: the parent, now before the heavier node, leads its own block. -/
theorem Climbing.leader_turn (h : Climbing M pos (some n) path) (hl : (node M n).parent = some l)
    (hlead : leader M n = l) (hwn : (node M n).weight ≠ BitVec.allOnes 32) :
    leader (Machine.bump (swapList M l n) n) l = l := by
  obtain ⟨h1, h2, -, hlinked⟩ := h.leader_parent hl hlead
  obtain ⟨hn, -, -, -⟩ := h.at_due n rfl
  obtain ⟨hlu, -, hweq, -⟩ := h.tree.leader_spec h.sorted h.linkedFrom hn
  rw [hlead] at hlu hweq
  have hln : l ≠ n := by rintro rfl; omega
  have hu := uses_congr (sameTree_swapList M l n).nnodes
  refine leaderFrom_of_next (m := n) ?_ (fun e => ?_) _
  · rw [next_bump, (hlinked.swapList h.tree.placed hlu hn hln).next l n ((hu l).2 hlu), hu]
    simp [hn, h1, h2]
  · have hnl : wt (Machine.bump (swapList M l n) n) n = wt (Machine.bump (swapList M l n) n) l :=
      congrArg BitVec.toNat e
    rw [wt_half_turn hwn, wt_half_turn hwn, if_pos rfl, if_neg hln] at hnl
    omega

/-- Rule R178, two rounds at once where the leader is the parent: the list is left flipped. -/
theorem Climbing.turn (h : Climbing M pos (some n) path) (hl : (node M n).parent = some l) (hlead : leader M n = l)
    (hwn : (node M n).weight ≠ BitVec.allOnes 32) (hwl : (node M l).weight ≠ BitVec.allOnes 32) :
    Climbing (turn M n l) pos (node M l).parent (l :: n :: path) := by
  obtain ⟨h1, h2, hql, hlinked⟩ := h.leader_parent hl hlead
  obtain ⟨hn, hh, -, -⟩ := h.at_due n rfl
  obtain ⟨hlu, -, hweq, hlast⟩ := h.tree.leader_spec h.sorted h.linkedFrom hn
  rw [hlead] at hlu hweq hlast
  have hln : l ≠ n := by rintro rfl; omega
  have hu := uses_congr (turn_nnodes M n l)
  refine ⟨h.tree.turn hn hh hl hwn hwl, ?_, .inr ⟨n, l, (hu n).2 hn, (hu l).2 hlu, h1, h2, ?_, ?_, ?_⟩, ?_, ?_⟩
  · intro k m hk hm hkm
    rw [hu] at hk hm
    have hle := h.sorted k m hk hm hkm
    have hpl := h.tree.placed m l hm hlu
    have hpn := h.tree.placed m n hm hn
    have hlt := hlast m hm
    rw [wt_turn hln hwn hwl, wt_turn hln hwn hwl]
    grind
  · rwa [parent_turn]
  · exact List.mem_cons_of_mem _ List.mem_cons_self
  · rw [Equiv.swap_comm]
    exact ((hlinked.swapList h.tree.placed hlu hn hln).bump n).bump l
  · simp only [List.forall_mem_cons, hu]
    exact ⟨hlu, hn, h.path_uses⟩
  · intro p hp
    obtain ⟨hpu, hlp⟩ := h.tree.later l p hlu hp
    refine ⟨(hu p).2 hpu, ?_, ?_, .inr (by omega)⟩
    · rw [turn_lhead]
      rintro rfl
      have := h.tree.head_pos
      omega
    · rw [turn_lhead, parent_turn, hql]
      rintro ⟨rfl⟩
      omega

end

/-- One round of the climb (rule R178). -/
theorem climb_succ_some (fuel : Nat) (M : Model) (n : NodeId) (path : List NodeId) :
    climb (fuel + 1) M (some n) path =
      if (node (passBlock M n) n).weight = BitVec.allOnes 32 then .error .weightOvf
      else climb fuel (bump (passBlock M n) n) (node (bump (passBlock M n) n) n).parent (n :: path) := rfl

theorem climb_none (fuel : Nat) (M : Model) (path : List NodeId) : climb fuel M none path = .ok (M, path) := by
  cases fuel <;> rfl

/-- Two rounds of the climb where the leader is the parent (rule R178). -/
theorem climb_turn {M N : Model} {n l : NodeId} {path path' : List NodeId} {fuel : Nat} (hlead : leader M n = l)
    (hln : l ≠ n) (hl : (node M n).parent = some l)
    (hself : (node M n).weight ≠ BitVec.allOnes 32 → leader (bump (swapList M l n) n) l = l)
    (h : climb (fuel + 1 + 1) M (some n) path = .ok (N, path')) :
    (node M n).weight ≠ BitVec.allOnes 32 ∧ (node M l).weight ≠ BitVec.allOnes 32 ∧
      climb fuel (turn M n l) (node M l).parent (l :: n :: path) = .ok (N, path') := by
  have hs := sameTree_swapList M l n
  rw [climb_succ_some, passBlock_of_leader_parent hlead hln hl, hs.weight] at h
  split at h
  · cases h
  rename_i hwn
  rw [parent_bump, hs.parent, hl, climb_succ_some, passBlock_of_leader_self (hself hwn),
    weight_half_turn hln] at h
  split at h
  · cases h
  rename_i hwl
  rw [parent_bump, parent_bump, hs.parent] at h
  exact ⟨hwn, hwl, h⟩

/-- The whole climb of `Increment` keeps the invariants, and leaves a list in order but for a flip on its path. -/
theorem Climbing.climb {M N : Model} {pos : NodeId → Nat} {due : Option NodeId} {path path' : List NodeId} (fuel : Nat)
    (h : Climbing M pos due path) (hf : ∀ n, due = some n → M.nnodes ≤ fuel + pos n)
    (hc : Machine.climb fuel M due path = .ok (N, path')) : ∃ pos', Climbing N pos' none path' := by
  induction fuel using Nat.strong_induction_on generalizing M pos due path with
  | _ fuel ih =>
  cases due with
  | none =>
    rw [climb_none] at hc
    cases hc
    exact ⟨pos, h⟩
  | some n =>
  obtain ⟨hn, -, -, -⟩ := h.at_due n rfl
  have hfuel := hf n rfl
  have hbelow := h.tree.below n hn
  obtain ⟨fuel, rfl⟩ : ∃ f, fuel = f + 1 := ⟨fuel - 1, by omega⟩
  by_cases hl : (node M n).parent = some (leader M n)
  · obtain ⟨l, hlead⟩ : ∃ l, leader M n = l := ⟨_, rfl⟩
    rw [hlead] at hl
    obtain ⟨h1, h2, -, -⟩ := h.leader_parent hl hlead
    obtain ⟨hlu, hlater⟩ := h.tree.later n l hn hl
    have hln : l ≠ n := by rintro rfl; exact lt_irrefl _ hlater
    have hsize := h.tree.below l hlu
    obtain ⟨fuel, rfl⟩ : ∃ f, fuel = f + 1 := ⟨fuel - 1, by omega⟩
    obtain ⟨hwn, hwl, hc'⟩ := climb_turn hlead hln hl (h.leader_turn hl hlead) hc
    refine ih fuel (by omega) (h.turn hl hlead hwn hwl) (fun p hp => ?_) hc'
    have := (h.tree.later l p hlu hp).2
    rw [turn_nnodes]
    omega
  · obtain ⟨pos', h', hle, hsize, hlast⟩ := h.passBlock hl
    rw [climb_succ_some] at hc
    split at hc
    · cases hc
    rename_i hw
    rw [parent_bump] at hc
    refine ih fuel (by omega) (h'.bump hlast hw) (fun p hp => ?_) hc
    have := (h'.tree.later n p (h'.at_due n rfl).1 hp).2
    rw [bump_nnodes]
    omega

/-- A model between two updates: the invariants of rule R175, with the list in their order. -/
def Rest (M : Model) : Prop := ∃ pos, TreeShape M pos none ∧ Sorted M pos ∧ Linked M pos

/-- Rule R178, step 3, does nothing to a node that its parent does not precede. -/
theorem repair_eq_self {M : Model} {n : NodeId} (h : ∀ p, (node M n).parent = some p → (node M n).prev ≠ some p) :
    repair M n = M := by
  unfold repair
  split
  · rfl
  · rename_i p hp
    rw [if_neg (h p hp)]

/-- Rule R178, step 3, along the path of the climb puts the list in order. -/
theorem rest_foldl_repair : ∀ (path : List NodeId) {M : Model} {pos : NodeId → Nat}, TreeShape M pos none →
    Sorted M pos → (∀ k ∈ path, M.uses k) → Linked M pos ∨ Flipped M pos path → Rest (path.foldl repair M)
  | [], M, pos, ht, hs, _, hl => by
    refine ⟨pos, ht, hs, hl.resolve_right ?_⟩
    rintro ⟨y, q, -, -, -, -, -, hmem, -⟩
    cases hmem
  | n :: path, M, pos, ht, hs, hu, hl => by
    obtain ⟨hn, hu⟩ := List.forall_mem_cons.1 hu
    rw [List.foldl_cons]
    rcases hl with hl | ⟨y, q, hy, hq, hy1, hq2, hyq, hmem, hl⟩
    · rw [repair_eq_self fun p hp hprev => ?_]
      · exact rest_foldl_repair path ht hs hu (.inl hl)
      · have := (hl.prev n p hn).1 hprev
        have := ht.later n p hn hp
        omega
    · by_cases hny : n = y
      · subst hny
        have hprev : (node M n).prev = some q := (hl.prev n q hn).2 ⟨hq, by simp [hy1, hq2]⟩
        have hrep : repair M n = swapList M n q := by simp [repair, hyq, hprev]
        have hst := sameTree_swapList M n q
        have hnq : n ≠ q := by rintro rfl; omega
        have hlist := hl.swapList (ht.placed.swap hy hq) hy hq hnq
        rw [show (pos ∘ Equiv.swap n q) ∘ Equiv.swap n q = pos by funext k; simp] at hlist
        rw [hrep]
        exact rest_foldl_repair path (ht.sameTree hst) (hs.sameTree hst)
          (fun k hk => (uses_congr hst.nnodes k).2 (hu k hk)) (.inl hlist)
      · rw [repair_eq_self fun p hp hprev => ?_]
        · exact rest_foldl_repair path ht hs hu
            (.inr ⟨y, q, hy, hq, hy1, hq2, hyq, (List.mem_cons.1 hmem).resolve_left (Ne.symm hny), hl⟩)
        · have := (hl.prev n p hn).1 hprev
          have := ht.later n p hn hp
          simp only [Function.comp, Equiv.swap_apply_def] at *
          grind

/-- `Increment` (rule R178) from a node it may start at keeps the invariants. -/
theorem rest_increment {M N : Model} {pos : NodeId → Nat} {due : Option NodeId} (h : Climbing M pos due [])
    (hi : increment M due = .ok N) : Rest N := by
  obtain ⟨climbed, hc, hi⟩ := bind_eq_ok hi
  cases hi
  have hsize := h.tree.nnodes_le
  obtain ⟨pos', h'⟩ := h.climb Config.poolNodes (fun n _ => by omega) hc
  exact rest_foldl_repair _ h'.tree h'.sorted h'.path_uses h'.list

/-- A leaf has no children, so it may be the node due. -/
theorem TreeShape.due_leaf {M : Model} {pos : NodeId → Nat} {s : Byte} {n : NodeId} (h : TreeShape M pos none)
    (hs : locOf M s = some n) : TreeShape M pos (some n) where
  __ := h
  sibling k p hk hp := by
    have hnp : n ≠ p := by rintro rfl; exact (h.leaf s n hs).2.2 k hk hp
    simpa [hnp] using h.sibling k p hk hp

/-- `Update` by a byte with a leaf (rule R176). -/
theorem Rest.increment_leaf {M N : Model} {s : Byte} {n : NodeId} (h : Rest M) (hs : locOf M s = some n)
    (hi : increment M (some n) = .ok N) : Rest N := by
  obtain ⟨pos, ht, hsort, hl⟩ := h
  obtain ⟨hn, hh, hchild⟩ := ht.leaf s n hs
  refine rest_increment ⟨ht.due_leaf hs, hsort, .inl hl, by simp, ?_⟩ hi
  rintro _ ⟨rfl⟩
  exact ⟨hn, hh, hchild _ ht.head_uses, .inl hl⟩

end Sys2Proof.Machine
end

section
/-! SUPPORT. `Introduce` (rule R177): where its first part puts the two new nodes. -/

namespace Sys2Proof.Machine

/-- The number of the leaf `Introduce` makes (rule R177). -/
def newLeaf (M : Model) : NodeId := Fin.ofNat 514 M.nnodes

/-- The number of the inner node `Introduce` makes (rule R177). -/
def newInner (M : Model) : NodeId := Fin.ofNat 514 (M.nnodes + 1)

/-- The first step of the grafting: the two new nodes (rule R177). -/
def seat (M : Model) (s : Byte) : Model :=
  let leaf := newLeaf M
  let inner := newInner M
  let M := { M with nnodes := M.nnodes + 2 }
  let M := setNode M leaf { node M leaf with symbol := .byte s, weight := 1, left := none, right := none }
  setNode M inner { node M inner with symbol := .internal, weight := 1 }

/-- The second step: the new nodes take their places in the list after `h`, before `on` (rule R177). -/
def chain (M : Model) (h leaf inner : NodeId) (on : Option NodeId) : Model :=
  let M := setPrev (setNext M h (some leaf)) leaf (some h)
  let M := setPrev (setNext M leaf (some inner)) inner (some leaf)
  setPrevOf (setNext M inner on) on inner

/-- The third step: the inner node takes the place of `h` under `p`, over `h` and the leaf (rule R177). -/
def hang (M : Model) (h leaf inner : NodeId) (p : Option NodeId) : Model :=
  let M := relink M p h inner
  let M := setParent (setRight (setLeft M inner (some h)) inner (some leaf)) inner p
  setParent (setParent M h (some inner)) leaf (some inner)

/-- The first part of `Introduce` step by step (rule R177). -/
theorem graft_eq (M : Model) (s : Byte) :
    let N := hang (chain (seat M s) M.lhead (newLeaf M) (newInner M) (node M M.lhead).next) M.lhead (newLeaf M)
      (newInner M) (node M M.lhead).parent
    graft M s = { N with loc := tablePut N.loc s.toNat (newLeaf M) } := rfl

theorem node_seat (M : Model) (s : Byte) (k : NodeId) :
    (node (seat M s) k).parent = (node M k).parent ∧ (node (seat M s) k).next = (node M k).next ∧
      (node (seat M s) k).prev = (node M k).prev ∧
      wt (seat M s) k = if k = newInner M ∨ k = newLeaf M then 1 else wt M k := by
  have hsize : ∀ n, node { M with nnodes := M.nnodes + 2 } n = node M n := fun _ => rfl
  simp only [seat, node_setNode, wt, hsize]
  grind

theorem sameTree_chain (M : Model) (h leaf inner : NodeId) (on : Option NodeId) :
    SameTree M (chain M h leaf inner on) :=
  (((((sameTree_setNext ..).trans (sameTree_setPrev ..)).trans (sameTree_setNext ..)).trans
    (sameTree_setPrev ..)).trans (sameTree_setNext ..)).trans (sameTree_setPrevOf ..)

theorem next_chain (M : Model) (h leaf inner : NodeId) (on : Option NodeId) (k : NodeId) :
    (node (chain M h leaf inner on) k).next =
      if k = inner then on else if k = leaf then some inner else if k = h then some leaf else (node M k).next := by
  simp only [chain, next_setPrevOf, next_setNext, next_setPrev]

theorem prev_chain (M : Model) (h leaf inner : NodeId) (on : Option NodeId) (k : NodeId) :
    (node (chain M h leaf inner on) k).prev =
      if on = some k then some inner else if k = inner then some leaf else if k = leaf then some h
      else (node M k).prev := by
  simp only [chain, prev_setPrevOf, prev_setNext, prev_setPrev]

theorem sameList_hang (M : Model) (h leaf inner : NodeId) (p : Option NodeId) : SameList M (hang M h leaf inner p) :=
  (((((sameList_relink ..).trans (sameList_setLeft ..)).trans (sameList_setRight ..)).trans
    (sameList_setParent ..)).trans (sameList_setParent ..)).trans (sameList_setParent ..)

theorem root_hang (M : Model) (h leaf inner : NodeId) (p : Option NodeId) :
    (hang M h leaf inner p).root = if p = none then inner else M.root := by
  simp only [hang, setParent_root, setRight_root, setLeft_root, root_relink]

theorem parent_hang (M : Model) (h leaf inner : NodeId) (p : Option NodeId) (k : NodeId) :
    (node (hang M h leaf inner p) k).parent =
      if k = leaf then some inner else if k = h then some inner else if k = inner then p else (node M k).parent := by
  simp only [hang, parent_setParent, parent_setRight, parent_setLeft, parent_relink]

/-- What `Introduce` finds after its first part (rule R177). -/
structure Grafted (M N : Model) (s : Byte) (leaf inner : NodeId) : Prop where
  leaf_val : leaf.val = M.nnodes
  inner_val : inner.val = M.nnodes + 1
  nnodes : N.nnodes = M.nnodes + 2
  lhead : N.lhead = M.lhead
  root : N.root = if (node M M.lhead).parent = none then inner else M.root
  loc_of : ∀ b, locOf N b = if b = s then some leaf else locOf M b
  wt_eq : ∀ k, wt N k = if k = inner ∨ k = leaf then 1 else wt M k
  parent : ∀ k, (node N k).parent = if k = leaf then some inner else if k = M.lhead then some inner else
    if k = inner then (node M M.lhead).parent else (node M k).parent
  next : ∀ k, (node N k).next = if k = inner then (node M M.lhead).next else if k = leaf then some inner else
    if k = M.lhead then some leaf else (node M k).next
  prev : ∀ k, (node N k).prev = if (node M M.lhead).next = some k then some inner else if k = inner then some leaf else
    if k = leaf then some M.lhead else (node M k).prev

theorem grafted {M : Model} (hroom : M.nnodes + 1 < 514) (s : Byte) :
    Grafted M (graft M s) s (newLeaf M) (newInner M) := by
  have hseat := node_seat M s
  have hc := sameTree_chain (seat M s) M.lhead (newLeaf M) (newInner M) (node M M.lhead).next
  have hnext := next_chain (seat M s) M.lhead (newLeaf M) (newInner M) (node M M.lhead).next
  have hprev := prev_chain (seat M s) M.lhead (newLeaf M) (newInner M) (node M M.lhead).next
  rw [graft_eq]
  generalize chain (seat M s) M.lhead (newLeaf M) (newInner M) (node M M.lhead).next = C at *
  have hh := sameList_hang C M.lhead (newLeaf M) (newInner M) (node M M.lhead).parent
  have hroot := root_hang C M.lhead (newLeaf M) (newInner M) (node M M.lhead).parent
  have hpar := parent_hang C M.lhead (newLeaf M) (newInner M) (node M M.lhead).parent
  generalize hang C M.lhead (newLeaf M) (newInner M) (node M M.lhead).parent = H at *
  have hnode : ∀ k, node { H with loc := tablePut H.loc s.toNat (newLeaf M) } k = node H k := fun _ => rfl
  constructor
  case leaf_val => exact Nat.mod_eq_of_lt (by omega)
  case inner_val => exact Nat.mod_eq_of_lt hroom
  case nnodes => exact hh.nnodes.trans hc.nnodes
  case lhead => exact hh.lhead.trans hc.lhead
  case root => exact hroot.trans (by rw [hc.root]; rfl)
  case loc_of =>
    intro b
    have : H.loc = M.loc := hh.loc.trans hc.loc
    simp only [locOf, this]
    exact tableFind_loc ..
  case wt_eq =>
    intro k
    rw [← (hseat k).2.2.2, wt, wt, hnode, hh.weight, hc.weight]
  case parent =>
    intro k
    simp only [hnode, hpar, hc.parent, (hseat _).1]
  case next =>
    intro k
    simp only [hnode, hh.next, hnext, (hseat _).2.1]
  case prev =>
    intro k
    simp only [hnode, hh.prev, hprev, (hseat _).2.2.1]

/-- The order after `Introduce`'s first part: the new nodes directly after the not-yet-seen leaf. -/
def graftPos (M : Model) (pos : NodeId → Nat) (leaf inner k : NodeId) : Nat :=
  if k = M.lhead then 0 else if k = leaf then 1 else if k = inner then 2 else pos k + 2

section
variable {M N : Model} {s : Byte} {leaf inner : NodeId} {pos : NodeId → Nat}

theorem Grafted.uses (g : Grafted M N s leaf inner) (k : NodeId) : N.uses k ↔ M.uses k ∨ k = leaf ∨ k = inner := by
  simp only [Model.uses, g.nnodes, Fin.ext_iff, g.leaf_val, g.inner_val]
  omega

/-- The new nodes are new, and two. -/
theorem Grafted.fresh (g : Grafted M N s leaf inner) : ¬ M.uses leaf ∧ ¬ M.uses inner ∧ leaf ≠ inner := by
  simp [Model.uses, g.leaf_val, g.inner_val, Fin.ext_iff]

theorem Grafted.linked (g : Grafted M N s leaf inner) (h : TreeShape M pos none) (hl : Linked M pos) :
    Linked N (graftPos M pos leaf inner) := by
  obtain ⟨hln, hin, hli⟩ := g.fresh
  have hh := h.head_uses
  have hh0 := h.head_pos
  have hp := h.placed
  obtain ⟨hn, hv⟩ := hl
  unfold Placed at hp
  constructor
  · intro k m hk
    rw [g.uses] at hk ⊢
    rw [g.next]
    unfold graftPos
    grind
  · intro k m hk
    rw [g.uses] at hk ⊢
    rw [g.prev]
    unfold graftPos
    grind

theorem Grafted.sorted (g : Grafted M N s leaf inner) (h : TreeShape M pos none) (hs : Sorted M pos) :
    Sorted N (graftPos M pos leaf inner) := by
  obtain ⟨hln, hin, hli⟩ := g.fresh
  have hh := h.head_uses
  have hh0 := h.head_pos
  have hw0 := h.head_wt
  intro k m hk hm
  rw [g.uses] at hk hm
  rw [g.wt_eq, g.wt_eq]
  have hkm := hs k m
  have hk1 := h.pos_pos (k := k)
  have hm1 := h.positive m
  unfold graftPos
  grind

theorem Grafted.seen_eq (g : Grafted M N s leaf inner) (hs : locOf M s = none) : seen N = seen M + 1 := by
  unfold seen
  rw [← Finset.card_insert_of_notMem (a := s) (by simp [hs])]
  congr 1
  ext b
  simp only [g.loc_of, Finset.mem_filter, Finset.mem_univ, true_and, Finset.mem_insert]
  split <;> simp_all

/-- The children of the new inner node are the new leaf and the not-yet-seen leaf. -/
theorem Grafted.parent_eq_inner (g : Grafted M N s leaf inner) (h : TreeShape M pos none) {k : NodeId}
    (hk : N.uses k) : (node N k).parent = some inner ↔ k = leaf ∨ k = M.lhead := by
  obtain ⟨hln, hin, hli⟩ := g.fresh
  have hk' := h.later k inner
  have hh' := h.later M.lhead inner h.head_uses
  rw [g.uses] at hk
  rw [g.parent]
  grind

/-- The children of an old node: the inner node stands for the not-yet-seen leaf. -/
theorem Grafted.parent_eq_old (g : Grafted M N s leaf inner) (hh : M.uses M.lhead) {k p : NodeId} (hp : p ≠ inner) :
    (node N k).parent = some p ↔
      if k = inner then (node M M.lhead).parent = some p
      else k ≠ leaf ∧ k ≠ M.lhead ∧ (node M k).parent = some p := by
  obtain ⟨hln, hin, hli⟩ := g.fresh
  rw [g.parent]
  grind

theorem Grafted.sibling (g : Grafted M N s leaf inner) (h : TreeShape M pos none) {k p : NodeId} (hk : N.uses k)
    (hp : (node N k).parent = some p) :
    ∃ j, N.uses j ∧ j ≠ k ∧ (node N j).parent = some p ∧
      (∀ i, N.uses i → (node N i).parent = some p → i = j ∨ i = k) ∧
      wt N j + wt N k = wt N p + if (node M M.lhead).parent = some p then 1 else 0 := by
  obtain ⟨hln, hin, hli⟩ := g.fresh
  have hh := h.head_uses
  have hw0 := h.head_wt
  by_cases hpi : p = inner
  · subst hpi
    have hchild := fun i hi => g.parent_eq_inner h (k := i) hi
    have hup : (node M M.lhead).parent ≠ some p := fun e => hin (h.later _ _ hh e).1
    rcases (hchild k hk).1 hp with rfl | rfl
    · have hj := (g.uses M.lhead).2 (.inl hh)
      refine ⟨M.lhead, hj, by grind, (hchild _ hj).2 (.inr rfl), fun i hi e => ((hchild i hi).1 e).symm, ?_⟩
      simp only [g.wt_eq]
      grind
    · have hj := (g.uses leaf).2 (.inr (.inl rfl))
      refine ⟨leaf, hj, by grind, (hchild _ hj).2 (.inl rfl), fun i hi => (hchild i hi).1, ?_⟩
      simp only [g.wt_eq]
      grind
  · have hold := fun i => g.parent_eq_old hh (k := i) hpi
    simp only [hold, g.wt_eq, g.uses] at hk hp ⊢
    by_cases hki : k = inner
    · rw [if_pos hki] at hp
      obtain ⟨j, hj, hjk, hjp, honly, hsum⟩ := h.sibling _ p hh hp
      have hpu := (h.later _ p hh hp).1
      refine ⟨j, .inl hj, ?_⟩
      grind
    · rw [if_neg hki] at hp
      obtain ⟨hkl, hkh, hp⟩ := hp
      have hku : M.uses k := by tauto
      obtain ⟨j, hj, hjk, hjp, honly, hsum⟩ := h.sibling _ p hku hp
      have hpu := (h.later k p hku hp).1
      by_cases hjh : j = M.lhead
      · exact ⟨inner, by grind⟩
      · exact ⟨j, by grind⟩

/-- The first part of `Introduce` (rule R177) keeps the invariants, the old parent of the not-yet-seen leaf due. -/
theorem Grafted.treeShape (g : Grafted M N s leaf inner) (h : TreeShape M pos none) (hs : locOf M s = none) :
    TreeShape N (graftPos M pos leaf inner) (node M M.lhead).parent := by
  obtain ⟨hln, hin, hli⟩ := g.fresh
  have hh := h.head_uses
  have hh0 := h.head_pos
  have hw0 := h.head_wt
  have hpar := g.parent
  have hu := g.uses
  have hlater := h.later
  constructor
  case placed =>
    intro k m hk hm
    rw [hu] at hk hm
    have := h.placed k m
    have hk1 := h.pos_pos (k := k)
    have hm1 := h.pos_pos (k := m)
    unfold graftPos
    grind
  case below =>
    intro k hk
    rw [hu] at hk
    have := h.below k
    have := h.below M.lhead hh
    rw [g.nnodes]
    unfold graftPos
    grind
  case filled =>
    intro i hi
    rw [g.nnodes] at hi
    match i with
    | 0 => exact ⟨M.lhead, (hu _).2 (.inl hh), by simp [graftPos]⟩
    | 1 => exact ⟨leaf, (hu _).2 (.inr (.inl rfl)), by unfold graftPos; grind⟩
    | 2 => exact ⟨inner, (hu _).2 (.inr (.inr rfl)), by unfold graftPos; grind⟩
    | i + 3 =>
      obtain ⟨k, hk, hki⟩ := h.filled (i + 1) (by omega)
      exact ⟨k, (hu _).2 (.inl hk), by unfold graftPos; grind⟩
  case head_uses => rw [g.lhead, hu]; exact .inl hh
  case head_pos => rw [g.lhead, graftPos, if_pos rfl]
  case head_wt =>
    rw [g.lhead, g.wt_eq]
    grind
  case positive =>
    intro k hk
    have := h.positive k
    rw [hu] at hk
    rw [g.wt_eq, g.lhead]
    grind
  case later =>
    intro k p hk
    have := h.later k p
    have := h.later M.lhead p
    have := h.pos_pos (k := k)
    rw [hu] at hk ⊢
    rw [hpar]
    unfold graftPos
    grind
  case rooted =>
    intro k hk
    have := h.rooted k
    have := h.rooted M.lhead
    rw [hu] at hk
    have := h.root_uses
    rw [hpar, g.root]
    grind
  case root_uses =>
    have := h.root_uses
    rw [hu, g.root]
    split <;> simp_all
  case sibling => exact fun k p => g.sibling h
  case headPair =>
    intro q hq
    rw [g.lhead, hpar] at hq
    have hqi : q = inner := by grind
    subst hqi
    refine ⟨by unfold graftPos; grind, fun y hy hy1 => ?_⟩
    have hyl : y = leaf := by unfold graftPos at hy1; grind
    rw [hpar, if_pos hyl]
  case leaf =>
    intro b n hn
    have := h.leaf b n
    rw [g.loc_of] at hn
    simp only [g.lhead, hu, hpar]
    have := h.later M.lhead n
    refine ⟨by grind, by grind, ?_⟩
    intro k hk
    have := h.later k n
    grind
  case count => rw [g.nnodes, g.seen_eq hs, h.count]; omega

end

end Sys2Proof.Machine
end

section
/-! SUPPORT. Every reached model meets the invariants; so a symbol's code is never empty (rules R174 to R176, R180,
R183). -/

namespace Sys2Proof.Machine

/-! ## `Update` -/

/-- `Introduce` (rule R177) keeps the invariants. -/
theorem Rest.introduce {M N : Model} {s : Byte} (h : Rest M) (hs : locOf M s = none) (hi : introduce M s = .ok N) :
    Rest N := by
  obtain ⟨pos, ht, hsort, hl⟩ := h
  have g := grafted (ht.room hs) s
  refine rest_increment ⟨g.treeShape ht hs, g.sorted ht hsort, .inl (g.linked ht hl), by simp, fun n hn => ?_⟩ hi
  obtain ⟨hnu, hpos⟩ := ht.later _ n ht.head_uses hn
  refine ⟨(g.uses n).2 (.inl hnu), ?_, ?_, .inl (g.linked ht hl)⟩
  · rw [g.lhead]
    rintro rfl
    omega
  · rw [g.lhead, g.parent, if_neg, if_pos rfl]
    · rintro ⟨rfl⟩
      exact g.fresh.2.1 hnu
    · intro e
      exact g.fresh.1 (e ▸ ht.head_uses)

/-- `Update` (rule R176) keeps the invariants. -/
theorem Rest.update {M N : Model} {s : Byte} (h : Rest M) (hu : Machine.update M s = .ok N) : Rest N := by
  rcases update_cases M s with ⟨hs, e⟩ | ⟨n, hs, e⟩
  · exact h.introduce hs (e ▸ hu)
  · exact h.increment_leaf hs (e ▸ hu)

/-- `Empty()` (rule R174) meets the invariants. -/
theorem rest_emptyModel : Rest emptyModel := by
  have hu : ∀ k, emptyModel.uses k → k = 0 := fun k hk => Fin.ext (Nat.lt_one_iff.1 hk)
  have hu0 : emptyModel.uses 0 := Nat.one_pos
  have hloc : ∀ s, locOf emptyModel s = none := fun _ => rfl
  have hparent : ∀ k, emptyModel.uses k → (node emptyModel k).parent = none := by
    intro k hk; rw [hu k hk]; rfl
  refine ⟨fun _ => 0, ?_, ?_, ?_⟩
  · constructor
    case placed => exact fun k m hk hm _ => (hu k hk).trans (hu m hm).symm
    case below => exact fun _ _ => Nat.one_pos
    case filled => exact fun i hi => ⟨0, hu0, (Nat.lt_one_iff.1 hi).symm⟩
    case head_uses => exact hu0
    case head_pos => rfl
    case head_wt => rfl
    case positive => exact fun k hk hne => absurd (hu k hk) hne
    case later => exact fun k p hk hp => by simp [hparent k hk] at hp
    case root_uses => exact hu0
    case rooted => exact fun k hk => ⟨fun _ => hu k hk, fun _ => hparent k hk⟩
    case sibling => exact fun k p hk hp => by simp [hparent k hk] at hp
    case headPair => exact fun q hq => by cases (hparent 0 hu0).symm.trans hq
    case leaf => exact fun s n hn => by simp [hloc] at hn
    case count => simp [seen, hloc]; rfl
  · intro k m hk hm _
    rw [hu k hk, hu m hm]
  · constructor
    · intro k m hk
      rw [hu k hk]
      simp [emptyModel, node, tableFind, Node.unused]
    · intro k m hk
      rw [hu k hk]
      simp [emptyModel, node, tableFind, Node.unused]

theorem Rest.updates : ∀ (bytes : List Byte) {M N : Model}, Rest M → Machine.updates M bytes = .ok N → Rest N
  | [], M, N, h, hu => by cases hu; exact h
  | s :: ss, M, N, h, hu => by
    obtain ⟨M', hM, hu⟩ := bind_eq_ok hu
    exact Rest.updates ss (h.update hM) hu

/-- Every reached model meets the invariants. -/
theorem Model.Reached.rest {M : Model} (h : M.Reached) : Rest M := by
  obtain ⟨bytes, hb⟩ := h
  exact rest_emptyModel.updates bytes hb

/-! ## Seeding -/

theorem Model.Reached.updates {M N : Model} {bytes : List Byte} (h : M.Reached)
    (hu : Machine.updates M bytes = .ok N) : N.Reached := by
  obtain ⟨before, hb⟩ := h
  exact ⟨before ++ bytes, by rw [updates_append, hb]; exact hu⟩

theorem Model.Reached.updateTimes {s : Byte} : ∀ (count : Nat) {M N : Model}, M.Reached →
    Machine.updateTimes s count M = .ok N → N.Reached
  | 0, M, N, h, hu => by cases hu; exact h
  | count + 1, M, N, h, hu => by
    obtain ⟨M', hM, hu⟩ := bind_eq_ok hu
    exact (h.update hM).updateTimes count hu

theorem Model.Reached.seedFrom : ∀ (counts : List Word) (i : Nat) {M N : Model}, M.Reached →
    Machine.seedFrom i counts M = .ok N → N.Reached
  | [], _, M, N, h, hs => by cases hs; exact h
  | count :: counts, i, M, N, h, hs => by
    obtain ⟨M', hM, hs⟩ := bind_eq_ok hs
    exact (h.updateTimes _ hM).seedFrom counts (i + 1) hs

/-- A seeded model (rule R180) is a reached one. -/
theorem reached_seeded {p : Params} {M : Model} (h : seeded p = .ok M) : M.Reached := reached_empty.seedFrom _ 0 h

/-! ## Codes are not empty -/

/-- A walk over parents adds to the bits it has. -/
theorem codeFrom_ne_nil (M : Model) : ∀ (fuel : Nat) (n : NodeId) {acc : List Bool}, acc ≠ [] →
    codeFrom M fuel n acc ≠ []
  | 0, _, _, h => h
  | fuel + 1, n, acc, h => by
    unfold codeFrom
    split
    · exact h
    · split
      · exact h
      · exact codeFrom_ne_nil M fuel _ (List.cons_ne_nil _ _)

/-- The code of a node under the root has a bit (rule R183). -/
theorem code_ne_nil {M : Model} {n p : NodeId} (hn : n ≠ M.root) (hp : (node M n).parent = some p) : code M n ≠ [] := by
  unfold code
  rw [show Config.poolNodes = 513 + 1 from rfl, codeFrom, if_neg hn, hp]
  exact codeFrom_ne_nil M _ _ (List.cons_ne_nil _ _)

/-- Only the root, which is no leaf of a byte, has no parent. -/
theorem TreeShape.leaf_parent {M : Model} {pos : NodeId → Nat} {s : Byte} {n : NodeId} (h : TreeShape M pos none)
    (hs : locOf M s = some n) : ∃ p, (node M n).parent = some p := by
  obtain ⟨hn, hh, hchild⟩ := h.leaf s n hs
  by_contra hnone
  have hroot : n = M.root := (h.rooted n hn).1 (Option.eq_none_iff_forall_ne_some.2 fun p hp => hnone ⟨p, hp⟩)
  have hn1 := h.pos_pos hn hh
  have hlast : M.nnodes = pos n + 1 := by
    rw [hroot]; exact h.root_last
  obtain ⟨z, hz, hzpos⟩ := h.filled (pos n - 1) (by omega)
  cases hzp : (node M z).parent with
  | none =>
    have hzn : z = n := ((h.rooted z hz).1 hzp).trans hroot.symm
    subst hzn
    omega
  | some p =>
    obtain ⟨hp, hlt⟩ := h.later z p hz hzp
    have hbelow := h.below p hp
    exact hchild z hz (h.placed p n hp hn (by omega) ▸ hzp)

/-- Every symbol a reached model encodes puts at least one bit (rule R183). -/
theorem symbolBits_ne_nil {M : Model} (h : M.Reached) (s : Byte) : symbolBits M s ≠ [] := by
  obtain ⟨pos, ht, -, -⟩ := h.rest
  unfold symbolBits
  split
  · rename_i n hs
    obtain ⟨p, hp⟩ := ht.leaf_parent hs
    refine code_ne_nil (fun e => ?_) hp
    rw [(ht.rooted n (ht.leaf s n hs).1).2 e] at hp
    cases hp
  · simp [msbFirst]

end Sys2Proof.Machine
end

section
/-! Rule R36: every step keeps `CURSIZE ≤ MAXSIZE ≤ BUF_BYTES`. -/

namespace Sys2Proof.Machine

/-- `CURSIZE ≤ MAXSIZE ≤ BUF_BYTES` of one context (rule R36). -/
def Context.inOrder (p : Params) (C : Context) : Prop := C.cursize ≤ C.maxsize ∧ C.maxsize.toNat ≤ p.bufBytes

/-- `CURSIZE ≤ MAXSIZE ≤ BUF_BYTES` of every context (rule R36). -/
def State.inOrder (s : State) : Prop := ∀ c, (ctxOf s c).inOrder s.params

/-- What a command needs to find outside the faulted state to leave the sizes in order. -/
structure Sound (s : State) : Prop where
  params : s.params.Ok
  sizes : s.inOrder
  enc : s.modelReady = true → s.enc.Reached

/-- A command ends in the faulted state or with the sizes in order (rule R36). -/
def EndsInOrder (t : State) : Prop := t.fault = false → t.inOrder

theorem State.inOrder.setCtx {s : State} (h : s.inOrder) {c : CtxNum} {C : Context} (hC : C.inOrder s.params) :
    (Machine.setCtx c C s).inOrder := by
  intro d
  by_cases hd : d = c
  · subst hd; simpa using hC
  · rw [ctxOf_setCtx_of_ne hd]; exact h d

theorem ReadFrame.inOrder {c : CtxNum} {s t : State} (h : ReadFrame c s t) (hs : s.inOrder) : t.inOrder := by
  intro d
  rw [h.port.1]
  by_cases hd : d = c
  · subst hd; rw [h.own]; exact hs d
  · rw [h.others d hd]; exact hs d

theorem endsInOrder_conclude {s : State} {e : Except FaultCause (Word × State)}
    (h : ∀ v t, e = .ok (v, t) → t.inOrder) :
    EndsInOrder (conclude s e) := by
  rcases conclude_cases s e with ⟨v, t, he, hc⟩ | ⟨f, -, hc⟩
  · rw [hc]; exact fun _ => h v t he
  · rw [hc]; intro hf; simp at hf

theorem endsInOrder_noResult {s : State} {e : Except FaultCause State} (h : ∀ t, e = .ok t → t.inOrder) :
    EndsInOrder (conclude s (noResult e)) := by
  refine endsInOrder_conclude fun v t he => h t ?_
  cases e with
  | error f => cases he
  | ok u => cases he; rfl

theorem endsInOrder_prologue {inFault : Bool} {cs : List CtxNum} {s : State} {body : State → State}
    (hs : s.fault = false → s.inOrder) (hb : s.fault = false ∨ inFault = true → EndsInOrder (body s)) :
    EndsInOrder (prologue inFault cs s body) := by
  rcases prologue_cases inFault cs s body with ⟨-, -, h⟩ | ⟨-, -, h⟩ | ⟨hf, -, h⟩
  · rw [h]; exact hs
  · rw [h]; exact hs
  · rw [h]; exact hb hf

/-- A command that does not run in the faulted state. -/
theorem endsInOrder_command {cs : List CtxNum} {s t : State} {body : State → State} (hs : s.fault = false → Sound s)
    (h : (.next (prologue false cs s body) : Host.Outcome State Fault Refusal) = .next t)
    (hb : Sound s → EndsInOrder (body s)) : EndsInOrder t := by
  cases h
  exact endsInOrder_prologue (fun hf => (hs hf).sizes) fun hf => hb (hs (hf.resolve_right Bool.false_ne_true))

theorem endsInOrder_guardArg {ok : Bool} {s : State} {body : State → State} (hs : s.inOrder)
    (hb : ok = true → EndsInOrder (body s)) : EndsInOrder (guardArg ok body s) := by
  cases ok with
  | false => exact fun _ => hs
  | true => exact hb rfl

/-! ## Writes -/

theorem Sound.ensureModel {s t : State} (h : Sound s) (he : Machine.ensureModel s = .ok t) :
    Sound t ∧ t.modelReady = true ∧ t.ctxs = s.ctxs := by
  rcases ensureModel_cases he with ⟨hr, rfl⟩ | ⟨M, -, hM, rfl⟩
  · exact ⟨h, hr, rfl⟩
  · exact ⟨⟨h.params, h.sizes, fun _ => reached_seeded hM⟩, rfl, rfl⟩

/-- A field becomes at least one bit in compressed mode (rules R57, R60): a residual bit or a code. -/
theorem fieldBits_ne_nil {M : Model} {v : Word} {n : Nat} {bits : List Bool} (hM : M.Reached) (hn : 1 ≤ n)
    (h : fieldBits M v n = .ok bits) : bits ≠ [] := by
  obtain ⟨codes, hc, h⟩ := bind_eq_ok h
  cases h
  by_cases hr : n % 8 = 0
  · have hlen : (wholeBytes v n).length = n / 8 := by simp [wholeBytes]
    obtain ⟨b, bs, hb⟩ := List.exists_cons_of_length_pos (l := wholeBytes v n) (by omega)
    rw [hb] at hc
    obtain ⟨M', -, hc⟩ := bind_eq_ok hc
    obtain ⟨rest, -, hc⟩ := bind_eq_ok hc
    cases hc
    simp [symbolBits_ne_nil hM b]
  · have hlen : (residualBits v n).length = n % 8 := by simp [residualBits]
    exact List.append_ne_nil_of_left_ne_nil (List.ne_nil_of_length_pos (by omega)) _

/-- Bits put, at least one, end below `MAXSIZE` (rule R172). -/
theorem putBits_ceil8_le {C D : Context} {bits : List Bool} (hmax : C.maxsize.toNat ≤ 2 ^ 28) (hb : bits ≠ [])
    (h : putBits C bits = .ok D) : D.maxsize = C.maxsize ∧ ceil8 D.bit.toNat ≤ C.maxsize.toNat := by
  have hfit : C.bit.toNat + bits.length ≤ 8 * C.maxsize.toNat := by
    by_contra hover
    rw [putBits_unfit bits hmax hb (by omega)] at h
    cases h
  obtain ⟨m, rfl, -, -⟩ := putBits_ok bits h
  refine ⟨rfl, ?_⟩
  simp only [ceil8, BitVec.toNat_add, BitVec.toNat_ofNat]
  omega

/-- A compressed write leaves `CURSIZE` at most `MAXSIZE` (rules R36, R121). -/
theorem writeCoded_inOrder {M M' : Model} {C D : Context} {v : Word} {n : Nat} {p : Params} (hp : p.Ok)
    (hM : M.Reached) (hn : 1 ≤ n) (hC : C.inOrder p) (h : writeCoded M C v n = .ok (M', D)) :
    M'.Reached ∧ D.inOrder p := by
  obtain ⟨bits, E, hbits, hput, hup, rfl⟩ := writeCoded_ok h
  obtain ⟨-, -, -, hbytes, -, -⟩ := hp
  obtain ⟨hmax, hceil⟩ := putBits_ceil8_le (hC.2.trans hbytes) (fieldBits_ne_nil hM hn hbits) hput
  have hlt := C.maxsize.isLt
  refine ⟨hM.updates hup, ?_, ?_⟩
  · simp only [BitVec.le_def, BitVec.toNat_ofNat, hmax]
    omega
  · simpa only [hmax] using hC.2

/-- A raw write with headroom leaves `CURSIZE` at most `MAXSIZE` (rules R36, R121). -/
theorem writeRaw_inOrder {C D : Context} {v : Word} {n : Nat} {p : Params} (hn : n ≤ 32)
    (hroom : headroomShort C = false) (hC : C.inOrder p) (h : writeRaw C v n = .ok D) : D.inOrder p := by
  obtain ⟨E, hw, h⟩ := bind_eq_ok h
  cases h
  obtain ⟨m, rfl, -, -⟩ := memWriteMany_ok _ hw
  obtain ⟨hle, hmax⟩ := hC
  refine ⟨?_, hmax⟩
  have hroom' : ¬ C.maxsize - C.cursize < 4#32 := of_decide_eq_false hroom
  have hlt := C.maxsize.isLt
  simp only [BitVec.le_def, BitVec.lt_def, BitVec.toNat_sub, BitVec.toNat_add, BitVec.toNat_ofNat] at hle hroom' ⊢
  omega

/-- `WriteBitsCore` (rule R121) keeps the sizes in order. -/
theorem Sound.writeBitsCore {c : CtxNum} {v : Word} {n : Nat} {s t : State} (h : Sound s) (hn : legalWidth n)
    (hw : Machine.writeBitsCore c v n s = .ok t) : Sound t := by
  rcases writeBitsCore_cases hw with ⟨-, rfl⟩ | ⟨hroom, -, C, hC, rfl⟩ | ⟨-, -, u, M, C, hu, hC, rfl⟩
  · exact ⟨h.params, h.sizes.setCtx (h.sizes c), h.enc⟩
  · exact ⟨h.params, h.sizes.setCtx (writeRaw_inOrder hn.2 hroom (h.sizes c) hC), h.enc⟩
  · obtain ⟨hsu, hready, -⟩ := h.ensureModel hu
    obtain ⟨hM, hin⟩ := writeCoded_inOrder hsu.params (hsu.enc hready) hn.1 (hsu.sizes c) hC
    exact ⟨hsu.params, State.inOrder.setCtx (s := { u with enc := M }) hsu.sizes hin, fun _ => hM⟩

theorem Sound.deltaWrite {c : CtxNum} {old new key : Word} {n : Nat} {s t : State} (h : Sound s) (hn : legalWidth n)
    (hw : Machine.deltaWrite c old new n key s = .ok t) : Sound t := by
  have h1 : legalWidth 1 := ⟨le_rfl, by omega⟩
  unfold Machine.deltaWrite at hw
  split at hw
  · exact h.writeBitsCore h1 hw
  · obtain ⟨u, hf, hw⟩ := bind_eq_ok hw
    exact (h.writeBitsCore h1 hf).writeBitsCore hn hw

theorem endsInOrder_writeField {c : CtxNum} {n : Nat} {s : State} (h : Sound s) (hn : legalWidth n) :
    EndsInOrder (writeField c n s) := endsInOrder_noResult fun _ ht => (h.writeBitsCore hn ht).sizes

theorem endsInOrder_deltaWriteField {c : CtxNum} {n : Nat} {key : Word} {s : State} (h : Sound s) (hn : legalWidth n) :
    EndsInOrder (deltaWriteField c n key s) := endsInOrder_noResult fun _ ht => (h.deltaWrite hn ht).sizes

theorem endsInOrder_typedReadField {c : CtxNum} {w : Int} {e : Word} {s : State} (h : Sound s) :
    EndsInOrder (typedReadField c w e s) := endsInOrder_conclude fun _ _ ht => (typedRead_frame ht).inOrder h.sizes

theorem endsInOrder_deltaReadField {c : CtxNum} {w : Int} {key : Word} {s : State} (h : Sound s) :
    EndsInOrder (deltaReadField c w key s) := endsInOrder_conclude fun _ _ ht => (deltaRead_frame ht).inOrder h.sizes

/-! ## The other commands that move `CURSIZE` or `MAXSIZE` -/

theorem endsInOrder_initBody {c : CtxNum} {oob : Bool} {s : State} (h : Sound s) : EndsInOrder (initBody c oob s) := by
  refine endsInOrder_guardArg h.sizes fun hok => endsInOrder_noResult fun t ht => ?_
  obtain ⟨u, hu, ht⟩ := bind_eq_ok ht
  cases ht
  have hparams : u.params = s.params := (readFrame_ensureModel (c := c) hu).port.1
  refine (h.ensureModel hu).1.sizes.setCtx ⟨?_, ?_⟩
  · simp [BitVec.le_def]
  · rw [hparams]; exact of_decide_eq_true hok

/-- A reset context is in order (rule R44). -/
theorem inOrder_reset (p : Params) : Context.reset.inOrder p := ⟨BitVec.le_refl _, Nat.zero_le _⟩

theorem State.inOrder.drawn {s : State} (h : s.inOrder) (n : Nat) : (Machine.drawn n s).inOrder := h

/-- Rule R106: the capacity given is at least the source's `CURSIZE`. -/
theorem endsInOrder_copy {c src : CtxNum} {s t : State} (hs : s.fault = false → Sound s)
    (h : exec (.copy c src) s = .next t) : EndsInOrder t := by
  refine endsInOrder_command hs h fun h => endsInOrder_guardArg h.sizes fun hok => ?_
  split
  · exact fun _ => h.sizes
  · rename_i hfit
    obtain ⟨n, hn⟩ := memReadMany_frame src (ctxOf s src).cursize.toNat 0 s
    simp only [hn]
    refine fun _ => (h.sizes.drawn n).setCtx ⟨BitVec.not_lt.1 hfit, of_decide_eq_true hok⟩

theorem storeCompressed_inOrder {c : CtxNum} {start : Word} {out : List Byte} {s t : State} (h : s.inOrder)
    (hw : storeCompressed c start out s = .ok t) : t.inOrder := by
  unfold storeCompressed at hw
  split at hw
  · cases hw
  · rename_i hfit
    cases hw
    obtain ⟨hle, hmax⟩ := h c
    refine h.setCtx ⟨?_, hmax⟩
    have hbound := (ctxOf s c).maxsize.isLt
    simp only [BitVec.le_def, BitVec.toNat_add, BitVec.toNat_ofNat]
    omega

/-- Rule R190: the result fits below `MAXSIZE`. -/
theorem endsInOrder_compress {c : CtxNum} {s t : State} (hs : s.fault = false → Sound s)
    (h : exec (.compress c) s = .next t) : EndsInOrder t := by
  refine endsInOrder_command hs h fun h => ?_
  split
  · exact fun _ => h.sizes
  · refine endsInOrder_guardArg h.sizes fun _ => endsInOrder_noResult fun t ht => ?_
    obtain ⟨n, hn⟩ := memReadMany_frame c ((ctxOf s c).cursize - s.a).toNat s.a.toNat s
    obtain ⟨out, -, ht⟩ := bind_eq_ok ht
    rw [hn] at ht
    exact storeCompressed_inOrder (h.sizes.drawn n) ht

/-- Rule R191: the count is clamped to what fits below `MAXSIZE`. -/
theorem endsInOrder_decompress {c : CtxNum} {s t : State} (hs : s.fault = false → Sound s)
    (h : exec (.decompress c) s = .next t) : EndsInOrder t := by
  refine endsInOrder_command hs h fun h => ?_
  split
  · exact fun _ => h.sizes
  · rename_i hlt
    refine endsInOrder_noResult fun t ht => ?_
    obtain ⟨n, hn⟩ := memReadMany_frame c 2 s.a.toNat s
    obtain ⟨M, -, ht⟩ := bind_eq_ok ht
    obtain ⟨out, -, ht⟩ := bind_eq_ok ht
    cases ht
    rw [hn]
    obtain ⟨hle, hmax⟩ := h.sizes c
    refine ((h.sizes.drawn n).drawn _).setCtx ⟨?_, hmax⟩
    have hcount : clampCount (memReadMany c s.a.toNat 2 s).1 ((ctxOf s c).maxsize.toNat - s.a.toNat) ≤
        (ctxOf s c).maxsize.toNat - s.a.toNat := min_le_right ..
    have hbound := (ctxOf s c).maxsize.isLt
    simp only [BitVec.le_def, BitVec.toNat_add, BitVec.toNat_ofNat, drawn_ctxOf] at hle hlt ⊢
    omega

/-- Rule R152: the cursors alone are put back. -/
theorem endsInOrder_lookaheadByte {c : CtxNum} {s t : State} (hs : s.fault = false → Sound s)
    (h : exec (.lookaheadByte c) s = .next t) : EndsInOrder t := by
  refine endsInOrder_command hs h fun h => endsInOrder_conclude fun v t ht => ?_
  obtain ⟨u, hu, ht⟩ := bind_eq_ok ht
  obtain ⟨got, hgot, ht⟩ := bind_eq_ok ht
  cases ht
  have hin : got.2.inOrder := (typedRead_frame hgot).inOrder (h.ensureModel hu).1.sizes
  exact State.inOrder.setCtx (s := { got.2 with dec := u.dec }) hin (hin c)

theorem endsInOrder_regValue {v : Word} {s : State} (h : s.fault = false → s.inOrder) : EndsInOrder (regValue v s) := by
  unfold regValue
  split <;> exact h

theorem endsInOrder_regStatus {s : State} (h : s.fault = false → s.inOrder) : EndsInOrder (regStatus s) := by
  unfold regStatus
  split <;> exact h

/-- Rule R250: reading a register leaves every context alone. -/
theorem endsInOrder_regRead {c : CtxNum} {s t : State} (hs : s.fault = false → Sound s)
    (h : exec (.regRead c) s = .next t) : EndsInOrder t := by
  obtain rfl := Host.Outcome.next.inj h
  have hsizes := fun hf => (hs hf).sizes
  refine endsInOrder_prologue hsizes fun _ => ?_
  split
  · exact endsInOrder_regValue hsizes
  · exact endsInOrder_regValue hsizes
  · exact endsInOrder_regValue hsizes
  · exact endsInOrder_regValue hsizes
  · exact endsInOrder_regValue hsizes
  · exact endsInOrder_regStatus hsizes
  · exact hsizes
  · exact hsizes
  · exact hsizes

/-- Rule R251: `CURSIZE` takes no value above `MAXSIZE`. -/
theorem endsInOrder_regWrite {c : CtxNum} {s t : State} (hs : s.fault = false → Sound s)
    (h : exec (.regWrite c) s = .next t) : EndsInOrder t := by
  refine endsInOrder_command hs h fun h => ?_
  obtain ⟨hle, hmax⟩ := h.sizes c
  split
  · exact endsInOrder_guardArg h.sizes fun hok _ => h.sizes.setCtx ⟨of_decide_eq_true hok, hmax⟩
  · exact fun _ => h.sizes.setCtx ⟨hle, hmax⟩
  · exact fun _ => h.sizes

/-- A width the check of a command lets pass (rules R82, R120, R210). -/
theorem legalWidth_of_widthOk {oob : Bool} {w : Int} (h : widthOk oob w = true) : legalWidth (magnitude w) := by
  simp only [widthOk, Bool.and_eq_true, decide_eq_true_eq] at h
  exact h.1

theorem legalWidth_of_deltaOk {oob : Bool} {w : Int} (h : deltaOk oob w = true) : legalWidth (magnitude w) := by
  simp only [deltaOk, Bool.and_eq_true, decide_eq_true_eq] at h
  exact h.2

/-- Every command, from a state that meets the invariants, ends faulted or with the sizes in order (rule R36). -/
theorem endsInOrder_exec {i : Instr} {s t : State} (hs : s.fault = false → Sound s) (h : exec i s = .next t) :
    EndsInOrder t := by
  have h8 : legalWidth 8 := by decide
  have h16 : legalWidth 16 := by decide
  have h32 : legalWidth 32 := by decide
  cases i with
  | copy c src => exact endsInOrder_copy hs h
  | compress c => exact endsInOrder_compress hs h
  | decompress c => exact endsInOrder_decompress hs h
  | lookaheadByte c => exact endsInOrder_lookaheadByte hs h
  | regRead c => exact endsInOrder_regRead hs h
  | regWrite c => exact endsInOrder_regWrite hs h
  | init c | initOob c =>
    exact endsInOrder_command hs h endsInOrder_initBody
  | clear c =>
    exact endsInOrder_command hs h fun h _ => h.sizes.setCtx ⟨by simp [BitVec.le_def], (h.sizes c).2⟩
  | beginRead c | beginReadOob c =>
    exact endsInOrder_command hs h fun h _ => h.sizes.setCtx (h.sizes c)
  | modelInit c =>
    exact endsInOrder_command hs h fun h => endsInOrder_noResult fun t ht => (h.ensureModel ht).1.sizes
  | writeBits c w7 =>
    exact endsInOrder_command hs h fun h => endsInOrder_guardArg h.sizes
      fun hok => endsInOrder_writeField h (legalWidth_of_widthOk hok)
  | writeChar c | writeByte c =>
    exact endsInOrder_command hs h fun h => endsInOrder_writeField h h8
  | writeShort c =>
    exact endsInOrder_command hs h fun h => endsInOrder_writeField h h16
  | writeLong c | writeFloat c =>
    exact endsInOrder_command hs h fun h => endsInOrder_writeField h h32
  | readBits c w7 =>
    exact endsInOrder_command hs h fun h => endsInOrder_guardArg h.sizes fun _ =>
      endsInOrder_conclude fun _ _ ht => (readBitsCore_frame ht).inOrder h.sizes
  | readChar c | readByte c | readShort c | readLong c | readFloat c =>
    exact endsInOrder_command hs h endsInOrder_typedReadField
  | writeDelta c w7 | writeDeltaKey c w7 =>
    exact endsInOrder_command hs h fun h => endsInOrder_guardArg h.sizes fun hok =>
      endsInOrder_deltaWriteField h (legalWidth_of_deltaOk hok)
  | writeDeltaFloat c | writeDeltaKeyFloat c =>
    exact endsInOrder_command hs h fun h => endsInOrder_guardArg h.sizes fun _ => endsInOrder_deltaWriteField h h32
  | readDelta c w7 | readDeltaKey c w7 | readDeltaFloat c | readDeltaKeyFloat c =>
    exact endsInOrder_command hs h fun h => endsInOrder_guardArg h.sizes fun _ => endsInOrder_deltaReadField h
  | bufRead c =>
    exact endsInOrder_command hs h fun h => endsInOrder_guardArg h.sizes fun _ _ => h.sizes
  | bufWrite c =>
    exact endsInOrder_command hs h fun h => endsInOrder_guardArg h.sizes fun _ _ => h.sizes.setCtx (h.sizes c)

/-- The invariants of a state, outside the faulted state. -/
theorem sound_of_inv {s : State} (hinv : s.Inv) (hreach : s.modelsReached) (hsizes : s.sizesOk) (hf : s.fault = false) :
    Sound s := by
  obtain ⟨hparams, -, hcap, -⟩ := hinv
  exact ⟨hparams, fun c => ⟨hsizes hf c, (hcap hf c).1⟩, fun hr => (hreach hf hr).1⟩

/-- A word of no row (rule R86) leaves every context alone. -/
theorem endsInOrder_rejectWord {cw : Word} {s : State} (h : s.fault = false → s.inOrder) :
    EndsInOrder (rejectWord cw s) := by
  unfold rejectWord
  split <;> exact h

/-- Settles O17: a step is nothing, a reset or a command; a command that moves `CURSIZE` checks it against
`MAXSIZE`, but for a compressed write, whose last bit is put below `MAXSIZE` and which, the model being reached,
puts at least one. -/
theorem stepKeepsSizesInOrder : Obligations.StepKeepsSizesInOrder := by
  intro s t hinv hreach hsizes hstep
  have hs : s.fault = false → Sound s := sound_of_inv hinv hreach hsizes
  suffices EndsInOrder t from this
  unfold step at hstep
  split at hstep
  · cases hstep
    exact fun hf => (hs hf).sizes
  · cases hstep
    intro _ c
    rw [hardReset_ctxOf]
    exact inOrder_reset _
  · rename_i cmd rest _
    have hload : (loadPort cmd rest s).fault = false → Sound (loadPort cmd rest s) :=
      fun hf => ⟨(hs hf).params, (hs hf).sizes, (hs hf).enc⟩
    unfold execWord at hstep
    split at hstep
    · exact endsInOrder_exec hload hstep
    · cases hstep
      exact endsInOrder_rejectWord fun hf => (hload hf).sizes

end Sys2Proof.Machine
end

section
/-! The decoder and the rows of the opcode table: the fields of a packed word, what a row's match says of the fields,
which words decode and to what (rules R80 to R86). -/

namespace Sys2Proof.Machine

open Sys2Proof.Laws.InRow (pack_bit packed_n packed_w packed_c)

/-! ## The fields of a packed word -/

@[simp] theorem fieldOpc_pack (o : BitVec 8) (c d : CtxNum) (n : BitVec 7) : fieldOpc (pack o c d n) = o := by
  apply BitVec.eq_of_getLsbD_eq
  intro i hi
  simp [fieldOpc, pack_bit, hi, show ¬ 24 + i < 7 by omega, show ¬ 24 + i < 16 by omega, show ¬ 24 + i < 20 by omega]

@[simp] theorem fieldCtx_pack (o : BitVec 8) (c d : CtxNum) (n : BitVec 7) : fieldCtx (pack o c d n) = c := by
  apply BitVec.eq_of_getLsbD_eq
  intro i hi
  simp [fieldCtx, pack_bit, hi, show ¬ 20 + i < 7 by omega, show ¬ 20 + i < 16 by omega, show 20 + i < 24 by omega]

@[simp] theorem fieldSrc_pack (o : BitVec 8) (c d : CtxNum) (n : BitVec 7) : fieldSrc (pack o c d n) = d := by
  apply BitVec.eq_of_getLsbD_eq
  intro i hi
  simp [fieldSrc, pack_bit, hi, show ¬ 16 + i < 7 by omega, show 16 + i < 20 by omega]

@[simp] theorem fieldReserved_pack (o : BitVec 8) (c d : CtxNum) (n : BitVec 7) : fieldReserved (pack o c d n) = 0 := by
  apply BitVec.eq_of_getLsbD_eq
  intro i hi
  simp [fieldReserved, pack_bit, show 7 + i < 16 by omega]

@[simp] theorem fieldW7_pack (o : BitVec 8) (c d : CtxNum) (n : BitVec 7) : fieldW7 (pack o c d n) = n := by
  apply BitVec.eq_of_getLsbD_eq
  intro i hi
  simp [fieldW7, pack_bit, hi]

/-- A word whose reserved field is 0 is its other four fields packed (rule R80). -/
theorem pack_fields {w : Word} (h : fieldReserved w = 0) :
    pack (fieldOpc w) (fieldCtx w) (fieldSrc w) (fieldW7 w) = w := by
  apply BitVec.eq_of_getLsbD_eq
  intro i hi
  rw [pack_bit]
  split_ifs with h7 h16 h20 h24
  · simp [fieldW7, h7]
  · have hres : (fieldReserved w).getLsbD (i - 7) = false := by simp [h]
    simpa [fieldReserved, show i - 7 < 9 by omega, show 7 + (i - 7) = i by omega] using hres.symm
  · simp [fieldSrc, show i - 16 < 4 by omega, show 16 + (i - 16) = i by omega]
  · simp [fieldCtx, show i - 20 < 4 by omega, show 20 + (i - 20) = i by omega]
  · simp [fieldOpc, show i - 24 < 8 by omega, show 24 + (i - 24) = i by omega]

/-! ## The match of a row, field by field -/

/-- `OPC << 24` is the packed word of that opcode with 0 in every other field (rule R85). -/
theorem opcode_shifted_eq_pack (o : BitVec 8) : o.setWidth 32 <<< 24 = pack o 0 0 0 := by
  apply BitVec.eq_of_getLsbD_eq
  intro i hi
  rw [pack_bit]
  interval_cases i <;> simp

/-- Rule R85: where the mask covers a field whole, a matching word has the row's opcode there, or 0. -/
theorem fields_of_match {w m : Word} {o : BitVec 8} (h : w &&& m = o.setWidth 32 <<< 24) :
    (fieldOpc m = .allOnes 8 → fieldOpc w = o) ∧ (fieldSrc m = .allOnes 4 → fieldSrc w = 0) ∧
      (fieldReserved m = .allOnes 9 → fieldReserved w = 0) ∧ (fieldW7 m = .allOnes 7 → fieldW7 w = 0) := by
  rw [opcode_shifted_eq_pack] at h
  have hfield (start len : Nat) :
      w.extractLsb' start len &&& m.extractLsb' start len = (pack o 0 0 0).extractLsb' start len := by
    rw [← h]; exact BitVec.extractLsb'_and.symm
  have hopc : fieldOpc w &&& fieldOpc m = o := (hfield 24 8).trans (fieldOpc_pack o 0 0 0)
  have hsrc : fieldSrc w &&& fieldSrc m = 0 := (hfield 16 4).trans (fieldSrc_pack o 0 0 0)
  have hres : fieldReserved w &&& fieldReserved m = 0 := (hfield 7 9).trans (fieldReserved_pack o 0 0 0)
  have hw7 : fieldW7 w &&& fieldW7 m = 0 := (hfield 0 7).trans (fieldW7_pack o 0 0 0)
  refine ⟨fun hm => ?_, fun hm => ?_, fun hm => ?_, fun hm => ?_⟩
  · simpa only [hm, BitVec.and_allOnes] using hopc
  · simpa only [hm, BitVec.and_allOnes] using hsrc
  · simpa only [hm, BitVec.and_allOnes] using hres
  · simpa only [hm, BitVec.and_allOnes] using hw7

theorem fields_of_match_n {w : Word} {o : BitVec 8} (h : w &&& 0xFF0FFFFF = o.setWidth 32 <<< 24) :
    fieldOpc w = o ∧ fieldSrc w = 0 ∧ fieldReserved w = 0 ∧ fieldW7 w = 0 := by
  obtain ⟨hopc, hsrc, hres, hw7⟩ := fields_of_match h
  exact ⟨hopc rfl, hsrc rfl, hres rfl, hw7 rfl⟩

theorem fields_of_match_w {w : Word} {o : BitVec 8} (h : w &&& 0xFF0FFF80 = o.setWidth 32 <<< 24) :
    fieldOpc w = o ∧ fieldSrc w = 0 ∧ fieldReserved w = 0 := by
  obtain ⟨hopc, hsrc, hres, -⟩ := fields_of_match h
  exact ⟨hopc rfl, hsrc rfl, hres rfl⟩

theorem fields_of_match_c {w : Word} {o : BitVec 8} (h : w &&& 0xFF00FFFF = o.setWidth 32 <<< 24) :
    fieldOpc w = o ∧ fieldReserved w = 0 ∧ fieldW7 w = 0 := by
  obtain ⟨hopc, -, hres, hw7⟩ := fields_of_match h
  exact ⟨hopc rfl, hres rfl, hw7 rfl⟩

/-- The word of a command belongs to the command's row (rule R85). -/
theorem encode_and_rowMask (i : Instr) : encode i &&& rowMask i = rowMatch i := by
  cases i with
  | copy c d => exact packed_c _ c d
  | writeBits c n | readBits c n | writeDelta c n | readDelta c n | writeDeltaKey c n | readDeltaKey c n =>
    exact packed_w _ c n
  | _ c => exact packed_n _ c

theorem fieldOpc_encode (i : Instr) : fieldOpc (encode i) = opcodeOf i := by
  cases i <;> exact fieldOpc_pack ..

/-- The contexts of a command are the `CTX` field of its word, and for `COPY` the `SRC` field (rule R81). -/
theorem contexts_eq_fields (i : Instr) :
    i.contexts = if opcodeOf i = 0x06 then [fieldCtx (encode i), fieldSrc (encode i)] else [fieldCtx (encode i)] := by
  cases i <;> simp [Instr.contexts, opcodeOf, encode]

/-! ## The decoder -/

section
variable {w : Word} {o : BitVec 8} {i : Instr} (ho : fieldOpc w = o)
include ho

theorem encode_of_formatN {mk : CtxNum → Instr} (hmk : ∀ c, encode (mk c) = pack o c 0 0) (h : formatN w mk = some i) :
    encode i = w := by
  obtain ⟨⟨hsrc, hres, hw7⟩, hi⟩ := Option.ite_none_right_eq_some.1 h
  rw [← Option.some.inj hi, hmk, ← ho, ← hsrc, ← hw7, pack_fields hres]

theorem encode_of_formatW {mk : CtxNum → BitVec 7 → Instr} (hmk : ∀ c n, encode (mk c n) = pack o c 0 n)
    (h : formatW w mk = some i) : encode i = w := by
  obtain ⟨⟨hsrc, hres⟩, hi⟩ := Option.ite_none_right_eq_some.1 h
  rw [← Option.some.inj hi, hmk, ← ho, ← hsrc, pack_fields hres]

theorem encode_of_formatC {mk : CtxNum → CtxNum → Instr} (hmk : ∀ c d, encode (mk c d) = pack o c d 0)
    (h : formatC w mk = some i) : encode i = w := by
  obtain ⟨⟨hres, hw7⟩, hi⟩ := Option.ite_none_right_eq_some.1 h
  rw [← Option.some.inj hi, hmk, ← ho, ← hw7, pack_fields hres]

end

/-- A word that decodes is the word of the command it decodes to: each format fixes every field the command does not
hold. The decoder's arms of format C and W are named by their place; the last arm is that of no row. -/
theorem encode_of_decode {w : Word} {i : Instr} (h : decode w = some i) : encode i = w := by
  unfold decode at h
  split at h
  case h_6 ho => exact encode_of_formatC ho (fun _ _ => rfl) h
  case h_8 ho | h_9 ho | h_21 ho | h_22 ho | h_25 ho | h_26 ho => exact encode_of_formatW ho (fun _ _ => rfl) h
  case h_35 => cases h
  all_goals exact encode_of_formatN ‹_› (fun _ => rfl) h

/-- A word of a row decodes to a command of that row (rule R85): its opcode selects an arm of the decoder, whose format
finds 0 where it must. -/
theorem decode_of_match {w : Word} {j : Instr} (h : w &&& rowMask j = rowMatch j) :
    ∃ i, decode w = some i ∧ opcodeOf i = opcodeOf j := by
  cases j with
  | copy c d =>
    obtain ⟨hopc, hres, hw7⟩ := fields_of_match_c h
    simp [decode, formatC, hopc, hres, hw7, opcodeOf]
  | writeBits c n | readBits c n | writeDelta c n | readDelta c n | writeDeltaKey c n | readDeltaKey c n =>
    obtain ⟨hopc, hsrc, hres⟩ := fields_of_match_w h
    simp [decode, formatW, hopc, hsrc, hres, opcodeOf]
  | _ =>
    obtain ⟨hopc, hsrc, hres, hw7⟩ := fields_of_match_n h
    simp [decode, formatN, hopc, hsrc, hres, hw7, opcodeOf]

theorem match_of_decode {w : Word} {i : Instr} (h : decode w = some i) : w &&& rowMask i = rowMatch i := by
  have hi := encode_and_rowMask i
  rwa [encode_of_decode h] at hi

theorem opcodeOf_of_decode {w : Word} {i : Instr} (h : decode w = some i) : opcodeOf i = fieldOpc w := by
  rw [← fieldOpc_encode, encode_of_decode h]

theorem contexts_of_decode {w : Word} {i : Instr} (h : decode w = some i) :
    i.contexts = if opcodeOf i = 0x06 then [fieldCtx w, fieldSrc w] else [fieldCtx w] := by
  have hi := contexts_eq_fields i
  rwa [encode_of_decode h] at hi

/-- The contexts of a decoded command exist when `CTX`, and in format C `SRC`, is below `NCTX` (rule R85). -/
theorem contexts_lt_iff {w : Word} {i : Instr} (h : decode w = some i) (n : Nat) :
    (∀ c ∈ i.contexts, c.toNat < n) ↔ (fieldCtx w).toNat < n ∧ (opcodeOf i = 0x06 → (fieldSrc w).toNat < n) := by
  rw [contexts_of_decode h]
  split_ifs with hcopy
  · simp [hcopy]
  · simpa using fun _ h => absurd h hcopy

/-- If a word decodes, so does its opcode alone: where a row's mask is 0 the row's `match` is 0. -/
theorem decode_opcode_of_decode {w : Word} {i : Instr} (h : decode w = some i) :
    ∃ j, decode ((fieldOpc w).setWidth 32 <<< 24) = some j := by
  have hrow : rowMatch i &&& rowMask i = rowMatch i := by
    rw [← match_of_decode h, BitVec.and_assoc, BitVec.and_self]
  obtain ⟨j, hj, -⟩ := decode_of_match hrow
  rw [← opcodeOf_of_decode h]
  exact ⟨j, hj⟩

theorem wellFormed_clear (c : CtxNum) (n : Nat) : (Instr.clear c).wellFormed n = decide (c.toNat < n) := by
  simp [Instr.wellFormed, Instr.contexts]

end Sys2Proof.Machine
end

section
/-! Which commands and words answer `ILLEGAL_CMD` (rules R85, R86, R100), and the statements about the command word. -/

namespace Sys2Proof.Machine

/-! ## The bodies of the commands -/

theorem conclude_rc_ne_illegalCmd (s : State) (e : Except FaultCause (Word × State)) :
    (conclude s e).rc ≠ .illegalCmd := by
  rcases conclude_cases s e with ⟨v, t, -, h⟩ | ⟨f, -, h⟩
  · simp [h]
  · cases f <;> simp [h, respOfFault]

theorem guardArg_rc_ne_illegalCmd {ok : Bool} {body : State → State} {s : State} (h : (body s).rc ≠ .illegalCmd) :
    (guardArg ok body s).rc ≠ .illegalCmd := by
  cases ok with
  | false => simp
  | true => exact h

@[simp] theorem regValue_rc (v : Word) (s : State) : (regValue v s).rc = .ok := by
  unfold regValue
  split <;> rfl

@[simp] theorem regStatus_rc (s : State) : (regStatus s).rc = .ok := by
  unfold regStatus
  split <;> rfl

/-- Every command is the checks of rule R100 on its own contexts, then a body that never answers `ILLEGAL_CMD`. -/
theorem exec_eq_prologue (i : Instr) (s : State) :
    ∃ inFault body, exec i s = .next (prologue inFault i.contexts s body) ∧ (body s).rc ≠ .illegalCmd := by
  cases i with
  | clear c | beginRead c | beginReadOob c => exact ⟨_, _, rfl, RespCode.noConfusion⟩
  | modelInit c | lookaheadByte c | writeChar c | writeByte c | writeShort c | writeLong c | writeFloat c | readChar c
  | readByte c | readShort c | readLong c | readFloat c => exact ⟨_, _, rfl, conclude_rc_ne_illegalCmd _ _⟩
  | init c | initOob c | writeBits c n | readBits c n | writeDelta c n | readDelta c n | writeDeltaKey c n
  | readDeltaKey c n | writeDeltaFloat c | readDeltaFloat c | writeDeltaKeyFloat c | readDeltaKeyFloat c =>
    exact ⟨_, _, rfl, guardArg_rc_ne_illegalCmd (conclude_rc_ne_illegalCmd _ _)⟩
  | bufRead c | bufWrite c => exact ⟨_, _, rfl, guardArg_rc_ne_illegalCmd RespCode.noConfusion⟩
  | copy c d =>
    refine ⟨_, _, rfl, guardArg_rc_ne_illegalCmd ?_⟩
    split <;> exact RespCode.noConfusion
  | compress c =>
    refine ⟨_, _, rfl, ?_⟩
    split
    · exact RespCode.noConfusion
    · exact guardArg_rc_ne_illegalCmd (conclude_rc_ne_illegalCmd _ _)
  | decompress c =>
    refine ⟨_, _, rfl, ?_⟩
    split
    · exact RespCode.noConfusion
    · exact conclude_rc_ne_illegalCmd _ _
  | regRead c =>
    refine ⟨_, _, rfl, ?_⟩
    split <;> simp
  | regWrite c =>
    refine ⟨_, _, rfl, ?_⟩
    split
    · exact guardArg_rc_ne_illegalCmd RespCode.noConfusion
    · exact RespCode.noConfusion
    · exact RespCode.noConfusion

/-! ## Commands and words that are illegal -/

/-- A command one of whose contexts does not exist is illegal (rules R85, R86). -/
theorem exec_of_no_context {i : Instr} {s : State} (hf : s.fault = false)
    (hc : ∃ c ∈ i.contexts, s.params.nctx ≤ c.toNat) : exec i s = .next (respond .illegalCmd 0 s) := by
  obtain ⟨inFault, body, hexec, -⟩ := exec_eq_prologue i s
  rw [hexec]
  rcases prologue_cases inFault i.contexts s body with ⟨hfault, -, -⟩ | ⟨-, -, h⟩ | ⟨-, hall, -⟩
  · rw [hf] at hfault; cases hfault
  · rw [h]
  · obtain ⟨c, hmem, hle⟩ := hc
    exact absurd (hall c hmem) (Nat.not_lt.2 hle)

/-- A command whose contexts exist is not illegal (rule R86). -/
theorem exec_rc_ne_illegalCmd {i : Instr} {s : State} (h : s.accepts i.contexts) :
    ∃ t, exec i s = .next t ∧ t.rc ≠ .illegalCmd := by
  obtain ⟨inFault, body, hexec, hbody⟩ := exec_eq_prologue i s
  exact ⟨body s, by rw [hexec, prologue_accepts h], hbody⟩

theorem execWord_of_decode {w : Word} {i : Instr} (h : decode w = some i) (s : State) : execWord w s = exec i s := by
  simp [execWord, h]

/-- A word of no row is illegal (rule R86). -/
theorem execWord_of_decode_none {w : Word} {s : State} (h : decode w = none) (hf : s.fault = false) :
    execWord w s = .next (respond .illegalCmd 0 s) := by
  simp [execWord, h, rejectWord, hf]

/-! ## The statements -/

/-- Settles O3: a word that decodes is its command's own word, so it matches the command's row and its fields are the
command's contexts; a matching word has the row's opcode and zero where it must, so it decodes; a context that does not
exist is found by the checks before the command. -/
theorem decodeSelectsTableRow : Obligations.DecodeSelectsTableRow := by
  refine ⟨fun w i h => ⟨match_of_decode h, ?_⟩, fun w j h => decode_of_match h, fun w i s h hf hc => ?_⟩
  · rw [contexts_of_decode h]
    split_ifs with hcopy
    · exact .inr ⟨hcopy, rfl⟩
    · exact .inl rfl
  · rw [execWord_of_decode h]
    exact exec_of_no_context hf hc

/-- Settles O6: a word that decodes to a command whose contexts exist is that command, whose body never answers
`ILLEGAL_CMD`; every other word is refused before anything is done. The unassigned opcodes are counted by evaluation; that
no word with one decodes is because the opcode alone, its other fields 0, is a word of the same row. -/
theorem illegalWordsChangeOnlyTheResponse : Obligations.IllegalWordsChangeOnlyTheResponse := by
  refine ⟨fun s w hf => ?_, fun s w j hf hrow hctx hsrc => ?_, by decide +kernel, fun w hnone => ?_, rfl⟩
  · cases hi : decode w with
    | none => exact .inr (execWord_of_decode_none hi hf)
    | some i =>
      by_cases hc : ∀ c ∈ i.contexts, c.toNat < s.params.nctx
      · exact .inl ⟨i, match_of_decode hi, (contexts_lt_iff hi _).1 hc⟩
      · right
        rw [execWord_of_decode hi]
        exact exec_of_no_context hf (by simpa using hc)
  · obtain ⟨i, hi, hopc⟩ := decode_of_match hrow
    have hc := (contexts_lt_iff hi _).2 ⟨hctx, hopc ▸ hsrc⟩
    obtain ⟨t, ht, hrc⟩ := exec_rc_ne_illegalCmd ⟨hf, hc⟩
    exact ⟨i, t, hopc, encode_of_decode hi, execWord_of_decode hi s, ht, hrc⟩
  · cases hi : decode w with
    | none => rfl
    | some i =>
      obtain ⟨j, hj⟩ := decode_opcode_of_decode hi
      rw [hj] at hnone
      cases hnone

/-- Settles O4: the words decode as tabled by evaluation; context 15 is below no `NCTX` under 16; the widths 0, 33 and -64
fail the magnitude check, which both modes make. -/
theorem workedEncodings : Obligations.WorkedEncodings := by
  have hctx : ∀ n, n < 16 → (Instr.clear 15).wellFormed n = false := fun n hn => by
    rw [wellFormed_clear]
    exact decide_eq_false (Nat.not_lt.2 (Nat.le_of_lt_succ hn))
  have hwidth : ∀ oob, widthOk oob 0 = false ∧ widthOk oob 33 = false ∧ widthOk oob (-64) = false := by decide
  exact ⟨rfl, rfl, rfl, rfl, rfl, rfl, rfl, rfl, rfl, rfl, rfl, rfl, rfl,
    rfl, rfl, rfl, rfl, rfl, hctx,
    rfl, rfl, rfl, rfl, rfl, rfl, hwidth⟩

end Sys2Proof.Machine
end

section
/-! The lifecycle commands `CLEAR`, `BEGIN_READ`, `BEGIN_READ_OOB` and `COPY` (rules R103 to R106): the next state of each
when accepted, the fields of their words, and what they leave unchanged. -/

namespace Sys2Proof.Machine

/-! ## Words and frames -/

/-- The word of a command of format N holds its opcode and its context and nothing else (rules R80, R81). -/
theorem wordIsN_of_encode {i : Instr} {o : BitVec 8} {c : CtxNum} (h : encode i = pack o c 0 0) : wordIsN i o c := by
  simp [wordIsN, h]

/-- What a command that ends by writing its own context and answering `OK` leaves: the context as written, all else as it
was. -/
theorem respond_setCtx_frame (c : CtxNum) (C : Context) (s : State) :
    let t := respond .ok 0 (setCtx c C s)
    answers 0 t ∧ samePort s t ∧ sameFault s t ∧ sameModels s t ∧ othersSame c s t ∧ ctxOf t c = C :=
  ⟨⟨rfl, rfl⟩, ⟨rfl, rfl, rfl, rfl, rfl⟩, ⟨rfl, rfl⟩, ⟨rfl, rfl, rfl⟩, fun _ hd => ctxOf_setCtx_of_ne hd C s,
    ctxOf_setCtx_self c C s⟩

/-! ## The next state of an accepted command -/

section
variable {s : State} {c d : CtxNum}

/-- Rule R103. -/
theorem exec_clear (h : s.accepts [c]) :
    exec (.clear c) s =
      .next (respond .ok 0 (setCtx c { ctxOf s c with cursize := 0, bit := 0, overflowed := false } s)) :=
  congrArg Host.Outcome.next (prologue_accepts h false _)

/-- Rules R104 and R105: the two commands differ in the mode alone. -/
theorem exec_beginRead_or_oob (h : s.accepts [c]) {i : Instr} {oob : Bool}
    (hi : (i = .beginRead c ∧ oob = false) ∨ (i = .beginReadOob c ∧ oob = true)) :
    exec i s = .next (respond .ok 0 (setCtx c { ctxOf s c with readcount := 0, bit := 0, oob := oob } s)) := by
  rcases hi with ⟨rfl, rfl⟩ | ⟨rfl, rfl⟩
  · exact congrArg Host.Outcome.next (prologue_accepts h false (beginReadBody c false))
  · exact congrArg Host.Outcome.next (prologue_accepts h false (beginReadBody c true))

/-- Rule R106, the first refusal: a capacity beyond the buffer memory. -/
theorem exec_copy_of_bufBytes_lt (h : s.accepts [c, d]) (ha : s.params.bufBytes < s.a.toNat) :
    exec (.copy c d) s = .next (respond .invalidArg 0 s) := by
  simp only [exec, execCopy, prologue_accepts h, decide_eq_false (Nat.not_le.2 ha), guardArg_false]

/-- Rule R106, the second refusal: a capacity below the source's `CURSIZE`. -/
theorem exec_copy_of_lt_cursize (h : s.accepts [c, d]) (ha : s.a.toNat ≤ s.params.bufBytes)
    (hsmall : s.a < (ctxOf s d).cursize) : exec (.copy c d) s = .next (respond .copyTooSmall 0 s) := by
  simp only [exec, execCopy, prologue_accepts h, decide_eq_true ha, guardArg_true, if_pos hsmall]

/-- The first `CURSIZE` bytes of a context, in ascending order. -/
def messageBytes (S : Context) : List Byte := (List.range S.cursize.toNat).map (bufGet S.buf)

/-- Where `CURSIZE ≤ MAXSIZE`, reading the message gives its stored bytes and draws no free value (rule R52). -/
theorem memReadMany_message (h : (ctxOf s d).cursize ≤ (ctxOf s d).maxsize) :
    memReadMany d 0 (ctxOf s d).cursize.toNat s = (messageBytes (ctxOf s d), s) := by
  rw [memReadMany_below d _ 0 s (by simpa [BitVec.le_def] using h)]
  simp [messageBytes]

/-- Rule R106, the copy: the source's bytes are all read below its `MAXSIZE`. -/
theorem exec_copy_of_fits (h : s.accepts [c, d]) (hsrc : (ctxOf s d).cursize ≤ (ctxOf s d).maxsize)
    (ha : s.a.toNat ≤ s.params.bufBytes) (hfits : (ctxOf s d).cursize ≤ s.a) :
    exec (.copy c d) s =
      .next (respond .ok 0 (setCtx c (copied (ctxOf s c) (ctxOf s d) s.a (messageBytes (ctxOf s d))) s)) := by
  simp only [exec, execCopy, prologue_accepts h, decide_eq_true ha, guardArg_true, if_neg (BitVec.not_lt.2 hfits),
    memReadMany_message hsrc]

end

/-- The bytes `COPY` leaves in the destination: the source's below its `CURSIZE`, the destination's own above. -/
theorem bufGet_copied {D : Context} (hD : Memory.wf D.buf = true) (S : Context) (capacity : Word) (k : Nat) :
    bufGet (copied D S capacity (messageBytes S)).buf k =
      if k < S.cursize.toNat then bufGet S.buf k else bufGet D.buf k := by
  have hget := bufGet_bufSetMany (messageBytes S) hD 0 k
  by_cases hk : k < S.cursize.toNat <;> simpa [copied, messageBytes, hk] using hget

/-! ## The statements -/

/-- Settles O26: the two refusals and the copy are the three ends of the command; the copy writes the destination alone,
with the source's bytes over its own. -/
theorem copyDuplicatesTheSource : Obligations.CopyDuplicatesTheSource := by
  intro s c d
  refine ⟨by simp [encode], fun hacc hsrc hwf => ⟨fun ha => exec_copy_of_bufBytes_lt hacc ha,
    fun ha hsmall => exec_copy_of_lt_cursize hacc ha hsmall, fun ha hfits => ?_⟩⟩
  obtain ⟨hans, hport, hfault, hmodels, hothers, hown⟩ :=
    respond_setCtx_frame c (copied (ctxOf s c) (ctxOf s d) s.a (messageBytes (ctxOf s d))) s
  refine ⟨_, exec_copy_of_fits hacc hsrc ha hfits, hans, hport, hfault, hmodels, hothers, ?_⟩
  rw [hown]
  exact ⟨rfl, rfl, rfl, rfl, ⟨rfl, rfl, rfl⟩, bufGet_copied hwf _ _⟩

/-- Settles O24: an accepted `CLEAR` writes three fields of its own context and nothing else but the
response. -/
theorem clearResetsSizeAndBitCursor : Obligations.ClearResetsSizeAndBitCursor := by
  intro s c
  refine ⟨wordIsN_of_encode rfl, fun hacc => ?_⟩
  obtain ⟨hans, hport, hfault, hmodels, hothers, hown⟩ :=
    respond_setCtx_frame c { ctxOf s c with cursize := 0, bit := 0, overflowed := false } s
  refine ⟨_, exec_clear hacc, hans, hport, hfault, hmodels, hothers, ?_⟩
  rw [hown]
  exact ⟨rfl, rfl, rfl, rfl, rfl, rfl, rfl, fun _ => rfl⟩

/-- Settles O25: an accepted `BEGIN_READ` or `BEGIN_READ_OOB` writes the two read cursors and the mode of its own context
and nothing else but the response. -/
theorem beginReadResetsReadCursorAndSelectsMode : Obligations.BeginReadResetsReadCursorAndSelectsMode := by
  intro s c
  refine ⟨wordIsN_of_encode rfl, wordIsN_of_encode rfl, fun hacc i oob hi => ?_⟩
  obtain ⟨hans, hport, hfault, hmodels, hothers, hown⟩ :=
    respond_setCtx_frame c { ctxOf s c with readcount := 0, bit := 0, oob := oob } s
  refine ⟨_, exec_beginRead_or_oob hacc hi, hans, hport, hfault, hmodels, hothers, ?_⟩
  rw [hown]
  exact ⟨rfl, rfl, rfl, rfl, rfl, rfl, rfl, fun _ => rfl⟩

end Sys2Proof.Machine
end

section
/-! SUPPORT. What the list's links and the weights leave alone of the tree's branches, and where `SwapTree` and the
grafting of `Introduce` put them: a node's parent points back at it (rules R175 (d), R177, R179). -/

namespace Sys2Proof.Machine

/-- `M'` differs from `M` in the root, the links of the list and the weights alone. -/
structure SameBranches (M M' : Model) : Prop where
  lhead : M'.lhead = M.lhead
  loc : M'.loc = M.loc
  locNyt : M'.locNyt = M.locNyt
  nnodes : M'.nnodes = M.nnodes
  symbol : ∀ k, (node M' k).symbol = (node M k).symbol
  parent : ∀ k, (node M' k).parent = (node M k).parent
  left : ∀ k, (node M' k).left = (node M k).left
  right : ∀ k, (node M' k).right = (node M k).right

theorem SameBranches.refl (M : Model) : SameBranches M M :=
  ⟨rfl, rfl, rfl, rfl, fun _ => rfl, fun _ => rfl, fun _ => rfl, fun _ => rfl⟩

theorem SameBranches.trans {M M' M'' : Model} (h : SameBranches M M') (h' : SameBranches M' M'') :
    SameBranches M M'' where
  lhead := h'.lhead.trans h.lhead
  loc := h'.loc.trans h.loc
  locNyt := h'.locNyt.trans h.locNyt
  nnodes := h'.nnodes.trans h.nnodes
  symbol k := (h'.symbol k).trans (h.symbol k)
  parent k := (h'.parent k).trans (h.parent k)
  left k := (h'.left k).trans (h.left k)
  right k := (h'.right k).trans (h.right k)

theorem sameBranches_setNode {M : Model} {n : NodeId} {x : Node} (hs : x.symbol = (node M n).symbol)
    (hp : x.parent = (node M n).parent) (hl : x.left = (node M n).left) (hr : x.right = (node M n).right) :
    SameBranches M (setNode M n x) := by
  refine ⟨rfl, rfl, rfl, rfl, fun k => ?_, fun k => ?_, fun k => ?_, fun k => ?_⟩
  all_goals rw [node_setNode]; split <;> simp_all

theorem sameBranches_setNext (M : Model) (n : NodeId) (p : Option NodeId) : SameBranches M (setNext M n p) :=
  sameBranches_setNode rfl rfl rfl rfl

theorem sameBranches_setPrev (M : Model) (n : NodeId) (p : Option NodeId) : SameBranches M (setPrev M n p) :=
  sameBranches_setNode rfl rfl rfl rfl

theorem sameBranches_bump (M : Model) (n : NodeId) : SameBranches M (bump M n) :=
  sameBranches_setNode rfl rfl rfl rfl

theorem sameBranches_setNextOf (M : Model) (o : Option NodeId) (p : NodeId) : SameBranches M (setNextOf M o p) := by
  cases o with
  | none => exact .refl M
  | some n => exact sameBranches_setNext M n (some p)

theorem sameBranches_setPrevOf (M : Model) (o : Option NodeId) (p : NodeId) : SameBranches M (setPrevOf M o p) := by
  cases o with
  | none => exact .refl M
  | some n => exact sameBranches_setPrev M n (some p)

theorem sameBranches_unloop (M : Model) (x y : NodeId) : SameBranches M (unloop M x y) := by
  unfold unloop
  split
  · exact sameBranches_setNext M x _
  · exact .refl M

theorem sameBranches_swapList (M : Model) (a b : NodeId) : SameBranches M (swapList M a b) := by
  have hcross : SameBranches M (crossLinks M a b) :=
    (((sameBranches_setNext ..).trans (sameBranches_setNext ..)).trans (sameBranches_setPrev ..)).trans
      (sameBranches_setPrev ..)
  have hlink : ∀ N, SameBranches N (linkNeighbours N a b) := fun N =>
    (((sameBranches_setPrevOf ..).trans (sameBranches_setPrevOf ..)).trans (sameBranches_setNextOf ..)).trans
      (sameBranches_setNextOf ..)
  exact ((hcross.trans (sameBranches_unloop ..)).trans (sameBranches_unloop ..)).trans (hlink _)

theorem sameBranches_repair (M : Model) (n : NodeId) : SameBranches M (repair M n) := by
  unfold repair
  split
  · exact .refl M
  · split
    · exact sameBranches_swapList M n _
    · exact .refl M

theorem sameBranches_foldl_repair : ∀ (path : List NodeId) (M : Model), SameBranches M (path.foldl repair M)
  | [], M => .refl M
  | n :: path, M => (sameBranches_repair M n).trans (sameBranches_foldl_repair path (repair M n))

theorem sameBranches_chain (M : Model) (h leaf inner : NodeId) (on : Option NodeId) :
    SameBranches M (chain M h leaf inner on) :=
  (((((sameBranches_setNext ..).trans (sameBranches_setPrev ..)).trans (sameBranches_setNext ..)).trans
    (sameBranches_setPrev ..)).trans (sameBranches_setNext ..)).trans (sameBranches_setPrevOf ..)

/-- `M'` differs from `M` in the root and the branches of the tree alone. -/
structure SameSymbols (M M' : Model) : Prop where
  lhead : M'.lhead = M.lhead
  loc : M'.loc = M.loc
  locNyt : M'.locNyt = M.locNyt
  nnodes : M'.nnodes = M.nnodes
  symbol : ∀ k, (node M' k).symbol = (node M k).symbol

theorem SameSymbols.trans {M M' M'' : Model} (h : SameSymbols M M') (h' : SameSymbols M' M'') : SameSymbols M M'' where
  lhead := h'.lhead.trans h.lhead
  loc := h'.loc.trans h.loc
  locNyt := h'.locNyt.trans h.locNyt
  nnodes := h'.nnodes.trans h.nnodes
  symbol k := (h'.symbol k).trans (h.symbol k)

theorem sameSymbols_setNode {M : Model} {n : NodeId} {x : Node} (hs : x.symbol = (node M n).symbol) :
    SameSymbols M (setNode M n x) := by
  refine ⟨rfl, rfl, rfl, rfl, fun k => ?_⟩
  rw [node_setNode]; split <;> simp_all

theorem sameSymbols_setParent (M : Model) (n : NodeId) (p : Option NodeId) : SameSymbols M (setParent M n p) :=
  sameSymbols_setNode rfl

theorem sameSymbols_setLeft (M : Model) (n : NodeId) (p : Option NodeId) : SameSymbols M (setLeft M n p) :=
  sameSymbols_setNode rfl

theorem sameSymbols_setRight (M : Model) (n : NodeId) (p : Option NodeId) : SameSymbols M (setRight M n p) :=
  sameSymbols_setNode rfl

theorem sameSymbols_relink (M : Model) (p : Option NodeId) (old new : NodeId) :
    SameSymbols M (relink M p old new) := by
  unfold relink
  split
  · exact ⟨rfl, rfl, rfl, rfl, fun _ => rfl⟩
  · split <;> exact sameSymbols_setNode rfl

theorem sameSymbols_swapTree (M : Model) (a b : NodeId) : SameSymbols M (swapTree M a b) :=
  (((sameSymbols_relink ..).trans (sameSymbols_relink ..)).trans (sameSymbols_setParent ..)).trans
    (sameSymbols_setParent ..)

theorem sameSymbols_hang (M : Model) (h leaf inner : NodeId) (p : Option NodeId) :
    SameSymbols M (hang M h leaf inner p) :=
  (((((sameSymbols_relink ..).trans (sameSymbols_setLeft ..)).trans (sameSymbols_setRight ..)).trans
    (sameSymbols_setParent ..)).trans (sameSymbols_setParent ..)).trans (sameSymbols_setParent ..)

/-! ## The children of a node -/

@[simp] theorem left_setParent (M : Model) (n k : NodeId) (p : Option NodeId) :
    (node (setParent M n p) k).left = (node M k).left := by
  rw [node_setParent]; split <;> rfl

@[simp] theorem right_setParent (M : Model) (n k : NodeId) (p : Option NodeId) :
    (node (setParent M n p) k).right = (node M k).right := by
  rw [node_setParent]; split <;> rfl

theorem left_setLeft (M : Model) (n k : NodeId) (p : Option NodeId) :
    (node (setLeft M n p) k).left = if k = n then p else (node M k).left := by
  rw [node_setLeft]; split <;> rfl

@[simp] theorem right_setLeft (M : Model) (n k : NodeId) (p : Option NodeId) :
    (node (setLeft M n p) k).right = (node M k).right := by
  rw [node_setLeft]; split <;> rfl

@[simp] theorem left_setRight (M : Model) (n k : NodeId) (p : Option NodeId) :
    (node (setRight M n p) k).left = (node M k).left := by
  rw [node_setRight]; split <;> rfl

theorem right_setRight (M : Model) (n k : NodeId) (p : Option NodeId) :
    (node (setRight M n p) k).right = if k = n then p else (node M k).right := by
  rw [node_setRight]; split <;> rfl

/-- Rule R179: the node that takes a left child's place is the left child. -/
theorem left_relink (M : Model) (p : Option NodeId) (old new k : NodeId) :
    (node (relink M p old new) k).left =
      if p = some k ∧ (node M k).left = some old then some new else (node M k).left := by
  unfold relink
  split
  · rw [if_neg (by simp)]; rfl
  · split
    · rw [left_setLeft]; grind
    · rw [left_setRight]; grind

/-- Rule R179: a node whose place is not the left child's is taken for the right child. -/
theorem right_relink (M : Model) (p : Option NodeId) (old new k : NodeId) :
    (node (relink M p old new) k).right =
      if p = some k ∧ (node M k).left ≠ some old then some new else (node M k).right := by
  unfold relink
  split
  · rw [if_neg (by simp)]; rfl
  · split
    · rw [right_setLeft]; grind
    · rw [right_setRight]; grind

/-- Node `p` has the child `k`. -/
def HasChild (M : Model) (p k : NodeId) : Prop := (node M p).left = some k ∨ (node M p).right = some k

theorem SameBranches.hasChild {M M' : Model} (h : SameBranches M M') {p k : NodeId} (hc : HasChild M p k) :
    HasChild M' p k := by
  unfold HasChild
  rwa [h.left, h.right]

/-- Rule R179: whatever the two nodes' places, siblings or not, each parent has the child that came to it. -/
theorem hasChild_swapTree {M : Model} {a b : NodeId} (hab : a ≠ b)
    (h : ∀ k p, (node M k).parent = some p → HasChild M p k) {k p : NodeId}
    (hp : (node (swapTree M a b) k).parent = some p) : HasChild (swapTree M a b) p k := by
  have ha := h a p
  have hb := h b p
  have hk := h k p
  simp only [swapTree, HasChild, parent_setParent, parent_relink, left_setParent, right_setParent, left_relink,
    right_relink] at ha hb hk hp ⊢
  grind

end Sys2Proof.Machine
end

section
/-! SUPPORT. Every reached model is codable: the code of a leaf, followed from the root, leads to it (rules R171,
R175 (d), R183). -/

namespace Sys2Proof.Machine

/-- What rule R175 (d) says of the branches, as far as codes need it: a node's parent is an internal node in use that
has it as a child; the leaf of a symbol holds the symbol. -/
structure Branched (M : Model) : Prop where
  parent_uses : ∀ k p, (node M k).parent = some p → M.uses p
  internal : ∀ k p, (node M k).parent = some p → (node M p).symbol = .internal
  hasChild : ∀ k p, (node M k).parent = some p → HasChild M p k
  leaf : ∀ s n, locOf M s = some n → (node M n).symbol = .byte s
  locNyt : M.locNyt = some M.lhead
  nyt : (node M M.lhead).symbol = .nyt

/-- `Empty()` (rule R174) has no branches. -/
theorem branched_emptyModel : Branched emptyModel := by
  have hparent : ∀ k, (node emptyModel k).parent = none := by
    intro k
    simp only [node, emptyModel, tableFind]
    grind [Node.unused]
  refine ⟨fun k p hp => ?_, fun k p hp => ?_, fun k p hp => ?_, nofun, rfl, rfl⟩
  all_goals rw [hparent] at hp; cases hp

theorem Branched.sameBranches {M M' : Model} (h : Branched M) (hs : SameBranches M M') : Branched M' where
  parent_uses k p hp := (uses_congr hs.nnodes p).2 (h.parent_uses k p (hs.parent k ▸ hp))
  internal k p hp := (hs.symbol p).trans (h.internal k p (hs.parent k ▸ hp))
  hasChild k p hp := hs.hasChild (h.hasChild k p (hs.parent k ▸ hp))
  leaf s n hn := (hs.symbol n).trans (h.leaf s n (by rwa [locOf, hs.loc] at hn))
  locNyt := by rw [hs.locNyt, hs.lhead, h.locNyt]
  nyt := by rw [hs.symbol, hs.lhead, h.nyt]

/-- After `SwapTree` each node has the parent of the other (rule R179). -/
theorem exists_parent_of_swapTree {M : Model} {a b k p : NodeId} (hp : (node (swapTree M a b) k).parent = some p) :
    ∃ j, (node M j).parent = some p := by
  simp only [swapTree, parent_setParent, parent_relink] at hp
  split at hp
  · exact ⟨a, hp⟩
  · split at hp
    · exact ⟨b, hp⟩
    · exact ⟨k, hp⟩

theorem Branched.swapTree {M : Model} {a b : NodeId} (h : Branched M) (hab : a ≠ b) :
    Branched (Machine.swapTree M a b) := by
  have hs := sameSymbols_swapTree M a b
  refine ⟨fun k p hp => ?_, fun k p hp => ?_, fun k p hp => hasChild_swapTree hab h.hasChild hp, fun s n hn => ?_, ?_,
    ?_⟩
  · obtain ⟨j, hj⟩ := exists_parent_of_swapTree hp
    exact (uses_congr hs.nnodes p).2 (h.parent_uses j p hj)
  · obtain ⟨j, hj⟩ := exists_parent_of_swapTree hp
    exact (hs.symbol p).trans (h.internal j p hj)
  · exact (hs.symbol n).trans (h.leaf s n (by rwa [locOf, hs.loc] at hn))
  · rw [hs.locNyt, hs.lhead, h.locNyt]
  · rw [hs.symbol, hs.lhead, h.nyt]

theorem Branched.passBlock {M : Model} (h : Branched M) (n : NodeId) : Branched (Machine.passBlock M n) := by
  by_cases hl : leader M n = n
  · rwa [passBlock_of_leader_self hl]
  · by_cases hp : (node M n).parent = some (leader M n)
    · rw [passBlock_of_leader_parent rfl hl hp]
      exact h.sameBranches (sameBranches_swapList ..)
    · rw [passBlock_of_leader_other rfl hl hp]
      exact (h.swapTree hl).sameBranches (sameBranches_swapList ..)

theorem Branched.climb : ∀ (fuel : Nat) {M N : Model} {due : Option NodeId} {path path' : List NodeId}, Branched M →
    Machine.climb fuel M due path = .ok (N, path') → Branched N
  | _, _, _, none, _, _, h, hc => by
    rw [climb_none] at hc
    cases hc
    exact h
  | 0, _, _, some _, _, _, h, hc => by
    cases hc
    exact h
  | fuel + 1, M, _, some n, _, _, h, hc => by
    rw [climb_succ_some] at hc
    split at hc
    · cases hc
    · exact ((h.passBlock n).sameBranches (sameBranches_bump ..)).climb fuel hc

/-- `Increment` (rule R178) keeps the branches. -/
theorem Branched.increment {M N : Model} {due : Option NodeId} (h : Branched M) (hi : increment M due = .ok N) :
    Branched N := by
  obtain ⟨climbed, hc, hi⟩ := bind_eq_ok hi
  cases hi
  exact (h.climb _ hc).sameBranches (sameBranches_foldl_repair ..)

/-! ## `Introduce` -/

/-- The model after the first two steps of the grafting (rule R177). -/
def chained (M : Model) (s : Byte) : Model :=
  chain (seat M s) M.lhead (newLeaf M) (newInner M) (node M M.lhead).next

/-- The model after the three steps of the grafting, the new leaf not yet in `LOC` (rule R177). -/
def hung (M : Model) (s : Byte) : Model :=
  hang (chained M s) M.lhead (newLeaf M) (newInner M) (node M M.lhead).parent

theorem graft_eq_hung (M : Model) (s : Byte) :
    graft M s = { hung M s with loc := tablePut (hung M s).loc s.toNat (newLeaf M) } := rfl

/-- `LOC` is no part of a node. -/
theorem node_graft (M : Model) (s : Byte) (k : NodeId) : node (graft M s) k = node (hung M s) k := by
  rw [graft_eq_hung]
  rfl

theorem sameBranches_chained (M : Model) (s : Byte) : SameBranches (seat M s) (chained M s) := sameBranches_chain ..

theorem sameSymbols_hung (M : Model) (s : Byte) : SameSymbols (chained M s) (hung M s) := sameSymbols_hang ..

theorem locNyt_graft (M : Model) (s : Byte) : (graft M s).locNyt = M.locNyt := by
  rw [graft_eq_hung]
  exact (sameSymbols_hung M s).locNyt.trans (sameBranches_chained M s).locNyt

/-- The two new nodes hold what rule R177 gives them, every other one what it held. -/
theorem symbol_graft (M : Model) (s : Byte) (k : NodeId) :
    (node (graft M s) k).symbol =
      if k = newInner M then .internal else if k = newLeaf M then .byte s else (node M k).symbol := by
  have hsize : ∀ n, node { M with nnodes := M.nnodes + 2 } n = node M n := fun _ => rfl
  rw [node_graft, (sameSymbols_hung M s).symbol, (sameBranches_chained M s).symbol]
  simp only [seat, node_setNode, hsize]
  grind

theorem hasChild_seat {M : Model} {p k : NodeId} (hl : p ≠ newLeaf M) (h : HasChild M p k) (s : Byte) :
    HasChild (seat M s) p k := by
  have hsize : ∀ n, node { M with nnodes := M.nnodes + 2 } n = node M n := fun _ => rfl
  unfold HasChild at h ⊢
  simp only [seat, node_setNode, hsize]
  grind

/-- Rule R177: the inner node has the not-yet-seen leaf and the new leaf as children, and takes the former's place. -/
theorem hasChild_hang {M : Model} {h leaf inner p k : NodeId} {q : Option NodeId}
    (hhead : q = some p → HasChild M p h ∧ p ≠ inner)
    (hold : k ≠ leaf → k ≠ h → k ≠ inner → HasChild M p k ∧ p ≠ inner)
    (hp : (node (hang M h leaf inner q) k).parent = some p) : HasChild (hang M h leaf inner q) p k := by
  rw [parent_hang] at hp
  simp only [hang, HasChild, left_setParent, right_setParent, left_setRight, right_setRight, left_setLeft,
    right_setLeft, left_relink, right_relink] at hold hhead ⊢
  grind

/-- The first part of `Introduce` (rule R177) keeps the branches. -/
theorem Branched.graft {M : Model} {pos : NodeId → Nat} {s : Byte} (h : Branched M) (ht : TreeShape M pos none)
    (hs : locOf M s = none) : Branched (graft M s) := by
  have g := grafted (ht.room hs) s
  obtain ⟨hleaf, hinner, hne⟩ := g.fresh
  have hold : ∀ {k p}, (node M k).parent = some p → M.uses p ∧ p ≠ newLeaf M ∧ p ≠ newInner M := fun {k p} hp =>
    have hu := h.parent_uses k p hp
    ⟨hu, fun e => hleaf (e ▸ hu), fun e => hinner (e ▸ hu)⟩
  have hchild : ∀ {k p}, (node M k).parent = some p → HasChild (chained M s) p k ∧ p ≠ newInner M := fun {k p} hp =>
    have ⟨_, hpl, hpi⟩ := hold hp
    ⟨(sameBranches_chained M s).hasChild (hasChild_seat hpl (h.hasChild k p hp) s), hpi⟩
  constructor
  case parent_uses =>
    intro k p hp
    rw [g.parent] at hp
    rw [g.uses]
    grind
  case internal =>
    intro k p hp
    have := h.internal k p
    have := h.internal M.lhead p
    rw [g.parent] at hp
    rw [symbol_graft]
    grind
  case hasChild =>
    intro k p hp
    rw [HasChild, node_graft]
    refine hasChild_hang hchild (fun hkl hkh hki => hchild ?_) (by rwa [node_graft] at hp)
    rwa [g.parent, if_neg hkl, if_neg hkh, if_neg hki] at hp
  case leaf =>
    intro b n hn
    have := ht.leaf b n
    have := h.leaf b n
    rw [g.loc_of] at hn
    rw [symbol_graft]
    grind
  case locNyt => rw [locNyt_graft, g.lhead, h.locNyt]
  case nyt =>
    have hh := ht.head_uses
    have := h.nyt
    rw [g.lhead, symbol_graft]
    grind

/-- `Update` (rule R176) keeps the branches. -/
theorem Branched.update {M N : Model} {s : Byte} (h : Branched M) (hr : Rest M) (hu : Machine.update M s = .ok N) :
    Branched N := by
  rcases update_cases M s with ⟨hs, e⟩ | ⟨n, -, e⟩
  · obtain ⟨pos, ht, -, -⟩ := hr
    exact (h.graft ht hs).increment (e ▸ hu)
  · exact h.increment (e ▸ hu)

theorem Branched.updates : ∀ (bytes : List Byte) {M N : Model}, Branched M → Rest M →
    Machine.updates M bytes = .ok N → Branched N
  | [], _, _, h, _, hu => by cases hu; exact h
  | s :: ss, _, _, h, hr, hu => by
    obtain ⟨M', hM, hu⟩ := bind_eq_ok hu
    exact Branched.updates ss (h.update hr hM) (hr.update hM) hu

theorem Model.Reached.branched {M : Model} (h : M.Reached) : Branched M := by
  obtain ⟨bytes, hb⟩ := h
  exact branched_emptyModel.updates bytes rest_emptyModel hb

/-! ## Codes -/

/-- The bit of a code is the side its node is on (rules R171, R183). -/
theorem descend_child {M : Model} {k p : NodeId} (hi : (node M p).symbol = .internal) (hc : HasChild M p k)
    (bits : List Bool) : descend M p (decide ((node M p).right = some k) :: bits) = descend M k bits := by
  by_cases hr : (node M p).right = some k
  · simp [descend, hi, hr]
  · have hl : (node M p).left = some k := hc.resolve_right hr
    simp [descend, hi, hr, hl]

/-- Climbing from a node to the root, each node later in the order than the one before, and then following the bits
down leads back to the node. -/
theorem descend_codeFrom {M : Model} {pos : NodeId → Nat} (h : Branched M) (ht : TreeShape M pos none) :
    ∀ (fuel : Nat) (n : NodeId) (acc : List Bool), M.uses n → M.nnodes ≤ fuel + pos n →
      descend M M.root (codeFrom M fuel n acc) = descend M n acc
  | 0, n, _, hn, hf => absurd (ht.below n hn) (by omega)
  | fuel + 1, n, acc, hn, hf => by
    by_cases hroot : n = M.root
    · rw [codeFrom, if_pos hroot, hroot]
    · cases hp : (node M n).parent with
      | none => exact absurd ((ht.rooted n hn).1 hp) hroot
      | some p =>
        obtain ⟨hpu, hlt⟩ := ht.later n p hn hp
        rw [codeFrom, if_neg hroot, hp]
        exact (descend_codeFrom h ht fuel p _ hpu (by omega)).trans
          (descend_child (h.internal n p hp) (h.hasChild n p hp) acc)

/-- Every reached model is codable. -/
theorem Model.Reached.codable {M : Model} (h : M.Reached) : M.codable := by
  obtain ⟨pos, ht, -, -⟩ := h.rest
  have hb := h.branched
  have hlead : ∀ n, M.uses n → M.codeLeads n := fun n hn =>
    descend_codeFrom hb ht Config.poolNodes n [] hn (ht.nnodes_le.trans (Nat.le_add_right _ _))
  exact ⟨fun s n hn => ⟨hb.leaf s n hn, hlead n (ht.leaf s n hn).1⟩, M.lhead, hb.locNyt, hb.nyt, hlead _ ht.head_uses⟩

/-- So is every model on the way through the updates by a sequence of bytes. -/
theorem Model.Reached.codableAlong : ∀ (bytes : List Byte) {M : Model}, M.Reached → Machine.codableAlong M bytes
  | [], _, _ => trivial
  | _ :: ss, _, h => ⟨h.codable, fun _ hu => (h.update hu).codableAlong ss⟩

end Sys2Proof.Machine
end

section
/-! SUPPORT. The decoder inverts the encoder, symbol by symbol (rules R183, R184). -/

namespace Sys2Proof.Machine

section
variable {σ : Type} {get : σ → Bool × σ}

theorem gives_append : ∀ {xs ys : List Bool} {t t' t'' : σ}, gives get t xs t' → gives get t' ys t'' →
    gives get t (xs ++ ys) t''
  | [], _, _, _, _, h, h' => by cases h; exact h'
  | _ :: _, _, _, _, _, h, h' => ⟨h.1, gives_append h.2 h'⟩

theorem exists_of_gives_append : ∀ {xs ys : List Bool} {t t'' : σ}, gives get t (xs ++ ys) t'' →
    ∃ t', gives get t xs t' ∧ gives get t' ys t''
  | [], _, t, _, h => ⟨t, rfl, h⟩
  | _ :: _, _, _, _, ⟨hb, h⟩ =>
    have ⟨t', h1, h2⟩ := exists_of_gives_append h
    ⟨t', ⟨hb, h1⟩, h2⟩

/-- One more bit of a raw byte, the earlier ones moved up (rule R184). -/
def shiftIn (s : Byte) (b : Bool) : Byte := (s <<< 1) ||| (BitVec.ofBool b).setWidth 8

theorem rawByte_of_gives : ∀ {bits : List Bool} {acc : Byte} {t t' : σ}, gives get t bits t' →
    rawByte get bits.length acc t = (bits.foldl shiftIn acc, t')
  | [], _, _, _, h => by cases h; rfl
  | b :: bs, acc, t, _, ⟨hb, h⟩ => by
    rw [List.length_cons, rawByte, hb]
    exact rawByte_of_gives h

/-- The eight bits of a byte, most significant first, make the byte again (rules R183, R184). -/
theorem foldl_shiftIn_msbFirst (s : Byte) : (msbFirst s).foldl shiftIn 0 = s := by
  apply BitVec.eq_of_getLsbD_eq
  intro i hi
  simp only [msbFirst, List.foldl_cons, List.foldl_nil, shiftIn, BitVec.getLsbD_or, BitVec.getLsbD_shiftLeft,
    BitVec.getLsbD_setWidth, BitVec.getLsbD_ofBool]
  interval_cases i <;> simp

/-- Given the bits of a symbol, the decoder reads the symbol (rule R184). -/
theorem readSymbol_of_gives {M : Model} {s : Byte} {t t' : σ} (hM : M.codable) (h : gives get t (symbolBits M s) t') :
    readSymbol get M t = (s, t') := by
  obtain ⟨hleaf, n, hloc, hnyt, hlead⟩ := hM
  unfold symbolBits at h
  split at h
  · rename_i m hm
    obtain ⟨hsym, hmlead⟩ := hleaf s m hm
    have hw := walk_descend get M (code M m) _ M.root m t t' (code_length M m) hmlead (by simp [hsym]) h
    simp only [readSymbol, hw, hsym]
  · simp only [nytCode, hloc] at h
    obtain ⟨u, hu, hraw⟩ := exists_of_gives_append h
    have hw := walk_descend get M (code M n) _ M.root n t u (code_length M n) hlead (by simp [hnyt]) hu
    have hbyte := rawByte_of_gives (acc := 0) hraw
    rw [foldl_shiftIn_msbFirst] at hbyte
    simp only [readSymbol, hw, hnyt]
    exact hbyte

/-- `DecodeSymbol` (rule R184) reads the symbol and updates as the encoder did. -/
theorem decodeSymbol_of_gives {M N : Model} {s : Byte} {t t' : σ} (hM : M.codable)
    (h : gives get t (symbolBits M s) t') (hu : update M s = .ok N) : decodeSymbol get M t = .ok (s, N, t') := by
  simp [decodeSymbol, readSymbol_of_gives hM h, hu, bind, Except.bind]

end

/-- The bits of a byte's code, then those of the bytes after it (rule R190). -/
theorem encodeStream_cons {M : Model} {s : Byte} {ss : List Byte} {bits : List Bool}
    (h : encodeStream M (s :: ss) = .ok bits) :
    ∃ N rest, update M s = .ok N ∧ encodeStream N ss = .ok rest ∧ bits = symbolBits M s ++ rest := by
  obtain ⟨N, hN, h⟩ := bind_eq_ok h
  obtain ⟨rest, hrest, h⟩ := bind_eq_ok h
  cases h
  exact ⟨N, rest, hN, hrest, rfl⟩

theorem updates_cons {M N P : Model} {s : Byte} {ss : List Byte} (hN : update M s = .ok N)
    (h : updates M (s :: ss) = .ok P) : updates N ss = .ok P := by
  simpa [updates, hN, bind, Except.bind] using h

end Sys2Proof.Machine
end

section
/-! SUPPORT. The reader's bit cursor over the bits a buffer holds, and a field put together again from its bits and
bytes (rules R54 to R57, R124, R173). -/

namespace Sys2Proof.Machine

/-! ## Fields -/

/-- `zext`, bit by bit (rule R18). -/
theorem getLsbD_zext (n : Nat) (v : Word) {j : Nat} (hj : j < 32) :
    (zext n v).getLsbD j = (decide (j < n) && v.getLsbD j) := by
  simp only [zext, mask, BitVec.getLsbD_and, BitVec.getLsbD_ofNat, Nat.testBit_two_pow_sub_one, hj, decide_true,
    Bool.true_and, Bool.and_comm]

@[simp] theorem zext_zext (n : Nat) (v : Word) : zext n (zext n v) = zext n v := by
  simp [zext, BitVec.and_assoc]

/-- A byte put at bit `lo`, bit by bit. -/
theorem getLsbD_byteIn (b : Byte) (lo : Nat) {j : Nat} (hj : j < 32) :
    (byteIn b lo).getLsbD j = (decide (lo ≤ j) && b.getLsbD (j - lo)) := by
  simp only [byteIn, BitVec.getLsbD_shiftLeft, BitVec.getLsbD_setWidth, hj, decide_true, Bool.true_and]
  by_cases h : lo ≤ j
  · simp [h, show j - lo < 32 by omega]
  · simp [h]

/-- A bit put at place `i`, bit by bit. -/
theorem getLsbD_bitIn (b : Bool) (i : Nat) {j : Nat} (hj : j < 32) :
    (bitIn b i).getLsbD j = (decide (j = i) && b) := by
  simp only [bitIn, BitVec.getLsbD_shiftLeft, BitVec.getLsbD_setWidth, BitVec.getLsbD_ofBool, hj, decide_true,
    Bool.true_and]
  by_cases h : j = i
  · simp [h]
  · by_cases h' : j < i
    · simp [h, h']
    · simp [h, show j - i ≠ 0 by omega]

/-- `v | bits[0] << i | bits[1] << (i + 1) | ...` (rule R124). -/
def orBits : Word → Nat → List Bool → Word
  | v, _, [] => v
  | v, i, b :: bs => orBits (v ||| bitIn b i) (i + 1) bs

/-- `v | bytes[0] << lo | bytes[1] << (lo + 8) | ...` (rule R124). -/
def orBytes : Word → Nat → List Byte → Word
  | v, _, [] => v
  | v, lo, b :: bs => orBytes (v ||| byteIn b lo) (lo + 8) bs

theorem getLsbD_orBits {j : Nat} (hj : j < 32) : ∀ (bits : List Bool) (v : Word) (i : Nat),
    (orBits v i bits).getLsbD j = (v.getLsbD j || (decide (i ≤ j) && bits.getD (j - i) false))
  | [], v, i => by simp [orBits]
  | b :: bs, v, i => by
    rw [orBits, getLsbD_orBits hj bs, BitVec.getLsbD_or, getLsbD_bitIn b i hj]
    rcases Nat.lt_trichotomy j i with h | rfl | h
    · simp [h.ne, show ¬ i ≤ j by omega, show ¬ i + 1 ≤ j by omega]
    · simp
    · obtain ⟨k, rfl⟩ : ∃ k, j = i + 1 + k := ⟨j - (i + 1), by omega⟩
      simp [show i + 1 + k - i = k + 1 by omega, show i ≤ i + 1 + k by omega, show i + 1 + k ≠ i by omega]

theorem getLsbD_orBytes {j : Nat} (hj : j < 32) : ∀ (bytes : List Byte) (v : Word) (lo : Nat),
    (orBytes v lo bytes).getLsbD j =
      (v.getLsbD j || (decide (lo ≤ j) && (bytes.getD ((j - lo) / 8) 0).getLsbD ((j - lo) % 8)))
  | [], v, lo => by simp [orBytes]
  | b :: bs, v, lo => by
    rw [orBytes, getLsbD_orBytes hj bs, BitVec.getLsbD_or, getLsbD_byteIn b lo hj]
    by_cases h : lo ≤ j
    · by_cases h8 : lo + 8 ≤ j
      · obtain ⟨k, rfl⟩ : ∃ k, j = lo + 8 + k := ⟨j - (lo + 8), by omega⟩
        simp [h, show lo + 8 + k - lo = 8 + k by omega]
      · have hlt : j - lo < 8 := by omega
        simp [h, h8, Nat.div_eq_of_lt hlt, Nat.mod_eq_of_lt hlt]
    · simp [h, show ¬ lo + 8 ≤ j by omega]

theorem getLsbD_byteAt (v : Word) (lo : Nat) {j : Nat} (hj : j < 8) : (byteAt v lo).getLsbD j = v.getLsbD (lo + j) := by
  simp [byteAt, hj]

/-- A field's residual bits and whole bytes make its value again (rules R55, R57, R124). -/
theorem orBytes_wholeBytes (v : Word) (n : Nat) :
    orBytes (orBits 0 0 (residualBits v n)) (n % 8) (wholeBytes v n) = zext n v := by
  apply BitVec.eq_of_getLsbD_eq
  intro j hj
  rw [getLsbD_orBytes hj, getLsbD_orBits hj, getLsbD_zext n v hj]
  by_cases hr : j < n % 8
  · simp [residualBits, List.getD_eq_getElem?_getD, hr, show ¬ n % 8 ≤ j by omega, show j < n by omega]
  · obtain ⟨k, rfl⟩ : ∃ k, j = n % 8 + k := ⟨j - n % 8, by omega⟩
    have hk : n % 8 + 8 * (k / 8) + k % 8 = n % 8 + k := by omega
    have hlt : n % 8 + k < n ↔ k / 8 < n / 8 := by omega
    by_cases hb : k / 8 < n / 8
    · simp [residualBits, wholeBytes, List.getD_eq_getElem?_getD, hb, hlt,
        getLsbD_byteAt v _ (Nat.mod_lt k (by decide)), hk]
    · simp [residualBits, wholeBytes, List.getD_eq_getElem?_getD, hb, hlt]

end Sys2Proof.Machine
end

section
/-! SUPPORT. `ReadBitsCore` on a buffer that holds a field: in compressed mode its bits from `BIT` on, in raw mode its
bytes from `READCOUNT` on (rules R54, R124, R173). -/

namespace Sys2Proof.Machine

/-! ## The bit cursor -/

/-- The state with `k` more bits of context `c` read (rule R173). -/
def advanced (c : CtxNum) (k : Nat) (s : State) : State :=
  setCtx c { ctxOf s c with bit := (ctxOf s c).bit + BitVec.ofNat 32 k } s

@[simp] theorem ctxOf_advanced (c : CtxNum) (k : Nat) (s : State) :
    ctxOf (advanced c k s) c = { ctxOf s c with bit := (ctxOf s c).bit + BitVec.ofNat 32 k } :=
  ctxOf_setCtx_self ..

@[simp] theorem advanced_zero (c : CtxNum) (s : State) : advanced c 0 s = s := by
  have h : (ctxOf s c).bit + BitVec.ofNat 32 0 = (ctxOf s c).bit := by simp
  rw [advanced, h, setCtx_ctxOf]

@[simp] theorem advanced_advanced (c : CtxNum) (j k : Nat) (s : State) :
    advanced c k (advanced c j s) = advanced c (j + k) s := by
  simp [advanced, BitVec.ofNat_add, BitVec.add_assoc]

/-- The state with coded bytes of `k` bits of context `c` read, which leave the decoder model `N` (rule R184). -/
def decoded (c : CtxNum) (k : Nat) (N : Model) (s : State) : State := { advanced c k s with dec := N }

@[simp] theorem ctxOf_decoded (c : CtxNum) (k : Nat) (N : Model) (s : State) :
    ctxOf (decoded c k N s) c = ctxOf (advanced c k s) c := rfl

@[simp] theorem decoded_zero (c : CtxNum) (s : State) : decoded c 0 s.dec s = s := by simp [decoded]

/-- Setting `DEC` and moving the cursor do not meet. -/
@[simp] theorem decoded_advanced (c : CtxNum) (j k : Nat) (N : Model) (s : State) :
    decoded c k N (advanced c j s) = decoded c (j + k) N s := by simp [decoded]

@[simp] theorem decoded_decoded (c : CtxNum) (j k : Nat) (M N : Model) (s : State) :
    decoded c k N (decoded c j M s) = decoded c (j + k) N s := decoded_advanced c j k N s

/-- Held bits are held in two parts. -/
theorem holdsBits_append {C : Context} {start : Nat} {xs ys : List Bool} (h : holdsBits C start (xs ++ ys)) :
    holdsBits C start xs ∧ holdsBits C (start + xs.length) ys := by
  obtain ⟨hfit, hbits⟩ := h
  rw [List.length_append] at hfit hbits
  refine ⟨⟨by omega, fun i hi => ?_⟩, by omega, fun i hi => ?_⟩
  · rw [hbits i (by omega), List.getD_append _ _ _ _ hi]
  · rw [Nat.add_assoc, hbits _ (by omega), List.getD_append_right _ _ _ _ (by omega), Nat.add_sub_cancel_left]

section
variable {c : CtxNum} {s : State}

/-- Below `MAXSIZE` the bit cursor is a number below `2^32` (rule R14). -/
theorem toNat_bit_advanced {k : Nat} (hmax : (ctxOf s c).maxsize.toNat ≤ 2 ^ 28)
    (hfit : (ctxOf s c).bit.toNat + k ≤ 8 * (ctxOf s c).maxsize.toNat) :
    (ctxOf (advanced c k s) c).bit.toNat = (ctxOf s c).bit.toNat + k := by
  simp only [ctxOf_advanced, BitVec.toNat_add, BitVec.toNat_ofNat]
  omega

/-- What a context holds at its cursor, it holds in two parts as the cursor moves. -/
theorem holdsBits_advanced {xs ys : List Bool} (hmax : (ctxOf s c).maxsize.toNat ≤ 2 ^ 28)
    (h : holdsBits (ctxOf s c) (ctxOf s c).bit.toNat (xs ++ ys)) :
    holdsBits (ctxOf s c) (ctxOf s c).bit.toNat xs ∧
      holdsBits (ctxOf (advanced c xs.length s) c) (ctxOf (advanced c xs.length s) c).bit.toNat ys := by
  obtain ⟨h1, h2⟩ := holdsBits_append h
  rw [toNat_bit_advanced hmax h1.1, ctxOf_advanced]
  exact ⟨h1, h2⟩

/-- `GetBit` gives the bits held at the cursor (rule R173). -/
theorem gives_getBit : ∀ (bits : List Bool) {s : State}, (ctxOf s c).maxsize.toNat ≤ 2 ^ 28 →
    holdsBits (ctxOf s c) (ctxOf s c).bit.toNat bits → gives (getBit c) s bits (advanced c bits.length s)
  | [], s, _, _ => (advanced_zero c s).symm
  | b :: bs, s, hmax, h => by
    have hb := h.2 0 (by simp)
    have hget : getBit c s = (b, advanced c 1 s) := by
      have := h.1
      rw [getBit_below (by rw [List.length_cons] at this; omega)]
      exact Prod.ext hb rfl
    have hrest := gives_getBit bs (s := advanced c 1 s) (by simpa using hmax)
      (holdsBits_advanced (xs := [b]) hmax h).2
    rw [advanced_advanced, Nat.add_comm] at hrest
    exact ⟨congrArg Prod.fst hget, by rw [hget]; exact hrest⟩

/-! ## Compressed mode -/

theorem readResidual_of_gives : ∀ {bits : List Bool} {i : Nat} {v : Word} {s t : State}, gives (getBit c) s bits t →
    readResidual c bits.length i v s = (orBits v i bits, t)
  | [], _, _, _, _, h => by cases h; rfl
  | b :: bs, i, v, s, t, ⟨hb, h⟩ => by
    rw [List.length_cons, readResidual, hb]
    exact readResidual_of_gives h

/-- `DecodeSymbol(DEC, C)` on the bits of a symbol. -/
theorem decodeDec_of_holds {b : Byte} {N : Model} (hmax : (ctxOf s c).maxsize.toNat ≤ 2 ^ 28) (hM : s.dec.codable)
    (hu : update s.dec b = .ok N) (h : holdsBits (ctxOf s c) (ctxOf s c).bit.toNat (symbolBits s.dec b)) :
    decodeDec c s = .ok (b, decoded c (symbolBits s.dec b).length N s) := by
  simp [decodeDec, decoded, decodeSymbol_of_gives hM (gives_getBit _ hmax h) hu, bind, Except.bind]

/-- Coded bytes held at the cursor are read, and `DEC` is updated by each (rule R124). -/
theorem readCoded_of_holds : ∀ (bytes : List Byte) {lo : Nat} {v : Word} {s : State} {bits : List Bool} {N : Model},
    (ctxOf s c).maxsize.toNat ≤ 2 ^ 28 → codableAlong s.dec bytes → encodeStream s.dec bytes = .ok bits →
    updates s.dec bytes = .ok N → holdsBits (ctxOf s c) (ctxOf s c).bit.toNat bits →
    readCoded c bytes.length lo v s = .ok (orBytes v lo bytes, decoded c bits.length N s)
  | [], lo, v, s, bits, N, _, _, he, hu, _ => by
    cases he
    cases hu
    simp [readCoded, orBytes]
  | b :: bs, lo, v, s, bits, N, hmax, ⟨hM, hnext⟩, he, hu, h => by
    obtain ⟨M, rest, hM', hrest, rfl⟩ := encodeStream_cons he
    obtain ⟨hb, hbs⟩ := holdsBits_advanced hmax h
    have ih := readCoded_of_holds bs (lo := lo + 8) (v := v ||| byteIn b lo)
      (s := decoded c (symbolBits s.dec b).length M s)
      (by simpa using hmax) (hnext M hM') hrest (updates_cons hM' hu) hbs
    rw [decoded_decoded, ← List.length_append] at ih
    simp only [List.length_cons, readCoded, decodeDec_of_holds hmax hM hM' hb, bind, Except.bind]
    exact ih

/-- `ReadBitsCore` in compressed mode, where the buffer holds at the cursor the bits of a field under `DEC`
(rule R124). -/
theorem readBitsCore_of_holds {w : Int} {v : Word} {bits : List Bool} {N : Model} (ho : (ctxOf s c).oob = false)
    (hmax : (ctxOf s c).maxsize.toNat ≤ 2 ^ 28) (hr : s.modelReady = true)
    (hcod : codableAlong s.dec (wholeBytes v (magnitude w))) (hf : fieldBits s.dec v (magnitude w) = .ok bits)
    (hu : updates s.dec (wholeBytes v (magnitude w)) = .ok N)
    (h : holdsBits (ctxOf s c) (ctxOf s c).bit.toNat bits) :
    readBitsCore c w s = .ok (extend w (zext (magnitude w) v),
      trackReadcount c (decoded c bits.length N s)) := by
  obtain ⟨codes, hcodes, hf⟩ := bind_eq_ok hf
  cases hf
  obtain ⟨hlow, hrest⟩ := holdsBits_advanced hmax h
  have hres := readResidual_of_gives (i := 0) (v := 0) (gives_getBit _ hmax hlow)
  have hread := readCoded_of_holds (wholeBytes v (magnitude w)) (lo := magnitude w % 8)
    (v := orBits 0 0 (residualBits v (magnitude w))) (s := advanced c (residualBits v (magnitude w)).length s)
    (by simpa using hmax) hcod hcodes hu hrest
  rw [orBytes_wholeBytes, decoded_advanced] at hread
  have hlen : (residualBits v (magnitude w)).length = magnitude w % 8 := by simp [residualBits]
  have hlen' : (wholeBytes v (magnitude w)).length = magnitude w / 8 := by simp [wholeBytes]
  rw [hlen] at hres
  rw [hlen, hlen'] at hread
  rw [List.length_append, hlen]
  simp only [readBitsCore, ho, Bool.false_eq_true, if_false, readBitstream, ensureModel_ready hr, hres, hread, bind,
    Except.bind]

/-! ## Raw mode -/

/-- Bytes below `MAXSIZE` are read as stored (rule R124). -/
theorem readRawBytes_of_stored : ∀ (bytes : List Byte) {i : Word} {lo : Nat} {v : Word},
    i.toNat + bytes.length ≤ (ctxOf s c).maxsize.toNat →
    (∀ k, k < bytes.length → bufGet (ctxOf s c).buf (i.toNat + k) = bytes.getD k 0) →
    readRawBytes c bytes.length i lo v s = (orBytes v lo bytes, s)
  | [], _, _, _, _, _ => rfl
  | b :: bs, i, lo, v, hfit, hget => by
    simp only [List.length_cons] at hfit hget
    have hb : memRead c i.toNat s = (b, s) := by
      rw [memRead_below (by omega)]
      exact Prod.ext (hget 0 (by omega)) rfl
    simp only [List.length_cons, readRawBytes, hb]
    have hi : bs ≠ [] → (i + 1).toNat = i.toNat + 1 := fun hne => by
      have := List.length_pos_of_ne_nil hne
      have := (ctxOf s c).maxsize.isLt
      have h1 : (1 : Word).toNat = 1 := rfl
      rw [BitVec.toNat_add, h1]
      omega
    by_cases hne : bs = []
    · subst hne; rfl
    · refine readRawBytes_of_stored bs (by rw [hi hne]; omega) fun k hk => ?_
      rw [hi hne, Nat.add_assoc, Nat.add_comm 1 k]
      exact hget (k + 1) (by omega)

/-- `ReadBitsCore` in raw mode, where the buffer holds the little-endian bytes of a value at `READCOUNT` (rules R54,
R124). -/
theorem readBitsCore_of_stored {w : Int} {v : Word} (ho : (ctxOf s c).oob = true) (hw : magnitude w % 8 = 0)
    (hfit : (ctxOf s c).readcount.toNat + magnitude w / 8 ≤ (ctxOf s c).maxsize.toNat)
    (hget : ∀ k, k < magnitude w / 8 → bufGet (ctxOf s c).buf ((ctxOf s c).readcount.toNat + k) = byteAt v (8 * k)) :
    readBitsCore c w s = .ok (extend w (zext (magnitude w) v),
      setCtx c { ctxOf s c with readcount := (ctxOf s c).readcount + BitVec.ofNat 32 (magnitude w / 8)
                                bit := (ctxOf s c).bit + BitVec.ofNat 32 (magnitude w) } s) := by
  have hlen : (wholeBytes v (magnitude w)).length = magnitude w / 8 := by simp [wholeBytes]
  have hres : residualBits v (magnitude w) = [] := by simp [residualBits, hw]
  have hread := readRawBytes_of_stored (wholeBytes v (magnitude w)) (lo := 0) (v := 0) (by rwa [hlen])
    (fun k hk => by rw [hget k (hlen ▸ hk)]; simp [wholeBytes, hw, List.getD_eq_getElem?_getD, hlen ▸ hk])
  have hv := orBytes_wholeBytes v (magnitude w)
  rw [hres, hw, orBits] at hv
  rw [hlen, hv] at hread
  simp only [readBitsCore, ho, if_true, readRaw, hread]

end

end Sys2Proof.Machine
end

section
/-! The round trip of a field through a fresh message (rule R126). -/

namespace Sys2Proof.Machine

/-! ## The two commands -/

section
variable {s : State} {c : CtxNum} {w7 : BitVec 7}

/-- Rule R122. -/
theorem exec_writeBits (h : s.accepts [c]) (hw : widthOk (ctxOf s c).oob (widthOf w7) = true) :
    exec (.writeBits c w7) s = .next (writeField c (magnitude (widthOf w7)) s) := by
  simp only [exec, execWriteBits, prologue_accepts h, hw, guardArg_true]

/-- Rule R125. -/
theorem exec_readBits (h : s.accepts [c]) (hw : widthOk (ctxOf s c).oob (widthOf w7) = true) :
    exec (.readBits c w7) s = .next (conclude s (readBitsCore c (widthOf w7) s)) := by
  simp only [exec, execReadBits, prologue_accepts h, hw, guardArg_true]

/-- A write that leaves the block unfaulted did what `WriteBitsCore` does. -/
theorem writeField_of_not_fault {n : Nat} (h : (writeField c n s).fault = false) :
    ∃ t, writeBitsCore c s.a n s = .ok t ∧ writeField c n s = respond .ok 0 t := by
  unfold writeField at h ⊢
  cases hw : writeBitsCore c s.a n s with
  | error e => simp [hw] at h
  | ok t => exact ⟨t, rfl, rfl⟩

end

/-- A width raw mode accepts is a whole number of bytes, at most four (rule R120). -/
theorem rawWidth_of_widthOk {w : Int} (h : widthOk true w = true) : magnitude w % 8 = 0 ∧ magnitude w / 8 ≤ 4 := by
  simp only [widthOk, Bool.and_eq_true, Bool.not_true, Bool.false_or, decide_eq_true_eq] at h
  omega

/-- Rule R18: the value a read of width `w` gives. -/
theorem extend_zext {w : Int} (hw : 1 ≤ magnitude w) (v : Word) :
    extend w (zext (magnitude w) v) =
      if 0 < w then zext w.natAbs v else sext w.natAbs (zext w.natAbs v) := by
  unfold magnitude at hw
  unfold extend magnitude
  rcases Int.lt_trichotomy w 0 with h | rfl | h
  · rw [if_pos h, if_neg (by omega)]
  · simp at hw
  · rw [if_neg (by omega), if_pos h]

/-! ## What a write into a fresh message leaves for the reader -/

section
variable {C D : Context} {c : CtxNum} {u : State} {w : Int} {v : Word}

/-- The bits put from bit 0 on are held there. -/
theorem holdsBits_of_putBits {bits : List Bool} (hC : C.bit = 0) (hwf : Memory.wf C.buf = true)
    (hmax : C.maxsize.toNat ≤ 2 ^ 28) (h : putBits C bits = .ok D) : D.maxsize = C.maxsize ∧ holdsBits D 0 bits := by
  have h0 : C.bit.toNat = 0 := by simp [hC]
  have hfit : C.bit.toNat + bits.length ≤ 8 * C.maxsize.toNat := by
    by_contra hover
    rw [putBits_unfit bits hmax (by rintro rfl; simp [h0] at hover) (by omega)] at h
    cases h
  obtain ⟨m, hm, -, hbits⟩ := putBits_fit bits hwf hmax hfit
  obtain rfl := Except.ok.inj (hm.symm.trans h)
  refine ⟨rfl, by simpa [h0] using hfit, fun i hi => ?_⟩
  rw [hbits, bitAfterPut, if_pos (by omega)]
  simp [h0]

/-- The reader of a compressed field (rules R121, R124): from the writer's model it reads the value written and reaches
the model the writer has reached. -/
theorem readBitsCore_after_writeCoded {N : Model} (hC : C.bit = 0) (hwf : Memory.wf C.buf = true)
    (hmax : C.maxsize.toNat ≤ 2 ^ 28) (ho : C.oob = false)
    (hw : writeCoded u.dec C (zext (magnitude w) v) (magnitude w) = .ok (N, D)) (hr : u.modelReady = true)
    (hM : u.dec.Reached) (hu : ctxOf u c = { D with readcount := 0, bit := 0, oob := C.oob }) :
    ∃ t, readBitsCore c w u = .ok (extend w (zext (magnitude w) v), t) ∧ t.enc = u.enc ∧ t.dec = N := by
  obtain ⟨bits, E, hf, hput, hup, rfl⟩ := writeCoded_ok hw
  obtain ⟨hE, hholds⟩ := holdsBits_of_putBits hC hwf hmax hput
  have hread := readBitsCore_of_holds (s := u) (c := c) (by rw [hu, ho]) (by rwa [hu, hE]) hr
    (hM.codableAlong _) hf hup (by rw [hu]; exact hholds)
  rw [zext_zext] at hread
  exact ⟨_, hread, rfl, rfl⟩

/-- The reader of a raw field (rules R121, R124). -/
theorem readBitsCore_after_writeRaw (hC : C.cursize = 0) (hwf : Memory.wf C.buf = true) (hmax : 4 ≤ C.maxsize.toNat)
    (ho : C.oob = true) (hok : widthOk true w = true)
    (hw : writeRaw C (zext (magnitude w) v) (magnitude w) = .ok D)
    (hu : ctxOf u c = { D with readcount := 0, bit := 0, oob := C.oob }) :
    ∃ t, readBitsCore c w u = .ok (extend w (zext (magnitude w) v), t) ∧ t.enc = u.enc ∧ t.dec = u.dec := by
  obtain ⟨hn8, hn4⟩ := rawWidth_of_widthOk hok
  have hlen : (littleEndian (zext (magnitude w) v) (magnitude w / 8)).length = magnitude w / 8 := by simp [littleEndian]
  have h0 : C.cursize.toNat = 0 := by simp [hC]
  obtain ⟨E, hE, hw⟩ := bind_eq_ok hw
  cases hw
  rw [memWriteMany_below _ C _ (by omega)] at hE
  cases hE
  have hread := readBitsCore_of_stored (s := u) (c := c) (w := w) (v := zext (magnitude w) v) (by rw [hu, ho]) hn8
    (by rw [hu]; simp; omega) (fun k hk => by
      rw [hu]
      have hget := bufGet_bufSetMany (littleEndian (zext (magnitude w) v) (magnitude w / 8)) hwf C.cursize.toNat k
      rw [if_pos (by omega)] at hget
      simpa [littleEndian, h0, hk] using hget)
  rw [zext_zext] at hread
  exact ⟨_, hread, rfl, rfl⟩

/-- A fresh message of at least 4 bytes has headroom (rules R15, R121). -/
theorem headroomShort_fresh (hC : C.cursize = 0) (hmin : 4 ≤ C.maxsize.toNat) : headroomShort C = false := by
  have h4 : (Config.headroom : Word).toNat = 4 := rfl
  have hsub : C.maxsize - 0 = C.maxsize := BitVec.sub_zero _
  simp only [headroomShort, hC, hsub, decide_eq_false_iff_not, BitVec.lt_def, h4]
  omega

/-- `WriteBitsCore` with headroom and a seeded pair, if it does not fault, writes its context and, in compressed mode,
`ENC` (rule R121). -/
theorem writeBitsCore_of_headroom {s t : State} {n : Nat} (hh : headroomShort (ctxOf s c) = false)
    (hr : s.modelReady = true) (h : writeBitsCore c v n s = .ok t) :
    ∃ N D, t = setCtx c D { s with enc := N } ∧
      (((ctxOf s c).oob = true ∧ N = s.enc ∧ writeRaw (ctxOf s c) (zext n v) n = .ok D) ∨
        ((ctxOf s c).oob = false ∧ writeCoded s.enc (ctxOf s c) (zext n v) n = .ok (N, D))) := by
  rcases writeBitsCore_cases h with ⟨hshort, -⟩ | ⟨-, ho, D, hD, rfl⟩ | ⟨-, ho, u, N, D, hu, hD, rfl⟩
  · rw [hh] at hshort
    cases hshort
  · exact ⟨s.enc, D, rfl, .inl ⟨ho, rfl, hD⟩⟩
  · rw [ensureModel_ready hr] at hu
    cases hu
    exact ⟨N, D, rfl, .inr ⟨ho, hD⟩⟩

end

/-! ## The statement -/

/-- `BEGIN_READ` or `BEGIN_READ_OOB`, as the mode given asks (rules R104, R105). -/
theorem exec_beginRead_ite {s : State} {c : CtxNum} (h : s.accepts [c]) (oob : Bool) :
    exec (if oob then .beginReadOob c else .beginRead c) s =
      .next (respond .ok 0 (setCtx c { ctxOf s c with readcount := 0, bit := 0, oob := oob } s)) := by
  cases oob with
  | false => exact exec_beginRead_or_oob h (.inl ⟨rfl, rfl⟩)
  | true => exact exec_beginRead_or_oob h (.inr ⟨rfl, rfl⟩)

/-- Settles O48: a fresh message has headroom, so the write stores the field, raw or coded; in raw mode its bytes are
read back and the models stay as they are; in compressed mode the decoder, its model the encoder's before the write and
reached, hence codable, inverts the encoder and makes the same updates. -/
theorem writtenFieldReadsBack : Obligations.WrittenFieldReadsBack := by
  intro s t u v c w7 hacc hfresh hok hmin hmax hwf hr hed hreach ht hfault hu hv
  obtain ⟨hcur, -, hbit, -⟩ := hfresh
  rw [exec_writeBits hacc hok] at ht
  cases ht
  obtain ⟨t, hwrite, ht⟩ := writeField_of_not_fault hfault
  obtain ⟨N, D, rfl, hmode⟩ := writeBitsCore_of_headroom (headroomShort_fresh hcur hmin) hr hwrite
  rw [ht, exec_beginRead_ite (s := respond .ok 0 (setCtx c D { s with enc := N })) hacc, respond_ctxOf,
    ctxOf_setCtx_self] at hu
  have hu := (Host.Outcome.next.inj hu).symm
  have huctx : ctxOf u c = { D with readcount := 0, bit := 0, oob := (ctxOf s c).oob } := by
    rw [hu, respond_ctxOf, ctxOf_setCtx_self]
  have hread : ∃ v, readBitsCore c (widthOf w7) u =
      .ok (extend (widthOf w7) (zext (magnitude (widthOf w7)) s.a), v) ∧ v.enc = N ∧ v.dec = N := by
    rcases hmode with ⟨ho, rfl, hD⟩ | ⟨ho, hD⟩
    · obtain ⟨v, hv, henc, hdec⟩ := readBitsCore_after_writeRaw hcur hwf hmin ho (ho ▸ hok) hD huctx
      exact ⟨v, hv, by simp [henc, hu], by simp [hdec, hu, hed]⟩
    · have hudec : u.dec = s.enc := by simp [hu, hed]
      obtain ⟨v, hv, henc, hdec⟩ := readBitsCore_after_writeCoded hbit hwf hmax ho (hudec ▸ hD) (by simp [hu, hr])
        (hudec ▸ hreach) huctx
      exact ⟨v, hv, by simp [henc, hu], hdec⟩
  obtain ⟨v, hcore, henc, hdec⟩ := hread
  rw [exec_readBits (s := u) (hu ▸ hacc) (by rwa [huctx]), hcore, conclude_ok] at hv
  cases hv
  exact ⟨rfl, henc.trans hdec.symm, extend_zext (legalWidth_of_widthOk hok).1 s.a⟩

end Sys2Proof.Machine
end

section
/-! SUPPORT. What the engine's reads do not look at: a change of the state apart from the contexts and the count of free
values stays as it is through every raw access, one of `R` and `RC` through every read (rules R24, R52, R124, R146). -/

namespace Sys2Proof.Machine

/-! ## Changes that no access to a buffer sees -/

/-- A change of the state that no access of the engine to a buffer sees or undoes (rules R52, R173). -/
structure Unseen (f : State → State) : Prop where
  ctxOf : ∀ (c : CtxNum) (s : State), Machine.ctxOf (f s) c = Machine.ctxOf s c
  freeCount : ∀ s : State, (f s).freeCount = s.freeCount
  setCtx : ∀ (c : CtxNum) (C : Context) (s : State), Machine.setCtx c C (f s) = f (Machine.setCtx c C s)
  drawn : ∀ (n : Nat) (s : State), Machine.drawn n (f s) = f (Machine.drawn n s)

/-- The response is not looked at. -/
theorem unseen_respond (rc : RespCode) (v : Word) : Unseen (respond rc v) where
  ctxOf _ _ := rfl
  freeCount _ := rfl
  setCtx _ _ _ := rfl
  drawn _ _ := rfl

/-- The state with its pair seeded (rule R181). -/
def withSeed (M : Model) (s : State) : State := { s with enc := M, dec := M, modelReady := true }

/-- The model pair is not looked at by an access to a buffer. -/
theorem unseen_withSeed (M : Model) : Unseen (withSeed M) where
  ctxOf _ _ := rfl
  freeCount _ := rfl
  setCtx _ _ _ := rfl
  drawn _ _ := rfl

section
variable {f : State → State}

theorem Unseen.memRead (h : Unseen f) (c : CtxNum) (i : Nat) (s : State) :
    Machine.memRead c i (f s) = (Machine.memRead c i s).map id f := by
  rcases Nat.lt_or_ge i (Machine.ctxOf s c).maxsize.toNat with hi | hi
  · rw [memRead_below hi, memRead_below (by rwa [h.ctxOf]), h.ctxOf]
    rfl
  · rw [memRead_beyond hi, memRead_beyond (by rwa [h.ctxOf]), h.freeCount, h.drawn]
    rfl

theorem Unseen.getBit (h : Unseen f) (c : CtxNum) (s : State) :
    Machine.getBit c (f s) = (Machine.getBit c s).map id f := by
  simp only [Machine.getBit, h.ctxOf, h.memRead, Prod.map, h.setCtx, id]

theorem Unseen.readRawBytes (h : Unseen f) (c : CtxNum) : ∀ (count : Nat) (i : Word) (lo : Nat) (v : Word) (s : State),
    Machine.readRawBytes c count i lo v (f s) = (Machine.readRawBytes c count i lo v s).map id f
  | 0, _, _, _, _ => rfl
  | count + 1, i, lo, v, s => by
    simp only [Machine.readRawBytes, h.memRead, Prod.map, id]
    exact h.readRawBytes c count _ _ _ _

theorem Unseen.readRaw (h : Unseen f) (c : CtxNum) (n : Nat) (s : State) :
    Machine.readRaw c n (f s) = (Machine.readRaw c n s).map id f := by
  simp only [Machine.readRaw, h.ctxOf, h.readRawBytes, Prod.map, h.setCtx, id]

theorem Unseen.readResidual (h : Unseen f) (c : CtxNum) : ∀ (count i : Nat) (v : Word) (s : State),
    Machine.readResidual c count i v (f s) = (Machine.readResidual c count i v s).map id f
  | 0, _, _, _ => rfl
  | count + 1, i, v, s => by
    simp only [Machine.readResidual, h.getBit, Prod.map, id]
    exact h.readResidual c count _ _ _

end

/-! ## Reading a symbol from a source that a change passes through -/

section
variable {σ : Type} {get : σ → Bool × σ} {f : σ → σ}

theorem walk_map (hget : ∀ t, get (f t) = (get t).map id f) (M : Model) : ∀ (fuel : Nat) (n : NodeId) (t : σ),
    walk get M fuel n (f t) = (walk get M fuel n t).map id f
  | 0, _, _ => rfl
  | fuel + 1, n, t => by
    by_cases hi : (node M n).symbol = .internal
    · simp only [walk, if_pos hi, hget, Prod.map, id]
      cases (if (get t).1 then (node M n).right else (node M n).left) with
      | none => rfl
      | some m => exact walk_map hget M fuel m _
    · simp only [walk, if_neg hi, Prod.map, id]

theorem rawByte_map (hget : ∀ t, get (f t) = (get t).map id f) : ∀ (count : Nat) (b : Byte) (t : σ),
    rawByte get count b (f t) = (rawByte get count b t).map id f
  | 0, _, _ => rfl
  | count + 1, b, t => by
    simp only [rawByte, hget, Prod.map, id]
    exact rawByte_map hget count _ _

theorem readSymbol_map (hget : ∀ t, get (f t) = (get t).map id f) (M : Model) (t : σ) :
    readSymbol get M (f t) = (readSymbol get M t).map id f := by
  simp only [readSymbol, walk_map hget, Prod.map_fst, Prod.map_snd, id]
  cases (walk get M Config.poolNodes M.root t).1 with
  | byte s => rfl
  | internal | nyt => exact rawByte_map hget 8 0 _

end

/-! ## Reads after a response -/

section
variable (rc : RespCode) (r : Word) (c : CtxNum)

/-- A read's result beside the state it leaves, the response of that state replaced. -/
def answered {α : Type} (rc : RespCode) (r : Word) (e : Except FaultCause (α × State)) : Except FaultCause (α × State) :=
  e.map (Prod.map id (respond rc r))

theorem ensureModel_respond (s : State) : ensureModel (respond rc r s) = (ensureModel s).map (respond rc r) := by
  cases hr : s.modelReady with
  | true => rw [ensureModel_ready hr, ensureModel_ready (s := respond rc r s) hr]; rfl
  | false =>
    simp only [ensureModel, respond_modelReady, hr, respond_params, Bool.false_eq_true, if_false]
    cases seeded s.params <;> rfl

theorem decodeDec_respond (s : State) : decodeDec c (respond rc r s) = answered rc r (decodeDec c s) := by
  simp only [decodeDec, decodeSymbol, respond_dec, readSymbol_map ((unseen_respond rc r).getBit c), Prod.map_fst,
    Prod.map_snd, id]
  cases update s.dec (readSymbol (getBit c) s.dec s).1 <;> rfl

theorem readCoded_respond : ∀ (count lo : Nat) (v : Word) (s : State),
    readCoded c count lo v (respond rc r s) = answered rc r (readCoded c count lo v s)
  | 0, _, _, _ => rfl
  | count + 1, lo, v, s => by
    simp only [readCoded, decodeDec_respond]
    cases decodeDec c s with
    | error e => rfl
    | ok got => exact readCoded_respond count _ _ got.2

theorem readBitstream_respond (n : Nat) (s : State) :
    readBitstream c n (respond rc r s) = answered rc r (readBitstream c n s) := by
  simp only [readBitstream, ensureModel_respond]
  cases ensureModel s with
  | error e => rfl
  | ok u =>
    simp only [Except.map, bind, Except.bind, (unseen_respond rc r).readResidual, Prod.map, id, readCoded_respond]
    cases readCoded c (n / 8) (n % 8) (readResidual c (n % 8) 0 0 u).1 (readResidual c (n % 8) 0 0 u).2 <;> rfl

/-- `ReadBitsCore` (rule R124) neither looks at `R` and `RC` nor writes them. -/
theorem readBitsCore_respond (w : Int) (s : State) :
    readBitsCore c w (respond rc r s) = answered rc r (readBitsCore c w s) := by
  cases ho : (ctxOf s c).oob with
  | true => simp only [readBitsCore, respond_ctxOf, ho, if_true, (unseen_respond rc r).readRaw]; rfl
  | false =>
    simp only [readBitsCore, respond_ctxOf, ho, Bool.false_eq_true, if_false, readBitstream_respond]
    cases readBitstream c (magnitude w) s <;> rfl

/-- `TypedRead` (rule R146) neither looks at `R` and `RC` nor writes them. -/
theorem typedRead_respond (w : Int) (e : Word) (s : State) :
    typedRead c w e (respond rc r s) = answered rc r (typedRead c w e s) := by
  simp only [typedRead, readBitsCore_respond]
  cases readBitsCore c w s <;> rfl

end

/-! ## Reads after the seeding -/

/-- `EnsureModel` before a read (rule R181): the seeding is seen by no raw read and done by every compressed one, so the
value read is the same. -/
theorem typedRead_value_of_ensureModel {s u : State} (hu : ensureModel s = .ok u) (c : CtxNum) (w : Int) (e : Word) :
    (typedRead c w e u).map Prod.fst = (typedRead c w e s).map Prod.fst := by
  rcases ensureModel_cases hu with ⟨-, rfl⟩ | ⟨M, -, -, hseed⟩
  · rfl
  have hfu : u = withSeed M s := hseed
  cases ho : (ctxOf s c).oob with
  | true =>
    have huo : (ctxOf u c).oob = true := by rwa [hfu, (unseen_withSeed M).ctxOf]
    simp only [typedRead, readBitsCore, ho, huo, if_true]
    rw [hfu, (unseen_withSeed M).readRaw]
    rfl
  | false =>
    have huo : (ctxOf u c).oob = false := by rwa [hfu, (unseen_withSeed M).ctxOf]
    have hready : u.modelReady = true := by rw [hfu]; rfl
    simp only [typedRead, readBitsCore, ho, huo, Bool.false_eq_true, if_false, readBitstream, hu, ensureModel_ready hready]

end Sys2Proof.Machine
end

section
/-! SUPPORT. The model and the reader raise no fault but `WEIGHT_OVF` (rules R178, R267, R268). -/

namespace Sys2Proof.Machine

/-- What an operation that stores nothing in a buffer meets (rules R53, R267). -/
def NoWriteRange {α : Type} (e : Except FaultCause α) : Prop := e ≠ .error .writeRange

theorem noWriteRange_ok {α : Type} (a : α) : NoWriteRange (.ok a) := nofun

theorem NoWriteRange.bind {α β : Type} {e : Except FaultCause α} {f : α → Except FaultCause β} (he : NoWriteRange e)
    (hf : ∀ a, NoWriteRange (f a)) : NoWriteRange (e >>= f) := by
  cases e with
  | error x => exact fun h => he (congrArg Except.error (Except.error.inj h))
  | ok a => exact hf a

theorem noWriteRange_climb : ∀ (fuel : Nat) (M : Model) (due : Option NodeId) (path : List NodeId),
    NoWriteRange (climb fuel M due path)
  | 0, _, _, _ => noWriteRange_ok _
  | _ + 1, _, none, _ => noWriteRange_ok _
  | fuel + 1, M, some n, path => by
    unfold climb
    simp only
    split
    · exact fun h => FaultCause.noConfusion (Except.error.inj h)
    · exact noWriteRange_climb fuel _ _ _

theorem noWriteRange_increment (M : Model) (n : Option NodeId) : NoWriteRange (increment M n) :=
  (noWriteRange_climb _ _ _ _).bind fun _ => noWriteRange_ok _

theorem noWriteRange_update (M : Model) (s : Byte) : NoWriteRange (update M s) := by
  rcases update_cases M s with ⟨-, e⟩ | ⟨n, -, e⟩
  · rw [e]; exact noWriteRange_increment _ _
  · rw [e]; exact noWriteRange_increment _ _

theorem noWriteRange_updateTimes (s : Byte) : ∀ (count : Nat) (M : Model), NoWriteRange (updateTimes s count M)
  | 0, _ => noWriteRange_ok _
  | count + 1, M => (noWriteRange_update M s).bind (noWriteRange_updateTimes s count)

theorem noWriteRange_seedFrom : ∀ (counts : List Word) (i : Nat) (M : Model), NoWriteRange (seedFrom i counts M)
  | [], _, _ => noWriteRange_ok _
  | _ :: counts, i, M => (noWriteRange_updateTimes _ _ M).bind (noWriteRange_seedFrom counts (i + 1))

theorem noWriteRange_ensureModel (s : State) : NoWriteRange (ensureModel s) := by
  unfold ensureModel
  split
  · exact noWriteRange_ok _
  · exact (noWriteRange_seedFrom _ _ _).bind fun _ => noWriteRange_ok _

theorem noWriteRange_decodeDec (c : CtxNum) (s : State) : NoWriteRange (decodeDec c s) :=
  ((noWriteRange_update _ _).bind fun _ => noWriteRange_ok _).bind fun _ => noWriteRange_ok _

theorem noWriteRange_readCoded (c : CtxNum) : ∀ (count lo : Nat) (v : Word) (s : State),
    NoWriteRange (readCoded c count lo v s)
  | 0, _, _, _ => noWriteRange_ok _
  | count + 1, _, _, s => (noWriteRange_decodeDec c s).bind fun _ => noWriteRange_readCoded c count _ _ _

theorem noWriteRange_readBitsCore (c : CtxNum) (w : Int) (s : State) : NoWriteRange (readBitsCore c w s) := by
  unfold readBitsCore
  split
  · exact noWriteRange_ok _
  · refine NoWriteRange.bind ?_ fun _ => noWriteRange_ok _
    exact (noWriteRange_ensureModel s).bind fun _ => (noWriteRange_readCoded c _ _ _ _).bind fun _ => noWriteRange_ok _

theorem noWriteRange_typedRead (c : CtxNum) (w : Int) (e : Word) (s : State) : NoWriteRange (typedRead c w e s) :=
  (noWriteRange_readBitsCore c w s).bind fun _ => noWriteRange_ok _

/-- A command whose body raises no `WRITE_RANGE` answers `OK` or `WEIGHT_OVF` (rules R260, R266). -/
theorem NoWriteRange.conclude {e : Except FaultCause (Word × State)} (he : NoWriteRange e) (s : State) :
    (Machine.conclude s e).rc = .ok ∨ (Machine.conclude s e).rc = .weightOvf := by
  rcases conclude_cases s e with ⟨v, t, -, h⟩ | ⟨f, hf, h⟩
  · exact .inl (by rw [h, respond_rc])
  · cases f with
    | writeRange => exact absurd hf he
    | weightOvf => exact .inr (by rw [h]; rfl)

end Sys2Proof.Machine
end

section
/-! The typed reads and `LOOKAHEAD_BYTE` (rules R146 to R152). -/

namespace Sys2Proof.Machine

/-! ## Typed reads -/

/-- A typed read is the checks of rule R100, then `TypedRead` (rules R147 to R151); its width is one that both modes
accept. -/
theorem exec_of_readForm {i : Instr} {c : CtxNum} {w : Int} {e : Word} (h : readForm i = some (c, w, some e)) (s : State) :
    exec i s = .next (prologue false [c] s (typedReadField c w e)) ∧ ∀ oob, widthOk oob w = true := by
  cases i with
  | readChar d | readByte d | readShort d | readLong d | readFloat d =>
    cases h
    exact ⟨rfl, by decide⟩
  | _ => cases h

/-- A command that is not accepted answers an error that its body has no part in (rule R100). -/
theorem prologue_of_not_accepts {s : State} {cs : List CtxNum} (h : ¬ s.accepts cs) :
    ∃ rc, rc ≠ .ok ∧ ∀ body, prologue false cs s body = respond rc 0 s := by
  cases hf : s.fault with
  | true => exact ⟨.faulted, RespCode.noConfusion, fun body => by simp [prologue, hf]⟩
  | false =>
    have hc : ¬ ∀ c ∈ cs, c.toNat < s.params.nctx := fun hc => h ⟨hf, hc⟩
    exact ⟨.illegalCmd, RespCode.noConfusion, fun body => by simp [prologue, hf, hc]⟩

theorem conclude_error_rc_ne_ok (f : FaultCause) (s : State) : (conclude s (.error f)).rc ≠ .ok := by
  cases f <;> exact RespCode.noConfusion

/-- All `TypedRead` can do (rule R146): what `ReadBitsCore` does, with the sentinel in place of the value once `READCOUNT`
has passed `CURSIZE`. -/
theorem typedRead_cases (c : CtxNum) (w : Int) (e : Word) (s : State) :
    (∃ v t, readBitsCore c w s = .ok (v, t) ∧
      typedRead c w e s = .ok (if (ctxOf t c).cursize < (ctxOf t c).readcount then e else v, t)) ∨
    ∃ f, readBitsCore c w s = .error f ∧ typedRead c w e s = .error f := by
  unfold typedRead
  cases readBitsCore c w s with
  | error f => exact .inr ⟨f, rfl, rfl⟩
  | ok got => exact .inl ⟨got.1, got.2, rfl, rfl⟩

/-- Settles O39: both commands make the same checks, the width check of `READ_BITS` passes at the width of a typed read,
and both bodies then run `ReadBitsCore`. -/
theorem typedReadIsReadBitsThenSentinel : Obligations.TypedReadIsReadBitsThenSentinel := by
  intro s u i c w7 e hform hu
  obtain ⟨hexec, hwidth⟩ := exec_of_readForm hform s
  rw [hexec]
  by_cases hacc : s.accepts [c]
  · rw [exec_readBits hacc (hwidth _)] at hu
    cases hu
    rw [prologue_accepts hacc, typedReadField]
    rcases typedRead_cases c (widthOf w7) e s with ⟨v, t, hcore, htyped⟩ | ⟨f, hcore, htyped⟩
    · rw [hcore, htyped]
      exact ⟨fun _ => rfl, fun hrc => absurd rfl hrc⟩
    · rw [hcore, htyped]
      exact ⟨fun hrc => absurd hrc (conclude_error_rc_ne_ok f s), fun _ => rfl⟩
  · obtain ⟨rc, hrc, hpro⟩ := prologue_of_not_accepts hacc
    have hread : exec (.readBits c w7) s = .next (respond rc 0 s) := congrArg Host.Outcome.next (hpro _)
    rw [hread] at hu
    cases hu
    rw [hpro]
    exact ⟨fun h => absurd h hrc, fun _ => rfl⟩

/-! ## `LOOKAHEAD_BYTE` -/

/-- The body of `LOOKAHEAD_BYTE` (rule R152). -/
def peekByte (c : CtxNum) (s : State) : Except FaultCause (Word × State) := do
  let u ← ensureModel s
  let got ← typedRead c 8 sentinelInt u
  .ok (got.1, restoreReader c u got.2)

section
variable {s t u w : State} {c : CtxNum} {v : Word}

/-- Rule R152. -/
theorem exec_lookaheadByte (h : s.accepts [c]) : exec (.lookaheadByte c) s = .next (conclude s (peekByte c s)) :=
  congrArg Host.Outcome.next (prologue_accepts h false fun s => conclude s (peekByte c s))

/-- Rule R148. -/
theorem exec_readByte (h : s.accepts [c]) :
    exec (.readByte c) s = .next (conclude s (typedRead c 8 sentinelInt s)) :=
  congrArg Host.Outcome.next (prologue_accepts h false (typedReadField c 8 sentinelInt))

/-- A command that answers `OK` ended with its body's result. -/
theorem conclude_of_rc_ok {e : Except FaultCause (Word × State)} (h : (conclude s e).rc = .ok) :
    ∃ v t, e = .ok (v, t) := by
  cases e with
  | error f => exact absurd h (conclude_error_rc_ne_ok f s)
  | ok got => exact ⟨got.1, got.2, rfl⟩

/-- `EnsureModel` leaves a seeded pair, the one a compressed command finds, and all else as it was (rule R181). -/
theorem ensureModel_frame (h : ensureModel s = .ok u) :
    u.modelReady = true ∧ encBefore s = .ok u.enc ∧ decBefore s = .ok u.dec ∧ u.ctxs = s.ctxs ∧
      u.freeCount = s.freeCount := by
  rcases ensureModel_cases h with ⟨hr, rfl⟩ | ⟨M, hr, hM, rfl⟩
  · exact ⟨hr, by simp [encBefore, hr], by simp [decBefore, hr], rfl, rfl⟩
  · exact ⟨rfl, by simp [encBefore, hr, hM], by simp [decBefore, hr, hM], rfl, rfl⟩

/-- Rule R152: once a read's cursors and `DEC` are put back, all it has left is the count of free values drawn. -/
theorem restoreReader_of_readFrame (h : ReadFrame c u w) (hr : u.modelReady = true) :
    restoreReader c u w = { u with freeCount := w.freeCount } := by
  have hctxs : (restoreReader c u w).ctxs = u.ctxs := by
    refine ctxs_ext fun d => ?_
    by_cases hd : d = c
    · subst hd
      rw [restoreReader, ctxOf_setCtx_self, h.own]
    · rw [restoreReader, ctxOf_setCtx_of_ne hd]
      exact h.others d hd
  obtain ⟨hparams, hpending, ha, hb, hk⟩ := h.port
  obtain ⟨hfault, hcause⟩ := h.fault
  obtain ⟨hres, hrc⟩ := h.resp
  obtain ⟨hready, henc⟩ := h.ready hr
  calc restoreReader c u w
      = { w with ctxs := (restoreReader c u w).ctxs, dec := u.dec } := rfl
    _ = { u with freeCount := w.freeCount } := by
      rw [hctxs]
      simp only [hparams, hpending, ha, hb, hk, hfault, hcause, hres, hrc, hready, henc, hr]

/-- `LOOKAHEAD_BYTE` that does not fault (rule R152): the byte `TypedRead` gives after the seeding, and a state that differs
from the seeded one in the count of free values drawn alone. -/
theorem peekByte_ok (h : peekByte c s = .ok (v, t)) :
    ∃ u w, ensureModel s = .ok u ∧ typedRead c 8 sentinelInt u = .ok (v, w) ∧ t = { u with freeCount := w.freeCount } := by
  obtain ⟨u, hu, h⟩ := bind_eq_ok h
  obtain ⟨⟨v', w⟩, hw, h⟩ := bind_eq_ok h
  cases h
  obtain ⟨hready, -⟩ := ensureModel_frame hu
  exact ⟨u, w, hu, hw, restoreReader_of_readFrame (typedRead_frame hw) hready⟩

theorem noWriteRange_peekByte (c : CtxNum) (s : State) : NoWriteRange (peekByte c s) :=
  (noWriteRange_ensureModel s).bind fun _ => (noWriteRange_typedRead c _ _ _).bind fun _ => noWriteRange_ok _

/-- `LOOKAHEAD_BYTE` gives what `READ_BYTE` in the same state gives (rule R152). -/
theorem peekByte_value (hp : peekByte c s = .ok (v, t)) {r : Word} (hr : typedRead c 8 sentinelInt s = .ok (r, w)) :
    v = r := by
  obtain ⟨u, w', hu, hw, -⟩ := peekByte_ok hp
  have hval := typedRead_value_of_ensureModel hu c 8 sentinelInt
  rw [hw, hr] at hval
  exact Except.ok.inj hval

/-- `READ_BYTE` after a `LOOKAHEAD_BYTE` that drew no free value gives its byte again (rule R152). -/
theorem typedRead_after_peekByte (hp : peekByte c s = .ok (v, t)) (hfree : t.freeCount = s.freeCount) :
    ∃ w, typedRead c 8 sentinelInt (respond .ok v t) = .ok (v, w) := by
  obtain ⟨u, w, hu, hw, rfl⟩ := peekByte_ok hp
  obtain ⟨-, -, -, -, hufree⟩ := ensureModel_frame hu
  have hsame : ({ u with freeCount := w.freeCount } : State) = u := by
    rw [show w.freeCount = u.freeCount from hfree.trans hufree.symm]
  rw [hsame, typedRead_respond, hw]
  exact ⟨_, rfl⟩

end

/-- Settles O40: the body faults with `WEIGHT_OVF` alone; if it does not fault it leaves the seeded state, and `TypedRead`
gives the same byte before the seeding, after it and after the response. -/
theorem lookaheadPeeksTheNextByte : Obligations.LookaheadPeeksTheNextByte := by
  refine fun s t c => ⟨wordIsN_of_encode rfl, fun hacc ht => ?_⟩
  rw [exec_lookaheadByte hacc] at ht
  cases ht
  refine ⟨(noWriteRange_peekByte c s).conclude s, fun hok => ?frame, fun u hu huok hok => ?value, fun hok hfree => ?again⟩
  all_goals obtain ⟨v, t, hp⟩ := conclude_of_rc_ok hok
  case frame =>
    obtain ⟨u, w, hu, -, rfl⟩ := peekByte_ok hp
    obtain ⟨hready, henc, hdec, hctxs, -⟩ := ensureModel_frame hu
    have hframe : ReadFrame c s u := readFrame_ensureModel hu
    rw [hp]
    exact ⟨hframe.port, hframe.fault, hctxs, hready, henc, hdec⟩
  case value =>
    rw [exec_readByte hacc] at hu
    cases hu
    obtain ⟨r, w, hr⟩ := conclude_of_rc_ok huok
    rw [hp, hr]
    exact peekByte_value hp hr
  case again =>
    rw [hp] at hfree ⊢
    obtain ⟨w, hw⟩ := typedRead_after_peekByte hp hfree
    have hacc' : (respond .ok v t).accepts [c] := by
      obtain ⟨u, w, hu, -, rfl⟩ := peekByte_ok hp
      have hframe : ReadFrame c s u := readFrame_ensureModel hu
      exact ⟨hframe.fault.1.trans hacc.1, fun d hd => hframe.port.1 ▸ hacc.2 d hd⟩
    exact ⟨_, exec_readByte hacc', by rw [conclude_ok, hw]; exact ⟨rfl, rfl⟩⟩

end Sys2Proof.Machine
end

section
/-! SUPPORT. The list from `LHEAD` holds the nodes in use in the order of their places (rule R175 (a), (b), (c),
(e)). -/

namespace Sys2Proof.Machine

theorem mem_usedNodes {M : Model} {k : NodeId} : k ∈ usedNodes M ↔ M.uses k := by
  simp [usedNodes, Model.uses]

theorem nodup_usedNodes (M : Model) : (usedNodes M).Nodup := (List.nodup_finRange 514).filter _

/-- The list `L` holds nodes in use, at the `count` places from `i` on. -/
structure InPlaces (M : Model) (pos : NodeId → Nat) (i count : Nat) (L : List NodeId) : Prop where
  uses : ∀ k ∈ L, M.uses k
  places : L.map pos = List.range' i count

section
variable {M : Model} {pos : NodeId → Nat} {due : Option NodeId}

/-- `NEXT` leads to the next place, and ends at the last one. -/
theorem TreeShape.next_cases (h : TreeShape M pos due) (hl : Linked M pos) {n : NodeId} (hn : M.uses n) :
    ((node M n).next = none ∧ M.nnodes = pos n + 1) ∨
      ∃ m, (node M n).next = some m ∧ M.uses m ∧ pos m = pos n + 1 := by
  have hbelow := h.below n hn
  rcases Nat.lt_or_ge (pos n + 1) M.nnodes with hlt | hge
  · obtain ⟨m, hm, e⟩ := h.filled _ hlt
    exact .inr ⟨m, (hl.next n m hn).2 ⟨hm, e⟩, hm, e⟩
  · refine .inl ⟨Option.eq_none_iff_forall_ne_some.2 fun m e => ?_, by omega⟩
    obtain ⟨hm, e⟩ := (hl.next n m hn).1 e
    have := h.below m hm
    omega

/-- The walk along `NEXT` (rule R175). -/
theorem TreeShape.listFrom (h : TreeShape M pos due) (hl : Linked M pos) : ∀ (fuel : Nat) (n : NodeId), M.uses n →
    M.nnodes ≤ fuel + pos n → InPlaces M pos (pos n) (M.nnodes - pos n) (listFrom M fuel n)
  | 0, n, hn, hf => absurd (h.below n hn) (by omega)
  | fuel + 1, n, hn, hf => by
    rcases h.next_cases hl hn with ⟨hnone, hlast⟩ | ⟨m, hm, hmu, e⟩
    · simp only [Machine.listFrom, hnone]
      exact ⟨by simpa using hn, by simp [hlast]⟩
    · have hbelow := h.below m hmu
      obtain ⟨huses, hplaces⟩ := TreeShape.listFrom h hl fuel m hmu (by omega)
      simp only [Machine.listFrom, hm]
      refine ⟨List.forall_mem_cons.2 ⟨hn, huses⟩, ?_⟩
      rw [List.map_cons, hplaces, e, show M.nnodes - pos n = (M.nnodes - (pos n + 1)) + 1 by omega, List.range'_succ]

theorem TreeShape.listNodes (h : TreeShape M pos due) (hl : Linked M pos) :
    InPlaces M pos 0 M.nnodes (listNodes M) := by
  have hsize := h.nnodes_le
  have hwalk := h.listFrom hl Config.poolNodes M.lhead h.head_uses (by omega)
  rwa [h.head_pos] at hwalk

/-- The places along such a list rise. -/
theorem InPlaces.rising {i count : Nat} {L : List NodeId} (hL : InPlaces M pos i count L) :
    L.Pairwise fun k m => pos k < pos m := by
  rw [← List.pairwise_map (f := pos) (R := (· < ·)), hL.places]
  exact List.pairwise_lt_range'

theorem InPlaces.nodup {i count : Nat} {L : List NodeId} (hL : InPlaces M pos i count L) : L.Nodup :=
  hL.rising.imp fun hlt e => by rw [e] at hlt; exact lt_irrefl _ hlt

/-- Rule R175 (a): the list holds every node in use. -/
theorem InPlaces.mem_iff {L : List NodeId} (hL : InPlaces M pos 0 M.nnodes L) (h : TreeShape M pos due) {k : NodeId} :
    k ∈ L ↔ M.uses k := by
  refine ⟨hL.uses k, fun hk => ?_⟩
  have hmem : pos k ∈ L.map pos := by simp [hL.places, h.below k hk]
  obtain ⟨m, hm, e⟩ := List.mem_map.1 hmem
  rwa [h.placed k m hk (hL.uses m hm) e.symm]

/-- The index of a node in the list is its place. -/
theorem InPlaces.idxOf {L : List NodeId} (hL : InPlaces M pos 0 M.nnodes L) (h : TreeShape M pos due) {k : NodeId}
    (hk : M.uses k) : L.idxOf k = pos k := by
  obtain ⟨i, hi, rfl⟩ := List.getElem_of_mem ((hL.mem_iff h).2 hk)
  have hplace : (L.map pos)[i]'(by simpa using hi) = i := by simp [hL.places]
  rw [List.getElem_map] at hplace
  rw [hL.nodup.idxOf_getElem i hi, hplace]

/-- Rule R175 (c): the list ends at the root. -/
theorem InPlaces.getLast? {L : List NodeId} (hL : InPlaces M pos 0 M.nnodes L) (h : TreeShape M pos due) :
    L.getLast? = some M.root := by
  have hlast : (L.map pos).getLast? = some (pos M.root) := by
    rw [hL.places, h.root_last, List.range'_concat]
    simp
  rw [List.getLast?_map] at hlast
  obtain ⟨k, hk, e⟩ := Option.map_eq_some_iff.1 hlast
  rw [hk, h.placed k M.root (hL.uses k (List.mem_of_getLast? hk)) h.root_uses e]

/-- Rule R175 (b). -/
theorem InPlaces.sorted {i count : Nat} {L : List NodeId} (hL : InPlaces M pos i count L) (hs : Sorted M pos) :
    L.Pairwise fun n m => (node M n).weight ≤ (node M m).weight :=
  hL.rising.imp_of_mem fun hn hm hlt => hs _ _ (hL.uses _ hn) (hL.uses _ hm) hlt.le

/-- Rule R175 (a): `PREV` inverts `NEXT`. -/
theorem Linked.next_iff_prev (hl : Linked M pos) {n m : NodeId} (hn : M.uses n) (hm : M.uses m) :
    (node M n).next = some m ↔ (node M m).prev = some n := by
  rw [hl.next n m hn, hl.prev m n hm]
  simp [hn, hm]

end

end Sys2Proof.Machine
end

section
/-! SUPPORT. Every node in use is a parent, the not-yet-seen leaf or the leaf of a byte, by counting; and what that says
of its children (rule R175 (d), (g)). -/

namespace Sys2Proof.Machine

/-! ## Counting the nodes -/

/-- The nodes in use. -/
def usedSet (M : Model) : Finset NodeId := Finset.univ.filter fun k => k.val < M.nnodes

/-- The nodes in use that are the parent of one. -/
def parentSet (M : Model) : Finset NodeId :=
  ((usedSet M).erase M.root).image fun k => ((node M k).parent).getD M.root

/-- The leaves: those of the bytes introduced, and the not-yet-seen leaf. -/
def leafSet (M : Model) : Finset NodeId :=
  insert M.lhead ((Finset.univ.filter fun s : Byte => (locOf M s).isSome).image fun s => (locOf M s).getD M.lhead)

theorem mem_usedSet {M : Model} {k : NodeId} : k ∈ usedSet M ↔ M.uses k := by simp [usedSet, Model.uses]

theorem mem_leafSet {M : Model} {n : NodeId} : n ∈ leafSet M ↔ n = M.lhead ∨ ∃ s, locOf M s = some n := by
  simp only [leafSet, Finset.mem_insert, Finset.mem_image, Finset.mem_filter, Finset.mem_univ, true_and]
  refine or_congr_right (exists_congr fun s => ?_)
  cases locOf M s <;> simp

/-- `introduced` counts the bytes that have a leaf. -/
theorem introduced_eq_seen (M : Model) : introduced M = seen M := by
  unfold introduced seen
  rw [← List.toFinset_card_of_nodup (List.nodup_range.filter _)]
  refine Finset.card_nbij' (BitVec.ofNat 8) BitVec.toNat ?_ ?_ ?_ ?_
  · intro i hi
    simpa using (List.mem_filter.1 (List.mem_toFinset.1 hi)).2
  · intro s hs
    have := s.isLt
    simp_all
  · intro i hi
    have := (List.mem_filter.1 (List.mem_toFinset.1 hi)).1
    simp_all
  · intro s _
    simp

section
variable {M : Model} {pos : NodeId → Nat}

theorem TreeShape.card_usedSet (h : TreeShape M pos none) : (usedSet M).card = 1 + 2 * seen M := by
  have hsize : M.nnodes ≤ 514 := h.nnodes_le
  rw [usedSet, Fin.card_filter_val_lt, min_eq_right hsize, h.count]

theorem TreeShape.mem_parentSet (h : TreeShape M pos none) {p : NodeId} :
    p ∈ parentSet M ↔ ∃ k, M.uses k ∧ (node M k).parent = some p := by
  simp only [parentSet, Finset.mem_image, Finset.mem_erase, mem_usedSet]
  constructor
  · rintro ⟨k, ⟨hne, hk⟩, e⟩
    obtain ⟨q, hq⟩ := Option.ne_none_iff_exists'.1 (mt (h.rooted k hk).1 hne)
    exact ⟨k, hk, by simpa [hq] using e⟩
  · rintro ⟨k, hk, hp⟩
    exact ⟨k, ⟨fun e => by simp [(h.rooted k hk).2 e] at hp, hk⟩, by simp [hp]⟩

/-- Rule R175 (d): no parent has more than two children. -/
theorem TreeShape.seen_le_card_parentSet (h : TreeShape M pos none) : seen M ≤ (parentSet M).card := by
  have hchildren := Finset.card_le_mul_card_image (f := fun k => ((node M k).parent).getD M.root)
    ((usedSet M).erase M.root) 2 fun p hp => ?_
  · have hroot := Finset.card_erase_of_mem (mem_usedSet.2 h.root_uses)
    rw [h.card_usedSet] at hroot
    simp only [parentSet]
    omega
  · obtain ⟨k, hk, hkp⟩ := h.mem_parentSet.1 hp
    obtain ⟨j, -, -, -, honly, -⟩ := h.sibling k p hk hkp
    refine (Finset.card_le_card (t := {j, k}) fun i hi => ?_).trans Finset.card_le_two
    simp only [Finset.mem_filter, Finset.mem_erase, mem_usedSet] at hi
    obtain ⟨⟨hne, hi⟩, e⟩ := hi
    obtain ⟨q, hq⟩ := Option.ne_none_iff_exists'.1 (mt (h.rooted i hi).1 hne)
    simpa using honly i hi (by simpa [hq] using e)

/-- Different bytes have different leaves, none of them the not-yet-seen leaf. -/
theorem Branched.card_leafSet (hb : Branched M) : (leafSet M).card = seen M + 1 := by
  have hloc : ∀ s, (locOf M s).isSome → (node M ((locOf M s).getD M.lhead)).symbol = .byte s := by
    intro s hs
    obtain ⟨n, hn⟩ := Option.isSome_iff_exists.1 hs
    simpa [hn] using hb.leaf s n hn
  rw [leafSet, Finset.card_insert_of_notMem, Finset.card_image_of_injOn, seen]
  · intro s hs s' hs' e
    have hsym := hloc s (by simpa using hs)
    rw [show (locOf M s).getD M.lhead = (locOf M s').getD M.lhead from e, hloc s' (by simpa using hs')] at hsym
    exact (Symbol.byte.inj hsym).symm
  · intro hmem
    obtain ⟨s, hs, e⟩ := Finset.mem_image.1 hmem
    have hsym := hloc s (by simpa using hs)
    rw [e, hb.nyt] at hsym
    cases hsym

/-- Rule R175 (d), (g): of `1 + 2n` nodes, `n` are leaves of bytes, one is the not-yet-seen leaf, and at least `n` are
parents; so there are no others. -/
theorem Branched.kinds (hb : Branched M) (h : TreeShape M pos none) {n : NodeId} (hn : M.uses n) :
    (∃ k, M.uses k ∧ (node M k).parent = some n) ∨ n = M.lhead ∨ ∃ s, locOf M s = some n := by
  have hdisj : Disjoint (parentSet M) (leafSet M) := by
    refine Finset.disjoint_left.2 fun p hp hl => ?_
    obtain ⟨k, -, hk⟩ := h.mem_parentSet.1 hp
    have hsym := hb.internal k p hk
    rcases mem_leafSet.1 hl with rfl | ⟨s, hs⟩
    · cases hb.nyt.symm.trans hsym
    · cases (hb.leaf s p hs).symm.trans hsym
  have hsub : parentSet M ∪ leafSet M ⊆ usedSet M := by
    refine Finset.union_subset (fun p hp => ?_) fun l hl => ?_
    · obtain ⟨k, hk, hkp⟩ := h.mem_parentSet.1 hp
      exact mem_usedSet.2 (h.later k p hk hkp).1
    · rcases mem_leafSet.1 hl with rfl | ⟨s, hs⟩
      · exact mem_usedSet.2 h.head_uses
      · exact mem_usedSet.2 (h.leaf s l hs).1
  have hall : parentSet M ∪ leafSet M = usedSet M := by
    refine Finset.eq_of_subset_of_card_le hsub ?_
    have := h.seen_le_card_parentSet
    rw [Finset.card_union_of_disjoint hdisj, hb.card_leafSet, h.card_usedSet]
    omega
  rw [← mem_usedSet, ← hall, Finset.mem_union, h.mem_parentSet, mem_leafSet] at hn
  exact hn

/-! ## The children of an internal node -/

/-- The internal node `p` has the children `l` and `r`, and no other node has it as parent (rule R175 (d)). -/
structure Forks (M : Model) (p l r : NodeId) : Prop where
  left : (node M p).left = some l
  right : (node M p).right = some r
  ne : l ≠ r
  uses_left : M.uses l
  uses_right : M.uses r
  children : ∀ k, M.uses k → ((node M k).parent = some p ↔ k = l ∨ k = r)
  sum : wt M p = wt M l + wt M r

/-- A node that has a child has two: the one on its left and the one on its right. -/
theorem Branched.forks (hb : Branched M) (h : TreeShape M pos none) {k p : NodeId} (hk : M.uses k)
    (hp : (node M k).parent = some p) : ∃ l r, Forks M p l r := by
  obtain ⟨j, hj, hjk, hjp, honly, hsum⟩ := h.sibling k p hk hp
  have hchildren : ∀ i, M.uses i → ((node M i).parent = some p ↔ i = j ∨ i = k) := fun i hi =>
    ⟨honly i hi, by rintro (rfl | rfl) <;> assumption⟩
  simp only [reduceCtorEq, if_false, Nat.add_zero] at hsum
  have hne : ∀ {o : Option NodeId}, o = some j → o ≠ some k := by
    rintro _ rfl e
    exact hjk (Option.some.inj e)
  rcases hb.hasChild k p hp with hl | hr
  · have hr := (hb.hasChild j p hjp).resolve_left fun e => hne e hl
    exact ⟨k, j, hl, hr, hjk.symm, hk, hj, fun i hi => (hchildren i hi).trans or_comm, by omega⟩
  · have hl := (hb.hasChild j p hjp).resolve_right fun e => hne e hr
    exact ⟨j, k, hl, hr, hjk, hj, hk, hchildren, by omega⟩

/-- Rule R175 (d): an internal node has two children. -/
theorem Branched.forks_of_internal (hb : Branched M) (h : TreeShape M pos none) {p : NodeId} (hp : M.uses p)
    (hi : (node M p).symbol = .internal) : ∃ l r, Forks M p l r := by
  rcases hb.kinds h hp with ⟨k, hk, hkp⟩ | rfl | ⟨s, hs⟩
  · exact hb.forks h hk hkp
  · cases hb.nyt.symm.trans hi
  · cases (hb.leaf s p hs).symm.trans hi

/-- Rule R175 (d): the one leaf that holds no byte. -/
theorem Branched.eq_lhead_of_nyt (hb : Branched M) (h : TreeShape M pos none) {n : NodeId} (hn : M.uses n)
    (hi : (node M n).symbol = .nyt) : n = M.lhead := by
  rcases hb.kinds h hn with ⟨k, -, hk⟩ | hl | ⟨s, hs⟩
  · cases (hb.internal k n hk).symm.trans hi
  · exact hl
  · cases (hb.leaf s n hs).symm.trans hi

/-- Rule R175 (d): `LOC[s]` is the one leaf of `s`. -/
theorem Branched.locOf_iff (hb : Branched M) (h : TreeShape M pos none) (s : Byte) (n : NodeId) :
    locOf M s = some n ↔ M.uses n ∧ (node M n).symbol = .byte s := by
  refine ⟨fun hs => ⟨(h.leaf s n hs).1, hb.leaf s n hs⟩, fun ⟨hn, hi⟩ => ?_⟩
  rcases hb.kinds h hn with ⟨k, -, hk⟩ | rfl | ⟨s', hs'⟩
  · cases (hb.internal k n hk).symm.trans hi
  · cases hb.nyt.symm.trans hi
  · cases (hb.leaf s' n hs').symm.trans hi
    exact hs'

end

end Sys2Proof.Machine
end

section
/-! SUPPORT. No leaf has a child: whatever the updates do, only internal nodes get one (rules R175 (d), R177, R179). -/

namespace Sys2Proof.Machine

/-- A node that is not internal has no children (rule R175 (d)). -/
def LeavesBare (M : Model) : Prop :=
  ∀ k, (node M k).symbol ≠ .internal → (node M k).left = none ∧ (node M k).right = none

theorem leavesBare_emptyModel : LeavesBare emptyModel := by
  intro k _
  simp only [node, emptyModel, tableFind]
  grind [Node.unused]

theorem LeavesBare.sameBranches {M M' : Model} (h : LeavesBare M) (hs : SameBranches M M') : LeavesBare M' := by
  intro k hk
  rw [hs.symbol] at hk
  rw [hs.left, hs.right]
  exact h k hk

/-- `SwapTree` (rule R179) writes the children of parents alone. -/
theorem LeavesBare.swapTree {M : Model} (h : LeavesBare M) (hb : Branched M) (a b : NodeId) :
    LeavesBare (swapTree M a b) := by
  intro k hk
  rw [(sameSymbols_swapTree M a b).symbol] at hk
  have hparent : ∀ j, (node M j).parent ≠ some k := fun j e => hk (hb.internal j k e)
  simp only [Machine.swapTree, left_setParent, right_setParent, left_relink, right_relink, hparent, false_and, if_false]
  exact h k hk

/-- `Increment` (rule R178) keeps what `SwapTree` keeps and does not depend on the links of the list nor on the
weights. -/
theorem increment_keeps {P : Model → Prop} (hswap : ∀ {M a b}, a ≠ b → P M → P (swapTree M a b))
    (hsame : ∀ {M M'}, SameBranches M M' → P M → P M') {M N : Model} {due : Option NodeId} (h : P M)
    (hi : increment M due = .ok N) : P N := by
  have hpass : ∀ {M} n, P M → P (passBlock M n) := fun {M} n hM => by
    by_cases hl : leader M n = n
    · rwa [passBlock_of_leader_self hl]
    · by_cases hp : (node M n).parent = some (leader M n)
      · rw [passBlock_of_leader_parent rfl hl hp]
        exact hsame (sameBranches_swapList ..) hM
      · rw [passBlock_of_leader_other rfl hl hp]
        exact hsame (sameBranches_swapList ..) (hswap hl hM)
  have hclimb : ∀ (fuel : Nat) {M due path} {got : Model × List NodeId}, P M →
      climb fuel M due path = .ok got → P got.1 := by
    intro fuel
    induction fuel with
    | zero => intro M due path got hM hc; cases hc; exact hM
    | succ fuel ih =>
      intro M due path got hM hc
      cases due with
      | none => rw [climb_none] at hc; cases hc; exact hM
      | some n =>
        rw [climb_succ_some] at hc
        split at hc
        · cases hc
        · exact ih (hsame (sameBranches_bump ..) (hpass n hM)) hc
  obtain ⟨climbed, hc, hi⟩ := bind_eq_ok hi
  cases hi
  exact hsame (sameBranches_foldl_repair ..) (hclimb _ h hc)

theorem LeavesBare.increment {M N : Model} {due : Option NodeId} (h : LeavesBare M) (hb : Branched M)
    (hi : increment M due = .ok N) : LeavesBare N :=
  (increment_keeps (P := fun M => Branched M ∧ LeavesBare M)
    (fun hab hM => ⟨hM.1.swapTree hab, hM.2.swapTree hM.1 _ _⟩)
    (fun hs hM => ⟨hM.1.sameBranches hs, hM.2.sameBranches hs⟩) ⟨hb, h⟩ hi).2

/-- The new leaf is bare (rule R177). -/
theorem LeavesBare.seat {M : Model} (h : LeavesBare M) (s : Byte) : LeavesBare (seat M s) := by
  intro k
  have hk := h k
  have hsize : ∀ n, node { M with nnodes := M.nnodes + 2 } n = node M n := fun _ => rfl
  simp only [Machine.seat, node_setNode, hsize]
  grind

/-- Taking its place, the inner node writes the children of the old parent and its own alone (rule R177). -/
theorem LeavesBare.hang {M : Model} {h leaf inner : NodeId} {q : Option NodeId} (hM : LeavesBare M)
    (hq : ∀ p, q = some p → (node M p).symbol = .internal) (hi : (node M inner).symbol = .internal) :
    LeavesBare (hang M h leaf inner q) := by
  intro k hk
  rw [(sameSymbols_hang M h leaf inner q).symbol] at hk
  have hqk : q ≠ some k := fun e => hk (hq k e)
  have hki : k ≠ inner := by rintro rfl; exact hk hi
  simp only [Machine.hang, left_setParent, right_setParent, left_setRight, right_setRight, left_setLeft, right_setLeft,
    left_relink, right_relink, hqk, hki, false_and, if_false]
  exact hM k hk

/-- The first part of `Introduce` (rule R177). -/
theorem LeavesBare.graft {M : Model} {pos : NodeId → Nat} {s : Byte} (h : LeavesBare M) (hb : Branched M)
    (ht : TreeShape M pos none) (hs : locOf M s = none) : LeavesBare (graft M s) := by
  obtain ⟨hleaf, hinner, -⟩ := (grafted (ht.room hs) s).fresh
  have hsym : ∀ k, (node (chained M s) k).symbol =
      if k = newInner M then .internal else if k = newLeaf M then .byte s else (node M k).symbol := fun k => by
    rw [← symbol_graft, node_graft, (sameSymbols_hung M s).symbol]
  have hchained : LeavesBare (chained M s) := (h.seat s).sameBranches (sameBranches_chained M s)
  have hhung : LeavesBare (hung M s) := by
    refine hchained.hang (fun p hp => ?_) (by rw [hsym, if_pos rfl])
    have hu := hb.parent_uses _ p hp
    have hpi : p ≠ newInner M := fun e => hinner (e ▸ hu)
    have hpl : p ≠ newLeaf M := fun e => hleaf (e ▸ hu)
    rw [hsym, if_neg hpi, if_neg hpl]
    exact hb.internal _ p hp
  intro k
  rw [node_graft]
  exact hhung k

theorem LeavesBare.update {M N : Model} {s : Byte} (h : LeavesBare M) (hb : Branched M) (hr : Rest M)
    (hu : update M s = .ok N) : LeavesBare N := by
  rcases update_cases M s with ⟨hs, e⟩ | ⟨n, -, e⟩
  · obtain ⟨pos, ht, -, -⟩ := hr
    exact (h.graft hb ht hs).increment (hb.graft ht hs) (e ▸ hu)
  · exact h.increment hb (e ▸ hu)

/-- What `Empty()` meets and `Update` keeps holds of every reached model (rule R175). -/
theorem Model.Reached.induct {P : Model → Prop} (hempty : P emptyModel)
    (hupdate : ∀ {M N : Model} {s : Byte}, M.Reached → P M → Machine.update M s = .ok N → P N) {M : Model}
    (h : M.Reached) : P M := by
  have hall : ∀ (bytes : List Byte) {M N : Model}, M.Reached → P M → Machine.updates M bytes = .ok N → P N := by
    intro bytes
    induction bytes with
    | nil => intro M N _ hM hu; cases hu; exact hM
    | cons s ss ih =>
      intro M N hr hM hu
      obtain ⟨M', hM', hu⟩ := bind_eq_ok hu
      exact ih (hr.update hM') (hupdate hr hM hM') hu
  obtain ⟨bytes, hb⟩ := h
  exact hall bytes reached_empty hempty hb

theorem Model.Reached.leavesBare {M : Model} (h : M.Reached) : LeavesBare M :=
  h.induct leavesBare_emptyModel fun hr hM hu => hM.update hr.branched hr.rest hu

end Sys2Proof.Machine
end

section
/-! SUPPORT. The tree under `ROOT` holds every node in use once (rule R175 (a)). -/

namespace Sys2Proof.Machine

/-- Node `k` is `n` or below it: following `PARENT` from `k` leads to `n`. -/
def Below (M : Model) : NodeId → NodeId → Prop := Relation.ReflTransGen fun k p => M.uses k ∧ (node M k).parent = some p

section
variable {M : Model} {pos : NodeId → Nat} {k n l r : NodeId}

theorem TreeShape.pos_le_of_below (h : TreeShape M pos none) (hb : Below M k n) : pos k ≤ pos n := by
  induction hb with
  | refl => exact le_rfl
  | tail _ hstep ih => exact ih.trans (h.later _ _ hstep.1 hstep.2).2.le

/-- What is below a node is the node or below one of its children. -/
theorem Forks.below_iff (hf : Forks M n l r) : Below M k n ↔ k = n ∨ Below M k l ∨ Below M k r := by
  constructor
  · intro hb
    rcases Relation.ReflTransGen.cases_tail hb with e | ⟨p, hkp, hp, hpn⟩
    · exact .inl e.symm
    · rcases (hf.children p hp).1 hpn with rfl | rfl
      · exact .inr (.inl hkp)
      · exact .inr (.inr hkp)
  · rintro (rfl | hb | hb)
    · exact .refl
    · exact hb.tail ⟨hf.uses_left, (hf.children l hf.uses_left).2 (.inl rfl)⟩
    · exact hb.tail ⟨hf.uses_right, (hf.children r hf.uses_right).2 (.inr rfl)⟩

/-- A leaf has nothing below it but itself. -/
theorem Branched.below_leaf (hb : Branched M) (hn : (node M n).symbol ≠ .internal) : Below M k n ↔ k = n := by
  constructor
  · intro h
    rcases Relation.ReflTransGen.cases_tail h with e | ⟨p, -, -, hp⟩
    · exact e.symm
    · exact absurd (hb.internal p n hp) hn
  · rintro rfl
    exact .refl

/-- Of two children of a node, neither is below the other. -/
theorem TreeShape.not_below_sibling (h : TreeShape M pos none) (hn : (node M l).parent = some n)
    (hr : (node M r).parent = some n) (hru : M.uses r) (hlr : l ≠ r) : ¬ Below M l r := by
  intro hb
  rcases Relation.ReflTransGen.cases_head hb with e | ⟨p, ⟨-, hp⟩, hb⟩
  · exact hlr e
  · obtain rfl : n = p := Option.some.inj (hn.symm.trans hp)
    have := h.pos_le_of_below hb
    have := (h.later r n hru hr).2
    omega

/-- No node is below both children of a node. -/
theorem TreeShape.not_below_both (h : TreeShape M pos none) (hf : Forks M n l r) (hl : Below M k l) :
    ¬ Below M k r := by
  intro hr
  have hln := (hf.children l hf.uses_left).2 (.inl rfl)
  have hrn := (hf.children r hf.uses_right).2 (.inr rfl)
  have hunique : Relator.RightUnique fun k p => M.uses k ∧ (node M k).parent = some p :=
    fun _ _ _ h h' => Option.some.inj (h.2.symm.trans h'.2)
  rcases Relation.ReflTransGen.total_of_right_unique hunique hl hr with hb | hb
  · exact h.not_below_sibling hln hrn hf.uses_right hf.ne hb
  · exact h.not_below_sibling hrn hln hf.uses_left hf.ne.symm hb

/-- Every node in use is below the root. -/
theorem TreeShape.below_root (h : TreeShape M pos none) (hk : M.uses k) : Below M k M.root := by
  induction hd : M.nnodes - pos k using Nat.strong_induction_on generalizing k with
  | _ d ih =>
  have hlt := h.below k hk
  cases hp : (node M k).parent with
  | none =>
    rw [(h.rooted k hk).1 hp]
    exact .refl
  | some p =>
    obtain ⟨hpu, hlater⟩ := h.later k p hk hp
    exact Relation.ReflTransGen.head ⟨hk, hp⟩ (ih _ (by omega) hpu rfl)

theorem Below.uses (hb : Below M k n) (hn : M.uses n) : M.uses k := by
  rcases Relation.ReflTransGen.cases_head hb with rfl | ⟨p, hp, -⟩
  · exact hn
  · exact hp.1

/-- The walk over the tree under a node in use gives what is below the node, each once (rule R175). -/
theorem Branched.treeFrom (hb : Branched M) (hbare : LeavesBare M) (h : TreeShape M pos none) :
    ∀ (fuel : Nat) {n : NodeId}, M.uses n → pos n < fuel →
      (treeFrom M fuel n).Nodup ∧ ∀ k, k ∈ treeFrom M fuel n ↔ Below M k n
  | fuel + 1, n, hn, hf => by
    by_cases hi : (node M n).symbol = .internal
    · obtain ⟨l, r, hfork⟩ := hb.forks_of_internal h hn hi
      have hlpos := (h.later l n hfork.uses_left ((hfork.children l hfork.uses_left).2 (.inl rfl))).2
      have hrpos := (h.later r n hfork.uses_right ((hfork.children r hfork.uses_right).2 (.inr rfl))).2
      obtain ⟨hlnodup, hlmem⟩ := Branched.treeFrom hb hbare h fuel hfork.uses_left (by omega)
      obtain ⟨hrnodup, hrmem⟩ := Branched.treeFrom hb hbare h fuel hfork.uses_right (by omega)
      simp only [Machine.treeFrom, hfork.left, hfork.right]
      refine ⟨List.nodup_cons.2 ⟨fun hmem => ?_, hlnodup.append hrnodup fun k hkl hkr => ?_⟩, fun k => ?_⟩
      · rcases List.mem_append.1 hmem with hm | hm
        · have := h.pos_le_of_below ((hlmem n).1 hm)
          omega
        · have := h.pos_le_of_below ((hrmem n).1 hm)
          omega
      · exact h.not_below_both hfork ((hlmem k).1 hkl) ((hrmem k).1 hkr)
      · rw [List.mem_cons, List.mem_append, hlmem, hrmem, hfork.below_iff]
    · obtain ⟨hl, hr⟩ := hbare n hi
      simp [Machine.treeFrom, hl, hr, hb.below_leaf hi]

/-- Rule R175 (a): the tree holds every node in use, each once. -/
theorem Branched.treeNodes (hb : Branched M) (hbare : LeavesBare M) (h : TreeShape M pos none) :
    (treeNodes M).Nodup ∧ ∀ k, k ∈ treeNodes M ↔ M.uses k := by
  have hsize := h.nnodes_le
  have hroot := h.below M.root h.root_uses
  obtain ⟨hnodup, hmem⟩ := hb.treeFrom hbare h Config.poolNodes h.root_uses (by omega)
  exact ⟨hnodup, fun k => (hmem k).trans ⟨fun hk => hk.uses h.root_uses, h.below_root⟩⟩

/-- Rule R175 (d) at a node in use. -/
theorem Branched.nodeOk (hb : Branched M) (hbare : LeavesBare M) (h : TreeShape M pos none) (hn : M.uses n) :
    M.nodeOk n = true := by
  unfold Model.nodeOk
  by_cases hi : (node M n).symbol = .internal
  · obtain ⟨l, r, hf⟩ := hb.forks_of_internal h hn hi
    simp only [hi, hf.left, hf.right, (hf.children l hf.uses_left).2 (.inl rfl),
      (hf.children r hf.uses_right).2 (.inr rfl), true_and, decide_eq_true_eq]
    exact hf.sum
  · obtain ⟨hl, hr⟩ := hbare n hi
    rw [hl, hr]
    cases hsym : (node M n).symbol with
    | internal => exact absurd hsym hi
    | byte s => rfl
    | nyt => rfl

end

end Sys2Proof.Machine
end

section
/-! SUPPORT. The sibling property (rule R175 (f)): the places taken in pairs pair siblings, before, during and after
`Increment`. -/

namespace Sys2Proof.Machine

/-- Nodes that share a pair of places have the same parent (rule R175 (f)). -/
def Paired (M : Model) (pos : NodeId → Nat) : Prop :=
  ∀ k m, M.uses k → M.uses m → pos k / 2 = pos m / 2 → (node M k).parent = (node M m).parent

section
variable {M M' : Model} {pos pos' : NodeId → Nat}

theorem Paired.sameParents (h : Paired M pos) (hn : M'.nnodes = M.nnodes)
    (hp : ∀ k, (node M' k).parent = (node M k).parent) : Paired M' pos := fun k m hk hm e => by
  rw [hp, hp]
  exact h k m ((uses_congr hn k).1 hk) ((uses_congr hn m).1 hm) e

theorem Paired.samePlaces (h : Paired M pos) (he : ∀ k, M.uses k → pos k = pos' k) : Paired M pos' :=
  fun k m hk hm e => h k m hk hm (by rwa [he k hk, he m hm])

/-- Two nodes that exchange their places in the tree and in the order leave the pairs siblings (rule R179). -/
theorem Paired.exchanged {a b : NodeId} (h : Paired M pos) (ha : M.uses a) (hb : M.uses b) (hx : Exchanged M M' a b) :
    Paired M' (pos ∘ Equiv.swap a b) := fun k m hk hm e => by
  have hu := fun k => (uses_swap ha hb k).trans (uses_congr hx.nnodes k).symm
  rw [hx.parent, hx.parent]
  exact h _ _ ((hu k).2 hk) ((hu m).2 hm) e

/-! ## The list determines the places -/

theorem Linked.places_eq (hl : Linked M pos) (hl' : Linked M pos') (hp : Placed M pos)
    (hf : ∀ i k, M.uses k → pos k = i + 1 → ∃ j, M.uses j ∧ pos j = i) (hh : M.uses M.lhead) (h0 : pos M.lhead = 0)
    (h0' : pos' M.lhead = 0) : ∀ (i : Nat) (k : NodeId), M.uses k → pos k = i → pos' k = i
  | 0, k, hk, e => by rw [hp k M.lhead hk hh (e.trans h0.symm), h0']
  | i + 1, k, hk, e => by
    obtain ⟨j, hj, hji⟩ := hf i k hk e
    have hnext := (hl.next j k hj).2 ⟨hk, by omega⟩
    rw [((hl'.next j k hj).1 hnext).2, Linked.places_eq hl hl' hp hf hh h0 h0' i j hj hji]

/-- The list is in the order `pos` with the nodes `y` and `q` exchanged, which are the same or those of a flip. -/
structure ListedBut (M : Model) (pos : NodeId → Nat) (y q : NodeId) : Prop where
  uses_y : M.uses y
  uses_q : M.uses q
  flip : y = q ∨ pos y = 1 ∧ pos q = 2 ∧ (node M y).parent = some q
  linked : Linked M (pos ∘ Equiv.swap y q)

theorem TreeShape.listedBut {due : Option NodeId} {path : List NodeId} (h : TreeShape M pos due)
    (hl : Linked M pos ∨ Flipped M pos path) : ∃ y q, ListedBut M pos y q := by
  rcases hl with hl | ⟨y, q, hy, hq, hy1, hq2, hyq, -, hl⟩
  · exact ⟨M.lhead, M.lhead, h.head_uses, h.head_uses, .inl rfl, by simpa using hl⟩
  · exact ⟨y, q, hy, hq, .inr ⟨hy1, hq2, hyq⟩, hl⟩

/-- During the climb, too, the list and the tree determine the places. -/
theorem ListedBut.places_eq {due due' : Option NodeId} {y q y' q' : NodeId} (h : ListedBut M pos y q)
    (ht : TreeShape M pos due) (h' : ListedBut M pos' y' q') (ht' : TreeShape M pos' due') {k : NodeId}
    (hk : M.uses k) : pos k = pos' k := by
  obtain ⟨hy, hq, hflip, hl⟩ := h
  obtain ⟨hy', hq', hflip', hl'⟩ := h'
  have hu := uses_swap hy hq
  have hhead := ht.head_pos
  have hhead' := ht'.head_pos
  have hplaced := ht.placed
  have hplaced' := ht'.placed
  have hlater := ht.later y' q' hy'
  have hlater' := ht'.later y q hy
  have hlisted : ∀ k, M.uses k → pos (Equiv.swap y q k) = pos' (Equiv.swap y' q' k) := fun k hk => by
    refine (hl.places_eq hl' (ht.placed.swap hy hq) (fun i j hj e => ?_) ht.head_uses ?_ ?_ _ k hk rfl).symm
    · obtain ⟨m, hm, e'⟩ := ht.filled i (by have := ht.below _ ((hu j).2 hj); simp only [Function.comp] at e; omega)
      exact ⟨Equiv.swap y q m, (hu m).2 hm, by simpa using e'⟩
    · simp only [Function.comp, Equiv.swap_apply_def]; grind
    · simp only [Function.comp, Equiv.swap_apply_def]; grind
  have hsame : Equiv.swap y q = Equiv.swap y' q' := by
    have h1 := hlisted y hy
    have h2 := hlisted q hq
    have h3 := hlisted y' hy'
    have h4 := hlisted q' hq'
    unfold Placed at hplaced hplaced'
    simp only [Equiv.swap_apply_def] at h1 h2 h3 h4
    rcases hflip with rfl | hflip <;> rcases hflip' with rfl | hflip'
    · simp
    · grind
    · grind
    · grind
  have hk' := hlisted _ ((hu k).2 hk)
  rwa [← hsame, Equiv.swap_apply_self] at hk'

/-! ## The climb -/

/-- The exchange with the leader leaves the pairs siblings, whatever order the model is found in. -/
theorem Paired.passBlock {n : NodeId} {path path' : List NodeId} (hp : Paired M pos)
    (h : Climbing M pos (some n) path) (hl : (node M n).parent ≠ some (leader M n))
    (h' : Climbing (passBlock M n) pos' (some n) path') : Paired (passBlock M n) pos' := by
  obtain ⟨hn, hh, hq, hn3⟩ := h.at_due n rfl
  obtain ⟨hlu, hle, hwl, -⟩ := h.tree.leader_spec h.sorted h.linkedFrom hn
  obtain ⟨y', q', hlisted'⟩ := h'.tree.listedBut h'.list
  have htree' := h'.tree
  by_cases hln : leader M n = n
  · rw [passBlock_of_leader_self hln] at hlisted' htree' ⊢
    obtain ⟨y, q, hlisted⟩ := h.tree.listedBut h.list
    exact hp.samePlaces fun k hk => hlisted.places_eq h.tree hlisted' htree' hk
  · rw [passBlock_of_leader_other rfl hln hl] at hlisted' htree' ⊢
    have hlt : pos n < pos (leader M n) := lt_of_le_of_ne hle fun e => hln (h.tree.placed _ _ hlu hn e.symm)
    have hx := exchanged_exchange hln (h.tree.rooted _ hlu) (h.tree.rooted n hn)
    have htree := h.tree.exchange h.sorted hn hlu hlt hwl hl hh hq hx
    have hlinked : Linked M pos → Linked (exchange M (leader M n) n) (pos ∘ Equiv.swap (leader M n) n) :=
      fun hlink => hlink.exchange h.tree.placed hlu hn hln
    have hflip : Linked (exchange M (leader M n) n) (pos ∘ Equiv.swap (leader M n) n) ∨
        Flipped (exchange M (leader M n) n) (pos ∘ Equiv.swap (leader M n) n) path := by
      rcases hn3 with hlink | h3
      · exact .inl (hlinked hlink)
      · exact h.list.imp hlinked fun hf => hf.exchange h.tree.placed hn hlu h3 hlt hx
    obtain ⟨y, q, hlisted⟩ := htree.listedBut hflip
    exact (hp.exchanged hlu hn hx).samePlaces fun k hk => hlisted.places_eq htree hlisted' htree' hk

/-- The climb of `Increment` (rule R178) leaves the pairs siblings. -/
theorem Climbing.climb_paired {N : Model} {due : Option NodeId} {path path' : List NodeId} (fuel : Nat)
    (h : Climbing M pos due path) (hp : Paired M pos) (hf : ∀ n, due = some n → M.nnodes ≤ fuel + pos n)
    (hc : Machine.climb fuel M due path = .ok (N, path')) : ∃ pos', Climbing N pos' none path' ∧ Paired N pos' := by
  induction fuel using Nat.strong_induction_on generalizing M pos due path with
  | _ fuel ih =>
  cases due with
  | none =>
    rw [climb_none] at hc
    cases hc
    exact ⟨pos, h, hp⟩
  | some n =>
  obtain ⟨hn, -, -, -⟩ := h.at_due n rfl
  have hfuel := hf n rfl
  have hbelow := h.tree.below n hn
  obtain ⟨fuel, rfl⟩ : ∃ f, fuel = f + 1 := ⟨fuel - 1, by omega⟩
  by_cases hl : (node M n).parent = some (leader M n)
  · obtain ⟨hlu, hlater⟩ := h.tree.later n _ hn hl
    have hln : leader M n ≠ n := fun e => by rw [e] at hlater; exact lt_irrefl _ hlater
    have hsize := h.tree.below _ hlu
    obtain ⟨fuel, rfl⟩ : ∃ f, fuel = f + 1 := ⟨fuel - 1, by omega⟩
    obtain ⟨hwn, hwl, hc⟩ := climb_turn rfl hln hl (h.leader_turn hl rfl) hc
    refine ih fuel (by omega) (h.turn hl rfl hwn hwl) (hp.sameParents (turn_nnodes ..) (parent_turn M n _))
      (fun p hp => ?_) hc
    have := (h.tree.later _ p hlu hp).2
    rw [turn_nnodes]
    omega
  · obtain ⟨pos', h', hle, hsize, hlast⟩ := h.passBlock hl
    rw [climb_succ_some] at hc
    split at hc
    · cases hc
    rename_i hw
    rw [parent_bump] at hc
    refine ih fuel (by omega) (h'.bump hlast hw)
      ((hp.passBlock h hl h').sameParents (bump_nnodes ..) (parent_bump _ n)) (fun p hp => ?_) hc
    have := (h'.tree.later n p (h'.at_due n rfl).1 hp).2
    rw [bump_nnodes]
    omega

/-! ## The repair of the list -/

theorem sameTree_repair (M : Model) (n : NodeId) : SameTree M (repair M n) := by
  unfold repair
  split
  · exact .refl M
  · split
    · exact sameTree_swapList M n _
    · exact .refl M

theorem sameTree_foldl_repair : ∀ (path : List NodeId) (M : Model), SameTree M (path.foldl repair M)
  | [], M => .refl M
  | n :: path, M => (sameTree_repair M n).trans (sameTree_foldl_repair path (repair M n))

/-- In a list in order, no node follows its parent, so there is nothing to repair. -/
theorem TreeShape.repair_of_linked {n : NodeId} (ht : TreeShape M pos none) (hl : Linked M pos) (hn : M.uses n) :
    repair M n = M :=
  repair_eq_self fun p hp hprev => by
    have := ((hl.prev n p hn).1 hprev).2
    have := (ht.later n p hn hp).2
    omega

/-- In a flipped list, only the node of the flip follows its parent; the exchange undoes the flip. -/
theorem TreeShape.repair_of_flipped {n : NodeId} {path : List NodeId} (ht : TreeShape M pos none)
    (hf : Flipped M pos (n :: path)) (hn : M.uses n) :
    Linked (repair M n) pos ∨ repair M n = M ∧ Flipped M pos path := by
  obtain ⟨y, q, hy, hq, hy1, hq2, hyq, hmem, hl⟩ := hf
  by_cases hny : n = y
  · subst hny
    have hnq : n ≠ q := by rintro rfl; omega
    have hprev : (node M n).prev = some q := (hl.prev n q hn).2 ⟨hq, by simp [hy1, hq2]⟩
    have hlist := hl.swapList (ht.placed.swap hy hq) hy hq hnq
    rw [show (pos ∘ Equiv.swap n q) ∘ Equiv.swap n q = pos by funext k; simp] at hlist
    exact .inl (by simpa [repair, hyq, hprev] using hlist)
  · refine .inr ⟨repair_eq_self fun p hp hprev => ?_, y, q, hy, hq, hy1, hq2, hyq,
      (List.mem_cons.1 hmem).resolve_left (Ne.symm hny), hl⟩
    have hplaces := ((hl.prev n p hn).1 hprev).2
    have hlater := (ht.later n p hn hp).2
    simp only [Function.comp, Equiv.swap_apply_def] at hplaces
    grind

/-- Step 3 of `Increment` (rule R178) puts the list in the order the climb has left. -/
theorem TreeShape.linked_foldl_repair : ∀ (path : List NodeId) {M : Model}, TreeShape M pos none →
    (∀ k ∈ path, M.uses k) → Linked M pos ∨ Flipped M pos path → Linked (path.foldl repair M) pos
  | [], _, _, _, hl => hl.resolve_right fun ⟨_, _, _, _, _, _, _, hmem, _⟩ => by cases hmem
  | n :: path, M, ht, hu, hl => by
    obtain ⟨hn, hu⟩ := List.forall_mem_cons.1 hu
    have hs := sameTree_repair M n
    refine TreeShape.linked_foldl_repair path (ht.sameTree hs) (fun k hk => (uses_congr hs.nnodes k).2 (hu k hk)) ?_
    rcases hl with hl | hf
    · rw [ht.repair_of_linked hl hn]
      exact .inl hl
    · rcases ht.repair_of_flipped hf hn with hl | ⟨e, hf⟩
      · exact .inl hl
      · rw [e]
        exact .inr hf

/-! ## `Update` -/

/-- A model between two updates, its pairs of places siblings (rule R175 (a), (b), (e), (f)). -/
structure PairedRest (M : Model) (pos : NodeId → Nat) : Prop where
  tree : TreeShape M pos none
  sorted : Sorted M pos
  linked : Linked M pos
  paired : Paired M pos

theorem Climbing.increment_paired {N : Model} {due : Option NodeId} (h : Climbing M pos due []) (hp : Paired M pos)
    (hi : increment M due = .ok N) : ∃ pos', PairedRest N pos' := by
  obtain ⟨⟨C, path⟩, hc, hi⟩ := bind_eq_ok hi
  cases hi
  have hsize := h.tree.nnodes_le
  obtain ⟨pos', h', hp'⟩ := h.climb_paired Config.poolNodes hp (fun n _ => by omega) hc
  have hs := sameTree_foldl_repair path C
  exact ⟨pos', h'.tree.sameTree hs, h'.sorted.sameTree hs, h'.tree.linked_foldl_repair path h'.path_uses h'.list,
    hp'.sameParents hs.nnodes hs.parent⟩

/-- `Increment` may start at the leaf of a byte (rule R176). -/
theorem PairedRest.climbing_leaf {s : Byte} {n : NodeId} (h : PairedRest M pos) (hs : locOf M s = some n) :
    Climbing M pos (some n) [] := by
  obtain ⟨hn, hh, hchild⟩ := h.tree.leaf s n hs
  refine ⟨h.tree.due_leaf hs, h.sorted, .inl h.linked, by simp, ?_⟩
  rintro _ ⟨rfl⟩
  exact ⟨hn, hh, hchild _ h.tree.head_uses, .inl h.linked⟩

section
variable {N : Model} {s : Byte} {leaf inner : NodeId}

/-- `Increment` may start at the old parent of the not-yet-seen leaf (rule R177). -/
theorem Grafted.climbing (g : Grafted M N s leaf inner) (h : PairedRest M pos) (hs : locOf M s = none) :
    Climbing N (graftPos M pos leaf inner) (node M M.lhead).parent [] := by
  have hlinked := g.linked h.tree h.linked
  obtain ⟨hleaf, hinner, -⟩ := g.fresh
  refine ⟨g.treeShape h.tree hs, g.sorted h.tree h.sorted, .inl hlinked, by simp, fun n hn => ?_⟩
  obtain ⟨hnu, hpos⟩ := h.tree.later _ n h.tree.head_uses hn
  have hhead : M.lhead ≠ leaf := fun e => hleaf (e ▸ h.tree.head_uses)
  refine ⟨(g.uses n).2 (.inl hnu), ?_, ?_, .inl hlinked⟩
  · rw [g.lhead]
    rintro rfl
    omega
  · rw [g.lhead, g.parent, if_neg hhead, if_pos rfl]
    rintro ⟨rfl⟩
    exact hinner hnu

/-- The new leaf is paired with the not-yet-seen leaf, the inner node with the sibling of the latter before (rule
R177). -/
theorem Grafted.paired (g : Grafted M N s leaf inner) (h : TreeShape M pos none) (hp : Paired M pos) :
    Paired N (graftPos M pos leaf inner) := by
  obtain ⟨hleaf, hinner, hne⟩ := g.fresh
  have hh := h.head_uses
  have hh0 := h.head_pos
  intro k m hk hm
  have hkm := hp k m
  have hkh := hp k M.lhead
  have hmh := hp m M.lhead
  have hk1 := h.pos_pos (k := k)
  have hm1 := h.pos_pos (k := m)
  rw [g.uses] at hk hm
  rw [g.parent, g.parent]
  unfold graftPos
  grind

end

/-- `Update` (rule R176) leaves the pairs siblings. -/
theorem PairedRest.update {N : Model} {s : Byte} (h : PairedRest M pos) (hu : Machine.update M s = .ok N) :
    ∃ pos', PairedRest N pos' := by
  rcases update_cases M s with ⟨hs, e⟩ | ⟨n, hs, e⟩
  · have g := grafted (h.tree.room hs) s
    exact (g.climbing h hs).increment_paired (g.paired h.tree h.paired) (e.symm.trans hu)
  · exact (h.climbing_leaf hs).increment_paired h.paired (e.symm.trans hu)

/-- Every reached model meets the sibling property. -/
theorem Model.Reached.pairedRest (h : M.Reached) : ∃ pos, PairedRest M pos := by
  refine h.induct (P := fun M => ∃ pos, PairedRest M pos) ?_ fun _ ⟨_, hM⟩ hu => hM.update hu
  obtain ⟨pos, ht, hs, hl⟩ := rest_emptyModel
  refine ⟨pos, ht, hs, hl, fun k m hk hm _ => ?_⟩
  rw [show k = m from Fin.ext ((Nat.lt_one_iff.1 hk).trans (Nat.lt_one_iff.1 hm).symm)]

end

end Sys2Proof.Machine
end

section
/-! Every reached model meets the invariants (a) to (g) of rule R175. -/

namespace Sys2Proof.Machine

section
variable {M : Model} {pos : NodeId → Nat}

/-- A node earlier than another is not the root, and has a parent. -/
theorem TreeShape.parent_isSome (h : TreeShape M pos none) {n : NodeId} (hn : M.uses n) (hlt : pos n + 1 < M.nnodes) :
    (node M n).parent.isSome := by
  refine Option.isSome_iff_ne_none.2 fun hp => ?_
  have := h.root_last
  rw [(h.rooted n hn).1 hp] at hlt
  omega

/-- The list from an even place on, taken in pairs, pairs siblings, the root alone last (rule R175 (f)). -/
theorem PairedRest.pairsOk (h : PairedRest M pos) : ∀ (pairs i : Nat) (L : List NodeId),
    2 * i + (2 * pairs + 1) = M.nnodes → InPlaces M pos (2 * i) (2 * pairs + 1) L → pairsOk M L = true
  | 0, i, L, _, hL => by
    obtain ⟨n, rfl⟩ := List.length_eq_one_iff.1 (by simpa using congrArg List.length hL.places)
    rfl
  | pairs + 1, i, L, hsize, hL => by
    obtain ⟨huses, hplaces⟩ := hL
    rw [show 2 * (pairs + 1) + 1 = (2 * pairs + 1) + 1 + 1 by omega, List.range'_succ, List.range'_succ] at hplaces
    match L with
    | [] => simp at hplaces
    | [_] => simp at hplaces
    | n :: m :: rest =>
      simp only [List.map_cons, List.cons.injEq] at hplaces
      obtain ⟨hn2, hm2, hplaces⟩ := hplaces
      obtain ⟨hn, hm, huses⟩ : M.uses n ∧ M.uses m ∧ ∀ k ∈ rest, M.uses k := by simpa using huses
      have hrest := h.pairsOk pairs (i + 1) rest (by omega) ⟨huses, hplaces⟩
      have hsibling := h.paired n m hn hm (by omega)
      have hparent := h.tree.parent_isSome hn (by omega)
      simp [Machine.pairsOk, hrest, ← hsibling, hparent]

end

/-- Settles O18: the list is in the order of the places (`InPlaces`), which are those of every reached model
(`PairedRest`); counting the nodes leaves no node in use but parents and leaves (`Branched.kinds`). -/
theorem reachedModelsMeetTheSiblingInvariants : Obligations.ReachedModelsMeetTheSiblingInvariants := by
  intro M hM
  obtain ⟨pos, h⟩ := hM.pairedRest
  obtain ⟨ht, hs, hl, -⟩ := id h
  have hb := hM.branched
  have hbare := hM.leavesBare
  have hL := ht.listNodes hl
  obtain ⟨hnodup, hmem⟩ := hb.treeNodes hbare ht
  have hcount : M.nnodes = 1 + 2 * introduced M := by rw [introduced_eq_seen, ht.count]
  refine ⟨⟨?list, ?tree, ?links⟩, hL.sorted hs, ⟨hb.nyt, ?weight, ?left, ?right, hL.getLast? ht⟩,
    ⟨?nodes, (ht.rooted _ ht.root_uses).2 rfl, hb.locNyt, ?nyt, ?loc⟩, ?later, ?pairs, hcount, ?size⟩
  case list =>
    exact (List.perm_ext_iff_of_nodup hL.nodup (nodup_usedNodes M)).2 fun k => (hL.mem_iff ht).trans mem_usedNodes.symm
  case tree =>
    exact (List.perm_ext_iff_of_nodup hnodup (nodup_usedNodes M)).2 fun k => (hmem k).trans mem_usedNodes.symm
  case links => exact fun n hn m hm => hl.next_iff_prev (mem_usedNodes.1 hn) (mem_usedNodes.1 hm)
  case weight => exact BitVec.eq_of_toNat_eq ht.head_wt
  case left => exact (hbare M.lhead (by simp [hb.nyt])).1
  case right => exact (hbare M.lhead (by simp [hb.nyt])).2
  case nodes => exact fun n hn => hb.nodeOk hbare ht (mem_usedNodes.1 hn)
  case nyt => exact fun n hn => hb.eq_lhead_of_nyt ht (mem_usedNodes.1 hn)
  case loc =>
    intro s n
    rw [mem_usedNodes]
    exact hb.locOf_iff ht s n
  case later =>
    intro n hn p hp hnp
    have hnu := mem_usedNodes.1 hn
    have hpu := mem_usedNodes.1 hp
    obtain ⟨-, hlt⟩ := ht.later n p hnu hnp
    exact ⟨by rwa [hL.idxOf ht hnu, hL.idxOf ht hpu], hs n p hnu hpu hlt.le⟩
  case pairs =>
    have hsize := ht.count
    exact h.pairsOk (seen M) 0 _ (by omega) (by rwa [show 2 * seen M + 1 = M.nnodes by omega])
  case size =>
    have := seen_le M
    have := ht.count
    omega

end Sys2Proof.Machine
end

section
/-! SUPPORT. The compressed form of a byte sequence (rules R190 to R192): the bits its bytes hold, and the decoder's
stream over them. -/

namespace Sys2Proof.Machine

/-! ## Packed bits -/

theorem testBit_foldr_bits : ∀ (bits : List Bool) (i : Nat),
    (bits.foldr (fun (b : Bool) (n : Nat) => 2 * n + b.toNat) 0).testBit i = bits.getD i false
  | [], i => by simp
  | b :: bs, 0 => by cases b <;> simp [Nat.testBit_zero, Nat.add_mod]
  | b :: bs, i + 1 => by
    have ih := testBit_foldr_bits bs i
    rw [List.foldr_cons, Nat.testBit_succ, List.getD_cons_succ, ← ih]
    congr 1
    cases b
    · simp
    · simp; omega

/-- Rule R56: bit `i` of a byte is entry `i` of its bits. -/
theorem getLsbD_byteOfBits (bits : List Bool) {i : Nat} (hi : i < 8) :
    (byteOfBits bits).getLsbD i = bits.getD i false := by
  rw [byteOfBits, BitVec.getLsbD_ofNat, testBit_foldr_bits]
  simp [hi]

@[simp] theorem length_packBits (bits : List Bool) : (packBits bits).length = ceil8 bits.length := by
  simp [packBits]

/-- Rules R56, R192: bit `j` of the packed bits is in byte `j / 8`. -/
theorem getLsbD_packBits (bits : List Bool) {j : Nat} (hj : j < bits.length) :
    ((packBits bits).getD (j / 8) 0).getLsbD (j % 8) = bits.getD j false := by
  have hbyte : j / 8 < ceil8 bits.length := by unfold ceil8; omega
  have hmod : j % 8 < 8 := Nat.mod_lt _ (by decide)
  have hsum : 8 * (j / 8) + j % 8 = j := Nat.div_add_mod j 8
  rw [List.getD_eq_getElem _ _ (by simpa using hbyte)]
  simp only [packBits, List.getElem_map, List.getElem_range]
  rw [getLsbD_byteOfBits _ hmod]
  simp [List.getD_eq_getElem?_getD, hmod, hsum]

/-! ## The decoder's stream -/

section
variable {σ : Type} {get : σ → Bool × σ}

/-- Given the encoder's bits, the decoder gives the encoder's bytes (rules R183, R184). -/
theorem decodeStream_of_gives : ∀ (bytes : List Byte) {M : Model} {bits : List Bool} {t t' : σ}, codableAlong M bytes →
    encodeStream M bytes = .ok bits → gives get t bits t' → decodeStream get bytes.length M t = .ok (bytes, t')
  | [], _, _, _, _, _, he, hg => by
    cases he
    cases hg
    rfl
  | s :: ss, M, _, t, t', hM, he, hg => by
    obtain ⟨N, rest, hN, hrest, rfl⟩ := encodeStream_cons he
    obtain ⟨u, hu, hg⟩ := exists_of_gives_append hg
    simp [decodeStream, decodeSymbol_of_gives hM.1 hu hN, decodeStream_of_gives ss (hM.2 N hN) hrest hg, bind,
      Except.bind]

end

/-- Below `MAXSIZE` the stream of `DECOMPRESS` gives the bits of the buffer (rule R191). -/
theorem streamBit_below {C : Context} {start draw b : Nat} (h : start + b / 8 < C.maxsize.toNat) :
    streamBit C start draw b = (bitOf C.buf (8 * start + b), b + 1) := by
  rw [streamBit, streamByte, if_pos h, bitOf, show (8 * start + b) / 8 = start + b / 8 by omega,
    show (8 * start + b) % 8 = b % 8 by omega]

/-- The stream of `DECOMPRESS` gives the bits the buffer holds (rule R191). -/
theorem gives_streamBit {C : Context} {start draw : Nat} : ∀ (bits : List Bool) {b : Nat},
    holdsBits C (8 * start + b) bits → gives (streamBit C start draw) b bits (b + bits.length)
  | [], _, _ => rfl
  | x :: bits, b, h => by
    obtain ⟨hone, hrest⟩ := holdsBits_append (xs := [x]) h
    obtain ⟨hfit, hbit⟩ := hone
    have hx := hbit 0 Nat.one_pos
    simp only [List.length_singleton, Nat.add_zero, List.getD_cons_zero] at hfit hx
    rw [gives, streamBit_below (by omega), List.length_cons, show b + (bits.length + 1) = b + 1 + bits.length by omega]
    exact ⟨hx, gives_streamBit bits hrest⟩

/-! ## The header -/

/-- Rule R192: the two header bytes hold the count, high byte first. -/
theorem clampCount_sizeHeader {size room : Nat} (hs : size ≤ Config.compressLimit) (hr : size ≤ room) :
    clampCount (sizeHeader size) room = size := by
  unfold Config.compressLimit at hs
  simp only [clampCount, sizeHeader, List.foldl_cons, List.foldl_nil, BitVec.toNat_ofNat]
  omega

end Sys2Proof.Machine
end

section
/-! `COMPRESS`, then `DECOMPRESS` (rules R190 to R193). -/

namespace Sys2Proof.Machine

/-- `count` bytes of a context's buffer from `start` on. -/
def storedBytes (C : Context) (start count : Nat) : List Byte :=
  (List.range count).map fun j => bufGet C.buf (start + j)

/-- A context after `COMPRESS` or `DECOMPRESS` replaced the bytes from `start` on (rules R190, R191). -/
def replaced (C : Context) (start : Word) (out : List Byte) : Context :=
  { C with buf := bufSetMany C.buf start.toNat out, cursize := start + BitVec.ofNat 32 out.length }

section
variable {C : Context} {start : Word} {out : List Byte}

@[simp] theorem length_storedBytes (C : Context) (i count : Nat) : (storedBytes C i count).length = count := by
  simp [storedBytes]

theorem getD_storedBytes (C : Context) {i count j : Nat} (hj : j < count) :
    (storedBytes C i count).getD j 0 = bufGet C.buf (i + j) := by
  simp [storedBytes, List.getD_eq_getElem?_getD, hj]

theorem bufGet_replaced (hwf : Memory.wf C.buf = true) (k : Nat) :
    bufGet (replaced C start out).buf k =
      if start.toNat ≤ k ∧ k < start.toNat + out.length then out.getD (k - start.toNat) 0 else bufGet C.buf k :=
  bufGet_bufSetMany out hwf start.toNat k

theorem toNat_cursize_replaced (hfit : start.toNat + out.length ≤ C.maxsize.toNat) :
    (replaced C start out).cursize.toNat = start.toNat + out.length := by
  have hmax := C.maxsize.isLt
  simp only [replaced, BitVec.toNat_add, BitVec.toNat_ofNat]
  omega

/-- Reading back the bytes just stored. -/
theorem storedBytes_replaced (hwf : Memory.wf C.buf = true) {count : Nat} (hc : count ≤ out.length) :
    storedBytes (replaced C start out) start.toNat count = out.take count := by
  refine List.ext_getElem (by simpa using hc) fun j hj hj' => ?_
  have hjc : j < count := by simpa using hj
  have hjo : j < out.length := by omega
  simp [storedBytes, bufGet_replaced hwf, hjo]

/-- Rule R192: from bit 16 on, the compressed form holds the codes. -/
theorem holdsBits_compressed (hwf : Memory.wf C.buf = true) {size : Nat} {bits : List Bool}
    (hout : out = sizeHeader size ++ packBits bits) (hfit : start.toNat + out.length ≤ C.maxsize.toNat) :
    holdsBits (replaced C start out) (8 * start.toNat + 16) bits := by
  have hlen : out.length = 2 + ceil8 bits.length := by simp [hout, sizeHeader]; omega
  unfold ceil8 at hlen
  have hmax : (replaced C start out).maxsize = C.maxsize := rfl
  refine ⟨by rw [hmax]; omega, fun j hj => ?_⟩
  have hbyte : (8 * start.toNat + 16 + j) / 8 = start.toNat + (2 + j / 8) := by omega
  have hbit : (8 * start.toNat + 16 + j) % 8 = j % 8 := by omega
  have hget : out.getD (2 + j / 8) 0 = (packBits bits).getD (j / 8) 0 := by
    rw [hout, List.getD_append_right _ _ _ _ (by simp [sizeHeader])]
    simp [sizeHeader]
  rw [bitOf, hbyte, hbit, bufGet_replaced hwf, if_pos (by omega), Nat.add_sub_cancel_left, hget,
    getLsbD_packBits bits hj]

end

section
variable {s t : State} {c : CtxNum}

/-- Rules R190, R191: nothing from the offset on. -/
theorem exec_compress_of_empty (h : s.accepts [c]) (ha : (ctxOf s c).cursize ≤ s.a) :
    exec (.compress c) s = .next (respond .ok 0 s) := by
  simp only [exec, execCompress, prologue_accepts h, if_pos ha]

theorem exec_decompress_of_empty (h : s.accepts [c]) (ha : (ctxOf s c).cursize ≤ s.a) :
    exec (.decompress c) s = .next (respond .ok 0 s) := by
  simp only [exec, execDecompress, prologue_accepts h, if_pos ha]

/-- Rules R190, R192: the bytes from the offset to `CURSIZE` are read as stored, and too many are refused. -/
theorem exec_compress_of_bytes (h : s.accepts [c]) (ha : s.a < (ctxOf s c).cursize)
    (hsize : (ctxOf s c).cursize ≤ (ctxOf s c).maxsize) {size : Nat}
    (hs : size = (ctxOf s c).cursize.toNat - s.a.toNat) :
    exec (.compress c) s = .next
      (if size ≤ Config.compressLimit then
        conclude s (noResult (do
          let out ← compressedForm s.params (storedBytes (ctxOf s c) s.a.toNat size)
          storeCompressed c s.a out s))
      else respond .invalidArg 0 s) := by
  have hsub : ((ctxOf s c).cursize - s.a).toNat = size := (BitVec.toNat_sub_of_le (BitVec.le_of_lt ha)).trans hs.symm
  have hread := memReadMany_below c size s.a.toNat s (by bv_omega)
  simp only [exec, execCompress, prologue_accepts h, if_neg (BitVec.not_le.2 ha), hsub]
  by_cases hlimit : size ≤ Config.compressLimit
  · simp only [hlimit, decide_true, guardArg_true, if_true, hread]
    rfl
  · simp only [hlimit, decide_false, guardArg_false, if_false]

/-- A body without a result that does not fault leaves its state. -/
theorem noResult_eq_ok {e : Except FaultCause State} {v : Word} (h : noResult e = .ok (v, t)) : v = 0 ∧ e = .ok t := by
  cases e with
  | error f => cases h
  | ok u => cases h; exact ⟨rfl, rfl⟩

/-- A `COMPRESS` of `size` bytes that answers `OK` has found at most 65535 bytes, codes for them and room for the result
(rules R190, R192). -/
theorem compress_ok {size : Nat} (h : s.accepts [c]) (ha : s.a < (ctxOf s c).cursize)
    (hsize : (ctxOf s c).cursize ≤ (ctxOf s c).maxsize) (hs : size = (ctxOf s c).cursize.toNat - s.a.toNat)
    (ht : exec (.compress c) s = .next t) (hok : t.rc = .ok) :
    size ≤ Config.compressLimit ∧ ∃ M bits out, seeded s.params = .ok M ∧
      encodeStream M (storedBytes (ctxOf s c) s.a.toNat size) = .ok bits ∧ out = sizeHeader size ++ packBits bits ∧
      s.a.toNat + out.length ≤ (ctxOf s c).maxsize.toNat ∧
      t = respond .ok 0 (setCtx c (replaced (ctxOf s c) s.a out) s) := by
  rw [exec_compress_of_bytes h ha hsize hs] at ht
  cases ht
  split at hok
  case isFalse => cases hok
  case isTrue hlimit =>
    rw [if_pos hlimit]
    refine ⟨hlimit, ?_⟩
    obtain ⟨v, u, hbody⟩ := conclude_of_rc_ok hok
    rw [hbody]
    obtain ⟨rfl, hu⟩ := noResult_eq_ok hbody
    obtain ⟨out, hout, hstore⟩ := bind_eq_ok hu
    obtain ⟨M, hM, hout⟩ := bind_eq_ok hout
    obtain ⟨bits, hbits, hout⟩ := bind_eq_ok hout
    cases hout
    rw [length_storedBytes] at hstore
    unfold storeCompressed at hstore
    split at hstore
    · cases hstore
    · rename_i hfit
      cases hstore
      exact ⟨M, bits, _, hM, hbits, rfl, Nat.not_lt.1 hfit, rfl⟩

/-- Rule R191 on a buffer that holds the compressed form of `src`. -/
theorem exec_decompress_of_holds {C : Context} {src : List Byte} {M : Model} {bits : List Bool} (h : s.accepts [c])
    (hC : ctxOf s c = C) (ha : s.a < C.cursize) (hshort : src.length ≤ Config.compressLimit)
    (hM : seeded s.params = .ok M) (hbits : encodeStream M src = .ok bits)
    (hheader : s.a.toNat + 2 ≤ C.maxsize.toNat) (hroom : s.a.toNat + src.length ≤ C.maxsize.toNat)
    (hcount : storedBytes C s.a.toNat 2 = sizeHeader src.length) (hheld : holdsBits C (8 * s.a.toNat + 16) bits) :
    ∃ n, exec (.decompress c) s = .next (respond .ok 0 (setCtx c (replaced C s.a src) (drawn n s))) := by
  subst hC
  have hread : memReadMany c s.a.toNat 2 s = (sizeHeader src.length, s) := by
    rw [memReadMany_below c 2 s.a.toNat s hheader, ← hcount]
    rfl
  have hdecode := decodeStream_of_gives src ((reached_seeded hM).codableAlong src) hbits
    (gives_streamBit (draw := s.freeCount) bits hheld)
  have hclamp := clampCount_sizeHeader (room := (ctxOf s c).maxsize.toNat - s.a.toNat) hshort (by omega)
  refine ⟨ceil8 (16 + bits.length), ?_⟩
  simp only [exec, execDecompress, prologue_accepts h, if_neg (BitVec.not_le.2 ha), hread, hclamp, hM, hdecode, bind,
    Except.bind, noResult_ok, conclude_ok]
  rfl

/-- Rule R193, where there is something to compress: `DECOMPRESS` puts the source over what `COMPRESS` put there. -/
theorem decompress_after_compress {u : State} {src : List Byte} (h : s.accepts [c]) (ha : s.a < (ctxOf s c).cursize)
    (hsize : (ctxOf s c).cursize ≤ (ctxOf s c).maxsize) (hwf : Memory.wf (ctxOf s c).buf = true)
    (hsrc : src = storedBytes (ctxOf s c) s.a.toNat ((ctxOf s c).cursize.toNat - s.a.toNat))
    (ht : exec (.compress c) s = .next t) (hok : t.rc = .ok) (hu : exec (.decompress c) t = .next u) :
    answers 0 u ∧ ∃ out, ctxOf u c = replaced (replaced (ctxOf s c) s.a out) s.a src := by
  have hlen : src.length = (ctxOf s c).cursize.toNat - s.a.toNat := by rw [hsrc, length_storedBytes]
  obtain ⟨hshort, M, bits, out, hM, hbits, hout, hfit, rfl⟩ := compress_ok h ha hsize hlen ht hok
  rw [hlen, ← hsrc] at hbits
  have hlen2 : 2 ≤ out.length := by simp [hout, sizeHeader]
  have hcursize := toNat_cursize_replaced hfit
  have hstart : s.a < (replaced (ctxOf s c) s.a out).cursize := by
    rw [BitVec.lt_def, hcursize]
    omega
  have hroom : s.a.toNat + src.length ≤ (ctxOf s c).maxsize.toNat := by bv_omega
  have hheader : storedBytes (replaced (ctxOf s c) s.a out) s.a.toNat 2 = sizeHeader src.length := by
    rw [storedBytes_replaced hwf hlen2, hout]
    rfl
  obtain ⟨n, hexec⟩ := exec_decompress_of_holds (C := replaced (ctxOf s c) s.a out)
    (s := respond .ok 0 (setCtx c (replaced (ctxOf s c) s.a out) s)) h (ctxOf_setCtx_self ..) hstart hshort hM hbits
    (le_trans (Nat.add_le_add_left hlen2 _) hfit) hroom hheader (holdsBits_compressed hwf hout hfit)
  rw [hexec] at hu
  cases hu
  exact ⟨⟨rfl, rfl⟩, out, ctxOf_setCtx_self ..⟩

end

/-- Settles O47: where there is nothing from the offset on, neither command does anything; else `DECOMPRESS` reads back
the count and the codes that `COMPRESS` left, from the same seeded model, whatever `ENC` and `DEC` hold. -/
theorem decompressUndoesCompress : Obligations.DecompressUndoesCompress := by
  intro s t u c h hsize hwf ht hok hu
  by_cases ha : (ctxOf s c).cursize ≤ s.a
  · rw [exec_compress_of_empty h ha] at ht
    cases ht
    rw [exec_decompress_of_empty (s := respond .ok 0 s) h ha] at hu
    cases hu
    exact ⟨⟨rfl, rfl⟩, rfl, fun _ _ => rfl⟩
  · have ha := BitVec.not_le.1 ha
    obtain ⟨src, hsrc⟩ :
        ∃ src, src = storedBytes (ctxOf s c) s.a.toNat ((ctxOf s c).cursize.toNat - s.a.toNat) := ⟨_, rfl⟩
    obtain ⟨hanswer, out, hctx⟩ := decompress_after_compress h ha hsize hwf hsrc ht hok hu
    have hlen : src.length = (ctxOf s c).cursize.toNat - s.a.toNat := by rw [hsrc, length_storedBytes]
    have hend : s.a.toNat + src.length = (ctxOf s c).cursize.toNat := by bv_omega
    have hfit : s.a.toNat + src.length ≤ (ctxOf s c).maxsize.toNat := hend ▸ hsize
    rw [hctx]
    refine ⟨hanswer, BitVec.eq_of_toNat_eq ((toNat_cursize_replaced hfit).trans hend), fun k hk => ?_⟩
    rw [bufGet_replaced (wf_bufSetMany _ _ hwf), bufGet_replaced hwf, hend]
    by_cases hak : s.a.toNat ≤ k
    · rw [if_pos ⟨hak, hk⟩, hsrc, getD_storedBytes _ (by omega), Nat.add_sub_cancel' hak]
    · rw [if_neg (by omega), if_neg (by omega)]

end Sys2Proof.Machine
end

section
/-! The delta fields (rules R210 to R219): what a delta write puts into a fresh message, and what a delta read of it
gives back. -/

namespace Sys2Proof.Machine

/-! ## Keys -/

/-- The reader's masked key takes the writer's key out of the low bits again (rules R215, R216). -/
theorem zext_xor_key (n : Nat) (v key : Word) : zext n (v ^^^ key) ^^^ (key &&& mask n) = zext n v := by
  apply BitVec.eq_of_getLsbD_eq
  intro i hi
  simp only [zext, BitVec.getLsbD_xor, BitVec.getLsbD_and]
  cases (mask n).getLsbD i <;> simp

/-- A key that leaves bit `n − 1` alone leaves the sign alone (rule R216). -/
theorem sext_xor_key {n : Nat} {key : Word} (hn : legalWidth n) (hkey : key.getLsbD (n - 1) = false) (v : Word) :
    sext n (zext n (v ^^^ key)) ^^^ (key &&& mask n) = sext n (zext n v) := by
  have hlow := zext_xor_key n v key
  have hsign : (zext n (v ^^^ key)).getLsbD (n - 1) = (zext n v).getLsbD (n - 1) := by
    simp only [getLsbD_zext n _ (show n - 1 < 32 by omega), BitVec.getLsbD_xor, hkey, Bool.xor_false]
  simp only [sext, zext_zext, hsign]
  split
  · have hhigh : ∀ x : Word, (x ||| ~~~mask n) ^^^ (key &&& mask n) = (x ^^^ (key &&& mask n)) ||| ~~~mask n := by
      intro x
      apply BitVec.eq_of_getLsbD_eq
      intro i hi
      simp only [BitVec.getLsbD_xor, BitVec.getLsbD_or, BitVec.getLsbD_and, BitVec.getLsbD_not, hi]
      cases (mask n).getLsbD i <;> simp
    rw [hhigh, hlow]
  · exact hlow

/-- The word a delta read makes of the word written (rule R219 (b), (c)). -/
theorem extend_xor_key {w : Int} {v key : Word} (hn : legalWidth (magnitude w))
    (h : (0 < w ∧ zext (magnitude w) v = v) ∨
      (w < 0 ∧ sext (magnitude w) (zext (magnitude w) v) = v ∧ key.getLsbD (magnitude w - 1) = false)) :
    extend w (zext (magnitude w) (v ^^^ key)) ^^^ (key &&& mask (magnitude w)) = v := by
  rcases h with ⟨hw, hv⟩ | ⟨hw, hv, hkey⟩
  · rw [extend, if_neg (by omega), zext_xor_key, hv]
  · rw [extend, if_pos hw, sext_xor_key hn hkey, hv]

/-! ## The commands -/

section
variable {s : State} {c : CtxNum} {i : Instr} {key : Word}

theorem deltaOk_of_legalWidth {oob : Bool} {w : Int} (ho : oob = false) (hn : legalWidth (magnitude w)) :
    deltaOk oob w = true := by
  simpa [deltaOk, ho] using hn

/-- Rules R211, R213, R215, R217. -/
theorem exec_deltaWrite {n : Nat} (hi : deltaWriteForm s i = some (c, n, key)) (h : s.accepts [c])
    (ho : (ctxOf s c).oob = false) (hn : legalWidth n) : exec i s = .next (deltaWriteField c n key s) := by
  unfold deltaWriteForm at hi
  split at hi <;> cases hi
  · simp only [exec, execWriteDelta, prologue_accepts h, deltaOk_of_legalWidth ho hn, guardArg_true]
  · simp only [exec, execWriteDeltaFloat, prologue_accepts h, ho, Bool.not_false, guardArg_true]
  · simp only [exec, execWriteDeltaKey, prologue_accepts h, deltaOk_of_legalWidth ho hn, guardArg_true]
  · simp only [exec, execWriteDeltaKeyFloat, prologue_accepts h, ho, Bool.not_false, guardArg_true]

/-- Rules R212, R214, R216, R218. -/
theorem exec_deltaRead {w : Int} (hi : deltaReadForm s i = some (c, w, key)) (h : s.accepts [c])
    (ho : (ctxOf s c).oob = false) (hn : legalWidth (magnitude w)) : exec i s = .next (deltaReadField c w key s) := by
  unfold deltaReadForm at hi
  split at hi <;> cases hi
  · simp only [exec, execReadDelta, prologue_accepts h, deltaOk_of_legalWidth ho hn, guardArg_true]
  · simp only [exec, execReadDeltaFloat, prologue_accepts h, ho, Bool.not_false, guardArg_true]
  · simp only [exec, execReadDeltaKey, prologue_accepts h, deltaOk_of_legalWidth ho hn, guardArg_true]
  · simp only [exec, execReadDeltaKeyFloat, prologue_accepts h, ho, Bool.not_false, guardArg_true]

/-- The form of a delta read looks at `K` alone. -/
theorem deltaReadForm_congr {t : State} (h : t.k = s.k) (i : Instr) : deltaReadForm t i = deltaReadForm s i := by
  cases i <;> simp only [deltaReadForm, h]

/-- A command without a result that leaves the block unfaulted did what its body does. -/
theorem noResult_of_not_fault {t : State} {e : Except FaultCause State} (h : conclude s (noResult e) = t)
    (hf : t.fault = false) : ∃ u, e = .ok u ∧ t = respond .ok 0 u := by
  subst h
  cases e with
  | error f => simp at hf
  | ok u => exact ⟨u, rfl, rfl⟩

end

/-! ## The bits of a delta field and its value -/

/-- The bytes a delta write codes: none for equal words, else those of the field (rule R210). -/
def deltaBytes (old new : Word) (n : Nat) (key : Word) : List Byte :=
  if old = new then [] else wholeBytes (zext n (new ^^^ key)) n

/-- The bits a delta write puts: the flag, and for different words the bits of the field (rule R210). -/
def deltaBits (M : Model) (old new : Word) (n : Nat) (key : Word) : Except FaultCause (List Bool) :=
  if old = new then .ok [false]
  else do
    let bits ← fieldBits M (zext n (new ^^^ key)) n
    .ok (true :: bits)

theorem deltaBytes_of_eq {old new key : Word} {n : Nat} (h : old = new) : deltaBytes old new n key = [] := if_pos h

theorem deltaBytes_of_ne {old new key : Word} {n : Nat} (h : old ≠ new) :
    deltaBytes old new n key = wholeBytes (zext n (new ^^^ key)) n := if_neg h

theorem deltaBits_of_eq {M : Model} {old new key : Word} {n : Nat} (h : old = new) :
    deltaBits M old new n key = .ok [false] := if_pos h

theorem deltaBits_of_ne {M : Model} {old new key : Word} {n : Nat} {bits : List Bool} (h : old ≠ new)
    (hf : fieldBits M (zext n (new ^^^ key)) n = .ok bits) : deltaBits M old new n key = .ok (true :: bits) := by
  simp only [deltaBits, if_neg h, hf, bind, Except.bind]

/-- What a delta read gives: the old word if it is the new one, else the value held, extended before the masked key is
taken out (rules R210, R216). -/
def deltaResult (old new : Word) (w : Int) (key : Word) : Word :=
  if old = new then old else extend w (zext (magnitude w) (new ^^^ key)) ^^^ (key &&& mask (magnitude w))

/-- The delta read gives the new word, if it is the old one or the width can carry it and the key leaves its sign alone
(rule R219 (a), (b), (c)). -/
theorem deltaResult_eq {w : Int} {old new key : Word} (hn : legalWidth (magnitude w))
    (h : new = old ∨ (0 < w ∧ zext (magnitude w) new = new) ∨
      (w < 0 ∧ sext (magnitude w) (zext (magnitude w) new) = new ∧ key.getLsbD (magnitude w - 1) = false)) :
    deltaResult old new w key = new := by
  unfold deltaResult
  split
  · assumption
  · next hne => exact extend_xor_key hn (h.resolve_left (Ne.symm hne))

/-! ## Writing -/

/-- `PutBit` does not look at `CURSIZE` (rule R172). -/
theorem putBit_cursize (C : Context) (x : Word) (b : Bool) :
    putBit { C with cursize := x } b = (putBit C b).map fun D => { D with cursize := x } := by
  simp only [putBit]
  split <;> rfl

theorem putBits_cursize (x : Word) : ∀ (bits : List Bool) {C D : Context},
    putBits { C with cursize := x } bits = .ok D → ∃ E, putBits C bits = .ok E ∧ D = { E with cursize := x }
  | [], C, _, h => by cases h; exact ⟨C, rfl, rfl⟩
  | b :: bs, C, D, h => by
    obtain ⟨F, hF, h⟩ := bind_eq_ok h
    rw [putBit_cursize] at hF
    cases hb : putBit C b with
    | error e => rw [hb] at hF; cases hF
    | ok G =>
      rw [hb] at hF
      cases hF
      obtain ⟨E, hE, hD⟩ := putBits_cursize x bs h
      exact ⟨E, by simp only [putBits, hb, bind, Except.bind, hE], hD⟩

/-- Bits put after others, `CURSIZE` set between, are put in one run with them. -/
theorem putBits_append_cursize {xs ys : List Bool} {C D E : Context} {x : Word} (hx : putBits C xs = .ok D)
    (hy : putBits { D with cursize := x } ys = .ok E) :
    ∃ F, putBits C (xs ++ ys) = .ok F ∧ E = { F with cursize := x } := by
  obtain ⟨F, hF, hE⟩ := putBits_cursize x ys hy
  exact ⟨F, by simp only [putBits_append, hx, bind, Except.bind, hF], hE⟩

section
variable {c : CtxNum} {s t : State} {old new key : Word} {n : Nat} {b : Bool}

/-- `WriteBitsCore` in compressed mode with headroom and a seeded pair, if it does not fault (rule R121). -/
theorem writeBitsCore_compressed {v : Word} (ho : (ctxOf s c).oob = false) (hh : headroomShort (ctxOf s c) = false)
    (hr : s.modelReady = true) (h : writeBitsCore c v n s = .ok t) :
    ∃ N D, t = setCtx c D { s with enc := N } ∧ writeCoded s.enc (ctxOf s c) (zext n v) n = .ok (N, D) := by
  obtain ⟨N, D, ht, ⟨hraw, -⟩ | ⟨-, hD⟩⟩ := writeBitsCore_of_headroom hh hr h
  · exact absurd (ho.symm.trans hraw) Bool.false_ne_true
  · exact ⟨N, D, ht, hD⟩

/-- A flag is one residual bit, so writing it codes nothing (rules R57, R210). -/
theorem writeBitsCore_flag (ho : (ctxOf s c).oob = false) (hh : headroomShort (ctxOf s c) = false)
    (hr : s.modelReady = true) (h : writeBitsCore c ((BitVec.ofBool b).setWidth 32) 1 s = .ok t) :
    ∃ D, putBits (ctxOf s c) [b] = .ok D ∧
      t = setCtx c { D with cursize := BitVec.ofNat 32 (ceil8 D.bit.toNat) } s := by
  obtain ⟨N, D, rfl, hD⟩ := writeBitsCore_compressed ho hh hr h
  obtain ⟨bits, E, hf, hput, hup, rfl⟩ := writeCoded_ok hD
  cases hup
  have hbits : fieldBits s.enc (zext 1 ((BitVec.ofBool b).setWidth 32)) 1 = .ok [b] := by cases b <;> rfl
  cases hbits.symm.trans hf
  exact ⟨E, hput, rfl⟩

/-- `PutBit`s leave the mode alone (rule R172). -/
theorem putBits_oob {C D : Context} {bits : List Bool} (h : putBits C bits = .ok D) : D.oob = C.oob := by
  obtain ⟨m, rfl, -, -⟩ := putBits_ok _ h
  rfl

/-- With the flag in it, a fresh message of at least 5 bytes still has headroom (rules R15, R211). -/
theorem headroomShort_after_flag {C D : Context} (hbit : C.bit = 0) (hmin : 5 ≤ C.maxsize.toNat)
    (h : putBits C [b] = .ok D) :
    headroomShort { D with cursize := BitVec.ofNat 32 (ceil8 D.bit.toNat) } = false := by
  obtain ⟨m, rfl, -, -⟩ := putBits_ok _ h
  have hone : BitVec.ofNat 32 (ceil8 (C.bit + BitVec.ofNat 32 [b].length).toNat) = 1 := by simp [hbit, ceil8]
  simp only [headroomShort, hone, Config.headroom, decide_eq_false_iff_not]
  bv_omega

/-- `DeltaWrite` into a fresh message of at least 5 bytes, if it does not fault, puts the bits of the delta field in one
run (rule R210). -/
theorem deltaWrite_fresh (hfresh : freshContext (ctxOf s c)) (hmin : 5 ≤ (ctxOf s c).maxsize.toNat)
    (ho : (ctxOf s c).oob = false) (hr : s.modelReady = true) (h : deltaWrite c old new n key s = .ok t) :
    ∃ bits N D, deltaBits s.enc old new n key = .ok bits ∧ updates s.enc (deltaBytes old new n key) = .ok N ∧
      putBits (ctxOf s c) bits = .ok D ∧
      t = setCtx c { D with cursize := BitVec.ofNat 32 (ceil8 D.bit.toNat) } { s with enc := N } := by
  obtain ⟨hcur, -, hbit, -⟩ := hfresh
  have hh := headroomShort_fresh hcur (le_trans (by decide) hmin)
  unfold deltaWrite at h
  by_cases heq : old = new
  · rw [if_pos heq] at h
    obtain ⟨D, hput, rfl⟩ := writeBitsCore_flag (b := false) ho hh hr h
    exact ⟨[false], s.enc, D, deltaBits_of_eq heq, by rw [deltaBytes_of_eq heq]; rfl, hput, rfl⟩
  · rw [if_neg heq] at h
    obtain ⟨u, hflag, h⟩ := bind_eq_ok h
    obtain ⟨D, hput, rfl⟩ := writeBitsCore_flag (b := true) ho hh hr hflag
    obtain ⟨N, F, rfl, hF⟩ := writeBitsCore_compressed (s := setCtx c _ s)
      (by rw [ctxOf_setCtx_self]; exact (putBits_oob hput).trans ho)
      (by rw [ctxOf_setCtx_self]; exact headroomShort_after_flag hbit hmin hput) hr h
    rw [ctxOf_setCtx_self] at hF
    obtain ⟨bits, E, hf, hfield, hup, rfl⟩ := writeCoded_ok hF
    obtain ⟨G, hG, rfl⟩ := putBits_append_cursize hput hfield
    exact ⟨true :: bits, N, G, deltaBits_of_ne heq hf, by rwa [deltaBytes_of_ne heq], hG,
      setCtx_setCtx c _ _ { s with enc := N }⟩

end

/-! ## Reading -/

section
variable {c : CtxNum} {u : State} {old new key : Word} {w : Int} {bits : List Bool} {N : Model}

@[simp] theorem ctxOf_trackReadcount (c : CtxNum) (s : State) : ctxOf (trackReadcount c s) c =
    { ctxOf s c with readcount := BitVec.ofNat 32 (ceil8 (ctxOf s c).bit.toNat) } := ctxOf_setCtx_self ..

/-- A flag held at the cursor is read as 0 or 1 and leaves `DEC` alone (rules R124, R210). -/
theorem readBitsCore_flag {b : Bool} (ho : (ctxOf u c).oob = false) (hmax : (ctxOf u c).maxsize.toNat ≤ 2 ^ 28)
    (hr : u.modelReady = true) (h : holdsBits (ctxOf u c) (ctxOf u c).bit.toNat [b]) :
    readBitsCore c 1 u = .ok ((BitVec.ofBool b).setWidth 32, trackReadcount c (advanced c 1 u)) := by
  have hf : fieldBits u.dec ((BitVec.ofBool b).setWidth 32) (magnitude 1) = .ok [b] := by cases b <;> rfl
  have hread := readBitsCore_of_holds (w := 1) ho hmax hr trivial hf rfl h
  have hv : extend 1 (zext (magnitude 1) ((BitVec.ofBool b).setWidth 32)) = (BitVec.ofBool b).setWidth 32 := by
    cases b <;> rfl
  rwa [hv] at hread

/-- `DeltaRead` where the buffer holds at the cursor the bits of a delta field under `DEC` (rule R210). -/
theorem deltaRead_of_holds (ho : (ctxOf u c).oob = false) (hmax : (ctxOf u c).maxsize.toNat ≤ 2 ^ 28)
    (hr : u.modelReady = true) (hM : u.dec.Reached) (hb : deltaBits u.dec old new (magnitude w) key = .ok bits)
    (hu : updates u.dec (deltaBytes old new (magnitude w) key) = .ok N)
    (h : holdsBits (ctxOf u c) (ctxOf u c).bit.toNat bits) :
    ∃ t, deltaRead c old w key u = .ok (deltaResult old new w key, t) ∧ t.enc = u.enc ∧ t.dec = N ∧
      (ctxOf t c).bit = (ctxOf u c).bit + BitVec.ofNat 32 bits.length := by
  by_cases heq : old = new
  · cases (deltaBits_of_eq heq).symm.trans hb
    rw [deltaBytes_of_eq heq] at hu
    refine ⟨trackReadcount c (advanced c 1 u), ?_, rfl, Except.ok.inj hu, by simp⟩
    simp [deltaRead, deltaResult, readBitsCore_flag ho hmax hr h, heq, bind, Except.bind]
  · rw [deltaBits, if_neg heq] at hb
    obtain ⟨field, hf, hb⟩ := bind_eq_ok hb
    cases hb
    rw [deltaBytes_of_ne heq] at hu
    obtain ⟨hflag, hfield⟩ := holdsBits_advanced (xs := [true]) hmax h
    have hread := readBitsCore_of_holds (s := trackReadcount c (advanced c 1 u)) (c := c) (w := w) (by simpa using ho)
      (by simpa using hmax) hr (hM.codableAlong _) hf hu (by rw [ctxOf_trackReadcount]; exact hfield)
    rw [zext_zext] at hread
    refine ⟨trackReadcount c (decoded c field.length N (trackReadcount c (advanced c 1 u))), ?_, rfl, rfl, ?_⟩
    · simp [deltaRead, deltaResult, readBitsCore_flag ho hmax hr hflag, hread, heq, bind, Except.bind]
    · simp [BitVec.add_assoc, Nat.add_comm field.length, BitVec.ofNat_add]

/-- `DeltaRead` from the start of a message into which the bits of a delta field have been put (rule R219). -/
theorem deltaRead_of_putBits {C D : Context} {cursize : Word} (hbit : C.bit = 0) (hwf : Memory.wf C.buf = true)
    (hmax : C.maxsize.toNat ≤ 2 ^ 28) (hput : putBits C bits = .ok D)
    (hctx : ctxOf u c = { D with cursize := cursize, readcount := 0, bit := 0, oob := false })
    (hr : u.modelReady = true) (hM : u.dec.Reached) (hb : deltaBits u.dec old new (magnitude w) key = .ok bits)
    (hup : updates u.dec (deltaBytes old new (magnitude w) key) = .ok N) :
    ∃ t, deltaRead c old w key u = .ok (deltaResult old new w key, t) ∧ t.enc = u.enc ∧ t.dec = N ∧
      (ctxOf t c).bit = D.bit ∧ D.bit.toNat = bits.length := by
  obtain ⟨hmaxD, hholds⟩ := holdsBits_of_putBits hbit hwf hmax hput
  obtain ⟨m, rfl, -, -⟩ := putBits_ok bits hput
  obtain ⟨t, hread, henc, hdec, ht⟩ := deltaRead_of_holds (u := u) (c := c) (w := w) (by rw [hctx])
    (by rwa [hctx]) hr hM hb hup (by rw [hctx]; exact hholds)
  refine ⟨t, hread, henc, hdec, by rw [ht, hctx, hbit], ?_⟩
  have hfit : 0 + bits.length ≤ 8 * C.maxsize.toNat := hholds.1
  rw [hbit, BitVec.ofNat_eq_ofNat, BitVec.zero_add, BitVec.toNat_ofNat]
  omega

end

/-! ## The statement -/

/-- Settles O44: the write puts the flag and the field's bits in one run from bit 0 on; the decoder, its model the
encoder's before the write and reached, hence codable, takes the same bits, makes the same updates, and its masked key
undoes the writer's. -/
theorem deltaFieldReadsBack : Obligations.DeltaFieldReadsBack := by
  intro s t u v wi ri c n w key hwi hri hwn hn hacc ho hfresh hmin hmax hwf hr hed hreach hvalue ht hfault hu hv
  subst hwn
  rw [exec_deltaWrite hwi hacc ho hn] at ht
  obtain ⟨t, hwrite, rfl⟩ := noResult_of_not_fault (Host.Outcome.next.inj ht) hfault
  obtain ⟨bits, N, D, hbits, hup, hput, rfl⟩ := deltaWrite_fresh hfresh hmin ho hr hwrite
  obtain ⟨-, -, hbit, -⟩ := hfresh
  rw [exec_beginRead_or_oob (s := respond .ok 0 (setCtx c { D with cursize := _ } { s with enc := N })) hacc
    (.inl ⟨rfl, rfl⟩), respond_ctxOf, ctxOf_setCtx_self] at hu
  have hu := (Host.Outcome.next.inj hu).symm
  have huctx : ctxOf u c = { D with cursize := BitVec.ofNat 32 (ceil8 D.bit.toNat), readcount := 0, bit := 0,
                                    oob := false } := by
    rw [hu, respond_ctxOf, ctxOf_setCtx_self]
  have hudec : u.dec = s.enc := by simp [hu, hed]
  obtain ⟨r, hread, henc, hdec, hrbit, hlen⟩ := deltaRead_of_putBits hbit hwf hmax hput huctx (by simp [hu, hr])
    (hudec ▸ hreach) (hudec ▸ hbits) (hudec ▸ hup)
  rw [exec_deltaRead ((deltaReadForm_congr (by simp [hu]) ri).trans hri) (hu ▸ hacc) (by rw [huctx]) hn,
    deltaReadField, show u.b = s.b by simp [hu], hread, conclude_ok] at hv
  cases hv
  rw [respond_ctxOf, respond_ctxOf, ctxOf_setCtx_self]
  refine ⟨⟨rfl, deltaResult_eq hn hvalue⟩, by simp [henc, hdec, hu], hrbit, fun heq => ?_, fun hne field hf => ?_⟩
  · obtain rfl := Except.ok.inj (hbits.symm.trans (deltaBits_of_eq heq.symm))
    exact BitVec.eq_of_toNat_eq hlen
  · obtain rfl := Except.ok.inj (hbits.symm.trans (deltaBits_of_ne hne.symm hf))
    rw [hlen, List.length_cons, Nat.add_comm]

end Sys2Proof.Machine
end

section
/-! Host access (rules R250 to R253): the next state of `REG_READ`, `REG_WRITE`, `BUF_READ` and `BUF_WRITE` in each of their
cases, the bits of the two status words, and what the commands leave unchanged. -/

namespace Sys2Proof.Machine

/-! ## The status words -/

/-- Register 4, bit by bit (rule R43). -/
theorem getLsbD_flagsImage (C : Context) {j : Nat} (hj : j < 32) :
    (flagsImage C).getLsbD j =
      if j = 0 then C.oob else if j = 1 then C.overflowed else if j = 2 then C.allowOverflow else false := by
  simp only [flagsImage, BitVec.getLsbD_or, BitVec.getLsbD_shiftLeft, BitVec.getLsbD_setWidth, BitVec.getLsbD_ofBool]
  interval_cases j <;> simp

/-- Register 8, bit by bit (rule R43). -/
theorem getLsbD_gstatusImage (ready fault : Bool) (fcause : BitVec 4) {j : Nat} (hj : j < 32) :
    (gstatusImage ready fault fcause).getLsbD j =
      if j = 0 then ready else if j = 1 then fault else if 4 ≤ j ∧ j < 8 then fcause.getLsbD (j - 4) else false := by
  simp only [gstatusImage, BitVec.getLsbD_or, BitVec.getLsbD_shiftLeft, BitVec.getLsbD_setWidth, BitVec.getLsbD_ofBool]
  interval_cases j <;> simp

/-! ## `REG_READ` -/

/-- Rule R263: the one command that skips the check for the faulted state. -/
theorem prologue_inFault {cs : List CtxNum} {s : State} (h : ∀ c ∈ cs, c.toNat < s.params.nctx) (body : State → State) :
    prologue true cs s body = body s := by
  have hc : (cs.all fun c => decide (c.toNat < s.params.nctx)) = true := by simpa using h
  simp [prologue, hc]

/-- What reading a register leaves alone: all but `R`, `RC` and the free values drawn (rule R250). -/
def ReadsOnly (s t : State) : Prop := samePort s t ∧ sameFault s t ∧ sameModels s t ∧ t.ctxs = s.ctxs

theorem readsOnly_respond (rc : RespCode) (v : Word) (s : State) : ReadsOnly s (respond rc v s) :=
  ⟨⟨rfl, rfl, rfl, rfl, rfl⟩, ⟨rfl, rfl⟩, ⟨rfl, rfl, rfl⟩, rfl⟩

theorem readsOnly_regValue (v : Word) (s : State) : ReadsOnly s (regValue v s) := by
  unfold regValue
  split
  · exact readsOnly_respond _ _ _
  · exact readsOnly_respond _ _ s

theorem readsOnly_regStatus (s : State) : ReadsOnly s (regStatus s) := by
  unfold regStatus
  split
  · exact readsOnly_respond _ _ _
  · exact readsOnly_respond _ _ s

theorem regValue_r {s : State} (hf : s.fault = false) (v : Word) : (regValue v s).r = v := by simp [regValue, hf]

/-- In the faulted state `GSTATUS` is the image of a free `MODEL_READY`, else of the register (rules R250, R266). -/
theorem regStatus_r (s : State) :
    ∃ ready, (regStatus s).r = gstatusImage ready s.fault s.fcause ∧ (s.fault = false → ready = s.modelReady) := by
  unfold regStatus
  split
  next hf => exact ⟨_, rfl, fun hf' => absurd (hf.symm.trans hf') Bool.noConfusion⟩
  next => exact ⟨_, rfl, fun _ => rfl⟩

/-- The registers of a context, each with its number (rule R43). -/
def contextRegisters (C : Context) : List (Word × Word) :=
  [(0, C.maxsize), (1, C.cursize), (2, C.readcount), (3, C.bit), (4, flagsImage C)]

section
variable {s : State} {c : CtxNum}

/-- Rule R250: the number in `A` is a register of the context, one of the three of the block, or no register. -/
theorem exec_regRead_cases (hc : c.toNat < s.params.nctx) :
    (∃ v, (s.a, v) ∈ contextRegisters (ctxOf s c) ∧ exec (.regRead c) s = .next (regValue v s)) ∨
    (s.a = 8 ∧ exec (.regRead c) s = .next (regStatus s)) ∨
    (s.a = 9 ∧ exec (.regRead c) s = .next (respond .ok (BitVec.ofNat 32 s.params.bufBytes) s)) ∨
    (s.a = 10 ∧ exec (.regRead c) s = .next (respond .ok (BitVec.ofNat 32 s.params.nctx) s)) ∨
    (s.a ∉ ([0, 1, 2, 3, 4, 8, 9, 10] : List Word) ∧ exec (.regRead c) s = .next (respond .invalidArg 0 s)) := by
  have hcs : ∀ d ∈ [c], d.toNat < s.params.nctx := by simpa using hc
  simp only [exec, execRegRead, prologue_inFault hcs]
  split
  next ha => exact .inl ⟨_, by simp [contextRegisters, ha], rfl⟩
  next ha => exact .inl ⟨_, by simp [contextRegisters, ha], rfl⟩
  next ha => exact .inl ⟨_, by simp [contextRegisters, ha], rfl⟩
  next ha => exact .inl ⟨_, by simp [contextRegisters, ha], rfl⟩
  next ha => exact .inl ⟨_, by simp [contextRegisters, ha], rfl⟩
  next ha => exact .inr (.inl ⟨ha, rfl⟩)
  next ha => exact .inr (.inr (.inl ⟨ha, rfl⟩))
  next ha => exact .inr (.inr (.inr (.inl ⟨ha, rfl⟩)))
  next h0 h1 h2 h3 h4 h8 h9 h10 =>
    exact .inr (.inr (.inr (.inr ⟨by simpa using ⟨h0, h1, h2, h3, h4, h8, h9, h10⟩, rfl⟩)))

/-! ## `REG_WRITE` -/

/-- Rule R251: `CURSIZE` takes no value above `MAXSIZE`. -/
theorem exec_regWrite_cursize_of_lt (h : s.accepts [c]) (ha : s.a = 1) (hb : (ctxOf s c).maxsize < s.b) :
    exec (.regWrite c) s = .next (respond .invalidArg 0 s) := by
  simp [exec, execRegWrite, prologue_accepts h, ha, decide_eq_false (BitVec.not_le.2 hb)]

/-- Rule R251, number 1. -/
theorem exec_regWrite_cursize_of_le (h : s.accepts [c]) (ha : s.a = 1) (hb : s.b ≤ (ctxOf s c).maxsize) :
    exec (.regWrite c) s = .next (respond .ok 0 (setCtx c { ctxOf s c with cursize := s.b } s)) := by
  simp [exec, execRegWrite, prologue_accepts h, ha, decide_eq_true hb]

/-- Rule R251, number 4. -/
theorem exec_regWrite_flags (h : s.accepts [c]) (ha : s.a = 4) :
    exec (.regWrite c) s =
      .next (respond .ok 0 (setCtx c { ctxOf s c with allowOverflow := s.b.getLsbD 2 } s)) := by
  simp [exec, execRegWrite, prologue_accepts h, ha]

/-- Rule R251: no other number can be written. -/
theorem exec_regWrite_of_ne (h : s.accepts [c]) (h1 : s.a ≠ 1) (h4 : s.a ≠ 4) :
    exec (.regWrite c) s = .next (respond .invalidArg 0 s) := by
  simp only [exec, execRegWrite, prologue_accepts h]
  split
  next ha => exact absurd ha h1
  next ha => exact absurd ha h4
  next => rfl

/-! ## `BUF_READ` and `BUF_WRITE` -/

/-- Rules R252 and R253: an index beyond the buffer is refused, to read as to write. -/
theorem exec_bufAccess_of_le (h : s.accepts [c]) (ha : (ctxOf s c).maxsize ≤ s.a) {i : Instr}
    (hi : i = .bufRead c ∨ i = .bufWrite c) : exec i s = .next (respond .invalidArg 0 s) := by
  have hguard : decide (s.a < (ctxOf s c).maxsize) = false := decide_eq_false (BitVec.not_lt.2 ha)
  rcases hi with rfl | rfl
  · simp only [exec, execBufRead, prologue_accepts h, hguard, guardArg_false]
  · simp only [exec, execBufWrite, prologue_accepts h, hguard, guardArg_false]

/-- Rule R252. -/
theorem exec_bufRead_of_lt (h : s.accepts [c]) (ha : s.a < (ctxOf s c).maxsize) :
    exec (.bufRead c) s = .next (respond .ok ((bufGet (ctxOf s c).buf s.a.toNat).setWidth 32) s) := by
  simp only [exec, execBufRead, prologue_accepts h, decide_eq_true ha, guardArg_true]

/-- Rule R253. -/
theorem exec_bufWrite_of_lt (h : s.accepts [c]) (ha : s.a < (ctxOf s c).maxsize) :
    exec (.bufWrite c) s =
      .next (respond .ok 0
        (setCtx c { ctxOf s c with buf := bufSet (ctxOf s c).buf s.a.toNat (s.b.setWidth 8) } s)) := by
  simp only [exec, execBufWrite, prologue_accepts h, decide_eq_true ha, guardArg_true]

end

/-! ## The statements -/

/-- Settles O50: whatever number `A` holds, one of the five ends of the command is taken, and each leaves all but the
response alone; the two status words have the bits of their registers. -/
theorem regReadReturnsTheRegister : Obligations.RegReadReturnsTheRegister := by
  refine fun s c => ⟨wordIsN_of_encode rfl, fun hc => ?_⟩
  rcases exec_regRead_cases hc with ⟨v, hv, ht⟩ | ⟨ha, ht⟩ | ⟨ha, ht⟩ | ⟨ha, ht⟩ | ⟨ha, ht⟩
  · refine ⟨_, ht, readsOnly_regValue v s, ?_⟩
    simp only [contextRegisters, List.mem_cons, Prod.mk.injEq, List.not_mem_nil, or_false] at hv
    rcases hv with ⟨ha, rfl⟩ | ⟨ha, rfl⟩ | ⟨ha, rfl⟩ | ⟨ha, rfl⟩ | ⟨ha, rfl⟩ <;>
      simp +contextual [ha, regValue_r, getLsbD_flagsImage, -BitVec.getLsbD_eq_getElem]
  · obtain ⟨ready, hr, hready⟩ := regStatus_r s
    have hbits : ∀ j, 1 ≤ j → j < 32 → (regStatus s).r.getLsbD j =
        if j = 1 then s.fault else if 4 ≤ j ∧ j < 8 then s.fcause.getLsbD (j - 4) else false := fun j h1 hj => by
      rw [hr, getLsbD_gstatusImage _ _ _ hj, if_neg (by omega)]
    have hbit0 : s.fault = false → (regStatus s).r.getLsbD 0 = s.modelReady := fun hf => by
      rw [hr, getLsbD_gstatusImage _ _ _ (by decide), if_pos rfl, hready hf]
    exact ⟨_, ht, readsOnly_regStatus s, by simp [ha], by simp [ha], by simp [ha], by simp [ha], fun _ => hbits,
      fun hf => ⟨fun _ => hbit0 hf, by simp [ha]⟩⟩
  · exact ⟨_, ht, readsOnly_respond _ _ s, by simp [ha]⟩
  · exact ⟨_, ht, readsOnly_respond _ _ s, by simp [ha]⟩
  · have hne : ∀ n ∈ ([0, 1, 2, 3, 4, 8, 9, 10] : List Word), s.a ≠ n := fun n hn h => ha (h ▸ hn)
    exact ⟨_, ht, readsOnly_respond _ _ s, fun h => absurd h ha, fun _ => ⟨rfl, rfl⟩, by simp [hne]⟩

/-- Settles O51: the two refusals and the two writes are the four ends of the command; each write sets one field of its own
context. -/
theorem regWriteWritesCursizeAndAllowoverflow : Obligations.RegWriteWritesCursizeAndAllowoverflow :=
  fun s c => ⟨wordIsN_of_encode rfl, fun hacc =>
    ⟨exec_regWrite_cursize_of_lt hacc, exec_regWrite_of_ne hacc,
      fun ha hb => ⟨_, exec_regWrite_cursize_of_le hacc ha hb, respond_setCtx_frame c _ s⟩,
      fun ha => ⟨_, exec_regWrite_flags hacc ha, respond_setCtx_frame c _ s⟩⟩⟩

/-- Settles O52: the refusal and the read are the two ends of the command, and each is a response and nothing else. -/
theorem bufReadReturnsTheByte : Obligations.BufReadReturnsTheByte :=
  fun _ _ => ⟨wordIsN_of_encode rfl, fun hacc =>
    ⟨fun ha => exec_bufAccess_of_le hacc ha (.inl rfl), exec_bufRead_of_lt hacc⟩⟩

/-- Settles O53: the write sets the buffer of its own context alone, and in a canonical buffer a read after a write finds
the new byte at its index and the old ones elsewhere. -/
theorem bufWriteStoresTheByte : Obligations.BufWriteStoresTheByte := by
  refine fun s c => ⟨wordIsN_of_encode rfl, fun hacc hwf =>
    ⟨fun ha => exec_bufAccess_of_le hacc ha (.inr rfl), fun ha => ?_⟩⟩
  obtain ⟨hans, hport, hfault, hmodels, hothers, hown⟩ := respond_setCtx_frame c
    { ctxOf s c with buf := bufSet (ctxOf s c).buf s.a.toNat (s.b.setWidth 8) } s
  refine ⟨_, exec_bufWrite_of_lt hacc ha, hans, hport, hfault, hmodels, hothers, ?_⟩
  rw [hown]
  exact ⟨rfl, rfl, rfl, rfl, ⟨rfl, rfl, rfl⟩, fun k => bufGet_bufSet hwf s.a.toNat k _⟩

end Sys2Proof.Machine
end

section
/-! Which commands answer `INVALID_ARG` (rule R262): the argument checks against the table of causes. -/

namespace Sys2Proof.Machine

/-! ## The widths of the table -/

/-- Rule R82: the 64 values of `W7` that no command accepts are those whose magnitude is not 1 to 32. -/
theorem legalWidth_widthOf_iff (w7 : BitVec 7) :
    legalWidth (magnitude (widthOf w7)) ↔ ¬ invalidArgCause.illegalWidth w7 := by
  have hw := w7.isLt
  simp only [legalWidth, magnitude, widthOf, invalidArgCause.illegalWidth, BitVec.toInt_eq_toNat_cond]
  split <;> omega

/-- Rule R120: `WidthOK` fails for the causes of the table's second row. -/
theorem widthOk_iff_no_cause (oob : Bool) (w7 : BitVec 7) :
    widthOk oob (widthOf w7) = true ↔
      ¬ (invalidArgCause.illegalWidth w7 ∨ (oob = true ∧ ¬ rawWidth (magnitude (widthOf w7)))) := by
  rw [not_or, ← legalWidth_widthOf_iff]
  cases oob <;> simp [widthOk, -not_or]

/-- Rule R210: `DeltaOK` fails for the causes of the table's third row. -/
theorem deltaOk_iff_no_cause (oob : Bool) (w7 : BitVec 7) :
    deltaOk oob (widthOf w7) = true ↔ ¬ (invalidArgCause.illegalWidth w7 ∨ oob = true) := by
  rw [not_or, ← legalWidth_widthOf_iff]
  cases oob <;> simp [deltaOk]

/-! ## Refusing for one cause -/

/-- `t` answers `INVALID_ARG` exactly if the cause `P` holds, and is then `s` with the answer alone. -/
def RefusesExactly (P : Prop) (s t : State) : Prop :=
  (t.rc = .invalidArg ↔ P) ∧ (P → t = respond .invalidArg 0 s)

section
variable {P : Prop} {s t : State}

theorem RefusesExactly.of_cause (hP : P) : RefusesExactly P s (respond .invalidArg 0 s) :=
  ⟨iff_of_true rfl hP, fun _ => rfl⟩

theorem RefusesExactly.of_no_cause (hP : ¬ P) (ht : t.rc ≠ .invalidArg) : RefusesExactly P s t :=
  ⟨iff_of_false ht hP, fun h => absurd h hP⟩

/-- An argument check that fails for the cause `P`, before a body that never refuses (rule R100, step 3). -/
theorem RefusesExactly.guardArg {ok : Bool} {body : State → State} (hok : ok = true ↔ ¬ P)
    (hbody : (body s).rc ≠ .invalidArg) : RefusesExactly P s (guardArg ok body s) := by
  cases ok with
  | false => exact .of_cause (by simpa using hok)
  | true => exact .of_no_cause (hok.1 rfl) hbody

/-- An accepted command refuses for the causes of its body. -/
theorem RefusesExactly.prologue {cs : List CtxNum} {body : State → State} (h : s.accepts cs)
    (hbody : RefusesExactly P s (body s)) (inFault : Bool) : RefusesExactly P s (prologue inFault cs s body) := by
  rwa [prologue_accepts h]

end

/-- A body that has begun ends with `OK` or a fault. -/
theorem conclude_rc_ne_invalidArg (s : State) (e : Except FaultCause (Word × State)) :
    (conclude s e).rc ≠ .invalidArg := by
  rcases conclude_cases s e with ⟨v, t, -, h⟩ | ⟨f, -, h⟩
  · simp [h]
  · cases f <;> simp [h, respOfFault]

/-! ## The commands with a check of their own shape -/

section
variable {s t : State} {c : CtxNum}

/-- Rule R190: only a message with bytes from the offset on can have too many of them. -/
theorem execCompress_refusesExactly (h : s.accepts [c]) (hexec : exec (.compress c) s = .next t) :
    RefusesExactly (invalidArgCause s (.compress c)) s t := by
  by_cases hle : (ctxOf s c).cursize ≤ s.a
  · rw [exec_compress_of_empty h hle] at hexec
    cases hexec
    exact .of_no_cause (fun hcause => BitVec.not_lt.2 hle hcause.1) RespCode.noConfusion
  · have hlt : s.a < (ctxOf s c).cursize := BitVec.not_le.1 hle
    cases hexec
    refine .prologue h ?_ false
    rw [if_neg hle]
    refine .guardArg ?_ (conclude_rc_ne_invalidArg _ _)
    simp [invalidArgCause, hlt, BitVec.toNat_sub_of_le (BitVec.le_of_lt hlt), Config.compressLimit]

/-- Rule R250: only a number of no register is refused. -/
theorem execRegRead_refusesExactly (h : s.accepts [c]) (hexec : exec (.regRead c) s = .next t) :
    RefusesExactly (invalidArgCause s (.regRead c)) s t := by
  rcases exec_regRead_cases (h.2 c (List.mem_singleton.2 rfl)) with
    ⟨v, hmem, he⟩ | ⟨ha, he⟩ | ⟨ha, he⟩ | ⟨ha, he⟩ | ⟨ha, he⟩
  all_goals rw [he] at hexec; cases hexec
  · have ha : s.a ∈ ([0, 1, 2, 3, 4] : List Word) := List.mem_map_of_mem (f := Prod.fst) hmem
    exact .of_no_cause (not_not.2 (List.mem_append_left [8, 9, 10] ha)) (by simp)
  · exact .of_no_cause (by simp [invalidArgCause, ha]) (by simp)
  · exact .of_no_cause (by simp [invalidArgCause, ha]) RespCode.noConfusion
  · exact .of_no_cause (by simp [invalidArgCause, ha]) RespCode.noConfusion
  · exact .of_cause ha

/-- Rule R251: a number other than those of `CURSIZE` and `FLAGS`, or a `CURSIZE` above `MAXSIZE`. -/
theorem execRegWrite_refusesExactly (h : s.accepts [c]) (hexec : exec (.regWrite c) s = .next t) :
    RefusesExactly (invalidArgCause s (.regWrite c)) s t := by
  by_cases h1 : s.a = 1
  · cases hexec
    refine .prologue h ?_ false
    rw [h1]
    exact .guardArg (by simp [invalidArgCause, h1]) RespCode.noConfusion
  by_cases h4 : s.a = 4
  · rw [exec_regWrite_flags h h4] at hexec
    cases hexec
    exact .of_no_cause (by simp [invalidArgCause, h4]) RespCode.noConfusion
  · rw [exec_regWrite_of_ne h h1 h4] at hexec
    cases hexec
    exact .of_cause (.inl ⟨h1, h4⟩)

end

/-! ## The table -/

/-- Rule R262, row by row: each command's check fails for the causes of its row, and what follows it never refuses. -/
theorem exec_refusesExactly {i : Instr} {s t : State} (h : s.accepts i.contexts) (hexec : exec i s = .next t) :
    RefusesExactly (invalidArgCause s i) s t := by
  cases i with
  | init c | initOob c =>
    cases hexec
    exact .prologue h (.guardArg (by simp [invalidArgCause]) (conclude_rc_ne_invalidArg _ _)) false
  | copy c d =>
    cases hexec
    refine .prologue h (.guardArg (by simp [invalidArgCause]) ?_) false
    split <;> exact RespCode.noConfusion
  | writeBits c n | readBits c n =>
    cases hexec
    exact .prologue h (.guardArg (widthOk_iff_no_cause _ n) (conclude_rc_ne_invalidArg _ _)) false
  | writeDelta c n | readDelta c n | writeDeltaKey c n | readDeltaKey c n =>
    cases hexec
    exact .prologue h (.guardArg (deltaOk_iff_no_cause _ n) (conclude_rc_ne_invalidArg _ _)) false
  | writeDeltaFloat c | readDeltaFloat c | writeDeltaKeyFloat c | readDeltaKeyFloat c =>
    cases hexec
    exact .prologue h (.guardArg (by simp [invalidArgCause]) (conclude_rc_ne_invalidArg _ _)) false
  | bufRead c | bufWrite c =>
    cases hexec
    exact .prologue h (.guardArg (by simp [invalidArgCause]) RespCode.noConfusion) false
  | compress c => exact execCompress_refusesExactly h hexec
  | regRead c => exact execRegRead_refusesExactly h hexec
  | regWrite c => exact execRegWrite_refusesExactly h hexec
  | clear c | beginRead c | beginReadOob c =>
    cases hexec
    exact .prologue h (.of_no_cause not_false RespCode.noConfusion) false
  | modelInit c | lookaheadByte c | writeChar c | writeByte c | writeShort c | writeLong c | writeFloat c | readChar c
  | readByte c | readShort c | readLong c | readFloat c =>
    cases hexec
    exact .prologue h (.of_no_cause not_false (conclude_rc_ne_invalidArg _ _)) false
  | decompress c =>
    cases hexec
    refine .prologue h (.of_no_cause not_false ?_) false
    split
    · exact RespCode.noConfusion
    · exact conclude_rc_ne_invalidArg _ _

/-- Settles O13: a command on contexts that exist, outside the faulted state, is its argument check and a body; the
check fails for the causes of its row alone and the body never answers `INVALID_ARG`. -/
theorem invalidArgExactlyAsTabled : Obligations.InvalidArgExactlyAsTabled :=
  fun _ _ _ h hexec => exec_refusesExactly h hexec

end Sys2Proof.Machine
end

section
/-! The decoder and the encoder invert each other (rules R80 to R86), and what one step of the port does (rules R20 to R22,
R290). -/

namespace Sys2Proof.Machine

/-! ## Formats of a packed word -/

@[simp] theorem formatN_pack (o : BitVec 8) (c : CtxNum) (mk : CtxNum → Instr) :
    formatN (pack o c 0#4 0#7) mk = some (mk c) := by simp [formatN]

@[simp] theorem formatW_pack (o : BitVec 8) (c : CtxNum) (n : BitVec 7) (mk : CtxNum → BitVec 7 → Instr) :
    formatW (pack o c 0#4 n) mk = some (mk c n) := by simp [formatW]

@[simp] theorem formatC_pack (o : BitVec 8) (c d : CtxNum) (mk : CtxNum → CtxNum → Instr) :
    formatC (pack o c d 0#7) mk = some (mk c d) := by simp [formatC]

/-- Settles O1: the opcode of a command's word selects the command's arm of the decoder, whose format reads back the fields
packed. -/
theorem decodeInvertsEncode : Obligations.DecodeInvertsEncode := by
  intro i
  cases i with
  | copy c d => simp [encode, decode]
  | writeBits c n | readBits c n | writeDelta c n | readDelta c n | writeDeltaKey c n | readDeltaKey c n =>
    simp [encode, decode]
  | _ c => simp [encode, decode]

/-- Settles O2: each format fixes every field the command does not hold. -/
theorem encodeInvertsDecode : Obligations.EncodeInvertsDecode := fun _ _ => encode_of_decode

/-! ## Steps -/

section
variable {s : State} {rest : List PortEvent}

theorem step_of_nothing (h : s.pending = []) : step s = .next s := by
  simp [step, h]

theorem step_of_reset (h : s.pending = .reset :: rest) : step s = .next (hardReset rest s) := by
  simp [step, h]

theorem step_of_command {e : Command} (h : s.pending = .command e :: rest) :
    step s = execWord e.cw (loadPort e rest s) := by
  simp [step, h]

end

/-- Settles O5: a command at the head of the queue is decoded and executed with its operands loaded; the word that
`withFetchWord` places comes with the operands the registers hold already. -/
theorem stepRunsDecodedCommand : Obligations.StepRunsDecodedCommand := by
  refine ⟨fun s e rest i hp hd => ?_, fun s w i hw hd => ?_⟩
  · rw [step_of_command hp, execWord_of_decode hd]
    rfl
  · rw [step_of_command rfl, Nat.mod_eq_of_lt hw, execWord_of_decode hd]
    rfl

/-- Settles O7: a step with nothing issued is the state itself, and the reset event gives the state of rule R44. -/
theorem resetEventClearsEveryRegister : Obligations.ResetEventClearsEveryRegister := by
  refine ⟨fun s hp => step_of_nothing hp, fun s rest hp => ⟨_, step_of_reset hp, ?_⟩⟩
  simp [Context.reset]

/-! ## Codes and their decoder -/

/-- Settles O19. -/
theorem reachedModelsAreCodable : Obligations.ReachedModelsAreCodable := fun _ => Model.Reached.codable

/-- Settles O49: the decoder's stream is the encoder's by induction on the bytes; the first symbol is decoded from the code
that comes first, before the update the encoder makes. -/
theorem decoderInvertsEncoder : Obligations.DecoderInvertsEncoder := by
  intro σ get M bytes bits t t' hcod henc hgives
  refine ⟨decodeStream_of_gives bytes hcod henc hgives, ?_⟩
  rintro s rest rfl
  obtain ⟨N, codes, hN, -, rfl⟩ := encodeStream_cons henc
  obtain ⟨t₁, hfirst, -⟩ := exists_of_gives_append hgives
  exact ⟨N, t₁, hN, decodeSymbol_of_gives hcod.1 hfirst hN⟩

end Sys2Proof.Machine
end

section
/-! SUPPORT. What a command that runs to its end keeps: the port, the fault registers and every context but its own, and the
invariants of the buffers and of the models (rules R27, R36 to R38, R50). -/

namespace Sys2Proof.Machine

/-- `MAXSIZE ≤ BUF_BYTES`, and no byte listed beyond the buffer memory (rules R27, R50). -/
def Context.within (p : Params) (C : Context) : Prop := C.maxsize.toNat ≤ p.bufBytes ∧ bufWithin p C

/-- A seeded pair is a pair of reached models. -/
def State.pairReached (s : State) : Prop := s.modelReady = true → s.enc.Reached ∧ s.dec.Reached

/-- What a command on context `c` that began in `s` and has come to `u` without a fault has kept. -/
structure Kept (c : CtxNum) (s u : State) : Prop where
  port : samePort s u
  fault : sameFault s u
  others : othersSame c s u
  wf : Memory.wf (ctxOf s c).buf = true → Memory.wf (ctxOf u c).buf = true
  within : (ctxOf s c).within s.params → (ctxOf u c).within s.params
  pair : s.pairReached → u.pairReached

section
variable {c : CtxNum} {s t u : State}

theorem Kept.refl (c : CtxNum) (s : State) : Kept c s s where
  port := ⟨rfl, rfl, rfl, rfl, rfl⟩
  fault := ⟨rfl, rfl⟩
  others _ _ := rfl
  wf := id
  within := id
  pair := id

theorem Kept.trans (h : Kept c s t) (h' : Kept c t u) : Kept c s u where
  port := by
    obtain ⟨hparams, hpending, ha, hb, hk⟩ := h.port
    obtain ⟨hparams', hpending', ha', hb', hk'⟩ := h'.port
    exact ⟨hparams'.trans hparams, hpending'.trans hpending, ha'.trans ha, hb'.trans hb, hk'.trans hk⟩
  fault := ⟨h'.fault.1.trans h.fault.1, h'.fault.2.trans h.fault.2⟩
  others d hd := (h'.others d hd).trans (h.others d hd)
  wf := h'.wf ∘ h.wf
  within hC := by
    have := h'.within
    rw [h.port.1] at this
    exact this (h.within hC)
  pair := h'.pair ∘ h.pair

/-- The count of free values is no state of the block (log entry 5). -/
theorem kept_freeCount (c : CtxNum) (n : Nat) (s : State) : Kept c s { s with freeCount := n } :=
  { Kept.refl c s with }

theorem kept_drawn (c : CtxNum) (n : Nat) (s : State) : Kept c s (drawn n s) := kept_freeCount c _ s

/-- Only the context of the command is written. -/
theorem kept_setCtx {C : Context} (hwf : Memory.wf (ctxOf s c).buf = true → Memory.wf C.buf = true)
    (hwithin : (ctxOf s c).within s.params → C.within s.params) : Kept c s (setCtx c C s) where
  port := ⟨rfl, rfl, rfl, rfl, rfl⟩
  fault := ⟨rfl, rfl⟩
  others _ hd := ctxOf_setCtx_of_ne hd _ _
  wf := by simpa using hwf
  within := by simpa using hwithin
  pair := id

/-- A write of registers and flags of the context alone. -/
theorem kept_registers {C : Context} (hmax : C.maxsize = (ctxOf s c).maxsize) (hbuf : C.buf = (ctxOf s c).buf) :
    Kept c s (setCtx c C s) :=
  kept_setCtx (by rw [hbuf]; exact id) (by simp only [Context.within, bufWithin, hmax, hbuf]; exact id)

/-- Writes below `MAXSIZE` to the buffer of the context. -/
theorem kept_buffer {C : Context} {m : Memory} (hC : C.maxsize = (ctxOf s c).maxsize ∧ C.buf = m)
    (hwf : Memory.wf (ctxOf s c).buf = true → Memory.wf m = true)
    (hmem : ∀ x ∈ m, x.1 < (ctxOf s c).maxsize.toNat ∨ x ∈ (ctxOf s c).buf) : Kept c s (setCtx c C s) := by
  obtain ⟨hmax, rfl⟩ := hC
  refine kept_setCtx hwf fun hin => ⟨hmax ▸ hin.1, fun x hx => ?_⟩
  rcases hmem x hx with hlt | hold
  · exact hlt.trans_le hin.1
  · exact hin.2 x hold

/-- Bytes stored in one run below `MAXSIZE`. -/
theorem kept_bufSetMany {C : Context} {i : Nat} {vs : List Byte}
    (hC : C.maxsize = (ctxOf s c).maxsize ∧ C.buf = bufSetMany (ctxOf s c).buf i vs)
    (hfit : i + vs.length ≤ (ctxOf s c).maxsize.toNat ∨ vs = []) : Kept c s (setCtx c C s) := by
  refine kept_buffer hC (wf_bufSetMany vs i) fun x hx => ?_
  rcases mem_bufSetMany vs hx with hnew | hold
  · rcases hfit with hfit | rfl
    · exact .inl (by omega)
    · simp at hnew; omega
  · exact .inr hold

/-! ## The engine's operations -/

theorem kept_ensureModel (h : ensureModel s = .ok u) : Kept c s u where
  port := (readFrame_ensureModel (c := c) h).port
  fault := (readFrame_ensureModel (c := c) h).fault
  others := (readFrame_ensureModel h).others
  wf := by rw [ctxOf_congr (ensureModel_frame h).2.2.2.1]; exact id
  within := by rw [ctxOf_congr (ensureModel_frame h).2.2.2.1]; exact id
  pair hs := by
    rcases ensureModel_cases h with ⟨-, rfl⟩ | ⟨M, -, hM, rfl⟩
    · exact hs
    · exact fun _ => ⟨reached_seeded hM, reached_seeded hM⟩

/-- A read of the engine that keeps the models reached keeps the rest. -/
theorem ReadFrame.kept (h : ReadFrame c s u) (hpair : s.pairReached → u.pairReached) : Kept c s u where
  port := h.port
  fault := h.fault
  others := h.others
  wf := by rw [h.own]; exact id
  within := by rw [h.own]; exact id
  pair := hpair

theorem kept_writeBitsCore {v : Word} {n : Nat} (h : writeBitsCore c v n s = .ok u) : Kept c s u := by
  rcases writeBitsCore_cases h with ⟨-, rfl⟩ | ⟨-, -, C, hC, rfl⟩ | ⟨-, -, t, M, C, ht, hC, rfl⟩
  · exact kept_registers rfl rfl
  · obtain ⟨D, hD, hC⟩ := bind_eq_ok hC
    cases hC
    obtain ⟨m, rfl, hwf, hmem⟩ := memWriteMany_ok _ hD
    exact kept_buffer ⟨rfl, rfl⟩ hwf hmem
  · obtain ⟨bits, E, -, hput, hup, rfl⟩ := writeCoded_ok hC
    obtain ⟨m, rfl, hwf, hmem⟩ := putBits_ok bits hput
    have hcoded : Kept c t { t with enc := M } :=
      { Kept.refl c t with
        pair := fun hp hready => ⟨(hp hready).1.updates hup, (hp hready).2⟩ }
    exact ((kept_ensureModel ht).trans hcoded).trans (kept_buffer ⟨rfl, rfl⟩ hwf hmem)

theorem kept_deltaWrite {old new key : Word} {n : Nat} (h : deltaWrite c old new n key s = .ok u) : Kept c s u := by
  unfold deltaWrite at h
  split at h
  · exact kept_writeBitsCore h
  · obtain ⟨t, hflag, h⟩ := bind_eq_ok h
    exact (kept_writeBitsCore hflag).trans (kept_writeBitsCore h)

end

/-! ## A read keeps the models reached -/

section
variable {σ : Type} {get : σ → Bool × σ} {P : σ → Prop}

/-- What every bit read keeps, a walk of the decoder keeps (rule R184). -/
theorem walk_keeps (hget : ∀ t, P t → P (get t).2) (M : Model) : ∀ (fuel : Nat) (n : NodeId) (t : σ), P t →
    P (walk get M fuel n t).2
  | 0, _, _, h => h
  | fuel + 1, n, t, h => by
    unfold walk
    split
    · simp only
      split
      · exact hget t h
      · exact walk_keeps hget M fuel _ _ (hget t h)
    · exact h

theorem rawByte_keeps (hget : ∀ t, P t → P (get t).2) : ∀ (count : Nat) (b : Byte) (t : σ), P t →
    P (rawByte get count b t).2
  | 0, _, _, h => h
  | count + 1, _, t, h => rawByte_keeps hget count _ _ (hget t h)

theorem readSymbol_keeps (hget : ∀ t, P t → P (get t).2) (M : Model) {t : σ} (h : P t) : P (readSymbol get M t).2 := by
  have hwalk := walk_keeps hget M Config.poolNodes M.root t h
  unfold readSymbol
  simp only
  split
  · exact hwalk
  · exact rawByte_keeps hget 8 0 _ hwalk

end

section
variable {c : CtxNum} {s t u : State} {v : Word} {w : Int}

/-- The models of a state, and whether they are seeded, are those given (rules R37, R38). -/
def State.hasModels (ready : Bool) (enc dec : Model) (s : State) : Prop :=
  s.modelReady = ready ∧ s.enc = enc ∧ s.dec = dec

theorem hasModels_getBit {ready : Bool} {enc dec : Model} (c : CtxNum) (s : State) (h : s.hasModels ready enc dec) :
    (getBit c s).2.hasModels ready enc dec := by
  obtain ⟨n, hn⟩ := getBit_frame c s
  rw [hn]
  exact h

theorem sameModels_readResidual (c : CtxNum) : ∀ (count i : Nat) (v : Word) (s : State),
    sameModels s (readResidual c count i v s).2
  | 0, _, _, _ => ⟨rfl, rfl, rfl⟩
  | count + 1, i, v, s => by
    obtain ⟨hready, henc, hdec⟩ := hasModels_getBit c s ⟨rfl, rfl, rfl⟩
    obtain ⟨hready', henc', hdec'⟩ := sameModels_readResidual c count (i + 1) (v ||| bitIn (getBit c s).1 i) (getBit c s).2
    exact ⟨hready'.trans hready, henc'.trans henc, hdec'.trans hdec⟩

theorem sameModels_readRawBytes (c : CtxNum) : ∀ (count : Nat) (i : Word) (lo : Nat) (v : Word) (s : State),
    sameModels s (readRawBytes c count i lo v s).2
  | 0, _, _, _, _ => ⟨rfl, rfl, rfl⟩
  | count + 1, i, lo, v, s => by
    obtain ⟨n, hn⟩ := memRead_frame c i.toNat s
    have h := sameModels_readRawBytes c count (i + 1) (lo + 8) (v ||| byteIn (memRead c i.toNat s).1 lo) (drawn n s)
    unfold readRawBytes
    simp only [hn]
    exact h

theorem pairReached_of_sameModels (h : sameModels s t) (hs : s.pairReached) : t.pairReached := by
  obtain ⟨hready, henc, hdec⟩ := h
  simpa only [State.pairReached, hready, henc, hdec] using hs

theorem pairReached_decodeDec {b : Byte} (h : decodeDec c s = .ok (b, t)) (hs : s.pairReached) : t.pairReached := by
  obtain ⟨⟨b', M, s'⟩, hd, h⟩ := bind_eq_ok h
  cases h
  obtain ⟨N, hN, hd⟩ := bind_eq_ok hd
  cases hd
  obtain ⟨hready, henc, hdec⟩ := readSymbol_keeps (hasModels_getBit c) s.dec (t := s) ⟨rfl, rfl, rfl⟩
  intro hr
  obtain ⟨hsenc, hsdec⟩ := hs (hready.symm.trans hr)
  exact ⟨henc.symm ▸ hsenc, hsdec.update hN⟩

theorem pairReached_readCoded : ∀ (count : Nat) {lo : Nat} {v w : Word} {s t : State},
    readCoded c count lo v s = .ok (w, t) → s.pairReached → t.pairReached
  | 0, _, _, _, _, _, h, hs => by cases h; exact hs
  | count + 1, _, _, _, _, _, h, hs => by
    obtain ⟨⟨b, u⟩, hd, h⟩ := bind_eq_ok h
    exact pairReached_readCoded count h (pairReached_decodeDec hd hs)

theorem kept_readBitsCore (h : readBitsCore c w s = .ok (v, t)) : Kept c s t := by
  refine (readBitsCore_frame h).kept fun hs => ?_
  unfold readBitsCore at h
  split at h
  · cases h
    exact pairReached_of_sameModels (sameModels_readRawBytes c _ _ _ _ s) hs
  · obtain ⟨got, hgot, h⟩ := bind_eq_ok h
    cases h
    obtain ⟨u, hu, hgot⟩ := bind_eq_ok hgot
    obtain ⟨read, hread, hgot⟩ := bind_eq_ok hgot
    cases hgot
    exact pairReached_readCoded (w := read.1) (t := read.2) _ hread
      (pairReached_of_sameModels (sameModels_readResidual c _ _ _ u) ((kept_ensureModel (c := c) hu).pair hs))

theorem kept_typedRead {e : Word} (h : typedRead c w e s = .ok (v, t)) : Kept c s t := by
  obtain ⟨got, hgot, h⟩ := bind_eq_ok h
  cases h
  exact kept_readBitsCore hgot

theorem kept_deltaRead {old key : Word} (h : deltaRead c old w key s = .ok (v, t)) : Kept c s t := by
  obtain ⟨flag, hflag, h⟩ := bind_eq_ok h
  split at h
  · cases h
    exact kept_readBitsCore hflag
  · obtain ⟨got, hgot, h⟩ := bind_eq_ok h
    cases h
    exact (kept_readBitsCore hflag).trans (kept_readBitsCore hgot)

theorem kept_peekByte (h : peekByte c s = .ok (v, t)) : Kept c s t := by
  obtain ⟨u, w, hu, -, rfl⟩ := peekByte_ok h
  exact (kept_ensureModel hu).trans (kept_freeCount c _ u)

end

/-! ## The commands on a whole buffer -/

section
variable {c : CtxNum} {s t : State}

theorem kept_storeCompressed {start : Word} {out : List Byte} (h : storeCompressed c start out s = .ok t) :
    Kept c s t := by
  unfold storeCompressed at h
  split at h
  · cases h
  · rename_i hfit
    cases h
    exact kept_bufSetMany ⟨rfl, rfl⟩ (.inl (by omega))

theorem decodeStream_length {σ : Type} {get : σ → Bool × σ} : ∀ (count : Nat) {M : Model} {t t' : σ} {bytes : List Byte},
    decodeStream get count M t = .ok (bytes, t') → bytes.length = count
  | 0, _, _, _, _, h => by cases h; rfl
  | count + 1, _, _, _, _, h => by
    obtain ⟨first, -, h⟩ := bind_eq_ok h
    obtain ⟨others, hothers, h⟩ := bind_eq_ok h
    cases h
    simp [decodeStream_length count hothers]

/-- Rule R191: as many bytes are decoded as fit below `MAXSIZE`. -/
theorem kept_decompressed {C : Context} {start : Nat} {out : List Byte} {header : List Byte}
    (hC : C.maxsize = (ctxOf s c).maxsize ∧ C.buf = bufSetMany (ctxOf s c).buf start out)
    (hout : out.length = clampCount header ((ctxOf s c).maxsize.toNat - start)) : Kept c s (setCtx c C s) := by
  refine kept_bufSetMany hC ?_
  have hclamp : out.length ≤ (ctxOf s c).maxsize.toNat - start := hout.trans_le (min_le_right ..)
  rcases Nat.eq_zero_or_pos out.length with h0 | hpos
  · exact .inr (List.length_eq_zero_iff.1 h0)
  · exact .inl (by omega)

/-- Rule R106: the bytes copied lie below the capacity given. -/
theorem kept_copied {S : Context} {bytes : List Byte} (hcap : s.a.toNat ≤ s.params.bufBytes)
    (hfit : bytes.length ≤ s.a.toNat) : Kept c s (setCtx c (copied (ctxOf s c) S s.a bytes) s) := by
  refine kept_setCtx (wf_bufSetMany bytes 0) fun hin => ⟨hcap, fun x hx => ?_⟩
  rcases mem_bufSetMany bytes hx with hnew | hold
  · omega
  · exact hin.2 x hold

end

end Sys2Proof.Machine
end

section
/-! SUPPORT. How a command can end (rules R100, R260, R266): refused with nothing done, run to its end, or with a fault that
its kind allows (rules R267, R268). -/

namespace Sys2Proof.Machine

/-! ## Raw writes -/

/-- The overflow test on sizes in order (rules R36, R121). -/
theorem headroomShort_iff {C : Context} (h : C.cursize ≤ C.maxsize) :
    headroomShort C = true ↔ C.maxsize.toNat - C.cursize.toNat < 4 := by
  have hsub : (C.maxsize - C.cursize).toNat = C.maxsize.toNat - C.cursize.toNat := BitVec.toNat_sub_of_le h
  simp only [headroomShort, decide_eq_true_eq, BitVec.lt_def, hsub]
  rfl

@[simp] theorem length_littleEndian (v : Word) (count : Nat) : (littleEndian v count).length = count := by
  simp [littleEndian]

/-- What a raw write of `n` bits leaves of its context (rule R121). -/
def rawWritten (C : Context) (v : Word) (n : Nat) : Context :=
  { C with buf := bufSetMany C.buf C.cursize.toNat (littleEndian v (n / 8))
           cursize := C.cursize + BitVec.ofNat 32 (n / 8)
           bit := C.bit + BitVec.ofNat 32 n }

/-- A raw write with headroom stores all its bytes (rules R53, R121). -/
theorem writeRaw_of_headroom {C : Context} (hle : C.cursize ≤ C.maxsize) (hh : headroomShort C = false) {n : Nat}
    (hn : n / 8 ≤ 4) (v : Word) : writeRaw C v n = .ok (rawWritten C v n) := by
  have hroom : ¬ C.maxsize.toNat - C.cursize.toNat < 4 := fun hlt =>
    Bool.false_ne_true (hh.symm.trans ((headroomShort_iff hle).2 hlt))
  have hfit : C.cursize.toNat + (littleEndian v (n / 8)).length ≤ C.maxsize.toNat := by
    rw [length_littleEndian]
    omega
  simp only [writeRaw, memWriteMany_below _ C C.cursize hfit, bind, Except.bind]
  rfl

/-- The one fault of `MemWrite`s (rule R53). -/
theorem memWriteMany_error : ∀ (vs : List Byte) {C : Context} {i : Word} {e : FaultCause},
    memWriteMany C i vs = .error e → e = .writeRange
  | [], _, _, _, h => by cases h
  | v :: vs, C, i, e, h => by
    rcases Nat.lt_or_ge i.toNat C.maxsize.toNat with hi | hi
    · simp only [memWriteMany, memWrite_below hi, bind, Except.bind] at h
      exact memWriteMany_error vs h
    · simp only [memWriteMany, memWrite_beyond hi, bind, Except.bind] at h
      cases h
      rfl

theorem writeRaw_error {C : Context} {v : Word} {n : Nat} {e : FaultCause} (h : writeRaw C v n = .error e) :
    e = .writeRange := by
  unfold writeRaw at h
  cases hw : memWriteMany C C.cursize (littleEndian v (n / 8)) with
  | error f => simp only [hw, bind, Except.bind] at h; cases h; exact memWriteMany_error _ hw
  | ok D => simp [hw, bind, Except.bind] at h

section
variable {c : CtxNum} {s : State} {v : Word} {n : Nat} {e : FaultCause}

/-- In raw mode `WriteBitsCore` raises no fault but `WRITE_RANGE`, and none while the sizes are in order (rules R36, R53). -/
theorem writeBitsCore_error_of_raw (ho : (ctxOf s c).oob = true) (hn : n / 8 ≤ 4) (h : writeBitsCore c v n s = .error e) :
    e = .writeRange ∧ ¬ (ctxOf s c).cursize ≤ (ctxOf s c).maxsize := by
  cases hh : headroomShort (ctxOf s c) with
  | true => simp [writeBitsCore, hh] at h
  | false =>
    simp only [writeBitsCore, hh, ho, Bool.false_eq_true, if_false, if_true] at h
    cases hraw : writeRaw (ctxOf s c) (zext n v) n with
    | ok C => simp [hraw, bind, Except.bind] at h
    | error f =>
      simp only [hraw, bind, Except.bind] at h
      cases h
      refine ⟨writeRaw_error hraw, fun hle => ?_⟩
      rw [writeRaw_of_headroom hle hh hn] at hraw
      cases hraw

/-- In raw mode `ReadBitsCore` raises no fault (rule R124). -/
theorem readBitsCore_raw (ho : (ctxOf s c).oob = true) (w : Int) :
    readBitsCore c w s = .ok (extend w (readRaw c (magnitude w) s).1, (readRaw c (magnitude w) s).2) := by
  simp [readBitsCore, ho]

end

/-! ## Which faults a command may raise -/

/-- The faults a command may raise: `WRITE_RANGE`, while the sizes are in order, in compressed-mode writes and `COMPRESS`;
`WEIGHT_OVF` in the commands that code or seed (rules R267, R268). -/
def Raises (s : State) (i : Instr) : FaultCause → Prop
  | .writeRange => s.sizesOk →
      (∃ c, writingContext s i = some c ∧ (ctxOf s c).oob = false) ∨ ∃ c, i = .compress c
  | .weightOvf =>
      (∃ c, writingContext s i = some c ∧ (ctxOf s c).oob = false) ∨
      (∃ c, readingContext s i = some c ∧ ((ctxOf s c).oob = false ∨ i = .lookaheadByte c)) ∨
      (∃ c, i = .compress c) ∨ (∃ c, i = .decompress c) ∨ (∃ c, i = .init c) ∨ (∃ c, i = .initOob c) ∨
      ∃ c, i = .modelInit c

section
variable {c : CtxNum} {s : State} {i : Instr}

theorem raises_of_compressed_write (hi : writingContext s i = some c) (ho : (ctxOf s c).oob = false) (e : FaultCause) :
    Raises s i e := by
  cases e with
  | writeRange => exact fun _ => .inl ⟨c, hi, ho⟩
  | weightOvf => exact .inl ⟨c, hi, ho⟩

theorem raises_of_write {v : Word} {n : Nat} {e : FaultCause} (hi : writingContext s i = some c)
    (hn : (ctxOf s c).oob = true → n / 8 ≤ 4) (hf : s.fault = false) (h : writeBitsCore c v n s = .error e) :
    Raises s i e := by
  cases ho : (ctxOf s c).oob with
  | false => exact raises_of_compressed_write hi ho e
  | true =>
    obtain ⟨rfl, hsizes⟩ := writeBitsCore_error_of_raw ho (hn ho) h
    exact fun hs => absurd (hs hf c) hsizes

theorem raises_of_read {α : Type} {e : Except FaultCause α} (hi : readingContext s i = some c)
    (ho : (ctxOf s c).oob = false ∨ i = .lookaheadByte c) (he : NoWriteRange e) {f : FaultCause} (hf : e = .error f) :
    Raises s i f := by
  cases f with
  | writeRange => exact absurd hf he
  | weightOvf => exact .inr (.inl ⟨c, hi, ho⟩)

theorem raises_of_readBitsCore {w : Int} (hi : readingContext s i = some c) {f : FaultCause}
    (h : readBitsCore c w s = .error f) : Raises s i f := by
  cases ho : (ctxOf s c).oob with
  | false => exact raises_of_read hi (.inl ho) (noWriteRange_readBitsCore c w s) h
  | true => rw [readBitsCore_raw ho] at h; cases h

theorem noWriteRange_deltaRead (c : CtxNum) (old : Word) (w : Int) (key : Word) (s : State) :
    NoWriteRange (deltaRead c old w key s) :=
  (noWriteRange_readBitsCore c 1 s).bind fun _ => by
    split
    · exact noWriteRange_ok _
    · exact (noWriteRange_readBitsCore c w _).bind fun _ => noWriteRange_ok _

theorem noWriteRange_seeded (p : Params) : NoWriteRange (seeded p) := noWriteRange_seedFrom _ _ _

theorem noWriteRange_decodeStream {σ : Type} (get : σ → Bool × σ) : ∀ (count : Nat) (M : Model) (t : σ),
    NoWriteRange (decodeStream get count M t)
  | 0, _, _ => noWriteRange_ok _
  | count + 1, M, t => by
    refine NoWriteRange.bind ?_ fun _ => (noWriteRange_decodeStream get count _ _).bind fun _ => noWriteRange_ok _
    exact (noWriteRange_update M _).bind fun _ => noWriteRange_ok _

end

/-! ## The ends of a command -/

/-- The codes of the reported errors (rule R269). -/
def RespCode.isError (rc : RespCode) : Prop := rc = .invalidArg ∨ rc = .copyTooSmall ∨ rc = .illegalCmd ∨ rc = .faulted

/-- A command that answered an error and did nothing else. -/
def Refused (s t : State) : Prop := ∃ rc : RespCode, rc.isError ∧ t = respond rc 0 s

section
variable {s t : State} {body : State → State}

/-- A command with the checks of rule R100 was refused, or did what its body does. -/
theorem refused_or_body {cs : List CtxNum}
    (h : (.next (prologue false cs s body) : Host.Outcome State Fault Refusal) = .next t) : Refused s t ∨ t = body s := by
  cases h
  rcases prologue_cases false cs s body with ⟨-, -, h⟩ | ⟨-, -, h⟩ | ⟨-, -, h⟩
  · exact .inl ⟨_, .inr (.inr (.inr rfl)), h⟩
  · exact .inl ⟨_, .inr (.inr (.inl rfl)), h⟩
  · exact .inr h

theorem refused_or_guarded {ok : Bool} (h : t = guardArg ok body s) : Refused s t ∨ (ok = true ∧ t = body s) := by
  cases ok with
  | false => exact .inl ⟨_, .inl rfl, h⟩
  | true => exact .inr ⟨rfl, h⟩

end

/-- How a command on context `c` ends that began in `s` and may raise the faults `R`. -/
inductive CommandEnd (R : FaultCause → Prop) (c : CtxNum) (s : State) : State → Prop
  | refused {rc : RespCode} (h : rc.isError) : CommandEnd R c s (respond rc 0 s)
  | completed {u : State} (v : Word) (h : Kept c s u) : CommandEnd R c s (respond .ok v u)
  | faulted {e : FaultCause} (hf : s.fault = false) (h : R e) : CommandEnd R c s (takeFault e s)

section
variable {R : FaultCause → Prop} {c : CtxNum} {s : State}

theorem CommandEnd.invalidArg : CommandEnd R c s (respond .invalidArg 0 s) := .refused (.inl rfl)

theorem CommandEnd.prologue {inFault : Bool} {cs : List CtxNum} {body : State → State}
    (h : s.fault = false ∨ inFault = true → CommandEnd R c s (body s)) :
    CommandEnd R c s (prologue inFault cs s body) := by
  rcases prologue_cases inFault cs s body with ⟨-, -, hp⟩ | ⟨-, -, hp⟩ | ⟨hf, -, hp⟩
  · exact hp ▸ .refused (.inr (.inr (.inr rfl)))
  · exact hp ▸ .refused (.inr (.inr (.inl rfl)))
  · exact hp ▸ h hf

theorem CommandEnd.command {cs : List CtxNum} {body : State → State} (h : s.fault = false → CommandEnd R c s (body s)) :
    CommandEnd R c s (Machine.prologue false cs s body) :=
  .prologue fun hf => h (hf.resolve_right Bool.false_ne_true)

theorem CommandEnd.guardArg {ok : Bool} {body : State → State} (h : ok = true → CommandEnd R c s (body s)) :
    CommandEnd R c s (guardArg ok body s) := by
  cases ok with
  | false => exact .invalidArg
  | true => exact h rfl

theorem CommandEnd.conclude {e : Except FaultCause (Word × State)} (hf : s.fault = false)
    (hok : ∀ v t, e = .ok (v, t) → Kept c s t) (herr : ∀ f, e = .error f → R f) : CommandEnd R c s (conclude s e) := by
  rcases conclude_cases s e with ⟨v, t, he, hc⟩ | ⟨f, he, hc⟩
  · exact hc ▸ .completed v (hok v t he)
  · exact hc ▸ .faulted hf (herr f he)

theorem CommandEnd.noResult {e : Except FaultCause State} (hf : s.fault = false) (hok : ∀ t, e = .ok t → Kept c s t)
    (herr : ∀ f, e = .error f → R f) : CommandEnd R c s (Machine.conclude s (noResult e)) := by
  cases e with
  | error f => exact .faulted hf (herr f rfl)
  | ok t => exact .completed 0 (hok t rfl)

end

/-! ## The end of each command -/

section
variable {c : CtxNum} {s : State} {i : Instr}

theorem writeField_ends {n : Nat} (hi : writingContext s i = some c) (hn : (ctxOf s c).oob = true → n / 8 ≤ 4)
    (hf : s.fault = false) : CommandEnd (Raises s i) c s (writeField c n s) :=
  .noResult hf (fun _ => kept_writeBitsCore) fun _ => raises_of_write hi hn hf

theorem deltaWriteField_ends {n : Nat} {key : Word} (hi : writingContext s i = some c) (ho : (ctxOf s c).oob = false)
    (hf : s.fault = false) : CommandEnd (Raises s i) c s (deltaWriteField c n key s) :=
  .noResult hf (fun _ => kept_deltaWrite) fun e _ => raises_of_compressed_write hi ho e

theorem typedReadField_ends {w : Int} {e : Word} (hi : readingContext s i = some c) (hf : s.fault = false) :
    CommandEnd (Raises s i) c s (typedReadField c w e s) := by
  refine .conclude hf (fun _ _ => kept_typedRead) fun f h => ?_
  rcases typedRead_cases c w e s with ⟨v, t, -, hok⟩ | ⟨g, hg, herr⟩
  · rw [hok] at h; cases h
  · rw [herr] at h; cases h; exact raises_of_readBitsCore hi hg

theorem deltaReadField_ends {w : Int} {key : Word} (hi : readingContext s i = some c) (ho : (ctxOf s c).oob = false)
    (hf : s.fault = false) : CommandEnd (Raises s i) c s (deltaReadField c w key s) :=
  .conclude hf (fun _ _ => kept_deltaRead) fun _ => raises_of_read hi (.inl ho) (noWriteRange_deltaRead _ _ _ _ _)

/-- Rules R101, R102: the capacity given is at most `BUF_BYTES`. -/
theorem initBody_ends {oob : Bool} (hi : i = .init c ∨ i = .initOob c) (hf : s.fault = false) :
    CommandEnd (Raises s i) c s (initBody c oob s) := by
  refine .guardArg fun hcap => .noResult hf (fun t ht => ?_) fun f h => ?_
  · obtain ⟨u, hu, ht⟩ := bind_eq_ok ht
    cases ht
    have hkept := kept_ensureModel (c := c) hu
    refine hkept.trans (kept_setCtx id fun hin => ⟨?_, hin.2⟩)
    rw [hkept.port.1]
    exact of_decide_eq_true hcap
  · cases f with
    | writeRange => exact absurd h ((noWriteRange_ensureModel s).bind fun _ => noWriteRange_ok _)
    | weightOvf =>
      rcases hi with rfl | rfl
      · exact .inr (.inr (.inr (.inr (.inl ⟨c, rfl⟩))))
      · exact .inr (.inr (.inr (.inr (.inr (.inl ⟨c, rfl⟩)))))

theorem modelInit_ends (hf : s.fault = false) :
    CommandEnd (Raises s (.modelInit c)) c s (conclude s (noResult (ensureModel s))) := by
  refine .noResult hf (fun _ => kept_ensureModel) fun f h => ?_
  cases f with
  | writeRange => exact absurd h (noWriteRange_ensureModel s)
  | weightOvf => exact .inr (.inr (.inr (.inr (.inr (.inr ⟨c, rfl⟩)))))

theorem copy_ends {t : State} {src : CtxNum} (h : exec (.copy c src) s = .next t) :
    CommandEnd (Raises s (.copy c src)) c s t := by
  cases h
  refine .command fun _ => .guardArg fun hcap => ?_
  split
  · exact .refused (.inr (.inl rfl))
  · rename_i hfit
    obtain ⟨n, hn⟩ := memReadMany_frame src (ctxOf s src).cursize.toNat 0 s
    simp only [hn]
    refine .completed 0 ((kept_drawn c n s).trans (kept_copied (s := drawn n s) (of_decide_eq_true hcap) ?_))
    rw [memReadMany_length]
    exact BitVec.not_lt.1 hfit

theorem compress_ends {t : State} (h : exec (.compress c) s = .next t) :
    CommandEnd (Raises s (.compress c)) c s t := by
  cases h
  refine .command fun hf => ?_
  split
  · exact .completed 0 (.refl c s)
  · refine .guardArg fun _ => .noResult hf (fun t ht => ?_) fun f _ => ?_
    · obtain ⟨out, -, ht⟩ := bind_eq_ok ht
      obtain ⟨n, hn⟩ := memReadMany_frame c ((ctxOf s c).cursize - s.a).toNat s.a.toNat s
      rw [hn] at ht
      exact (kept_drawn c n s).trans (kept_storeCompressed ht)
    · cases f with
      | writeRange => exact fun _ => .inr ⟨c, rfl⟩
      | weightOvf => exact .inr (.inr (.inl ⟨c, rfl⟩))

theorem decompress_ends {t : State} (h : exec (.decompress c) s = .next t) :
    CommandEnd (Raises s (.decompress c)) c s t := by
  cases h
  refine .command fun hf => ?_
  split
  · exact .completed 0 (.refl c s)
  · obtain ⟨n, hn⟩ := memReadMany_frame c 2 s.a.toNat s
    refine .noResult hf (fun t ht => ?_) fun f h => ?_
    · obtain ⟨M, -, ht⟩ := bind_eq_ok ht
      obtain ⟨out, hout, ht⟩ := bind_eq_ok ht
      cases ht
      rw [hn]
      exact ((kept_drawn c n s).trans (kept_drawn c _ _)).trans
        (kept_decompressed ⟨rfl, rfl⟩ (decodeStream_length _ hout))
    · cases f with
      | writeRange =>
        refine absurd h ((noWriteRange_seeded _).bind fun _ => NoWriteRange.bind ?_ fun _ => noWriteRange_ok _)
        exact noWriteRange_decodeStream _ _ _ _
      | weightOvf => exact .inr (.inr (.inr (.inl ⟨c, rfl⟩)))

theorem regValue_ends {R : FaultCause → Prop} (v : Word) : CommandEnd R c s (regValue v s) := by
  unfold regValue
  split
  · exact .completed _ (kept_freeCount c _ s)
  · exact .completed _ (.refl c s)

theorem regStatus_ends {R : FaultCause → Prop} : CommandEnd R c s (regStatus s) := by
  unfold regStatus
  split
  · exact .completed _ (kept_freeCount c _ s)
  · exact .completed _ (.refl c s)

theorem regRead_ends {t : State} (h : exec (.regRead c) s = .next t) : CommandEnd (Raises s (.regRead c)) c s t := by
  cases h
  refine .prologue fun _ => ?_
  split
  iterate 5 exact regValue_ends _
  · exact regStatus_ends
  · exact .completed _ (.refl c s)
  · exact .completed _ (.refl c s)
  · exact .invalidArg

theorem regWrite_ends {t : State} (h : exec (.regWrite c) s = .next t) : CommandEnd (Raises s (.regWrite c)) c s t := by
  cases h
  refine .command fun _ => ?_
  split
  · exact .guardArg fun _ => .completed 0 (kept_registers rfl rfl)
  · exact .completed 0 (kept_registers rfl rfl)
  · exact .invalidArg

theorem bufWrite_ends {t : State} (h : exec (.bufWrite c) s = .next t) : CommandEnd (Raises s (.bufWrite c)) c s t := by
  cases h
  refine .command fun _ => .guardArg fun hlt => .completed 0 ?_
  refine kept_bufSetMany (i := s.a.toNat) (vs := [s.b.setWidth 8]) ⟨rfl, rfl⟩ (.inl ?_)
  have hlt' : s.a.toNat < (ctxOf s c).maxsize.toNat := of_decide_eq_true hlt
  simpa using hlt'

end

/-- The delta commands are compressed-mode commands (rule R210). -/
theorem oob_of_deltaOk {oob : Bool} {w : Int} (h : deltaOk oob w = true) : oob = false := by
  simp only [deltaOk, Bool.and_eq_true, Bool.not_eq_true'] at h
  exact h.1

/-- Every command ends in one of the three ways, and touches no context but the one its `CTX` field names. -/
theorem exec_ends {i : Instr} {s t : State} (h : exec i s = .next t) :
    ∃ c, i.contexts.head? = some c ∧ CommandEnd (Raises s i) c s t := by
  cases i with
  | init c => cases h; exact ⟨c, rfl, .command (initBody_ends (.inl rfl))⟩
  | initOob c => cases h; exact ⟨c, rfl, .command (initBody_ends (.inr rfl))⟩
  | clear c | beginRead c | beginReadOob c =>
    cases h
    exact ⟨c, rfl, .command fun _ => .completed 0 (kept_registers rfl rfl)⟩
  | copy c src => exact ⟨c, rfl, copy_ends h⟩
  | modelInit c => cases h; exact ⟨c, rfl, .command modelInit_ends⟩
  | writeBits c w7 =>
    cases h
    refine ⟨c, rfl, .command fun hf => .guardArg fun hok => writeField_ends rfl (fun ho => ?_) hf⟩
    exact (rawWidth_of_widthOk (ho ▸ hok)).2
  | writeChar c | writeByte c | writeShort c | writeLong c | writeFloat c =>
    cases h
    exact ⟨c, rfl, .command (writeField_ends rfl fun _ => by decide)⟩
  | readBits c w7 =>
    cases h
    exact ⟨c, rfl, .command fun hf => .guardArg fun _ =>
      .conclude hf (fun _ _ => kept_readBitsCore) fun _ => raises_of_readBitsCore rfl⟩
  | readChar c | readByte c | readShort c | readLong c | readFloat c =>
    cases h
    exact ⟨c, rfl, .command (typedReadField_ends rfl)⟩
  | lookaheadByte c =>
    cases h
    exact ⟨c, rfl, .command fun hf => .conclude hf (fun _ _ => kept_peekByte) fun _ =>
      raises_of_read rfl (.inr rfl) (noWriteRange_peekByte c s)⟩
  | writeDelta c w7 | writeDeltaKey c w7 =>
    cases h
    exact ⟨c, rfl, .command fun hf => .guardArg fun hok => deltaWriteField_ends rfl (oob_of_deltaOk hok) hf⟩
  | readDelta c w7 | readDeltaKey c w7 =>
    cases h
    exact ⟨c, rfl, .command fun hf => .guardArg fun hok => deltaReadField_ends rfl (oob_of_deltaOk hok) hf⟩
  | writeDeltaFloat c | writeDeltaKeyFloat c =>
    cases h
    exact ⟨c, rfl, .command fun hf => .guardArg fun hok => deltaWriteField_ends rfl (by simpa using hok) hf⟩
  | readDeltaFloat c | readDeltaKeyFloat c =>
    cases h
    exact ⟨c, rfl, .command fun hf => .guardArg fun hok => deltaReadField_ends rfl (by simpa using hok) hf⟩
  | compress c => exact ⟨c, rfl, compress_ends h⟩
  | decompress c => exact ⟨c, rfl, decompress_ends h⟩
  | regRead c => exact ⟨c, rfl, regRead_ends h⟩
  | regWrite c => exact ⟨c, rfl, regWrite_ends h⟩
  | bufRead c => cases h; exact ⟨c, rfl, .command fun _ => .guardArg fun _ => .completed _ (.refl c s)⟩
  | bufWrite c => exact ⟨c, rfl, bufWrite_ends h⟩

end Sys2Proof.Machine
end

section
/-! What every command and every step keeps: precise errors, the fault registers, the frame, and the invariants of the state
and of the models (rules R36 to R38, R100, R260 to R269). -/

namespace Sys2Proof.Machine

/-! ## Faults and reported errors -/

/-- Settles O10: a command that answers an error was refused; one that ran to its end answers `OK`, and a fault has a code of
its own. -/
theorem reportedErrorsArePrecise : Obligations.ReportedErrorsArePrecise := by
  intro i s t h hrc
  obtain ⟨c, -, hend⟩ := exec_ends h
  cases hend with
  | refused _ => rfl
  | completed v _ => simp at hrc
  | @faulted e _ _ => cases e <;> simp [respOfFault] at hrc

/-- Settles O11: `FAULT` is set where a fault is taken, and there alone; a reported error and a command that runs to its end
leave the fault registers. -/
theorem faultRecordsItsCause : Obligations.FaultRecordsItsCause := by
  intro i s t hf h
  obtain ⟨c, -, hend⟩ := exec_ends h
  cases hend with
  | refused herr => rcases herr with rfl | rfl | rfl | rfl <;> simp [hf]
  | completed v hkept => simp [hf, hkept.fault.1, hkept.fault.2]
  | @faulted e _ _ => cases e <;> simp [respOfFault, respBits, samePort]

/-- Settles O12: the ways a command can end name the faults its kind may raise. -/
theorem onlyCodingCommandsFault : Obligations.OnlyCodingCommandsFault := by
  intro i s t hf hsizes h
  obtain ⟨c, -, hend⟩ := exec_ends h
  cases hend with
  | refused herr => rcases herr with rfl | rfl | rfl | rfl <;> simp
  | completed v _ => simp
  | @faulted e _ hR =>
    cases e with
    | writeRange => exact ⟨fun _ => hR hsizes, by simp [respOfFault]⟩
    | weightOvf => exact ⟨by simp [respOfFault], fun _ => hR⟩

/-- Settles O21: none of the ways a command can end writes the port. -/
theorem commandsKeepPortAndParameters : Obligations.CommandsKeepPortAndParameters := by
  intro i s t h
  obtain ⟨c, -, hend⟩ := exec_ends h
  cases hend with
  | refused _ | faulted _ _ => exact ⟨rfl, rfl, rfl, rfl, rfl⟩
  | completed v hkept => exact hkept.port

/-- Settles O22: a command that runs to its end writes its own context alone, and a command that does not either changes no
context or takes a fault. -/
theorem otherContextsAreUntouched : Obligations.OtherContextsAreUntouched := by
  intro i s t d h hsame hd
  obtain ⟨c, hc, hend⟩ := exec_ends h
  cases hend with
  | refused _ => rfl
  | completed v hkept => exact hkept.others d fun e => hd (e ▸ hc)
  | faulted hf _ => exact nomatch hsame.trans hf

/-! ## The faulted state -/

theorem prologue_of_fault {cs : List CtxNum} {s : State} (hf : s.fault = true) (body : State → State) :
    prologue false cs s body = respond .faulted 0 s := by
  simp [prologue, hf]

/-- Rule R263, step 1: every command but `REG_READ` makes the check for the faulted state. -/
theorem exec_of_fault {i : Instr} {s : State} (hf : s.fault = true) (hi : ∀ c, i ≠ .regRead c) :
    exec i s = .next (respond .faulted 0 s) := by
  cases i with
  | regRead c => exact absurd rfl (hi c)
  | _ => exact congrArg Host.Outcome.next (prologue_of_fault hf _)

/-- A word whose opcode is not `REG_READ`'s, in the faulted state (rule R263, step 1). -/
theorem execWord_of_fault {w : Word} {s : State} (hf : s.fault = true) (hw : fieldOpc w ≠ 0x50) :
    execWord w s = .next (respond .faulted 0 s) := by
  cases hd : decode w with
  | some i =>
    rw [execWord_of_decode hd]
    refine exec_of_fault hf fun c hi => hw ?_
    rw [← opcodeOf_of_decode hd, hi]
    rfl
  | none =>
    have hw' : fieldOpc w ≠ 80#8 := hw
    simp [execWord, hd, rejectWord, hf, hw']

/-- Settles O8. -/
theorem faultedStateAnswersFaulted : Obligations.FaultedStateAnswersFaulted :=
  ⟨fun _ _ => exec_of_fault, fun _ _ => execWord_of_fault⟩

/-- `REG_READ` reads and changes nothing, in the faulted state too (rules R250, R266). -/
theorem readsOnly_regRead {c : CtxNum} {s t : State} (h : exec (.regRead c) s = .next t) : ReadsOnly s t := by
  by_cases hc : c.toNat < s.params.nctx
  · rcases exec_regRead_cases (s := s) hc with ⟨v, -, h'⟩ | ⟨-, h'⟩ | ⟨-, h'⟩ | ⟨-, h'⟩ | ⟨-, h'⟩ <;> rw [h'] at h <;> cases h
    · exact readsOnly_regValue _ _
    · exact readsOnly_regStatus _
    all_goals exact readsOnly_respond _ _ _
  · cases h
    rcases prologue_cases true [c] s _ with ⟨-, hin, -⟩ | ⟨-, -, hp⟩ | ⟨-, hall, -⟩
    · cases hin
    · rw [hp]
      exact readsOnly_respond _ _ _
    · exact absurd (hall c (by simp)) hc

/-- Settles O9: in the faulted state a word of another opcode than `REG_READ`'s is answered and nothing else; `REG_READ` reads
only; a word of its opcode that is no command is illegal. The reset event clears `FAULT`. -/
theorem faultStaysUntilReset : Obligations.FaultStaysUntilReset := by
  refine ⟨fun s t e rest hf hp hstep => ?_, fun s rest hp => ⟨_, step_of_reset hp, rfl, rfl⟩⟩
  rw [step_of_command hp] at hstep
  suffices ReadsOnly (loadPort e rest s) t ∧ (t.rc = .faulted ∨ fieldOpc e.cw = 0x50) by
    obtain ⟨⟨⟨hparams, -⟩, hfault, hmodels, hctxs⟩, hrc⟩ := this
    exact ⟨hfault, hmodels, hctxs, hparams, hrc⟩
  by_cases hop : fieldOpc e.cw = 0x50
  · refine ⟨?_, .inr hop⟩
    cases hd : decode e.cw with
    | some i =>
      rw [execWord_of_decode hd] at hstep
      by_cases hi : ∃ c, i = .regRead c
      · obtain ⟨c, rfl⟩ := hi
        exact readsOnly_regRead hstep
      · rw [exec_of_fault (s := loadPort e rest s) hf (not_exists.1 hi)] at hstep
        cases hstep
        exact readsOnly_respond _ _ _
    | none =>
      have hrej : execWord e.cw (loadPort e rest s) = .next (respond .illegalCmd 0 (loadPort e rest s)) := by
        simp [execWord, hd, rejectWord, hop]
      rw [hrej] at hstep
      cases hstep
      exact readsOnly_respond _ _ _
  · rw [execWord_of_fault (s := loadPort e rest s) hf hop] at hstep
    cases hstep
    exact ⟨readsOnly_respond _ _ _, .inl rfl⟩

/-! ## The invariants -/

section
variable {R : FaultCause → Prop} {c : CtxNum} {s t : State}

/-- However a command ends, the invariant of the state is kept. -/
theorem CommandEnd.inv (h : CommandEnd R c s t) (hs : s.Inv) : t.Inv := by
  obtain ⟨hparams, hwf, hcap, hclear, hset⟩ := hs
  cases h with
  | refused _ => exact ⟨hparams, hwf, hcap, hclear, hset⟩
  | @completed u v hkept =>
    have hp : u.params = s.params := hkept.port.1
    obtain ⟨hfault, hcause⟩ := hkept.fault
    refine ⟨?_, fun d => ?_, fun hf d => ?_, ?_, ?_⟩
    · rw [respond_params, hp]
      exact hparams
    · rw [respond_ctxOf]
      by_cases hd : d = c
      · exact hd ▸ hkept.wf (hwf c)
      · exact hkept.others d hd ▸ hwf d
    · rw [respond_ctxOf, respond_params, hp]
      have hcap := hcap (hfault.symm.trans hf)
      by_cases hd : d = c
      · exact hd ▸ hkept.within (hcap c)
      · exact hkept.others d hd ▸ hcap d
    · simpa only [respond_fault, respond_fcause, hfault, hcause] using hclear
    · simpa only [respond_fault, respond_fcause, hfault, hcause] using hset
  | @faulted e _ _ =>
    refine ⟨hparams, fun d => ?_, nofun, nofun, fun _ => ?_⟩
    · rw [takeFault_ctxOf]
      exact unspecified_wf _ _
    · cases e
      · exact .inl rfl
      · exact .inr rfl

/-- However a command ends, a seeded pair is a pair of reached models outside the faulted state. -/
theorem CommandEnd.modelsReached (h : CommandEnd R c s t) (hs : s.modelsReached) : t.modelsReached := by
  cases h with
  | refused _ => exact hs
  | completed v hkept => exact fun hf => hkept.pair (hs (hkept.fault.1.symm.trans hf))
  | faulted _ _ => exact nofun

/-- A step is nothing, the reset, a word that is answered, or a command that ends. -/
theorem step_cases (h : step s = .next t) :
    t = s ∨ (∃ rest, t = hardReset rest s) ∨
      ∃ e rest, (∃ rc, t = respond rc 0 (loadPort e rest s)) ∨ ∃ R c, CommandEnd R c (loadPort e rest s) t := by
  rcases hp : s.pending with _ | ⟨e | _, rest⟩
  · rw [step_of_nothing hp] at h
    exact .inl (by cases h; rfl)
  · rw [step_of_command hp] at h
    refine .inr (.inr ⟨e, rest, ?_⟩)
    cases hd : decode e.cw with
    | some i =>
      rw [execWord_of_decode hd] at h
      obtain ⟨c, -, hend⟩ := exec_ends h
      exact .inr ⟨_, c, hend⟩
    | none =>
      simp only [execWord, hd, rejectWord] at h
      cases h
      left
      split
      · exact ⟨_, rfl⟩
      · exact ⟨_, rfl⟩
  · rw [step_of_reset hp] at h
    exact .inr (.inl ⟨rest, by cases h; rfl⟩)

end

/-- The reset state, and so the state after a reset event, whose parameters, contexts and fault registers are the same. -/
theorem inv_resetWith {p : Params} (hp : p.Ok) : (State.resetWith p).Inv := by
  refine ⟨hp, reset_buffersWf p, fun _ c => ?_, fun _ => rfl, nofun⟩
  rw [resetWith_ctxOf]
  exact ⟨Nat.zero_le _, nofun⟩

theorem paramsOk_config : Config.params.Ok := by
  refine ⟨by decide, by decide, by decide, by decide, List.length_replicate, ?_⟩
  simp only [Config.params, List.map_replicate, List.sum_replicate]
  decide

/-- Settles O15: after reset every context is empty, no fault is set and no pair is seeded. -/
theorem resetMeetsStateInv : Obligations.ResetMeetsStateInv := by
  refine ⟨fun p hp => ⟨inv_resetWith hp, fun _ c => ?_, fun _ => nofun⟩, inv_resetWith ?_⟩
  · rw [resetWith_ctxOf]
    exact BitVec.le_refl _
  · exact paramsOk_config

/-- Settles O14: a step is nothing, the reset event, or a command; each way a command can end keeps the invariant. -/
theorem stepKeepsStateInv : Obligations.StepKeepsStateInv := by
  intro s t hs hstep
  rcases step_cases hstep with rfl | ⟨rest, rfl⟩ | ⟨e, rest, ⟨rc, rfl⟩ | ⟨R, c, hend⟩⟩
  · exact hs
  · exact inv_resetWith hs.1
  · exact hs
  · exact hend.inv hs

/-- Settles O16: the reset event leaves no pair seeded; a command that runs to its end keeps the pair reached, and one that
faults leaves the faulted state. -/
theorem stepKeepsModelsReached : Obligations.StepKeepsModelsReached := by
  intro s t hs hstep
  rcases step_cases hstep with rfl | ⟨rest, rfl⟩ | ⟨e, rest, ⟨rc, rfl⟩ | ⟨R, c, hend⟩⟩
  · exact hs
  · exact fun _ => nofun
  · exact hs
  · exact hend.modelsReached hs

end Sys2Proof.Machine
end

section
/-! The root's weight (rules R175, R178, R268): it is the greatest of the list, so an update that leaves it below `2^32` meets
no weight it cannot raise, and raises the root's by one. -/

namespace Sys2Proof.Machine

/-! ## The root's weight through a climb -/

/-- The weight the root has once the climb is done: its own, and one more while a node is due. -/
def rootWt (M : Model) (due : Option NodeId) : Nat := wt M M.root + if due = none then 0 else 1

@[simp] theorem rootWt_none (M : Model) : rootWt M none = wt M M.root := rfl

@[simp] theorem rootWt_some (M : Model) (n : NodeId) : rootWt M (some n) = wt M M.root + 1 := rfl

theorem weight_ne_of_wt_lt {M : Model} {k : NodeId} (h : wt M k + 1 < 2 ^ 32) : (node M k).weight ≠ BitVec.allOnes 32 := by
  intro e
  rw [wt, e, BitVec.toNat_allOnes] at h
  omega

section
variable {M : Model} {pos : NodeId → Nat} {due : Option NodeId} {path : List NodeId} {n k : NodeId}

/-- The root is last in the list (rule R175 (b), (c)). -/
theorem TreeShape.wt_le_root (h : TreeShape M pos due) (hs : Sorted M pos) (hk : M.uses k) : wt M k ≤ wt M M.root := by
  have hbelow := h.below k hk
  have hlast := h.root_last
  exact hs k M.root hk h.root_uses (by omega)

/-- The exchange of steps 1 and 2 leaves a root of the same weight (rule R178). -/
theorem Climbing.wt_root_passBlock (h : Climbing M pos (some n) path) :
    wt (Machine.passBlock M n) (Machine.passBlock M n).root = wt M M.root := by
  obtain ⟨hn, -, -, -⟩ := h.at_due n rfl
  obtain ⟨hl, -, hwl, -⟩ := h.tree.leader_spec h.sorted h.linkedFrom hn
  by_cases hln : leader M n = n
  · rw [passBlock_of_leader_self hln]
  · by_cases hp : (node M n).parent = some (leader M n)
    · have hs := sameTree_swapList M (leader M n) n
      rw [passBlock_of_leader_parent rfl hln hp, wt, hs.weight, hs.root, wt]
    · have hx := exchanged_exchange hln (h.tree.rooted _ hl) (h.tree.rooted n hn)
      rw [passBlock_of_leader_other rfl hln hp, wt, hx.weight, hx.root, ← wt, wt_swap hwl]

@[simp] theorem bump_root (M : Model) (n : NodeId) : (bump M n).root = M.root := rfl

/-- One more to a node is one more to the root, or leaves it to the node's parent. -/
theorem rootWt_bump (hroot : (node M n).parent = none ↔ n = M.root) (hw : (node M n).weight ≠ BitVec.allOnes 32) :
    rootWt (bump M n) (node M n).parent = wt M M.root + 1 := by
  simp only [rootWt, bump_root, wt_bump hw, hroot, eq_comm (a := M.root)]
  split <;> omega

/-- Two rounds of the climb where the leader is the parent, both weights below the limit (rule R178). -/
theorem climb_of_turn {l : NodeId} (hlead : leader M n = l) (hln : l ≠ n) (hl : (node M n).parent = some l)
    (hself : leader (bump (swapList M l n) n) l = l) (hwn : (node M n).weight ≠ BitVec.allOnes 32)
    (hwl : (node M l).weight ≠ BitVec.allOnes 32) (fuel : Nat) :
    climb (fuel + 1 + 1) M (some n) path = climb fuel (turn M n l) (node M l).parent (l :: n :: path) := by
  have hs := sameTree_swapList M l n
  rw [climb_succ_some, passBlock_of_leader_parent hlead hln hl, hs.weight, if_neg hwn, parent_bump, hs.parent, hl,
    climb_succ_some, passBlock_of_leader_self hself, weight_half_turn hln, if_neg hwl, parent_bump, parent_bump, hs.parent]
  rfl

/-- Two rounds are one more to the root, or leave it to the parent's parent. -/
theorem rootWt_turn {l : NodeId} (hln : l ≠ n) (hnr : n ≠ M.root) (hroot : (node M l).parent = none ↔ l = M.root)
    (hwn : (node M n).weight ≠ BitVec.allOnes 32) (hwl : (node M l).weight ≠ BitVec.allOnes 32) :
    rootWt (turn M n l) (node M l).parent = wt M M.root + 1 := by
  have hr : (turn M n l).root = M.root := by
    rw [turn, bump_root, bump_root, (sameTree_swapList M l n).root]
  simp only [rootWt, hr, wt_turn hln hwn hwl, hroot, hnr.symm, if_false, eq_comm (a := M.root)]
  split <;> omega

/-- A climb that leaves the root's weight below `2^32` succeeds, and gives it that weight (rule R178). -/
theorem Climbing.climb_succeeds (fuel : Nat) (h : Climbing M pos due path)
    (hf : ∀ n, due = some n → M.nnodes ≤ fuel + pos n) (hw : rootWt M due < 2 ^ 32) :
    ∃ N path', Machine.climb fuel M due path = .ok (N, path') ∧ wt N N.root = rootWt M due := by
  induction fuel using Nat.strong_induction_on generalizing M pos due path with
  | _ fuel ih =>
  cases due with
  | none => exact ⟨M, path, climb_none fuel M path, rfl⟩
  | some n =>
  obtain ⟨hn, -, -, -⟩ := h.at_due n rfl
  have hfuel := hf n rfl
  have hbelow := h.tree.below n hn
  have hle {k : NodeId} (hk : M.uses k) : (node M k).weight ≠ BitVec.allOnes 32 := by
    have := h.tree.wt_le_root h.sorted hk
    exact weight_ne_of_wt_lt (by rw [rootWt_some] at hw; omega)
  obtain ⟨fuel, rfl⟩ : ∃ f, fuel = f + 1 := ⟨fuel - 1, by omega⟩
  by_cases hl : (node M n).parent = some (leader M n)
  · obtain ⟨hlu, hlater⟩ := h.tree.later n _ hn hl
    have hln : leader M n ≠ n := fun e => by rw [e] at hlater; exact lt_irrefl _ hlater
    have hsize := h.tree.below _ hlu
    have hnr : n ≠ M.root := fun e => by simp [(h.tree.rooted n hn).2 e] at hl
    have hrw := rootWt_turn hln hnr (h.tree.rooted _ hlu) (hle hn) (hle hlu)
    obtain ⟨fuel, rfl⟩ : ∃ f, fuel = f + 1 := ⟨fuel - 1, by omega⟩
    rw [climb_of_turn rfl hln hl (h.leader_turn hl rfl (hle hn)) (hle hn) (hle hlu), rootWt_some, ← hrw]
    refine ih fuel (by omega) (h.turn hl rfl (hle hn) (hle hlu)) (fun p hp => ?_) (hrw.trans_lt hw)
    have := (h.tree.later _ p hlu hp).2
    rw [turn_nnodes]
    omega
  · obtain ⟨pos', h', hge, hsize, hlast⟩ := h.passBlock hl
    have hn' := (h'.at_due n rfl).1
    have hroot := h.wt_root_passBlock
    have hnw : (node (Machine.passBlock M n) n).weight ≠ BitVec.allOnes 32 := by
      have := h'.tree.wt_le_root h'.sorted hn'
      exact weight_ne_of_wt_lt (by rw [rootWt_some] at hw; omega)
    have hrw := (rootWt_bump (h'.tree.rooted n hn') hnw).trans (congrArg (· + 1) hroot)
    rw [climb_succ_some, if_neg hnw, parent_bump, rootWt_some, ← hrw]
    refine ih fuel (by omega) (h'.bump hlast hnw) (fun p hp => ?_) (hrw.trans_lt hw)
    have := (h'.tree.later n p hn' hp).2
    rw [bump_nnodes]
    omega

theorem Climbing.increment_succeeds (h : Climbing M pos due []) (hw : rootWt M due < 2 ^ 32) :
    ∃ N, increment M due = .ok N ∧ wt N N.root = rootWt M due := by
  have hsize := h.tree.nnodes_le
  obtain ⟨N, path, hc, hN⟩ := h.climb_succeeds Config.poolNodes (fun n _ => by omega) hw
  have hs := sameTree_foldl_repair path N
  refine ⟨path.foldl repair N, by simp [increment, hc, bind, Except.bind], ?_⟩
  rw [wt, hs.weight, hs.root, ← wt, hN]

/-! ## `Update` -/

/-- What is due after the first part of `Introduce` (rule R177): one more for the old root, or nothing where the new inner
node is the root. -/
theorem rootWt_graft {s : Byte} (h : PairedRest M pos) (hs : locOf M s = none) :
    rootWt (graft M s) (node M M.lhead).parent = wt M M.root + 1 := by
  have g := grafted (h.tree.room hs) s
  obtain ⟨hleaf, hinner, -⟩ := g.fresh
  rw [rootWt, g.wt_eq, g.root]
  by_cases hp : (node M M.lhead).parent = none
  · have hroot : M.lhead = M.root := (h.tree.rooted _ h.tree.head_uses).1 hp
    simp [hp, ← hroot, h.tree.head_wt]
  · have hri : M.root ≠ newInner M := fun e => hinner (e ▸ h.tree.root_uses)
    have hrl : M.root ≠ newLeaf M := fun e => hleaf (e ▸ h.tree.root_uses)
    simp [hp, hri, hrl]

/-- An update that keeps the root's weight below `2^32` succeeds and raises it by one (rules R176 to R178). -/
theorem PairedRest.update_succeeds (h : PairedRest M pos) (s : Byte) (hw : wt M M.root + 1 < 2 ^ 32) :
    ∃ N, Machine.update M s = .ok N ∧ wt N N.root = wt M M.root + 1 := by
  rcases update_cases M s with ⟨hs, e⟩ | ⟨n, hs, e⟩ <;> rw [e]
  · have hroot := rootWt_graft h hs
    obtain ⟨N, hN, hwt⟩ := ((grafted (h.tree.room hs) s).climbing h hs).increment_succeeds (hroot.trans_lt hw)
    exact ⟨N, hN, hwt.trans hroot⟩
  · exact (h.climbing_leaf hs).increment_succeeds hw

end

/-- Each of fewer than `2^32` updates succeeds and counts (rule R268). -/
theorem updates_succeed : ∀ (bytes : List Byte) {M : Model}, M.Reached → wt M M.root + bytes.length < 2 ^ 32 →
    ∃ N, updates M bytes = .ok N ∧ wt N N.root = wt M M.root + bytes.length
  | [], M, _, _ => ⟨M, rfl, rfl⟩
  | s :: ss, M, h, hw => by
    rw [List.length_cons] at hw
    obtain ⟨pos, hpos⟩ := h.pairedRest
    obtain ⟨N, hN, hwt⟩ := hpos.update_succeeds s (by omega)
    obtain ⟨P, hP, hwtP⟩ := updates_succeed ss (h.update hN) (by omega)
    refine ⟨P, by simp [updates, hN, hP, bind, Except.bind], ?_⟩
    rw [hwtP, hwt, List.length_cons]
    omega

/-! ## Seeding -/

/-- The bytes `Seeded(FREQ)` updates by, from byte value `i` on (rule R180). -/
def seedBytes : Nat → List Word → List Byte
  | _, [] => []
  | i, count :: counts => List.replicate count.toNat (BitVec.ofNat 8 i) ++ seedBytes (i + 1) counts

theorem length_seedBytes : ∀ (counts : List Word) (i : Nat), (seedBytes i counts).length = (counts.map BitVec.toNat).sum
  | [], _ => rfl
  | count :: counts, i => by simp [seedBytes, length_seedBytes counts]

theorem updateTimes_eq_updates (s : Byte) : ∀ (count : Nat) (M : Model),
    updateTimes s count M = updates M (List.replicate count s)
  | 0, _ => rfl
  | count + 1, M => by
    rw [updateTimes, List.replicate_succ, updates]
    exact congrArg (update M s >>= ·) (funext fun N => updateTimes_eq_updates s count N)

theorem seedFrom_eq_updates : ∀ (counts : List Word) (i : Nat) (M : Model),
    seedFrom i counts M = updates M (seedBytes i counts)
  | [], _, _ => rfl
  | count :: counts, i, M => by
    rw [seedFrom, seedBytes, updates_append, updateTimes_eq_updates]
    exact congrArg (updates M _ >>= ·) (funext fun N => seedFrom_eq_updates counts (i + 1) N)

/-- Settles O20: the empty model's root has weight 0, each update adds one, and `Seeded(FREQ)` is as many updates as `FREQ`
counts. -/
theorem updatesSucceedBelowTheWeightLimit : Obligations.UpdatesSucceedBelowTheWeightLimit := by
  have hempty (bytes : List Byte) (h : bytes.length < 2 ^ 32) :
      ∃ M, updates emptyModel bytes = .ok M ∧ (node M M.root).weight.toNat = bytes.length := by
    have h0 : wt emptyModel emptyModel.root = 0 := rfl
    obtain ⟨M, hM, hwt⟩ := updates_succeed bytes reached_empty (by omega)
    exact ⟨M, hM, hwt.trans (by omega)⟩
  refine ⟨hempty, fun p hp => ?_⟩
  obtain ⟨-, -, -, -, -, hsum⟩ := hp
  rw [seeded, seedFrom_eq_updates, ← length_seedBytes p.freq 0]
  exact hempty _ (by rw [length_seedBytes]; omega)

end Sys2Proof.Machine
end

section
/-! `SwapTree` on two siblings (rule R179, the cases of the exchanges, (c)). -/

namespace Sys2Proof.Machine

section
variable {M : Model} {p l r : NodeId}

/-- Rule R177: the side the old node is on. -/
theorem relink_of_left {old : NodeId} (h : (node M p).left = some old) (new : NodeId) :
    relink M (some p) old new = setLeft M p (some new) := if_pos h

theorem relink_of_not_left {old : NodeId} (h : (node M p).left ≠ some old) (new : NodeId) :
    relink M (some p) old new = setRight M p (some new) := if_neg h

/-- Left child first: the second `relink` puts back what the first took. -/
theorem swapTree_left_right (hl : (node M p).left = some l) (hpl : (node M l).parent = some p)
    (hpr : (node M r).parent = some p) :
    swapTree M l r = setParent (setParent (setLeft (setLeft M p (some r)) p (some l)) l (some p)) r (some p) := by
  have hback : (node (setLeft M p (some r)) p).left = some r := by simp [node_setLeft]
  simp only [swapTree, hpl, hpr, relink_of_left hl, relink_of_left hback]

/-- Right child first: the first `relink` writes the right side, the second the left. -/
theorem swapTree_right_left (hlr : l ≠ r) (hl : (node M p).left = some l) (hpl : (node M l).parent = some p)
    (hpr : (node M r).parent = some p) :
    swapTree M r l = setParent (setParent (setLeft (setRight M p (some l)) p (some r)) r (some p)) l (some p) := by
  have hnot : (node M p).left ≠ some r := by simpa [hl] using hlr
  have hleft : (node (setRight M p (some l)) p).left = some l := by simp [node_setRight, hl]
  simp only [swapTree, hpl, hpr, relink_of_not_left hnot, relink_of_left hleft]

/-- A node whose parent is written with what it was is as it was. -/
theorem setParent_node_eq {n : NodeId} {q : Option NodeId} (h : (node M n).parent = q) (k : NodeId) :
    node (setParent M n q) k = node M k := by
  rw [node_setParent]
  split
  · subst_vars
    rfl
  · rfl

end

/-- Settles O54: the parents written are those the siblings have, so only the two sides of `p` can change. -/
theorem swapTreeOnSiblings : Obligations.SwapTreeOnSiblings := by
  rintro M p l r hlr - - hl hr hpl hpr
  refine ⟨?_, ?_⟩
  · rw [swapTree_left_right hl hpl hpr]
    refine ⟨rfl, fun n => ?_⟩
    rw [setParent_node_eq (by simp [parent_setParent, hpr]),
      setParent_node_eq (by simp [hpl]), node_setLeft, node_setLeft]
    by_cases hn : n = p
    · simp [hn, ← hl]
    · simp [hn]
  · rw [swapTree_right_left hlr hl hpl hpr]
    have hnode (n : NodeId) :
        node (setParent (setParent (setLeft (setRight M p (some l)) p (some r)) r (some p)) l (some p)) n =
          if n = p then { node M n with left := some r, right := some l } else node M n := by
      rw [setParent_node_eq (by simp [parent_setParent, hpl]),
        setParent_node_eq (by simp [hpr]), node_setLeft, node_setRight]
      by_cases hn : n = p <;> simp [hn]
    refine ⟨rfl, fun n hn => ?_, ?_⟩
    · rw [hnode, if_neg hn]
    · rw [hnode, if_pos rfl]

end Sys2Proof.Machine
end

section
/-! SUPPORT. What the writing commands do where nothing is refused: in raw mode, without headroom, in compressed mode
(rules R121, R172, R181, R183). -/

namespace Sys2Proof.Machine

/-! ## Bits and bytes -/

/-- A byte of a buffer is its eight bits (rule R56). -/
theorem getLsbD_bufGet (m : Memory) (a : Nat) {j : Nat} (hj : j < 8) : (bufGet m a).getLsbD j = bitOf m (8 * a + j) := by
  rw [bitOf, show (8 * a + j) / 8 = a by omega, show (8 * a + j) % 8 = j by omega]

theorem bufGet_ext {m m' : Memory} {a : Nat} (h : ∀ j, j < 8 → bitOf m (8 * a + j) = bitOf m' (8 * a + j)) :
    bufGet m a = bufGet m' a :=
  BitVec.eq_of_getLsbD_eq fun j hj => by rw [getLsbD_bufGet m a hj, getLsbD_bufGet m' a hj, h j hj]

section
variable {C : Context} {bits : List Bool}

/-- `PutBit`s leave the bytes their bits do not lie in (rule R172). -/
theorem bufGet_of_bitAfterPut {m : Memory} (hm : ∀ x, bitOf m x = bitAfterPut C bits x) {a : Nat}
    (ha : a < C.bit.toNat / 8 ∨ ceil8 (C.bit.toNat + bits.length) ≤ a) : bufGet m a = bufGet C.buf a := by
  refine bufGet_ext fun j hj => ?_
  rw [hm, bitAfterPut]
  unfold ceil8 at ha
  rw [if_neg (by omega), if_neg (by omega)]

/-- `BIT` after bits that fit below `MAXSIZE` does not wrap (rule R14). -/
theorem toNat_bit_add (hmax : C.maxsize.toNat ≤ 2 ^ 28) {k : Nat} (hfit : C.bit.toNat + k ≤ 8 * C.maxsize.toNat) :
    (C.bit + BitVec.ofNat 32 k).toNat = C.bit.toNat + k := by
  simp only [BitVec.toNat_add, BitVec.toNat_ofNat]
  omega

theorem toNat_ofNat_ceil8 {b m : Nat} (hm : m ≤ 2 ^ 28) (hb : b ≤ 8 * m) :
    (BitVec.ofNat 32 (ceil8 b)).toNat = ceil8 b := by
  rw [BitVec.toNat_ofNat, Nat.mod_eq_of_lt]
  unfold ceil8
  omega

/-- `PutBit`s that do not fault put nothing, or fit below `MAXSIZE` (rule R172). -/
theorem putBits_fits {D : Context} (hmax : C.maxsize.toNat ≤ 2 ^ 28) (h : putBits C bits = .ok D) :
    bits = [] ∨ C.bit.toNat + bits.length ≤ 8 * C.maxsize.toNat := by
  by_contra hne
  obtain ⟨hbits, hover⟩ := not_or.1 hne
  rw [putBits_unfit bits hmax hbits (Nat.lt_of_not_le hover)] at h
  cases h

end

/-! ## Coding bytes -/

/-- The bytes coded one after another are one run of bits, and the updates succeed where the codes exist (rules R60,
R183). -/
theorem encodeBytes_eq : ∀ (ss : List Byte) {M : Model} {bits : List Bool}, encodeStream M ss = .ok bits →
    ∃ N, updates M ss = .ok N ∧ ∀ C, encodeBytes M C ss = (putBits C bits).map fun D => (N, D)
  | [], M, bits, h => by
    cases h
    exact ⟨M, rfl, fun C => rfl⟩
  | s :: ss, M, bits, h => by
    obtain ⟨M', rest, hu, hrest, rfl⟩ := encodeStream_cons h
    obtain ⟨N, hN, henc⟩ := encodeBytes_eq ss hrest
    refine ⟨N, by simp [updates, hu, hN, bind, Except.bind], fun C => ?_⟩
    rw [putBits_append]
    simp only [encodeBytes, encodeSymbol, bind, Except.bind]
    cases putBits C (symbolBits M s) with
    | error e => rfl
    | ok D => simp only [hu, henc]

/-- The compressed branch of `WriteBitsCore`: the field's bits put, `ENC` updated by its whole bytes (rules R60, R121). -/
theorem writeCoded_eq {M : Model} {v : Word} {n : Nat} {bits : List Bool} (h : fieldBits M v n = .ok bits) :
    ∃ N, updates M (wholeBytes v n) = .ok N ∧ ∀ C, writeCoded M C v n =
      (putBits C bits).map fun D => (N, { D with cursize := BitVec.ofNat 32 (ceil8 D.bit.toNat) }) := by
  obtain ⟨codes, hcodes, h⟩ := bind_eq_ok h
  cases h
  obtain ⟨N, hN, henc⟩ := encodeBytes_eq _ hcodes
  refine ⟨N, hN, fun C => ?_⟩
  rw [putBits_append]
  simp only [writeCoded, bind, Except.bind]
  cases putBits C (residualBits v n) with
  | error e => rfl
  | ok D =>
    simp only [henc]
    cases putBits D codes <;> rfl

/-! ## `WriteBitsCore` -/

section
variable {c : CtxNum} {s u : State} {v : Word} {n : Nat}

/-- Rule R121, the overflow: fewer than 4 bytes left. -/
theorem writeBitsCore_of_short (hh : headroomShort (ctxOf s c) = true) :
    writeBitsCore c v n s = .ok (setCtx c { ctxOf s c with overflowed := true } s) := by
  simp [writeBitsCore, hh]

/-- Rule R121 in raw mode. -/
theorem writeBitsCore_of_raw (ho : (ctxOf s c).oob = true) (hle : (ctxOf s c).cursize ≤ (ctxOf s c).maxsize)
    (hh : headroomShort (ctxOf s c) = false) (hn : n / 8 ≤ 4) :
    writeBitsCore c v n s = .ok (setCtx c (rawWritten (ctxOf s c) (zext n v) n) s) := by
  simp [writeBitsCore, hh, ho, writeRaw_of_headroom hle hh hn, bind, Except.bind]

/-- Rule R121 in compressed mode, the pair seeded first. -/
theorem writeBitsCore_of_coded (ho : (ctxOf s c).oob = false) (hh : headroomShort (ctxOf s c) = false)
    (hu : ensureModel s = .ok u) :
    writeBitsCore c v n s =
      (writeCoded u.enc (ctxOf s c) (zext n v) n).map fun done => setCtx c done.2 { u with enc := done.1 } := by
  have hctx : ctxOf u c = ctxOf s c := ctxOf_congr (ensureModel_frame hu).2.2.2.1 c
  simp only [writeBitsCore, hh, ho, Bool.false_eq_true, if_false, hu, bind, Except.bind, hctx]
  cases writeCoded u.enc (ctxOf s c) (zext n v) n <;> rfl

/-- What the seeding finds or makes is what a compressed command finds (rule R181). -/
theorem ensureModel_of_encBefore {E : Model} (h : encBefore s = .ok E) : ∃ u, ensureModel s = .ok u ∧ u.enc = E := by
  unfold encBefore at h
  split at h
  · rename_i hr
    cases h
    exact ⟨s, ensureModel_ready hr, rfl⟩
  · rename_i hr
    exact ⟨_, ensureModel_seed (by simpa using hr) h, rfl⟩

/-- A context with bits put at `BIT` by a writing command, `CURSIZE` following (rule R121). -/
def bitsWritten (C : Context) (bits : List Bool) (m : Memory) : Context :=
  { C with buf := m
           bit := C.bit + BitVec.ofNat 32 bits.length
           cursize := BitVec.ofNat 32 (ceil8 (C.bit + BitVec.ofNat 32 bits.length).toNat) }

/-- A compressed write of a field whose bits fit below `MAXSIZE` (rules R121, R172). -/
theorem writeCoded_of_fits {M : Model} {C : Context} {bits : List Bool} (hwf : Memory.wf C.buf = true)
    (hmax : C.maxsize.toNat ≤ 2 ^ 28) (hbits : fieldBits M v n = .ok bits)
    (hfit : C.bit.toNat + bits.length ≤ 8 * C.maxsize.toNat) :
    ∃ N m, writeCoded M C v n = .ok (N, bitsWritten C bits m) ∧ updates M (wholeBytes v n) = .ok N ∧
      Memory.wf m = true ∧ ∀ x, bitOf m x = bitAfterPut C bits x := by
  obtain ⟨N, hN, hw⟩ := writeCoded_eq hbits
  obtain ⟨m, hput, hwf', hm⟩ := putBits_fit bits hwf hmax hfit
  exact ⟨N, m, by rw [hw, hput]; rfl, hN, hwf', hm⟩

/-- A compressed write of a field whose bits do not fit (rules R53, R172). -/
theorem writeCoded_of_unfit {M : Model} {C : Context} {bits : List Bool} (hmax : C.maxsize.toNat ≤ 2 ^ 28)
    (hbits : fieldBits M v n = .ok bits) (hne : bits ≠ [])
    (hover : 8 * C.maxsize.toNat < C.bit.toNat + bits.length) : writeCoded M C v n = .error .writeRange := by
  obtain ⟨N, -, hw⟩ := writeCoded_eq hbits
  rw [hw, putBits_unfit bits hmax hne hover]
  rfl

/-- A state in which a writing command of compressed mode has put `bits`: `N` is its `ENC`, `o` its `OVERFLOWED`. -/
theorem putsBits_of_written {bits : List Bool} {m : Memory} (N : Model) (o : Bool) (hu : ensureModel s = .ok u)
    (hmax : (ctxOf s c).maxsize.toNat ≤ 2 ^ 28)
    (hfit : (ctxOf s c).bit.toNat + bits.length ≤ 8 * (ctxOf s c).maxsize.toNat)
    (hm : ∀ x, bitOf m x = bitAfterPut (ctxOf s c) bits x) :
    PutsBits c bits s
      (respond .ok 0 (setCtx c { bitsWritten (ctxOf s c) bits m with overflowed := o } { u with enc := N })) := by
  have hframe := readFrame_ensureModel (c := c) hu
  obtain ⟨hready, -, hdec, -, -⟩ := ensureModel_frame hu
  have hbit := toNat_bit_add hmax hfit
  constructor
  case answer => exact ⟨rfl, rfl⟩
  case port => exact hframe.port
  case fault => exact hframe.fault
  case others =>
    intro d hd
    rw [respond_ctxOf, ctxOf_setCtx_of_ne hd]
    exact hframe.others d hd
  case ready => exact hready
  case dec => exact hdec
  case cursize =>
    rw [respond_ctxOf, ctxOf_setCtx_self, bitsWritten, hbit]
    exact toNat_ofNat_ceil8 hmax hfit
  all_goals rw [respond_ctxOf, ctxOf_setCtx_self]
  case bit => exact hbit
  case stored => exact hm
  case bytes => exact fun a ha => bufGet_of_bitAfterPut hm ha
  all_goals rfl

end

/-! ## The write commands -/

section
variable {s : State} {c : CtxNum} {i : Instr} {n : Nat}

theorem widthOk_of_legal {oob : Bool} {w : Int} (hn : legalWidth (magnitude w))
    (hraw : oob = true → rawWidth (magnitude w)) : widthOk oob w = true := by
  cases oob with
  | false => simpa [widthOk] using hn
  | true => simpa [widthOk, hn] using hraw rfl

/-- Rules R122, R141 to R145. -/
theorem exec_write (hi : writeForm i = some (c, n)) (h : s.accepts [c]) (hn : legalWidth n)
    (hraw : (ctxOf s c).oob = true → rawWidth n) : exec i s = .next (writeField c n s) := by
  unfold writeForm at hi
  split at hi <;> cases hi
  case h_1 => exact exec_writeBits h (widthOk_of_legal hn hraw)
  all_goals exact congrArg Host.Outcome.next (prologue_accepts h false _)

theorem writeField_of_ok {t : State} (h : writeBitsCore c s.a n s = .ok t) : writeField c n s = respond .ok 0 t := by
  simp [writeField, h]

theorem writeField_of_error {e : FaultCause} (h : writeBitsCore c s.a n s = .error e) :
    writeField c n s = takeFault e s := by
  simp [writeField, h]

end

end Sys2Proof.Machine
end

section
/-! The writes (rules R121, R122, R141 to R145): what each stores, when it overflows, when it faults, what it ignores. -/

namespace Sys2Proof.Machine

/-! ## Raw mode and the overflow -/

theorem legalWidth_of_rawWidth {n : Nat} (h : rawWidth n) : legalWidth n := by
  rcases h with rfl | rfl | rfl <;> decide

theorem rawWidth_div_le {n : Nat} (h : rawWidth n) : n % 8 = 0 ∧ n / 8 ≤ 4 := by
  rcases h with rfl | rfl | rfl <;> decide

/-- The bytes of a raw field are those of the word (rules R18, R54). -/
theorem getD_littleEndian_zext {n k : Nat} (hn : rawWidth n) (hk : k < n / 8) (v : Word) :
    (littleEndian (zext n v) (n / 8)).getD k 0 = v.extractLsb' (8 * k) 8 := by
  obtain ⟨hn8, hn4⟩ := rawWidth_div_le hn
  have hget : (littleEndian (zext n v) (n / 8)).getD k 0 = byteAt (zext n v) (8 * k) := by
    simp [littleEndian, List.getD_eq_getElem?_getD, hk]
  rw [hget]
  refine BitVec.eq_of_getLsbD_eq fun j hj => ?_
  rw [getLsbD_byteAt _ _ hj, getLsbD_zext n v (by omega), BitVec.getLsbD_extractLsb']
  simp [hj, show 8 * k + j < n by omega]

/-- A command that writes its context alone keeps the rest (rule R24). -/
theorem answers_of_setCtx (c : CtxNum) (C : Context) (s : State) :
    let t := respond .ok 0 (setCtx c C s)
    answers 0 t ∧ samePort s t ∧ sameFault s t ∧ sameModels s t ∧ othersSame c s t :=
  ⟨⟨rfl, rfl⟩, ⟨rfl, rfl, rfl, rfl, rfl⟩, ⟨rfl, rfl⟩, ⟨rfl, rfl, rfl⟩, fun _ hd => ctxOf_setCtx_of_ne hd _ _⟩

/-- Settles O28: with headroom the bytes all lie below `MAXSIZE`, so they are stored in one run from `CURSIZE` on. -/
theorem rawWriteStoresLittleEndianBytes : Obligations.RawWriteStoresLittleEndianBytes := by
  intro s i c n hi h ho hn hle hroom hwf
  obtain ⟨-, hn4⟩ := rawWidth_div_le hn
  have hh : headroomShort (ctxOf s c) = false :=
    Bool.eq_false_iff.2 fun hh => absurd ((headroomShort_iff hle).1 hh) (by omega)
  have hw := writeField_of_ok (writeBitsCore_of_raw (v := s.a) ho hle hh hn4)
  rw [exec_write hi h (legalWidth_of_rawWidth hn) fun _ => hn, hw]
  obtain ⟨hans, hport, hfault, hmodels, hothers⟩ := answers_of_setCtx c (rawWritten (ctxOf s c) (zext n s.a) n) s
  refine ⟨_, rfl, hans, hport, hfault, hmodels, hothers, ?_⟩
  have hmax := (ctxOf s c).maxsize.isLt
  have hbytes (k : Nat) := bufGet_bufSetMany (littleEndian (zext n s.a) (n / 8)) hwf (ctxOf s c).cursize.toNat k
  simp only [length_littleEndian] at hbytes
  rw [respond_ctxOf, ctxOf_setCtx_self]
  refine ⟨rfl, rfl, ⟨rfl, rfl, rfl⟩, ?_, rfl, fun k hk => ?_, fun a ha => ?_⟩
  · simp only [rawWritten, BitVec.toNat_add, BitVec.toNat_ofNat]
    omega
  · rw [rawWritten, hbytes, if_pos (by omega), Nat.add_sub_cancel_left]
    exact getD_littleEndian_zext hn hk s.a
  · rw [rawWritten, hbytes, if_neg (by omega)]

/-- A delta write without headroom sets `OVERFLOWED`, once or twice (rule R210). -/
theorem deltaWrite_of_short {c : CtxNum} {s : State} {old new key : Word} {n : Nat}
    (hh : headroomShort (ctxOf s c) = true) :
    deltaWrite c old new n key s = .ok (setCtx c { ctxOf s c with overflowed := true } s) := by
  unfold deltaWrite
  split
  · exact writeBitsCore_of_short hh
  · rw [writeBitsCore_of_short hh]
    refine (writeBitsCore_of_short ?_).trans ?_
    · rw [ctxOf_setCtx_self]
      exact hh
    · rw [ctxOf_setCtx_self, setCtx_setCtx]

/-- Settles O29: the overflow test comes first in `WriteBitsCore`, and a delta write of different words makes it twice. -/
theorem writeWithoutHeadroomOnlySetsOverflowed : Obligations.WriteWithoutHeadroomOnlySetsOverflowed := by
  intro s i c n hi hn h hle hroom
  have hh := (headroomShort_iff hle).2 hroom
  have hexec : exec i s = .next (respond .ok 0 (setCtx c { ctxOf s c with overflowed := true } s)) := by
    rcases hi with ⟨hi, hraw⟩ | ⟨key, hi, ho⟩
    · rw [exec_write hi h hn hraw, writeField_of_ok (writeBitsCore_of_short hh)]
    · rw [exec_deltaWrite hi h ho hn, deltaWriteField, deltaWrite_of_short hh]
      rfl
  obtain ⟨hans, hport, hfault, hmodels, hothers⟩ :=
    answers_of_setCtx c { ctxOf s c with overflowed := true } s
  refine ⟨_, hexec, hans, hport, hfault, hmodels, hothers, ?_⟩
  rw [respond_ctxOf, ctxOf_setCtx_self]

/-! ## Compressed mode -/

theorem headroomShort_of_roomy {C : Context} (h : roomy C) : headroomShort C = false := by
  obtain ⟨hle, hroom, -, -⟩ := h
  exact Bool.eq_false_iff.2 fun hh => absurd ((headroomShort_iff hle).1 hh) (by omega)

/-- Settles O30: the seeding leaves the context, the field's bits are one run of `PutBit`s that fit, and `CURSIZE` follows
`BIT`. -/
theorem compressedWritePutsTheFieldBits : Obligations.CompressedWritePutsTheFieldBits := by
  intro s i c n E bits hi hn h ho hroomy henc hbits hfit
  have hh := headroomShort_of_roomy hroomy
  obtain ⟨-, -, hmax, hwf⟩ := hroomy
  obtain ⟨u, hu, rfl⟩ := ensureModel_of_encBefore henc
  obtain ⟨N, m, hw, hN, -, hm⟩ := writeCoded_of_fits hwf hmax hbits hfit
  have hwrite : writeBitsCore c s.a n s = .ok (setCtx c (bitsWritten (ctxOf s c) bits m) { u with enc := N }) := by
    rw [writeBitsCore_of_coded ho hh hu, hw]
    rfl
  refine ⟨_, exec_write hi h hn (by simp [ho]), ?_⟩
  rw [writeField_of_ok hwrite]
  refine ⟨putsBits_of_written N (ctxOf s c).overflowed hu hmax hfit hm, ?_, hN⟩
  rw [respond_ctxOf, ctxOf_setCtx_self]
  rfl

/-- Settles O31: the run of `PutBit`s meets `MAXSIZE` before it ends. -/
theorem compressedWritePastMaxsizeFaults : Obligations.CompressedWritePastMaxsizeFaults := by
  intro s i c n E bits hi hn h ho hroomy henc hbits hne hover
  have hh := headroomShort_of_roomy hroomy
  obtain ⟨-, -, hmax, -⟩ := hroomy
  obtain ⟨u, hu, rfl⟩ := ensureModel_of_encBefore henc
  have hwrite : writeBitsCore c s.a n s = .error .writeRange := by
    rw [writeBitsCore_of_coded ho hh hu, writeCoded_of_unfit hmax hbits hne hover]
    rfl
  refine ⟨_, exec_write hi h hn (by simp [ho]), ?_⟩
  rw [writeField_of_error hwrite]
  exact ⟨rfl, rfl, rfl, rfl, rfl, rfl, rfl, rfl, rfl⟩

/-! ## The weight limit -/

theorem increment_of_allOnes {M : Model} {n : NodeId} (h : (node (passBlock M n) n).weight = BitVec.allOnes 32) :
    increment M (some n) = .error .weightOvf := by
  have hpool : Config.poolNodes = 513 + 1 := rfl
  simp only [increment, hpool, climb_succ_some, if_pos h, bind, Except.bind]

/-- An 8-bit field has no residual bits and one whole byte (rule R57). -/
theorem residualBits_byte (v : Word) : residualBits v 8 = [] := rfl

theorem wholeBytes_byte (v : Word) : wholeBytes (zext 8 v) 8 = [v.setWidth 8] := by
  have hbytes : wholeBytes (zext 8 v) 8 = [byteAt (zext 8 v) 0] := rfl
  refine hbytes.trans (congrArg (· :: []) (BitVec.eq_of_getLsbD_eq fun j hj => ?_))
  rw [getLsbD_byteAt _ _ hj, getLsbD_zext 8 v (by omega)]
  simp [hj]

/-- Settles O55: the climb stops at its first node; the write puts the symbol's code, which fits, before it updates `ENC`. -/
theorem incrementAtTheWeightLimitFaults : Obligations.IncrementAtTheWeightLimitFaults := by
  intro M n hw
  have hinc := increment_of_allOnes hw
  refine ⟨hinc, fun s hs => ?_⟩
  have hup : update M s = .error .weightOvf := by simp only [update, hs, hinc]
  refine ⟨hup, fun t c h hr henc ho hroomy ha hfit => ?_⟩
  subst henc ha
  have hh := headroomShort_of_roomy hroomy
  obtain ⟨-, -, hmax, hwf⟩ := hroomy
  obtain ⟨m, hput, -, -⟩ := putBits_fit _ hwf hmax hfit
  have hwrite : writeBitsCore c t.a 8 t = .error .weightOvf := by
    rw [writeBitsCore_of_coded ho hh (ensureModel_ready hr)]
    simp only [writeCoded, residualBits_byte, wholeBytes_byte, putBits, encodeBytes, encodeSymbol, hput, hup, bind,
      Except.bind]
    rfl
  refine ⟨_, exec_write (i := .writeByte c) rfl h (by decide) (fun _ => .inl rfl), ?_⟩
  rw [writeField_of_error hwrite]
  exact ⟨rfl, rfl, rfl, rfl⟩

/-! ## What a write ignores -/

theorem widthOk_congr {w w' : Int} (h : magnitude w = magnitude w') (oob : Bool) : widthOk oob w = widthOk oob w' := by
  simp only [widthOk, h]

/-- The two's complement of a width field has its magnitude, `-64` being its own (rule R82). -/
theorem magnitude_widthOf_neg (w7 : BitVec 7) : magnitude (widthOf (-w7)) = magnitude (widthOf w7) := by
  revert w7
  decide

/-- A state with another `A`. -/
def withA (v : Word) (s : State) : State := { s with a := v }

theorem unseen_withA (v : Word) : Unseen (withA v) where
  ctxOf _ _ := rfl
  freeCount _ := rfl
  setCtx _ _ _ := rfl
  drawn _ _ := rfl

/-- The engine writes the value given, not `A` (rule R121). -/
theorem writeBitsCore_withA {c : CtxNum} {x v : Word} {n : Nat} {s : State} :
    writeBitsCore c v n (withA x s) = (writeBitsCore c v n s).map (withA x) := by
  cases hh : headroomShort (ctxOf s c) with
  | true => rw [writeBitsCore_of_short hh, writeBitsCore_of_short (s := withA x s) hh]; rfl
  | false =>
    cases ho : (ctxOf s c).oob with
    | true =>
      simp only [writeBitsCore, (unseen_withA x).ctxOf, hh, ho, Bool.false_eq_true, if_false, if_true]
      cases writeRaw (ctxOf s c) (zext n v) n <;> rfl
    | false =>
      have hens : ensureModel (withA x s) = (ensureModel s).map (withA x) := by
        cases hr : s.modelReady with
        | true => rw [ensureModel_ready hr, ensureModel_ready (s := withA x s) hr]; rfl
        | false =>
          simp only [ensureModel, withA, hr, Bool.false_eq_true, if_false]
          cases seeded s.params <;> rfl
      simp only [writeBitsCore, (unseen_withA x).ctxOf, hh, ho, Bool.false_eq_true, if_false, hens]
      cases ensureModel s with
      | error e => rfl
      | ok u =>
        simp only [Except.map, bind, Except.bind, (unseen_withA x).ctxOf]
        cases hw : writeCoded u.enc (ctxOf u c) (zext n v) n with
        | error e => simp only [withA] at hw ⊢; rw [hw]
        | ok done => simp only [withA] at hw ⊢; rw [hw]; rfl

theorem writeBitsCore_congr {c : CtxNum} {v v' : Word} {n : Nat} {s : State} (h : zext n v' = zext n v) :
    writeBitsCore c v' n s = writeBitsCore c v n s := by
  simp only [writeBitsCore, h]

/-- Rule R122 (b) for the body of a write. -/
theorem writeField_withA {c : CtxNum} {n : Nat} {s : State} {v : Word} (h : zext n v = zext n s.a) :
    writeField c n (withA v s) = withA v (writeField c n s) := by
  have ha : (withA v s).a = v := rfl
  rw [writeField, ha, writeBitsCore_withA, writeBitsCore_congr h, writeField]
  cases writeBitsCore c s.a n s <;> rfl

/-- The checks before a command do not look at `A` (rule R100). -/
theorem prologue_withA {cs : List CtxNum} {s : State} {v : Word} {body body' : State → State}
    (h : body' (withA v s) = withA v (body s)) :
    prologue false cs (withA v s) body' = withA v (prologue false cs s body) := by
  have hf : (withA v s).fault = s.fault := rfl
  have hp : (withA v s).params = s.params := rfl
  unfold prologue
  rw [hf, hp]
  split
  · rfl
  · split
    · exact h
    · rfl

theorem guardArg_withA {ok : Bool} {s : State} {v : Word} {body : State → State}
    (h : body (withA v s) = withA v (body s)) : guardArg ok body (withA v s) = withA v (guardArg ok body s) := by
  cases ok with
  | false => rfl
  | true => exact h

/-- Settles O32: the command looks at the magnitude of its width and at the low bits of `A` alone. -/
theorem writeIgnoresSignAndHighBits : Obligations.WriteIgnoresSignAndHighBits := by
  refine ⟨fun s c w7 => ?_, fun s t c w7 v hv hexec => ?_⟩
  · have hmag := magnitude_widthOf_neg w7
    simp only [exec, execWriteBits, hmag, widthOk_congr hmag]
  · cases hexec
    exact congrArg Host.Outcome.next (prologue_withA (guardArg_withA (writeField_withA hv)))

/-- Settles O33: the widths 8, 16 and 32 pass the check of `WRITE_BITS` in both modes. -/
theorem typedWritesAreWriteBits : Obligations.TypedWritesAreWriteBits := by
  intro s c
  have hok (w7 : BitVec 7) (h : ∀ oob, widthOk oob (widthOf w7) = true) :
      exec (.writeBits c w7) s = .next (prologue false [c] s (writeField c (magnitude (widthOf w7)))) := by
    simp only [exec, execWriteBits, h]
    rfl
  have h8 := hok 8 (by decide)
  have h16 := hok 16 (by decide)
  have h32 := hok 32 (by decide)
  exact ⟨h8.symm, h8.symm, h16.symm, h32.symm, h32.symm⟩

end Sys2Proof.Machine
end

section
/-! The delta writes (rules R210, R211, R213, R215, R217). -/

namespace Sys2Proof.Machine

section
variable {c : CtxNum} {s u : State}

/-- A flag with headroom is one bit at `BIT`, and leaves `ENC` alone (rule R210). -/
theorem writeBitsCore_flag_of_fits (b : Bool) (ho : (ctxOf s c).oob = false) (hroomy : roomy (ctxOf s c))
    (hbit : (ctxOf s c).bit.toNat < 8 * (ctxOf s c).maxsize.toNat) (hu : ensureModel s = .ok u) :
    ∃ m, writeBitsCore c ((BitVec.ofBool b).setWidth 32) 1 s = .ok (setCtx c (bitsWritten (ctxOf s c) [b] m) u) ∧
      Memory.wf m = true ∧ ∀ x, bitOf m x = bitAfterPut (ctxOf s c) [b] x := by
  have hh := headroomShort_of_roomy hroomy
  obtain ⟨-, -, hmax, hwf⟩ := hroomy
  have hbits : fieldBits u.enc (zext 1 ((BitVec.ofBool b).setWidth 32)) 1 = .ok [b] := by cases b <;> rfl
  obtain ⟨N, m, hw, hN, hwf', hm⟩ := writeCoded_of_fits hwf hmax hbits hbit
  cases hN
  refine ⟨m, ?_, hwf', hm⟩
  rw [writeBitsCore_of_coded ho hh hu, hw]
  rfl

/-- A run of bits after a flag is one run (rules R172, R210). -/
theorem bitsWritten_cons (C : Context) (b : Bool) (bits : List Bool) (m m' : Memory) :
    bitsWritten (bitsWritten C [b] m) bits m' = bitsWritten C (b :: bits) m' := by
  have hbit : C.bit + BitVec.ofNat 32 [b].length + BitVec.ofNat 32 bits.length =
      C.bit + BitVec.ofNat 32 (b :: bits).length := by
    rw [BitVec.add_assoc, ← BitVec.ofNat_add, List.length_singleton, List.length_cons, Nat.add_comm]
  simp only [bitsWritten, hbit]

/-- After the flag, the headroom is what its byte leaves (rules R121, R210). -/
theorem headroomShort_bitsWritten {C : Context} {bits : List Bool} (m : Memory) (hmax : C.maxsize.toNat ≤ 2 ^ 28)
    (hfit : C.bit.toNat + bits.length ≤ 8 * C.maxsize.toNat) :
    headroomShort (bitsWritten C bits m) = true ↔ C.maxsize.toNat < ceil8 (C.bit.toNat + bits.length) + 4 := by
  have hcur : (bitsWritten C bits m).cursize.toNat = ceil8 (C.bit.toNat + bits.length) := by
    rw [bitsWritten, toNat_bit_add hmax hfit]
    exact toNat_ofNat_ceil8 hmax hfit
  have hmaxsize : (bitsWritten C bits m).maxsize = C.maxsize := rfl
  have hle : ceil8 (C.bit.toNat + bits.length) ≤ C.maxsize.toNat := by
    unfold ceil8
    omega
  rw [headroomShort_iff (by rw [BitVec.le_def, hcur]; exact hle), hcur, hmaxsize]
  omega

end

/-- Settles O42: the flag is a run of one bit; after it the overflow test is made again, and the field's bits, where they are
put, carry the run on. -/
theorem deltaWritePutsFlagThenValue : Obligations.DeltaWritePutsFlagThenValue := by
  intro s i c n key E hi hn h ho hroomy hbit henc
  have hexec := exec_deltaWrite hi h ho hn
  obtain ⟨u, hu, rfl⟩ := ensureModel_of_encBefore henc
  have hready := (ensureModel_frame hu).1
  obtain ⟨-, -, hmax, hwf⟩ := id hroomy
  refine ⟨fun heq => ?_, fun hne hshort => ?_, fun hne hroom bits hbits hfit => ?_⟩
  · obtain ⟨m, hflag, -, hm⟩ := writeBitsCore_flag_of_fits false ho hroomy hbit hu
    have hw : deltaWrite c s.b s.a n key s = .ok (setCtx c (bitsWritten (ctxOf s c) [false] m) u) :=
      (if_pos heq.symm).trans hflag
    refine ⟨_, hexec, ?_⟩
    rw [deltaWriteField, hw]
    refine ⟨putsBits_of_written u.enc (ctxOf s c).overflowed hu hmax hbit hm, rfl, ?_⟩
    rw [noResult_ok, conclude_ok, respond_ctxOf, ctxOf_setCtx_self]
    rfl
  all_goals
    obtain ⟨m, hflag, hwf', hm⟩ := writeBitsCore_flag_of_fits true ho hroomy hbit hu
    have hw : deltaWrite c s.b s.a n key s =
        writeBitsCore c (s.a ^^^ key) n (setCtx c (bitsWritten (ctxOf s c) [true] m) u) := by
      have hflag' : writeBitsCore c 1 1 s = _ := hflag
      rw [deltaWrite, if_neg (Ne.symm hne), hflag']
      rfl
    have hshort_iff := headroomShort_bitsWritten (C := ctxOf s c) (bits := [true]) m hmax hbit
  · have hover : deltaWrite c s.b s.a n key s =
        .ok (setCtx c { bitsWritten (ctxOf s c) [true] m with overflowed := true } u) := by
      rw [hw, writeBitsCore_of_short (by rw [ctxOf_setCtx_self]; exact hshort_iff.2 hshort), ctxOf_setCtx_self,
        setCtx_setCtx]
    refine ⟨_, hexec, ?_⟩
    rw [deltaWriteField, hover]
    refine ⟨putsBits_of_written u.enc true hu hmax hbit hm, rfl, ?_⟩
    rw [noResult_ok, conclude_ok, respond_ctxOf, ctxOf_setCtx_self]
  · have hh : headroomShort (bitsWritten (ctxOf s c) [true] m) = false :=
      Bool.eq_false_iff.2 fun hh => absurd (hshort_iff.1 hh) (Nat.not_lt.2 hroom)
    have hbit' : (bitsWritten (ctxOf s c) [true] m).bit.toNat = (ctxOf s c).bit.toNat + 1 := toNat_bit_add hmax hbit
    obtain ⟨N, m', hcoded, hN, -, hm'⟩ :=
      writeCoded_of_fits (C := bitsWritten (ctxOf s c) [true] m) hwf' hmax hbits (by rw [hbit']; exact hfit)
    have hput : deltaWrite c s.b s.a n key s =
        .ok (setCtx c (bitsWritten (ctxOf s c) (true :: bits) m') { u with enc := N }) := by
      rw [hw, writeBitsCore_of_coded (s := setCtx c _ u) (by rw [ctxOf_setCtx_self]; exact ho)
        (by rw [ctxOf_setCtx_self]; exact hh) (ensureModel_ready hready), ctxOf_setCtx_self, setCtx_enc, hcoded,
        bitsWritten_cons]
      exact congrArg Except.ok (setCtx_setCtx c _ _ { u with enc := N })
    refine ⟨_, hexec, ?_⟩
    rw [deltaWriteField, hput]
    refine ⟨putsBits_of_written N (ctxOf s c).overflowed hu hmax ?_ fun x => ?_, ?_, hN⟩
    · rw [List.length_cons]
      omega
    · rw [hm', bitAfterPut_cons (C := ctxOf s c) true bits hbit' hm]
    · rw [noResult_ok, conclude_ok, respond_ctxOf, ctxOf_setCtx_self]
      rfl

end Sys2Proof.Machine
end

section
/-! What a write or delta write leaves alone (rules R121, R122, R210). -/

namespace Sys2Proof.Machine

/-! ## The frame of `WriteBitsCore` -/

/-- The bits put from the one `BIT` to the other lie in bytes of which those outside are as before (rules R56, R172). -/
def CodedFrame (C D : Context) : Prop :=
  C.bit.toNat ≤ D.bit.toNat ∧
    ∀ a, a < C.bit.toNat / 8 ∨ ceil8 D.bit.toNat ≤ a → bufGet D.buf a = bufGet C.buf a

theorem CodedFrame.trans {C D E : Context} (h : CodedFrame C D) (h' : CodedFrame D E) : CodedFrame C E := by
  obtain ⟨hbit, hbytes⟩ := h
  obtain ⟨hbit', hbytes'⟩ := h'
  refine ⟨hbit.trans hbit', fun a ha => ?_⟩
  unfold ceil8 at *
  rw [hbytes' a (by omega), hbytes a (by omega)]

/-- What a write of the engine that does not fault leaves alone: a reader's registers, `DEC`, and in compressed mode the bytes
its bits do not lie in. -/
structure WriteFrame (c : CtxNum) (s t : State) : Prop where
  kept : Kept c s t
  ready : s.modelReady = true → t.modelReady = true ∧ t.dec = s.dec
  maxsize : (ctxOf t c).maxsize = (ctxOf s c).maxsize
  readcount : (ctxOf t c).readcount = (ctxOf s c).readcount
  oob : (ctxOf t c).oob = (ctxOf s c).oob
  allow : (ctxOf t c).allowOverflow = (ctxOf s c).allowOverflow
  overflowed : (ctxOf s c).overflowed = true → (ctxOf t c).overflowed = true
  coded : (ctxOf s c).oob = false → (ctxOf s c).maxsize.toNat ≤ 2 ^ 28 → Memory.wf (ctxOf s c).buf = true →
    CodedFrame (ctxOf s c) (ctxOf t c)

theorem WriteFrame.trans {c : CtxNum} {s t u : State} (h : WriteFrame c s t) (h' : WriteFrame c t u) :
    WriteFrame c s u where
  kept := h.kept.trans h'.kept
  ready hr := by
    obtain ⟨hready, hdec⟩ := h.ready hr
    obtain ⟨hready', hdec'⟩ := h'.ready hready
    exact ⟨hready', hdec'.trans hdec⟩
  maxsize := h'.maxsize.trans h.maxsize
  readcount := h'.readcount.trans h.readcount
  oob := h'.oob.trans h.oob
  allow := h'.allow.trans h.allow
  overflowed := h'.overflowed ∘ h.overflowed
  coded ho hmax hwf :=
    (h.coded ho hmax hwf).trans (h'.coded (h.oob.trans ho) (h.maxsize ▸ hmax) (h.kept.wf hwf))

/-- `PutBit`s that do not fault, whatever else of the context is written but its buffer and `BIT`. -/
theorem codedFrame_putBits {C D E : Context} {bits : List Bool} (hmax : C.maxsize.toNat ≤ 2 ^ 28)
    (hwf : Memory.wf C.buf = true) (h : putBits C bits = .ok D) (hE : E.bit = D.bit ∧ E.buf = D.buf) :
    CodedFrame C E := by
  obtain ⟨hbit, hbuf⟩ := hE
  rw [CodedFrame, hbit, hbuf]
  rcases putBits_fits hmax h with rfl | hfit
  · cases h
    exact ⟨le_rfl, fun _ _ => rfl⟩
  · obtain ⟨m, hput, -, hm⟩ := putBits_fit bits hwf hmax hfit
    cases hput.symm.trans h
    have hto := toNat_bit_add hmax hfit
    simp only [hto]
    exact ⟨Nat.le_add_right _ _, fun a ha => bufGet_of_bitAfterPut hm ha⟩

section
variable {c : CtxNum} {s t : State} {v : Word} {n : Nat}

theorem writeBitsCore_frame (h : writeBitsCore c v n s = .ok t) : WriteFrame c s t := by
  have hkept := kept_writeBitsCore h
  rcases writeBitsCore_cases h with ⟨-, rfl⟩ | ⟨-, ho, C, hC, rfl⟩ | ⟨-, -, u, M, C, hu, hC, rfl⟩
  · refine ⟨hkept, fun hr => ⟨hr, rfl⟩, ?_, ?_, ?_, ?_, ?_, ?_⟩ <;> rw [ctxOf_setCtx_self]
    · exact fun _ => rfl
    · exact fun _ _ _ => ⟨le_rfl, fun _ _ => rfl⟩
  · obtain ⟨D, hD, hC⟩ := bind_eq_ok hC
    cases hC
    obtain ⟨m, rfl, -, -⟩ := memWriteMany_ok _ hD
    refine ⟨hkept, fun hr => ⟨hr, rfl⟩, ?_, ?_, ?_, ?_, ?_, ?_⟩ <;> rw [ctxOf_setCtx_self]
    · exact id
    · exact fun ho' => absurd (ho.symm.trans ho') Bool.noConfusion
  · obtain ⟨bits, E, -, hput, -, rfl⟩ := writeCoded_ok hC
    rw [ctxOf_congr (ensureModel_frame hu).2.2.2.1] at hput
    obtain ⟨m, hE, -, -⟩ := putBits_ok bits hput
    refine ⟨hkept, fun hr => ?_, ?_, ?_, ?_, ?_, ?_, ?_⟩
    · rw [ensureModel_ready hr] at hu
      cases hu
      exact ⟨hr, rfl⟩
    all_goals rw [ctxOf_setCtx_self]
    case refine_7 => exact fun _ hmax hwf => codedFrame_putBits hmax hwf hput ⟨rfl, rfl⟩
    all_goals rw [hE]
    exact id

theorem deltaWrite_frame {old new key : Word} (h : deltaWrite c old new n key s = .ok t) : WriteFrame c s t := by
  unfold deltaWrite at h
  split at h
  · exact writeBitsCore_frame h
  · obtain ⟨u, hflag, h⟩ := bind_eq_ok h
    exact (writeBitsCore_frame hflag).trans (writeBitsCore_frame h)

/-- Bytes stored one after another all lie below `MAXSIZE` (rules R14, R53). -/
theorem memWriteMany_fits : ∀ (vs : List Byte) {C D : Context} {i : Word}, C.maxsize.toNat ≤ 2 ^ 28 →
    memWriteMany C i vs = .ok D → vs = [] ∨ i.toNat + vs.length ≤ C.maxsize.toNat
  | [], _, _, _, _, _ => .inl rfl
  | v :: vs, C, D, i, hmax, h => by
    right
    obtain ⟨E, hE, h⟩ := bind_eq_ok h
    have hi : i.toNat < C.maxsize.toNat := by
      by_contra hge
      rw [memWrite_beyond (Nat.le_of_not_lt hge)] at hE
      cases hE
    rw [memWrite_below hi] at hE
    cases hE
    have hnext : (i + 1).toNat = i.toNat + 1 := by
      rw [BitVec.toNat_add, show (1 : Word).toNat = 1 from rfl]
      omega
    rcases memWriteMany_fits vs (by exact hmax) h with rfl | hfit
    · simpa using hi
    · simp only [hnext, List.length_cons] at hfit ⊢
      omega

/-- A raw write leaves the bytes before `CURSIZE` and after the field's (rule R121). -/
theorem writeBitsCore_raw_bytes (ho : (ctxOf s c).oob = true) (hmax : (ctxOf s c).maxsize.toNat ≤ 2 ^ 28)
    (hwf : Memory.wf (ctxOf s c).buf = true) (h : writeBitsCore c v n s = .ok t) {a : Nat}
    (ha : a < (ctxOf s c).cursize.toNat ∨ (ctxOf s c).cursize.toNat + n / 8 ≤ a) :
    bufGet (ctxOf t c).buf a = bufGet (ctxOf s c).buf a := by
  rcases writeBitsCore_cases h with ⟨-, rfl⟩ | ⟨-, -, C, hC, rfl⟩ | ⟨-, ho', -⟩
  · rw [ctxOf_setCtx_self]
  · obtain ⟨D, hD, hC⟩ := bind_eq_ok hC
    cases hC
    rw [ctxOf_setCtx_self]
    rcases memWriteMany_fits _ hmax hD with hnil | hfit
    · rw [hnil] at hD
      cases hD
      rfl
    · rw [memWriteMany_below _ _ _ hfit] at hD
      cases hD
      refine (bufGet_bufSetMany _ hwf _ a).trans (if_neg ?_)
      rw [length_littleEndian]
      omega
  · exact absurd (ho.symm.trans ho') Bool.noConfusion

end

/-! ## The commands -/

section
variable {s t : State} {c : CtxNum} {i : Instr}

/-- A writing command was refused, or writes its field, or, in compressed mode, its delta field. -/
theorem exec_writing_cases (hi : writingContext s i = some c) (h : exec i s = .next t) :
    Refused s t ∨ (∃ n, writeForm i = some (c, n) ∧ t = writeField c n s) ∨
      ((ctxOf s c).oob = false ∧ ∃ n key, t = deltaWriteField c n key s) := by
  cases i with
  | writeBits d w7 =>
    cases hi
    rcases refused_or_body h with hrc | h
    · exact .inl hrc
    · exact (refused_or_guarded h).imp_right fun ⟨_, ht⟩ => .inl ⟨_, rfl, ht⟩
  | writeChar d | writeByte d | writeShort d | writeLong d | writeFloat d =>
    cases hi
    exact (refused_or_body h).imp_right fun ht => .inl ⟨_, rfl, ht⟩
  | writeDelta d w7 | writeDeltaKey d w7 =>
    cases hi
    rcases refused_or_body h with hrc | h
    · exact .inl hrc
    · exact (refused_or_guarded h).imp_right fun ⟨hok, ht⟩ => .inr ⟨oob_of_deltaOk hok, _, _, ht⟩
  | writeDeltaFloat d | writeDeltaKeyFloat d =>
    cases hi
    rcases refused_or_body h with hrc | h
    · exact .inl hrc
    · exact (refused_or_guarded h).imp_right fun ⟨hok, ht⟩ => .inr ⟨by simpa using hok, _, _, ht⟩
  | _ => cases hi

/-- A refused command leaves everything but the response. -/
theorem WriteFrame.refl (c : CtxNum) (s : State) : WriteFrame c s s where
  kept := .refl c s
  ready hr := ⟨hr, rfl⟩
  maxsize := rfl
  readcount := rfl
  oob := rfl
  allow := rfl
  overflowed := id
  coded _ _ _ := ⟨le_rfl, fun _ _ => rfl⟩

end

/-- Settles O34: a refused command changes `R` and `RC` alone; any other that does not fault is one or two runs of
`WriteBitsCore`, two in compressed mode alone. -/
theorem writesLeaveTheReaderAlone : Obligations.WritesLeaveTheReaderAlone := by
  intro s t i c hi hmax hwf hexec hf
  suffices h : ∃ u rc v, t = respond rc v u ∧ WriteFrame c s u ∧ ((ctxOf s c).oob = true →
      (∀ n, writeForm i = some (c, n) → ∀ a,
        a < (ctxOf s c).cursize.toNat ∨ (ctxOf s c).cursize.toNat + n / 8 ≤ a →
          bufGet (ctxOf u c).buf a = bufGet (ctxOf s c).buf a) ∧
      (writeForm i = none → bytesSame (ctxOf s c) (ctxOf u c))) by
    obtain ⟨u, rc, v, rfl, hw, hraw⟩ := h
    exact ⟨hw.kept.port, hw.kept.fault, hw.kept.others, hw.ready, hw.maxsize, hw.readcount, hw.oob, hw.allow,
      hw.overflowed, fun ho => (hraw ho).1, fun ho => (hraw ho).2, fun ho => (hw.coded ho hmax hwf).2⟩
  rcases exec_writing_cases hi hexec with ⟨rc, -, ht⟩ | ⟨n, hform, ht⟩ | ⟨ho, n, key, ht⟩
  · exact ⟨s, rc, 0, ht, .refl c s, fun _ => ⟨fun _ _ _ _ => rfl, fun _ _ => rfl⟩⟩
  · obtain ⟨u, hu, ht⟩ := noResult_of_not_fault ht.symm hf
    refine ⟨u, _, _, ht, writeBitsCore_frame hu, fun ho => ⟨fun k hk a ha => ?_, fun hnone => ?_⟩⟩
    · cases hform.symm.trans hk
      exact writeBitsCore_raw_bytes ho hmax hwf hu ha
    · cases hform.symm.trans hnone
  · obtain ⟨u, hu, ht⟩ := noResult_of_not_fault ht.symm hf
    exact ⟨u, _, _, ht, deltaWrite_frame hu, fun ho' => absurd (ho.symm.trans ho') Bool.noConfusion⟩

end Sys2Proof.Machine
end

section
/-! SUPPORT. What the reading commands do where nothing is refused: the value of a raw read, a field held in compressed mode
(rules R124, R125, R146, R181). -/

namespace Sys2Proof.Machine

/-! ## The value of a read, bit by bit -/

theorem getLsbD_mask {n : Nat} {j : Nat} (hj : j < 32) : (mask n).getLsbD j = decide (j < n) := by
  have h := getLsbD_zext n (BitVec.allOnes 32) hj
  rwa [zext, BitVec.allOnes_and, BitVec.getLsbD_allOnes, decide_eq_true hj, Bool.and_true] at h

/-- Rule R18: the low bits are the value's, the others copies of its sign for a negative width. -/
theorem getLsbD_extend {w : Int} {v : Word} (hv : zext (magnitude w) v = v) {j : Nat}
    (hj : j < 32) : (extend w v).getLsbD j =
      if j < magnitude w then v.getLsbD j else decide (w < 0) && v.getLsbD (magnitude w - 1) := by
  have hlow := getLsbD_zext (magnitude w) v hj
  rw [hv] at hlow
  unfold extend
  by_cases hneg : w < 0
  · rw [if_pos hneg, sext, hv, decide_eq_true hneg, Bool.true_and]
    split
    next hsign =>
      rw [BitVec.getLsbD_or, BitVec.getLsbD_not, getLsbD_mask hj, hsign]
      by_cases hjn : j < magnitude w <;> simp [hjn, hj]
    next hsign =>
      by_cases hjn : j < magnitude w
      · simp [hjn]
      · rw [hlow]
        simp [hjn, hsign]
  · rw [if_neg hneg, decide_eq_false hneg, Bool.false_and]
    by_cases hjn : j < magnitude w
    · simp [hjn]
    · rw [hlow]
      simp [hjn]

/-! ## Raw mode -/

section
variable {c : CtxNum} {s : State}

/-- Raw bytes read one after another change nothing but the count of free values drawn (rule R124). -/
theorem readRawBytes_frame (c : CtxNum) : ∀ (count : Nat) (i : Word) (lo : Nat) (v : Word) (s : State),
    ∃ k, (readRawBytes c count i lo v s).2 = drawn k s
  | 0, _, _, _, _ => ⟨0, rfl⟩
  | count + 1, i, lo, v, s => by
    obtain ⟨k, hk⟩ := memRead_frame c i.toNat s
    obtain ⟨m, hm⟩ := readRawBytes_frame c count (i + 1) (lo + 8) (v ||| byteIn (memRead c i.toNat s).1 lo) (drawn k s)
    refine ⟨k + m, ?_⟩
    rw [readRawBytes, hk, hm, drawn_drawn]

/-- A context after a raw read of `n` bits (rule R124). -/
def rawRead (C : Context) (n : Nat) : Context :=
  { C with readcount := C.readcount + BitVec.ofNat 32 (n / 8), bit := C.bit + BitVec.ofNat 32 n }

theorem readRaw_state (c : CtxNum) (n : Nat) (s : State) :
    ∃ k, (readRaw c n s).2 = setCtx c (rawRead (ctxOf s c) n) (drawn k s) := by
  obtain ⟨k, hk⟩ := readRawBytes_frame c (n / 8) (ctxOf s c).readcount 0 0 s
  exact ⟨k, by simp only [readRaw, hk]; rfl⟩

/-- Below `MAXSIZE` the value is that of the bytes stored at `READCOUNT` (rules R54, R124). -/
theorem readRaw_value {n : Nat} (hfit : (ctxOf s c).readcount.toNat + n / 8 ≤ (ctxOf s c).maxsize.toNat) :
    (readRaw c n s).1 = orBytes 0 0 (storedBytes (ctxOf s c) (ctxOf s c).readcount.toNat (n / 8)) := by
  have h := readRawBytes_of_stored (c := c) (s := s) (i := (ctxOf s c).readcount) (lo := 0) (v := 0)
    (storedBytes (ctxOf s c) (ctxOf s c).readcount.toNat (n / 8)) (by rwa [length_storedBytes])
    (fun k hk => (getD_storedBytes _ (by rwa [length_storedBytes] at hk)).symm)
  rw [length_storedBytes] at h
  simp only [readRaw, h]

theorem getLsbD_orBytes_storedBytes (C : Context) (i : Nat) {count j : Nat} (hj : j < 32) :
    (orBytes 0 0 (storedBytes C i count)).getLsbD j = (decide (j < 8 * count) && bitOf C.buf (8 * i + j)) := by
  rw [getLsbD_orBytes hj, Nat.sub_zero]
  by_cases hc : j / 8 < count
  · rw [getD_storedBytes C hc, getLsbD_bufGet _ _ (Nat.mod_lt _ (by decide)),
      show 8 * (i + j / 8) + j % 8 = 8 * i + j by omega]
    simp [show j < 8 * count by omega]
  · have hlen : (storedBytes C i count).length ≤ j / 8 := by rw [length_storedBytes]; omega
    rw [List.getD_eq_default _ _ hlen]
    simp [show ¬ j < 8 * count by omega]

end

/-! ## Compressed mode -/

section
variable {c : CtxNum} {s u : State} {w : Int} {v : Word}

theorem ensureModel_of_decBefore {D : Model} (h : decBefore s = .ok D) : ∃ u, ensureModel s = .ok u ∧ u.dec = D := by
  unfold decBefore at h
  split at h
  · rename_i hr
    cases h
    exact ⟨s, ensureModel_ready hr, rfl⟩
  · rename_i hr
    exact ⟨_, ensureModel_seed (by simpa using hr) h, rfl⟩

theorem ctxOf_of_ensureModel (hu : ensureModel s = .ok u) (c : CtxNum) : ctxOf u c = ctxOf s c :=
  ctxOf_congr (ensureModel_frame hu).2.2.2.1 c

/-- A compressed-mode read seeds the pair first (rules R124, R181). -/
theorem readBitsCore_of_ensureModel (ho : (ctxOf s c).oob = false) (hu : ensureModel s = .ok u) :
    readBitsCore c w s = readBitsCore c w u := by
  simp only [readBitsCore, ctxOf_of_ensureModel hu, ho, Bool.false_eq_true, if_false, readBitstream, hu,
    ensureModel_ready (ensureModel_frame hu).1, bind, Except.bind]

/-- A compressed-mode read of a field the buffer holds at `BIT` (rules R57, R124). -/
theorem readBitsCore_of_held {D : Model} {bits : List Bool} (ho : (ctxOf s c).oob = false)
    (hmax : (ctxOf s c).maxsize.toNat ≤ 2 ^ 28) (hdec : decBefore s = .ok D)
    (hf : fieldBits D v (magnitude w) = .ok bits) (hcod : codableAlong D (wholeBytes v (magnitude w)))
    (hheld : holdsBits (ctxOf s c) (ctxOf s c).bit.toNat bits) :
    ∃ u N, ensureModel s = .ok u ∧ u.dec = D ∧ updates D (wholeBytes v (magnitude w)) = .ok N ∧
      readBitsCore c w s = .ok (extend w (zext (magnitude w) v), trackReadcount c (decoded c bits.length N u)) := by
  obtain ⟨u, hu, rfl⟩ := ensureModel_of_decBefore hdec
  obtain ⟨N, hN, -⟩ := writeCoded_eq hf
  have hctx := ctxOf_of_ensureModel hu c
  refine ⟨u, N, hu, rfl, hN, ?_⟩
  rw [readBitsCore_of_ensureModel ho hu]
  exact readBitsCore_of_holds (by rwa [hctx]) (by rwa [hctx]) (ensureModel_frame hu).1 hcod hf hN (by rwa [hctx])

/-- The state a reading command leaves that took `k` bits from `BIT` on: `N` is its `DEC`. -/
theorem takesBits_of_read {k : Nat} (N : Model) (r : Word) (hu : ensureModel s = .ok u)
    (hmax : (ctxOf s c).maxsize.toNat ≤ 2 ^ 28) (hfit : (ctxOf s c).bit.toNat + k ≤ 8 * (ctxOf s c).maxsize.toNat) :
    TakesBits c ((ctxOf s c).bit.toNat + k) s (respond .ok r (trackReadcount c (decoded c k N u))) := by
  have hframe := readFrame_ensureModel (c := c) hu
  obtain ⟨hready, henc, -, -, -⟩ := ensureModel_frame hu
  have hbit := toNat_bit_add hmax hfit
  have hlast : (ctxOf s c).bit + BitVec.ofNat 32 k = BitVec.ofNat 32 ((ctxOf s c).bit.toNat + k) := by
    rw [BitVec.ofNat_add, BitVec.ofNat_toNat, BitVec.setWidth_eq]
  constructor
  case rc => rfl
  case port => exact hframe.port
  case fault => exact hframe.fault
  case others =>
    intro d hd
    rw [respond_ctxOf, trackReadcount, ctxOf_setCtx_of_ne hd]
    exact (ctxOf_setCtx_of_ne hd _ _).trans (hframe.others d hd)
  case ready => exact hready
  case enc => exact henc
  case own =>
    rw [respond_ctxOf, ctxOf_trackReadcount, ctxOf_decoded, ctxOf_advanced, ctxOf_of_ensureModel hu, hbit, hlast]

end

/-! ## The read commands -/

/-- What a read responds: the value, or its sentinel once `READCOUNT` has passed `CURSIZE` (rules R125, R146). -/
def readValue (sentinel : Option Word) (C : Context) (v : Word) : Word :=
  match sentinel with
  | none => v
  | some e => if C.cursize < C.readcount then e else v

theorem readValue_of_passed {C : Context} {e : Word} (h : C.cursize < C.readcount) (v : Word) :
    readValue (some e) C v = e := if_pos h

theorem readValue_of_not_passed {sentinel : Option Word} {C : Context} (h : sentinel = none ∨ C.readcount ≤ C.cursize)
    (v : Word) : readValue sentinel C v = v := by
  cases sentinel with
  | none => rfl
  | some e => exact if_neg (BitVec.not_lt.2 (h.resolve_left (Option.some_ne_none e)))

section
variable {s u : State} {c : CtxNum} {i : Instr} {w : Int} {sentinel : Option Word} {v : Word}

/-- Rules R125, R146 to R151, where `ReadBitsCore` does not fault. -/
theorem exec_read (hi : readForm i = some (c, w, sentinel)) (h : s.accepts [c]) (hok : widthOk (ctxOf s c).oob w = true)
    (hr : readBitsCore c w s = .ok (v, u)) : exec i s = .next (respond .ok (readValue sentinel (ctxOf u c) v) u) := by
  cases sentinel with
  | some e =>
    rw [(exec_of_readForm hi s).1, prologue_accepts h, typedReadField, typedRead, hr]
    rfl
  | none =>
    unfold readForm at hi
    split at hi <;> cases hi
    rw [exec_readBits h hok, hr]
    rfl

end

end Sys2Proof.Machine
end

section
/-! The reading commands (rules R124, R125, R146 to R152, R210 to R218). -/

namespace Sys2Proof.Machine

/-! ## Raw mode -/

/-- The model's name of a width's number of bits (rule R82). -/
theorem natAbs_eq_magnitude (w : Int) : w.natAbs = magnitude w := rfl

/-- The bytes of a raw field make a value of its width. -/
theorem zext_orBytes_storedBytes (C : Context) (i : Nat) {n : Nat} (hn : rawWidth n) :
    zext n (orBytes 0 0 (storedBytes C i (n / 8))) = orBytes 0 0 (storedBytes C i (n / 8)) := by
  have h8 : 8 * (n / 8) = n := by
    have := (rawWidth_div_le hn).1
    omega
  apply BitVec.eq_of_getLsbD_eq
  intro j hj
  rw [getLsbD_zext n _ hj, getLsbD_orBytes_storedBytes C i hj, h8, ← Bool.and_assoc, Bool.and_self]

/-- Settles O35: a raw read draws free values at most, moves the two cursors and gives the bytes at `READCOUNT`. -/
theorem rawReadReturnsLittleEndianValue : Obligations.RawReadReturnsLittleEndianValue := by
  intro s i c w sentinel hi h ho hn
  simp only [natAbs_eq_magnitude] at hn ⊢
  have hok : widthOk (ctxOf s c).oob w = true := widthOk_of_legal (legalWidth_of_rawWidth hn) fun _ => hn
  obtain ⟨k, hk⟩ := readRaw_state c (magnitude w) s
  have hread := readBitsCore_raw ho w
  rw [hk] at hread
  have hctx (r : Word) : ctxOf (respond .ok r (setCtx c (rawRead (ctxOf s c) (magnitude w)) (drawn k s))) c =
      rawRead (ctxOf s c) (magnitude w) := ctxOf_setCtx_self ..
  refine ⟨_, exec_read hi h hok hread, rfl, ⟨rfl, rfl, rfl, rfl, rfl⟩, ⟨rfl, rfl⟩, ⟨rfl, rfl, rfl⟩,
    fun d hd => ctxOf_setCtx_of_ne hd _ _, hctx _, fun e he hlt => ?_, fun hkeep hfit j hj => ?_⟩
  · subst he
    rw [hctx] at hlt
    exact readValue_of_passed (by rw [ctxOf_setCtx_self]; exact hlt) _
  · rw [hctx] at hkeep
    have h8 : 8 * (magnitude w / 8) = magnitude w := by
      have := (rawWidth_div_le hn).1
      omega
    obtain ⟨h1, h32⟩ : 1 ≤ magnitude w ∧ magnitude w ≤ 32 := legalWidth_of_rawWidth hn
    rw [respond_r, readValue_of_not_passed (by rw [ctxOf_setCtx_self]; exact hkeep),
      readRaw_value hfit, getLsbD_extend (zext_orBytes_storedBytes _ _ hn) hj,
      getLsbD_orBytes_storedBytes _ _ hj, getLsbD_orBytes_storedBytes _ _ (by omega), h8,
      decide_eq_true (show magnitude w - 1 < magnitude w by omega), Bool.true_and]
    by_cases hjn : j < magnitude w <;> simp [hjn]

/-! ## Compressed mode -/

section
variable {n : Nat} {f : Nat → Bool}

/-- The value of `n` bits, first bit lowest (rules R56, R124). -/
theorem getLsbD_orBits_range {j : Nat} (hj : j < 32) :
    (orBits 0 0 ((List.range n).map f)).getLsbD j = (decide (j < n) && f j) := by
  rw [getLsbD_orBits hj, Nat.sub_zero]
  by_cases hjn : j < n <;> simp [List.getD_eq_getElem?_getD, hjn]

/-- Fewer than 8 bits are all residual. -/
theorem residualBits_orBits (hn : n < 8) : residualBits (orBits 0 0 ((List.range n).map f)) n = (List.range n).map f := by
  rw [residualBits, Nat.mod_eq_of_lt hn]
  refine List.map_congr_left fun j hj => ?_
  have hj := List.mem_range.1 hj
  rw [getLsbD_orBits_range (by omega), decide_eq_true hj, Bool.true_and]

theorem wholeBytes_of_lt (hn : n < 8) (v : Word) : wholeBytes v n = [] := by
  rw [wholeBytes, Nat.div_eq_of_lt hn]
  rfl

end

/-- Settles O36: fewer than 8 bits are a field without whole bytes, whatever they are. -/
theorem narrowReadTakesRawBits : Obligations.NarrowReadTakesRawBits := by
  intro s c w7 D h ho h1 h8 hmax hfit hdec
  generalize hw : widthOf w7 = w at h1 h8 hfit ⊢
  simp only [natAbs_eq_magnitude] at h1 h8 hfit ⊢
  obtain ⟨f, hf⟩ : ∃ f : Nat → Bool, f = fun j => bitOf (ctxOf s c).buf ((ctxOf s c).bit.toNat + j) := ⟨_, rfl⟩
  have hfield : fieldBits D (orBits 0 0 ((List.range (magnitude w)).map f)) (magnitude w) =
      .ok ((List.range (magnitude w)).map f) := by
    rw [fieldBits, wholeBytes_of_lt h8, residualBits_orBits h8]
    exact congrArg Except.ok (List.append_nil _)
  have hzext : zext (magnitude w) (orBits 0 0 ((List.range (magnitude w)).map f)) =
      orBits 0 0 ((List.range (magnitude w)).map f) := by
    apply BitVec.eq_of_getLsbD_eq
    intro j hj
    rw [getLsbD_zext _ _ hj, getLsbD_orBits_range hj, ← Bool.and_assoc, Bool.and_self]
  have hlen : ((List.range (magnitude w)).map f).length = magnitude w := by simp
  have hheld : holdsBits (ctxOf s c) (ctxOf s c).bit.toNat ((List.range (magnitude w)).map f) := by
    refine ⟨by rw [hlen]; exact hfit, fun j hj => ?_⟩
    rw [hlen] at hj
    simp [List.getD_eq_getElem?_getD, hj, hf]
  obtain ⟨u, N, hu, rfl, hN, hread⟩ := readBitsCore_of_held ho hmax hdec hfield
    (by rw [wholeBytes_of_lt h8]; trivial) hheld
  rw [wholeBytes_of_lt h8] at hN
  cases hN
  rw [hzext, hlen] at hread
  have hok : widthOk (ctxOf s c).oob w = true :=
    widthOk_of_legal ⟨h1, by omega⟩ fun ho' => absurd (ho.symm.trans ho') Bool.noConfusion
  refine ⟨_, exec_read (i := .readBits c w7) (sentinel := none) (by rw [← hw]; rfl) h hok hread,
    takesBits_of_read u.dec _ hu hmax hfit, rfl, fun j hj => ?_⟩
  rw [respond_r, readValue, getLsbD_extend hzext hj, getLsbD_orBits_range hj,
    getLsbD_orBits_range (by omega), decide_eq_true (show magnitude w - 1 < magnitude w by omega), Bool.true_and, hf]
  by_cases hjn : j < magnitude w <;> simp [hjn]

/-- Settles O37: the read gives the value held, and its sentinel once `READCOUNT` has passed `CURSIZE`. -/
theorem compressedReadReturnsTheFieldHeld : Obligations.CompressedReadReturnsTheFieldHeld := by
  intro s i c w sentinel D v bits hi hn h ho hmax hdec hv hf hcod hheld
  simp only [natAbs_eq_magnitude] at hn hv hf hcod ⊢
  obtain ⟨u, N, hu, rfl, hN, hread⟩ := readBitsCore_of_held ho hmax hdec hf hcod hheld
  have hok : widthOk (ctxOf s c).oob w = true :=
    widthOk_of_legal hn fun ho' => absurd (ho.symm.trans ho') Bool.noConfusion
  refine ⟨_, exec_read hi h hok hread, takesBits_of_read N _ hu hmax hheld.1, hN, fun e he hlt => ?_, fun hkeep => ?_⟩
  · subst he
    exact readValue_of_passed hlt _
  · rw [respond_r, readValue_of_not_passed (by rwa [respond_ctxOf] at hkeep), hv]
    rfl

/-! ## `LOOKAHEAD_BYTE` -/

section
variable {c : CtxNum} {s : State}

/-- In raw mode a byte is peeked from the state the seeding leaves, and only a count of free values is drawn
(rules R124, R146, R152). -/
theorem peekByte_raw {u : State} (ho : (ctxOf s c).oob = true) (hu : ensureModel s = .ok u) :
    ∃ k, peekByte c s = .ok (readValue (some sentinelInt) (rawRead (ctxOf s c) 8) (readRaw c 8 u).1, drawn k u) := by
  have hctx := ctxOf_of_ensureModel hu c
  obtain ⟨k, hk⟩ := readRaw_state c 8 u
  rw [hctx] at hk
  have hread : readBitsCore c 8 u = .ok ((readRaw c 8 u).1, setCtx c (rawRead (ctxOf s c) 8) (drawn k u)) := by
    rw [← hk]
    exact readBitsCore_raw (by rwa [hctx]) 8
  have htyped : typedRead c 8 sentinelInt u = .ok (readValue (some sentinelInt) (rawRead (ctxOf s c) 8) (readRaw c 8 u).1,
      setCtx c (rawRead (ctxOf s c) 8) (drawn k u)) := by
    simp only [typedRead, hread, bind, Except.bind, ctxOf_setCtx_self]
    rfl
  have hback := restoreReader_of_readFrame (typedRead_frame htyped) (ensureModel_frame hu).1
  refine ⟨k, ?_⟩
  simp only [peekByte, hu, htyped, bind, Except.bind, hback]
  rfl

end

/-- Settles O41: the byte is read raw from the seeded pair, and the cursors are put back. -/
theorem rawLookaheadReturnsTheByte : Obligations.RawLookaheadReturnsTheByte := by
  intro s c E h ho henc
  obtain ⟨u, hu, rfl⟩ := ensureModel_of_encBefore henc
  obtain ⟨hready, -, hdec, hctxs, -⟩ := ensureModel_frame hu
  have hframe := readFrame_ensureModel (c := c) hu
  obtain ⟨k, hpeek⟩ := peekByte_raw ho hu
  have hexec := exec_lookaheadByte h
  rw [hpeek, conclude_ok] at hexec
  refine ⟨_, hexec, rfl, hframe.port, hframe.fault, hctxs, rfl, hdec, hready, fun hlt => ?_, fun hle hbelow => ?_⟩
  · exact readValue_of_passed hlt _
  · rw [respond_r, readValue_of_not_passed (.inr hle)]
    have hfit : (ctxOf u c).readcount.toNat + 8 / 8 ≤ (ctxOf u c).maxsize.toNat := by
      rw [ctxOf_of_ensureModel hu]
      exact hbelow
    rw [readRaw_value hfit, ctxOf_of_ensureModel hu]
    simp [storedBytes, orBytes, byteIn]

/-! ## The delta reads -/

theorem trackReadcount_setCtx (c : CtxNum) (C : Context) (s : State) : trackReadcount c (setCtx c C s) =
    setCtx c { C with readcount := BitVec.ofNat 32 (ceil8 C.bit.toNat) } s := by
  simp [trackReadcount]

theorem decoded_setCtx (c : CtxNum) (k : Nat) (N : Model) (C : Context) (s : State) : decoded c k N (setCtx c C s) =
    setCtx c { C with bit := C.bit + BitVec.ofNat 32 k } { s with dec := N } := by
  rw [decoded, advanced, ctxOf_setCtx_self, setCtx_setCtx]
  rfl

/-- `READCOUNT` follows the last `BIT` alone (rule R124). -/
theorem trackReadcount_decoded_trackReadcount (c : CtxNum) (j k : Nat) (N : Model) (u : State) :
    trackReadcount c (decoded c k N (trackReadcount c (advanced c j u))) = trackReadcount c (decoded c (j + k) N u) := by
  have hsum : decoded c (j + k) N u = setCtx c { ctxOf u c with
      bit := (ctxOf u c).bit + BitVec.ofNat 32 j + BitVec.ofNat 32 k } { u with dec := N } := by
    rw [BitVec.add_assoc, ← BitVec.ofNat_add]
    rfl
  rw [hsum, advanced, trackReadcount_setCtx, decoded_setCtx, trackReadcount_setCtx, trackReadcount_setCtx]

/-- Settles O43: the flag is a read of one bit, and the field read after it goes on where it ended. -/
theorem deltaReadTakesFlagThenValue : Obligations.DeltaReadTakesFlagThenValue := by
  intro s i c w key D hi hn h ho hmax hdec
  simp only [natAbs_eq_magnitude] at hn ⊢
  have hexec := exec_deltaRead hi h ho hn
  obtain ⟨u, hu, rfl⟩ := ensureModel_of_decBefore hdec
  have hctx := ctxOf_of_ensureModel hu c
  have hready := (ensureModel_frame hu).1
  have hflag {b : Bool} (hb : holdsBits (ctxOf s c) (ctxOf s c).bit.toNat [b]) :
      readBitsCore c 1 s = .ok ((BitVec.ofBool b).setWidth 32, trackReadcount c (advanced c 1 u)) := by
    rw [readBitsCore_of_ensureModel ho hu]
    exact readBitsCore_flag (by rwa [hctx]) (by rwa [hctx]) hready (by rwa [hctx])
  refine ⟨fun hheld => ?_, fun v bits hv hf hcod hheld => ?_⟩
  · have hread : deltaRead c s.b w key s = .ok (s.b, trackReadcount c (decoded c 1 u.dec u)) := by
      simp only [deltaRead, hflag hheld, bind, Except.bind]
      rfl
    rw [deltaReadField, hread, conclude_ok] at hexec
    exact ⟨_, hexec, takesBits_of_read u.dec s.b hu hmax hheld.1, rfl, rfl⟩
  · obtain ⟨hone, hrest⟩ := holdsBits_advanced (s := u) (c := c) (xs := [true]) (by rwa [hctx]) (by rwa [hctx])
    obtain ⟨N, hN, -⟩ := writeCoded_eq hf
    have hread := readBitsCore_of_holds (s := trackReadcount c (advanced c 1 u)) (c := c) (w := w) (v := v)
      (by simpa [hctx] using ho) (by simpa [hctx] using hmax) hready hcod hf hN
      (by rw [ctxOf_trackReadcount]; exact hrest)
    rw [trackReadcount_decoded_trackReadcount, hv] at hread
    have hdelta : deltaRead c s.b w key s = .ok (extend w v ^^^ (key &&& mask (magnitude w)),
        trackReadcount c (decoded c (1 + bits.length) N u)) := by
      simp only [deltaRead, hflag (by rwa [hctx] at hone), bind, Except.bind]
      rw [hread]
      rfl
    rw [deltaReadField, hdelta, conclude_ok] at hexec
    have htakes := takesBits_of_read N (extend w v ^^^ (key &&& mask (magnitude w))) hu hmax (k := 1 + bits.length)
      (by have := hheld.1; rw [List.length_cons] at this; omega)
    rw [← Nat.add_assoc] at htakes
    exact ⟨_, hexec, htakes, hN, rfl⟩

end Sys2Proof.Machine
end

section
/-! What a read leaves alone (rules R124, R125, R152, R210), and the commands that seed the pair or start a message (rules
R101, R102, R181). -/

namespace Sys2Proof.Machine

/-! ## The frame of the reading commands -/

section
variable {s t : State} {c : CtxNum} {i : Instr}

/-- What a command is said to be that only reads the message: its end is that of `e`. -/
structure ReadsBy (c : CtxNum) (s t : State) (e : Except FaultCause (Word × State)) : Prop where
  ends : t = conclude s e
  noRange : NoWriteRange e
  frame : ∀ v u, e = .ok (v, u) → ReadFrame c s u

theorem readsBy_readBitsCore (w : Int) : ReadsBy c s (conclude s (readBitsCore c w s)) (readBitsCore c w s) :=
  ⟨rfl, noWriteRange_readBitsCore c w s, fun _ _ => readBitsCore_frame⟩

theorem readsBy_typedRead (w : Int) (e : Word) : ReadsBy c s (typedReadField c w e s) (typedRead c w e s) :=
  ⟨rfl, noWriteRange_typedRead c w e s, fun _ _ => typedRead_frame⟩

theorem readsBy_deltaRead (w : Int) (key : Word) : ReadsBy c s (deltaReadField c w key s) (deltaRead c s.b w key s) :=
  ⟨rfl, noWriteRange_deltaRead c s.b w key s, fun _ _ => deltaRead_frame⟩

theorem readsBy_peekByte : ReadsBy c s (conclude s (peekByte c s)) (peekByte c s) := by
  refine ⟨rfl, noWriteRange_peekByte c s, fun v u h => ?_⟩
  obtain ⟨x, y, hx, -, rfl⟩ := peekByte_ok h
  have hx := readFrame_ensureModel (c := c) hx
  exact ⟨hx.port, hx.fault, hx.resp, hx.others, hx.own, hx.ready⟩

theorem exec_reading_cases (hi : readingContext s i = some c) (h : exec i s = .next t) :
    Refused s t ∨ ∃ e, ReadsBy c s t e := by
  cases i with
  | readBits d w7 =>
    cases hi
    rcases refused_or_body h with hrc | h
    · exact .inl hrc
    · exact (refused_or_guarded h).imp_right fun ⟨_, ht⟩ => ⟨_, ht ▸ readsBy_readBitsCore _⟩
  | readChar d | readByte d | readShort d | readLong d | readFloat d =>
    cases hi
    exact (refused_or_body h).imp_right fun (ht : t = typedReadField ..) => ⟨_, ht ▸ readsBy_typedRead _ _⟩
  | lookaheadByte d =>
    cases hi
    exact (refused_or_body h).imp_right fun (ht : t = conclude s (peekByte _ s)) => ⟨_, ht ▸ readsBy_peekByte⟩
  | readDelta d w7 | readDeltaKey d w7 | readDeltaFloat d | readDeltaKeyFloat d =>
    cases hi
    rcases refused_or_body h with hrc | h
    · exact .inl hrc
    · exact (refused_or_guarded h).imp_right fun ⟨_, ht⟩ => ⟨_, ht ▸ readsBy_deltaRead _ _⟩
  | _ => cases hi

end

/-- Settles O38: a read is refused, faults with `WEIGHT_OVF`, or moves the reader's cursors and `DEC` alone. -/
theorem readsLeaveTheMessageAlone : Obligations.ReadsLeaveTheMessageAlone := by
  intro s t i c hi hexec
  rcases exec_reading_cases hi hexec with ⟨rc, hrc, rfl⟩ | ⟨e, rfl, hrange, hframe⟩
  · refine ⟨?_, fun _ => ⟨⟨rfl, rfl, rfl, rfl, rfl⟩, ⟨rfl, rfl⟩, fun _ _ => rfl, fun hr => ⟨hr, rfl⟩, rfl, rfl,
      ⟨rfl, rfl, rfl⟩, fun _ => rfl⟩⟩
    rcases hrc with rfl | rfl | rfl | rfl <;> exact RespCode.noConfusion
  · rcases conclude_cases s e with ⟨v, u, rfl, hc⟩ | ⟨f, rfl, hc⟩
    · have h := hframe v u rfl
      rw [hc]
      refine ⟨RespCode.noConfusion, fun _ => ⟨h.port, h.fault, h.others, h.ready, ?_⟩⟩
      rw [respond_ctxOf, h.own]
      exact ⟨rfl, rfl, ⟨rfl, rfl, rfl⟩, fun _ => rfl⟩
    · rw [hc]
      refine ⟨fun hrc => ?_, fun hf => Bool.noConfusion hf⟩
      cases f with
      | writeRange => exact hrange rfl
      | weightOvf => cases hrc

/-! ## Starting a message, seeding the pair -/

section
variable {s u : State} {c : CtxNum} {oob : Bool}

/-- Rules R101, R102, where the capacity exceeds the buffer memory. -/
theorem initBody_of_gt (ha : s.params.bufBytes < s.a.toNat) : initBody c oob s = respond .invalidArg 0 s := by
  rw [initBody, decide_eq_false (Nat.not_le.2 ha), guardArg_false]

/-- A context as `INIT` and `INIT_OOB` leave it (rules R101, R102). -/
def started (C : Context) (maxsize : Word) (oob : Bool) : Context :=
  { C with maxsize := maxsize, cursize := 0, readcount := 0, bit := 0, oob := oob, overflowed := false,
           allowOverflow := false }

theorem initBody_of_le (ha : s.a.toNat ≤ s.params.bufBytes) (hu : ensureModel s = .ok u) :
    initBody c oob s = respond .ok 0 (setCtx c (started (ctxOf s c) s.a oob) u) := by
  rw [initBody, decide_eq_true ha, guardArg_true, hu, ← ctxOf_of_ensureModel hu c]
  rfl

theorem exec_init (h : s.accepts [c]) : exec (.init c) s = .next (initBody c false s) :=
  congrArg Host.Outcome.next (prologue_accepts h false _)

theorem exec_initOob (h : s.accepts [c]) : exec (.initOob c) s = .next (initBody c true s) :=
  congrArg Host.Outcome.next (prologue_accepts h false _)

theorem exec_modelInit (h : s.accepts [c]) : exec (.modelInit c) s = .next (conclude s (noResult (ensureModel s))) :=
  congrArg Host.Outcome.next (prologue_accepts h false _)

end

/-- Settles O23: the argument check alone decides, and the pair is seeded before the context is written. -/
theorem initClearsCursorsAndSelectsMode : Obligations.InitClearsCursorsAndSelectsMode := by
  intro s c h
  refine ⟨fun ha => ⟨?_, ?_⟩, fun E ha henc i oob hi => ?_⟩
  · rw [exec_init h, initBody_of_gt ha]
    rfl
  · rw [exec_initOob h, initBody_of_gt ha]
    rfl
  · obtain ⟨u, hu, rfl⟩ := ensureModel_of_encBefore henc
    obtain ⟨hready, -, hdec, -, -⟩ := ensureModel_frame hu
    have hframe := readFrame_ensureModel (c := c) hu
    have hexec : exec i s = .next (respond .ok 0 (setCtx c (started (ctxOf s c) s.a oob) u)) := by
      rw [← initBody_of_le ha hu]
      rcases hi with ⟨rfl, rfl⟩ | ⟨rfl, rfl⟩
      · exact exec_init h
      · exact exec_initOob h
    refine ⟨_, hexec, ⟨rfl, rfl⟩, hframe.port, hframe.fault,
      fun d hd => (ctxOf_setCtx_of_ne hd _ _).trans (hframe.others d hd), hready, rfl, hdec, ?_⟩
    rw [respond_ctxOf, ctxOf_setCtx_self]
    exact ⟨rfl, rfl, rfl, rfl, rfl, rfl, rfl, fun _ => rfl⟩

/-- Settles O27: the command is `EnsureModel()` and nothing else. -/
theorem modelInitSeedsOnce : Obligations.ModelInitSeedsOnce := by
  intro s c h
  refine ⟨fun hr => ?_, fun hr M hM => ?_⟩
  · rw [exec_modelInit h, ensureModel_ready hr]
    rfl
  · rw [exec_modelInit h, ensureModel_seed hr hM]
    rfl

end Sys2Proof.Machine
end

section
/-! `COMPRESS` and `DECOMPRESS` one by one (rules R190 to R192). -/

namespace Sys2Proof.Machine

/-- The bits packed, and zero bits to the end of the last byte (rules R56, R192). -/
theorem getLsbD_packBits_padded (bits : List Bool) {j : Nat} (hj : j < 8 * ceil8 bits.length) :
    ((packBits bits).getD (j / 8) 0).getLsbD (j % 8) = bits.getD j false := by
  have hmod : j % 8 < 8 := Nat.mod_lt _ (by decide)
  have hbyte : (packBits bits).getD (j / 8) 0 = byteOfBits ((bits.drop (8 * (j / 8))).take 8) := by
    simp [packBits, List.getD_eq_getElem?_getD, show j / 8 < ceil8 bits.length by omega]
  rw [hbyte, getLsbD_byteOfBits _ hmod]
  simp [List.getD_eq_getElem?_getD, hmod, Nat.div_add_mod]

section
variable {C : Context} {start : Word} {size : Nat} {bits : List Bool}

/-- The compressed form of `size` bytes whose codes are `bits` (rule R192). -/
theorem length_compressed (size : Nat) (bits : List Bool) :
    (sizeHeader size ++ packBits bits).length = ceil8 (16 + bits.length) := by
  simp only [sizeHeader, List.length_append, List.length_cons, List.length_nil, length_packBits, ceil8]
  omega

theorem bufGet_replaced_inside {out : List Byte} (hwf : Memory.wf C.buf = true) {k : Nat} (hk : k < out.length) :
    bufGet (replaced C start out).buf (start.toNat + k) = out.getD k 0 := by
  rw [bufGet_replaced hwf, if_pos (by omega), Nat.add_sub_cancel_left]

theorem bitOf_compressed (hwf : Memory.wf C.buf = true) {j : Nat} (hj : 16 + j < 8 * ceil8 (16 + bits.length)) :
    bitOf (replaced C start (sizeHeader size ++ packBits bits)).buf (8 * start.toNat + 16 + j) = bits.getD j false := by
  have hlen := length_compressed size bits
  have hj8 : j < 8 * ceil8 bits.length := by
    unfold ceil8 at *
    omega
  rw [bitOf, show (8 * start.toNat + 16 + j) / 8 = start.toNat + (2 + j / 8) by omega,
    show (8 * start.toNat + 16 + j) % 8 = j % 8 by omega, bufGet_replaced_inside hwf (by omega),
    ← getLsbD_packBits_padded bits hj8, List.getD_append_right _ _ _ _ (Nat.le_add_right 2 _)]
  exact congrArg (fun k => ((packBits bits).getD k 0).getLsbD (j % 8)) (Nat.add_sub_cancel_left 2 _)

end

/-- Settles O45: the source is read as stored, and its compressed form is stored over it where it fits. -/
theorem compressReplacesTheRangeByItsCodes : Obligations.CompressReplacesTheRangeByItsCodes := by
  intro s c h hsize hwf
  refine ⟨exec_compress_of_empty h, fun M codes src ha hsrc hshort hM hcodes => ?_⟩
  have hlen : src.length = (ctxOf s c).cursize.toNat - s.a.toNat := by rw [hsrc, List.length_map, List.length_range]
  have hstored : storedBytes (ctxOf s c) s.a.toNat src.length = src := by rw [hlen]; exact hsrc.symm
  have hexec := exec_compress_of_bytes h ha hsize hlen
  rw [if_pos (show src.length ≤ Config.compressLimit from hshort), hstored] at hexec
  simp only [compressedForm, hM, hcodes, bind, Except.bind] at hexec
  obtain ⟨out, hout⟩ : ∃ out, out = sizeHeader src.length ++ packBits codes := ⟨_, rfl⟩
  have hcount : out.length = ceil8 (16 + codes.length) := by rw [hout, length_compressed]
  rw [← hout] at hexec
  rw [← hcount]
  refine ⟨fun hfit => ?_, fun hover => ?_⟩
  · have hstore : storeCompressed c s.a out s = .ok (setCtx c (replaced (ctxOf s c) s.a out) s) :=
      if_neg (Nat.not_lt.2 hfit)
    rw [hstore, noResult_ok, conclude_ok] at hexec
    have h2 : 2 ≤ out.length := by
      rw [hcount, ceil8]
      omega
    refine ⟨_, hexec, ⟨rfl, rfl⟩, ⟨rfl, rfl, rfl, rfl, rfl⟩, ⟨rfl, rfl⟩, ⟨rfl, rfl, rfl⟩,
      fun d hd => ctxOf_setCtx_of_ne hd _ _, ?_⟩
    rw [respond_ctxOf, ctxOf_setCtx_self]
    refine ⟨rfl, rfl, rfl, ⟨rfl, rfl, rfl⟩, toNat_cursize_replaced hfit, ?_, ?_, fun j hj => ?_, fun a ha => ?_⟩
    · have hbyte := bufGet_replaced_inside (start := s.a) hwf (Nat.lt_of_lt_of_le Nat.zero_lt_two h2)
      rw [Nat.add_zero] at hbyte
      rw [hbyte, hout]
      rfl
    · rw [bufGet_replaced_inside hwf h2, hout]
      rfl
    · rw [hout]
      exact bitOf_compressed hwf (hcount ▸ hj)
    · rw [bufGet_replaced hwf, if_neg (by omega)]
  · have hstore : storeCompressed c s.a out s = .error .writeRange := if_pos hover
    rw [hstore] at hexec
    exact ⟨_, hexec, rfl, rfl, rfl⟩

/-- Settles O46: the stream holds the header and the codes of the sequence, so the decoder gives it. -/
theorem decompressReplacesTheCodesByTheBytes : Obligations.DecompressReplacesTheCodesByTheBytes := by
  intro s c h hsize hwf
  refine ⟨exec_decompress_of_empty h, fun M codes src ha hshort hM hcodes _ hheader hroom hhigh hlow hheld => ?_⟩
  have hcount : storedBytes (ctxOf s c) s.a.toNat 2 = sizeHeader src.length := by
    rw [sizeHeader, ← hhigh, ← hlow]
    rfl
  obtain ⟨n, hexec⟩ := exec_decompress_of_holds h rfl ha hshort hM hcodes hheader hroom hcount hheld
  refine ⟨_, hexec, ⟨rfl, rfl⟩, ⟨rfl, rfl, rfl, rfl, rfl⟩, ⟨rfl, rfl⟩, ⟨rfl, rfl, rfl⟩,
    fun d hd => ctxOf_setCtx_of_ne hd _ _, ?_⟩
  rw [respond_ctxOf, ctxOf_setCtx_self]
  exact ⟨rfl, rfl, rfl, ⟨rfl, rfl, rfl⟩, toNat_cursize_replaced hroom, bufGet_replaced hwf⟩

end Sys2Proof.Machine
end

section
/-! SUPPORT. The pseudo-operations in raw mode: what one write adds to a message and one read takes from it (rules R121, R124,
R230 to R232). -/

namespace Sys2Proof.Machine

/-! ## One command issued -/

/-- The engine executes what the host has issued, with the operands it has loaded (rule R22). -/
theorem issue_of_exec {i : Instr} {a b k : Word} {s t : State} (h : exec i { s with a := a, b := b, k := k } = .next t) :
    issue i a b k s = t := by
  have hstep : step { s with pending := transaction i a b k :: s.pending } = .next t := by
    rw [step_of_command (rest := s.pending) rfl, execWord_of_decode (decodeInvertsEncode i)]
    exact h
  rw [issue, hstep]

/-! ## The bytes a raw message holds -/

/-- The raw message of a context is `bs`. -/
structure RawMessage (C : Context) (bs : List Byte) : Prop where
  oob : C.oob = true
  wf : Memory.wf C.buf = true
  cursize : C.cursize.toNat = bs.length
  fits : bs.length ≤ C.maxsize.toNat
  stored : ∀ k, k < bs.length → bufGet C.buf k = bs.getD k 0

/-- From `READCOUNT` on, the raw message of a context has the bytes `bs` before `CURSIZE`. -/
structure Unread (C : Context) (bs : List Byte) : Prop where
  oob : C.oob = true
  last : C.readcount.toNat + bs.length ≤ C.cursize.toNat
  fits : C.cursize ≤ C.maxsize
  stored : ∀ k, k < bs.length → bufGet C.buf (C.readcount.toNat + k) = bs.getD k 0

section
variable {C : Context} {bs : List Byte}

theorem RawMessage.nil (ho : C.oob = true) (hfresh : freshContext C) (hwf : Memory.wf C.buf = true) : RawMessage C [] where
  oob := ho
  wf := hwf
  cursize := by simp [hfresh.1]
  fits := Nat.zero_le _
  stored _ hk := absurd hk (Nat.not_lt_zero _)

/-- `BEGIN_READ_OOB` sets the reader before the first byte (rule R105). -/
theorem RawMessage.unread (h : RawMessage C bs) : Unread { C with readcount := 0, bit := 0, oob := true } bs where
  oob := rfl
  last := by simp [h.cursize]
  fits := by rw [BitVec.le_def, h.cursize]; exact h.fits
  stored k hk := by simpa using h.stored k hk

/-- A raw write with headroom lengthens the message by the field's bytes (rule R121). -/
theorem RawMessage.write {v : Word} {n : Nat} (h : RawMessage C bs) (hfit : bs.length + n / 8 ≤ C.maxsize.toNat) :
    RawMessage (rawWritten C v n) (bs ++ littleEndian v (n / 8)) where
  oob := h.oob
  wf := wf_bufSetMany _ _ h.wf
  cursize := by
    have := C.maxsize.isLt
    simp only [rawWritten, BitVec.toNat_add, BitVec.toNat_ofNat, h.cursize, List.length_append, length_littleEndian]
    omega
  fits := by
    rw [List.length_append, length_littleEndian]
    exact hfit
  stored k hk := by
    rw [List.length_append] at hk
    rw [rawWritten, bufGet_bufSetMany _ h.wf, h.cursize]
    by_cases hbs : k < bs.length
    · rw [if_neg (by omega), h.stored k hbs, List.getD_append _ _ _ _ hbs]
    · rw [if_pos (by omega), List.getD_append_right _ _ _ _ (by omega)]

/-- A raw read of the next bytes leaves those after them (rule R124). -/
theorem Unread.read {xs ys : List Byte} {n : Nat} (h : Unread C (xs ++ ys)) (hn : xs.length = n / 8) :
    Unread (rawRead C n) ys := by
  have hlast := h.last
  rw [List.length_append] at hlast
  have hread : (rawRead C n).readcount.toNat = C.readcount.toNat + xs.length := by
    have := C.cursize.isLt
    rw [rawRead, BitVec.toNat_add, BitVec.toNat_ofNat, ← hn]
    omega
  refine ⟨h.oob, ?_, h.fits, fun k hk => ?_⟩
  · rw [hread, Nat.add_assoc]
    exact hlast
  · have hstored := h.stored (xs.length + k) (by rw [List.length_append]; omega)
    rwa [List.getD_append_right _ _ _ _ (Nat.le_add_right _ _), Nat.add_sub_cancel_left, ← Nat.add_assoc, ← hread]
      at hstored

end

/-! ## One write and one read -/

section
variable {s : State} {c : CtxNum} {i : Instr}

/-- What the rest of a pseudo-operation builds on: the block accepts commands on `c`, whose context is now `C`. -/
structure AcceptsAt (c : CtxNum) (C : Context) (s : State) : Prop where
  accepts : s.accepts [c]
  own : ctxOf s c = C

/-- A write of `n` bits into a raw message with headroom (rules R121, R122). -/
theorem issueA_write {n : Nat} {bs : List Byte} (hi : writeForm i = some (c, n)) (hn : rawWidth n) (h : s.accepts [c])
    (hm : RawMessage (ctxOf s c) bs) (hroom : bs.length + 4 ≤ (ctxOf s c).maxsize.toNat) (v : Word) :
    answers 0 (issueA i v s) ∧ AcceptsAt c (rawWritten (ctxOf s c) (zext n v) n) (issueA i v s) := by
  obtain ⟨-, hn4⟩ := rawWidth_div_le hn
  have hle : (ctxOf s c).cursize ≤ (ctxOf s c).maxsize := by
    rw [BitVec.le_def, hm.cursize]
    exact hm.fits
  have hh : headroomShort (ctxOf s c) = false := Bool.eq_false_iff.2 fun hh => by
    have := (headroomShort_iff hle).1 hh
    rw [hm.cursize] at this
    omega
  have hexec := exec_write (s := { s with a := v, b := s.b, k := s.k }) hi h (legalWidth_of_rawWidth hn) fun _ => hn
  rw [writeField_of_ok (writeBitsCore_of_raw (s := { s with a := v, b := s.b, k := s.k }) hm.oob hle hh hn4)] at hexec
  rw [issueA, issue_of_exec hexec]
  exact ⟨⟨rfl, rfl⟩, h, ctxOf_setCtx_self ..⟩

/-- A read of the next bytes of a raw message (rules R124, R146). -/
theorem issueN_read {w : Int} {sentinel : Option Word} {xs ys : List Byte} (hi : readForm i = some (c, w, sentinel))
    (hw : rawWidth (magnitude w)) (h : s.accepts [c]) (hu : Unread (ctxOf s c) (xs ++ ys))
    (hxs : xs.length = magnitude w / 8) :
    answers (extend w (orBytes 0 0 xs)) (issueN i s) ∧ AcceptsAt c (rawRead (ctxOf s c) (magnitude w)) (issueN i s) := by
  have hlast := hu.last
  rw [List.length_append] at hlast
  have hfits := hu.fits
  rw [BitVec.le_def] at hfits
  have hbytes := readRawBytes_of_stored (c := c) (s := s) xs (i := (ctxOf s c).readcount) (lo := 0) (v := 0) (by omega)
    fun k hk => (hu.stored k (by rw [List.length_append]; omega)).trans (List.getD_append _ _ _ _ hk)
  rw [hxs] at hbytes
  have hread : readBitsCore c w s =
      .ok (extend w (orBytes 0 0 xs), setCtx c (rawRead (ctxOf s c) (magnitude w)) s) := by
    rw [readBitsCore_raw hu.oob, readRaw, hbytes]
    rfl
  have hkeep : (rawRead (ctxOf s c) (magnitude w)).readcount ≤ (ctxOf s c).cursize :=
    BitVec.le_def.2 (le_trans (Nat.le_add_right _ _) (hu.read hxs).last)
  have hexec : exec i s = .next (respond .ok (extend w (orBytes 0 0 xs))
      (setCtx c (rawRead (ctxOf s c) (magnitude w)) s)) := by
    rw [exec_read hi h (widthOk_of_legal (legalWidth_of_rawWidth hw) fun _ => hw) hread, ctxOf_setCtx_self,
      readValue_of_not_passed (.inr hkeep)]
  rw [issueN, issue_of_exec hexec]
  exact ⟨⟨rfl, rfl⟩, h, ctxOf_setCtx_self ..⟩

/-- Rule R105. -/
theorem issueN_beginReadOob (h : s.accepts [c]) :
    AcceptsAt c { ctxOf s c with readcount := 0, bit := 0, oob := true } (issueN (.beginReadOob c) s) := by
  rw [issueN, issue_of_exec (exec_beginRead_or_oob h (.inr ⟨rfl, rfl⟩))]
  exact ⟨h, ctxOf_setCtx_self ..⟩

end

/-! ## Bytes -/

theorem littleEndian_byte (b : Byte) : littleEndian (zext 8 (b.setWidth 32)) (8 / 8) = [b] := by
  refine congrArg (fun x => [x]) (BitVec.eq_of_getLsbD_eq fun j hj => ?_)
  rw [getLsbD_byteAt _ _ hj, getLsbD_zext 8 (b.setWidth 32) (j := 8 * 0 + j) (by omega)]
  simp [hj]
  omega

theorem orBytes_byte (b : Byte) : orBytes 0 0 [b] = b.setWidth 32 := by simp [orBytes, byteIn]

section
variable {s : State} {c : CtxNum}

/-- One more byte of a raw message (rules R143, R231). -/
theorem issueA_writeByte {bs : List Byte} (h : s.accepts [c]) (hm : RawMessage (ctxOf s c) bs)
    (hroom : bs.length + 4 ≤ (ctxOf s c).maxsize.toNat) (d : Byte) :
    answers 0 (issueA (.writeByte c) (d.setWidth 32) s) ∧ (issueA (.writeByte c) (d.setWidth 32) s).accepts [c] ∧
      (ctxOf (issueA (.writeByte c) (d.setWidth 32) s) c).maxsize = (ctxOf s c).maxsize ∧
      RawMessage (ctxOf (issueA (.writeByte c) (d.setWidth 32) s) c) (bs ++ [d]) := by
  obtain ⟨hans, hacc, hown⟩ := issueA_write (i := .writeByte c) rfl (.inl rfl) h hm hroom (d.setWidth 32)
  refine ⟨hans, hacc, by rw [hown]; rfl, ?_⟩
  rw [hown, ← littleEndian_byte d]
  exact hm.write (by omega)

/-- `WRITE_DATA` into a raw message with headroom for every byte (rule R231). -/
theorem writeData_raw : ∀ (ds : List Byte) {bs : List Byte} {s : State}, s.accepts [c] → RawMessage (ctxOf s c) bs →
    bs.length + ds.length + 3 ≤ (ctxOf s c).maxsize.toNat →
    (ds ≠ [] → answers 0 (writeData c ds s)) ∧ (writeData c ds s).accepts [c] ∧
      RawMessage (ctxOf (writeData c ds s) c) (bs ++ ds)
  | [], bs, s, h, hm, _ => ⟨fun hne => absurd rfl hne, h, by rwa [List.append_nil]⟩
  | d :: ds, bs, s, h, hm, hroom => by
    rw [List.length_cons] at hroom
    obtain ⟨hans, hacc, hmax, hone⟩ := issueA_writeByte h hm (by omega) d
    obtain ⟨hrest, hacc', hall⟩ := writeData_raw ds hacc hone (by
      rw [hmax, List.length_append, List.length_singleton]
      omega)
    rw [writeData, if_pos hans.1]
    refine ⟨fun _ => ?_, hacc', by rwa [List.append_assoc] at hall⟩
    cases ds with
    | nil => exact hans
    | cons => exact hrest (List.cons_ne_nil _ _)

/-- The next byte of a raw message (rules R148, R232). -/
theorem issueN_readByte {d : Byte} {ds : List Byte} (h : s.accepts [c]) (hu : Unread (ctxOf s c) (d :: ds)) :
    answers (d.setWidth 32) (issueN (.readByte c) s) ∧ (issueN (.readByte c) s).accepts [c] ∧
      Unread (ctxOf (issueN (.readByte c) s) c) ds := by
  obtain ⟨hans, hacc, hown⟩ := issueN_read (i := .readByte c) (xs := [d]) rfl (.inl rfl) h hu rfl
  rw [orBytes_byte] at hans
  refine ⟨hans, hacc, ?_⟩
  rw [hown]
  exact Unread.read (xs := [d]) hu rfl

end

end Sys2Proof.Machine
end

section
/-! `WRITE_DATA` and `READ_DATA`, angles and strings in raw mode (rules R231 to R238, R242). -/

namespace Sys2Proof.Machine

/-! ## Data -/

theorem readData_raw {c : CtxNum} : ∀ (ds : List Byte) {s : State}, s.accepts [c] → Unread (ctxOf s c) ds →
    (readData c ds.length s).1 = ds
  | [], _, _, _ => rfl
  | d :: ds, s, h, hu => by
    obtain ⟨⟨hrc, hr⟩, hacc, hrest⟩ := issueN_readByte h hu
    have hd : ((issueN (.readByte c) s).r.setWidth 8) = d := by rw [hr]; simp
    simp only [List.length_cons, readData, if_pos hrc, hd, readData_raw ds hacc hrest]

/-- The reader at the start of the raw message the writer has left (rule R105). -/
theorem unread_beginReadOob {c : CtxNum} {s : State} {bs : List Byte} (h : s.accepts [c]) (hm : RawMessage (ctxOf s c) bs) :
    (issueN (.beginReadOob c) s).accepts [c] ∧ Unread (ctxOf (issueN (.beginReadOob c) s) c) bs := by
  obtain ⟨hacc, hown⟩ := issueN_beginReadOob h
  exact ⟨hacc, hown ▸ hm.unread⟩

/-- Settles O56, by induction on the bytes written, and on those read. -/
theorem rawDataReadsBack : Obligations.RawDataReadsBack := by
  intro s c ds h ho hfresh hne hroom hwf
  obtain ⟨hans, hacc, hm⟩ := writeData_raw ds h (.nil ho hfresh hwf) (by simpa using hroom)
  rw [List.nil_append] at hm
  obtain ⟨hacc', hu⟩ := unread_beginReadOob hacc hm
  exact ⟨hans hne, hm.cursize, hm.stored, readData_raw ds hacc' hu⟩

/-! ## Angles -/

/-- `trunc` of an angle's quotient lies within one below it (rule R233). -/
theorem truncate_of_nonneg {x : ℚ} (hx : 0 ≤ x) : 0 ≤ truncate x ∧ (truncate x : ℚ) ≤ x ∧ x < truncate x + 1 := by
  have hfloor : truncate x = ⌊x⌋ := by
    rw [truncate, Int.tdiv_eq_ediv_of_nonneg (Rat.num_nonneg.2 hx), Rat.floor_def']
  rw [hfloor]
  exact ⟨Int.floor_nonneg.2 hx, Int.floor_le x, Int.lt_floor_add_one x⟩

theorem truncate_intCast (z : ℤ) : truncate z = z := by simp [truncate]

/-- A quarter turn backwards (rules R233, R236). -/
theorem angleQuantum_neg_ninety : angleQuantum 256 (-90) = -64 := by
  have hexact : (-90 : ℚ) * (256 : ℕ) / 360 = (-64 : ℤ) := by norm_num
  rw [angleQuantum, hexact, truncate_intCast]

/-- The quantum of an angle in range, read back as an angle (rules R233 to R236). -/
theorem angleQuantum_reads_back {steps : ℕ} (hsteps : 0 < steps) {f : ℚ} (h0 : 0 ≤ f) (h360 : f < 360) :
    ∃ q : ℕ, angleQuantum steps f = q ∧ q < steps ∧ (q : ℚ) * 360 / steps ≤ f ∧ f < q * 360 / steps + 360 / steps := by
  have hpos : (0 : ℚ) < steps := by exact_mod_cast hsteps
  obtain ⟨hnonneg, hle, hlt⟩ := truncate_of_nonneg (x := f * steps / 360) (by positivity)
  obtain ⟨q, hq⟩ := Int.eq_ofNat_of_zero_le hnonneg
  rw [hq, Int.cast_natCast] at hle hlt
  rw [le_div_iff₀ (by norm_num)] at hle
  rw [div_lt_iff₀ (by norm_num)] at hlt
  refine ⟨q, hq, ?_, ?_, ?_⟩
  · have : (q : ℚ) < steps := by nlinarith
    exact_mod_cast this
  · rwa [div_le_iff₀ hpos]
  · rw [← add_div, lt_div_iff₀ hpos]
    linarith

section
variable {s : State} {c : CtxNum} {f : ℚ}

theorem littleEndian_zext_eq_wholeBytes {n : Nat} (hn : n % 8 = 0) (v : Word) :
    littleEndian v (n / 8) = wholeBytes v n := by simp [littleEndian, wholeBytes, hn]

/-- A raw field's bytes make its value again (rules R54, R124). -/
theorem orBytes_littleEndian {n : Nat} (hn : rawWidth n) (v : Word) :
    orBytes 0 0 (littleEndian (zext n v) (n / 8)) = zext n v := by
  have h8 := (rawWidth_div_le hn).1
  have h := orBytes_wholeBytes (zext n v) n
  rw [residualBits, h8, zext_zext] at h
  rw [littleEndian_zext_eq_wholeBytes h8]
  exact h

/-- A raw field written into a fresh message and read back from its start (rules R121, R124). -/
theorem raw_write_then_read {i j : Instr} {n : Nat} {w : Int} {sentinel : Option Word} (hi : writeForm i = some (c, n))
    (hj : readForm j = some (c, w, sentinel)) (hw : magnitude w = n) (hn : rawWidth n) (h : s.accepts [c])
    (ho : (ctxOf s c).oob = true) (hfresh : freshContext (ctxOf s c)) (hroom : 4 ≤ (ctxOf s c).maxsize.toNat)
    (hwf : Memory.wf (ctxOf s c).buf = true) (v : Word) :
    answers (extend w (zext n v)) (issueN j (issueN (.beginReadOob c) (issueA i v s))) := by
  obtain ⟨-, hn4⟩ := rawWidth_div_le hn
  have hm := RawMessage.nil ho hfresh hwf
  obtain ⟨-, hacc, hown⟩ := issueA_write hi hn h hm (by simpa using hroom) v
  obtain ⟨hacc', hu⟩ := unread_beginReadOob hacc
    (bs := littleEndian (zext n v) (n / 8)) (hown ▸ hm.write (by simp; omega))
  obtain ⟨hans, -⟩ := issueN_read (ys := []) hj (hw ▸ hn) hacc' (by rwa [List.append_nil])
    (by rw [length_littleEndian, hw])
  rwa [orBytes_littleEndian hn] at hans

end

/-- A quantum that fits its field is what the field's low bits give back. -/
theorem toNat_quantum {n q : Nat} {w : Int} (hq : q < 2 ^ n) (hw : magnitude w = n) (hn : n ≤ 32) :
    ((extend w (zext n ((BitVec.ofInt n q).setWidth 32))).setWidth n).toNat = q := by
  have hv : (extend w (zext n ((BitVec.ofInt n q).setWidth 32))).setWidth n = BitVec.ofNat n q := by
    subst hw
    refine BitVec.eq_of_getLsbD_eq fun j hj => ?_
    rw [BitVec.getLsbD_setWidth, decide_eq_true hj, Bool.true_and, getLsbD_extend (zext_zext _ _) (by omega), if_pos hj,
      getLsbD_zext _ _ (by omega), decide_eq_true hj, Bool.true_and, BitVec.getLsbD_setWidth,
      decide_eq_true (show j < 32 by omega), Bool.true_and, BitVec.ofInt_natCast]
  rw [hv, BitVec.toNat_ofNat, Nat.mod_eq_of_lt hq]

/-- Rules R234, R235: the angle of an answered read. -/
theorem readAngle_of_answers {s : State} {c : CtxNum} {v : Word} :
    (answers v (issueN (.readByte c) s) → (readAngle c s).1 = some ((v.setWidth 8).toNat * 360 / 256 : ℚ)) ∧
    (answers v (issueN (.readShort c) s) → (readAngle16 c s).1 = some ((v.setWidth 16).toNat * 360 / 65536 : ℚ)) :=
  ⟨fun ⟨hrc, hr⟩ => by simp only [readAngle, if_pos hrc, hr],
   fun ⟨hrc, hr⟩ => by simp only [readAngle16, if_pos hrc, hr]⟩

/-- Settles O57: the quantum of an angle in range fits its field, and is read back whole. -/
theorem angleReadsBackWithinOneStep : Obligations.AngleReadsBackWithinOneStep := by
  refine ⟨by rw [angleQuantum_neg_ninety]; rfl, fun s c f h ho hfresh hroom hwf h0 h360 => ⟨?_, ?_⟩⟩
  · obtain ⟨q, hq, hlt, hle, hstep⟩ := angleQuantum_reads_back (steps := 65536) (by norm_num) h0 h360
    have hans := raw_write_then_read (i := .writeShort c) (j := .readShort c) rfl rfl rfl (.inr (.inl rfl)) h ho
      hfresh hroom hwf ((BitVec.ofInt 16 (angleQuantum 65536 f)).setWidth 32)
    refine ⟨q * 360 / 65536, ?_, by exact_mod_cast hle, by exact_mod_cast hstep⟩
    rw [writeAngle16, readAngle_of_answers.2 hans, hq, toNat_quantum (n := 16) (w := -16) hlt rfl (by norm_num)]
  · obtain ⟨q, hq, hlt, hle, hstep⟩ := angleQuantum_reads_back (steps := 256) (by norm_num) h0 h360
    have hans := raw_write_then_read (i := .writeByte c) (j := .readByte c) rfl rfl rfl (.inl rfl) h ho
      hfresh hroom hwf ((BitVec.ofInt 8 (angleQuantum 256 f)).setWidth 32)
    refine ⟨q * 360 / 256, ?_, by exact_mod_cast hle, by exact_mod_cast hstep⟩
    rw [writeAngle, readAngle_of_answers.1 hans, hq, toNat_quantum (n := 8) (w := 8) hlt rfl (by norm_num)]

/-! ## Strings -/

section
variable (p : Bool) (b : Byte)

/-- The high-bit filter leaves no high bit, so both filters together give a dot for either cause (rule R242). -/
theorem sanitize_true : sanitize true b = if 0x80 ≤ b.toNat ∨ b = 0x25 then 0x2E else b := by
  have hhi : sanHi b = if 0x80 ≤ b.toNat then 0x2E else b := rfl
  rw [sanitize, if_pos rfl, sanPct, hhi]
  by_cases h : 0x80 ≤ b.toNat
  · simp [h]
  · by_cases h5 : b = 0x25 <;> simp [h, h5]

/-- Filtering again with both filters undoes the choice of the first (rules R237, R238, R242). -/
theorem sanitize_true_sanitize : sanitize true (sanitize p b) = sanitize true b := by
  cases p with
  | true =>
    rw [sanitize_true b]
    split
    · rfl
    next h => rw [sanitize_true, if_neg h]
  | false =>
    have hhi : sanitize false b = if 0x80 ≤ b.toNat then 0x2E else b := rfl
    rw [hhi]
    split
    next h => rw [sanitize_true b, if_pos (.inl h)]; rfl
    · rfl

theorem sanitize_ne_zero (hb : b ≠ 0) : sanitize p b ≠ 0 := by
  intro h
  have htwice := sanitize_true_sanitize p b
  rw [h, sanitize_true b] at htwice
  split at htwice
  · cases htwice
  · exact hb htwice.symm

end

/-- A byte read is never the sentinel (rules R146, R148). -/
theorem setWidth_byte_ne_sentinel (b : Byte) : b.setWidth 32 ≠ sentinelInt := by
  intro h
  have hnat := congrArg BitVec.toNat h
  rw [BitVec.toNat_setWidth] at hnat
  have hb := b.isLt
  have hs : sentinelInt.toNat = 4294967295 := rfl
  omega

theorem setWidth_byte_ne_zero {b : Byte} (hb : b ≠ 0) : b.setWidth 32 ≠ (0 : Word) := by
  intro h
  refine hb (BitVec.eq_of_toNat_eq ?_)
  have hnat := congrArg BitVec.toNat h
  rw [BitVec.toNat_setWidth] at hnat
  have hlt := b.isLt
  have h0 : (0 : Word).toNat = 0 := rfl
  have h0' : (0 : Byte).toNat = 0 := rfl
  omega

/-- The readers' loop over a terminated string that fits its bound (rule R238). -/
theorem readChars_raw {c : CtxNum} {bound : Nat} {pct : Bool} : ∀ (bs : List Byte) {fuel : Nat} {out : List Byte} {s : State},
    s.accepts [c] → Unread (ctxOf s c) (bs ++ [0]) → (∀ b ∈ bs, b ≠ 0) → bs.length < fuel →
    out.length + bs.length ≤ bound - 1 →
    (readChars c bound pct false fuel out s).1 = out ++ bs.map (sanitize pct)
  | [], fuel + 1, out, s, h, hu, _, _, _ => by
    obtain ⟨⟨-, hr⟩, -⟩ := issueN_readByte h hu
    have hzero : (issueN (.readByte c) s).r = 0 := hr
    simp [readChars, hzero]
  | b :: bs, fuel + 1, out, s, h, hu, hne, hfuel, hbound => by
    obtain ⟨⟨hrc, hr⟩, hacc, hrest⟩ := issueN_readByte h hu
    rw [List.length_cons] at hfuel hbound
    have hs := setWidth_byte_ne_sentinel b
    have hz := setWidth_byte_ne_zero (hne b List.mem_cons_self)
    have hbyte : (b.setWidth 32).setWidth 8 = b := by simp
    simp only [readChars, hrc, hr, hs, hz, hbyte, ne_eq, not_true_eq_false, Bool.false_eq_true, false_and, or_self, if_false]
    split
    next hfull =>
      rw [List.length_append, List.length_singleton] at hfull
      have hlast : bs = [] := List.length_eq_zero_iff.1 (by omega)
      rw [hlast]
      rfl
    next =>
      rw [readChars_raw bs hacc hrest (fun x hx => hne x (List.mem_cons_of_mem _ hx)) (by omega)
        (by rw [List.length_append, List.length_singleton]; omega), List.append_assoc]
      rfl

/-- What `WRITE_STRING` sends and `READ_STRING` gives back, of filtered bytes that fit the bound (rules R237, R238). -/
theorem readString_of_writeData {s : State} {c : CtxNum} {hp : HostParams} {bs : List Byte} (h : s.accepts [c])
    (ho : (ctxOf s c).oob = true) (hfresh : freshContext (ctxOf s c)) (hwf : Memory.wf (ctxOf s c).buf = true)
    (hroom : bs.length + 4 ≤ (ctxOf s c).maxsize.toNat) (hne : ∀ b ∈ bs, b ≠ 0) (hbound : bs.length ≤ hp.stringMax - 1) :
    (readString hp c (issueN (.beginReadOob c) (writeData c (bs ++ [0]) s))).1 = bs.map (sanitize true) := by
  obtain ⟨-, hacc, hm⟩ := writeData_raw (bs ++ [0]) h (.nil ho hfresh hwf) (by simpa using hroom)
  obtain ⟨hacc', hu⟩ := unread_beginReadOob hacc hm
  have hmax := (ctxOf s c).maxsize.isLt
  exact readChars_raw bs hacc' hu hne (by rw [readsAtMost]; omega) (by simpa using hbound)

/-- Settles O58: a string that fits is sent filtered and terminated, any other as the terminator alone. -/
theorem stringReadsBackSanitized : Obligations.StringReadsBackSanitized := by
  intro s c hp str h ho hfresh hroom hwf hne
  refine ⟨fun hfit => ?_, fun hlong => ?_⟩
  · have hsent : stringBytes hp.stringMax hp.pctWrite (some str) = str.map (sanitize hp.pctWrite) ++ [0] := by
      cases str with
      | nil => rfl
      | cons b bs => exact if_neg (by simpa using hfit)
    rw [writeString, hsent, readString_of_writeData h ho hfresh hwf (by simpa using hroom) _
      (by rw [List.length_map]; omega), List.map_map]
    · exact List.map_congr_left fun b _ => (sanitize_true_sanitize _ b).trans (sanitize_true b)
    · intro x hx
      obtain ⟨b, hb, rfl⟩ := List.mem_map.1 hx
      exact sanitize_ne_zero _ b (hne b hb)
  · have hsent : stringBytes hp.stringMax hp.pctWrite (some str) = [] ++ [0] := if_pos (.inr hlong)
    rw [writeString, hsent, readString_of_writeData h ho hfresh hwf (le_trans (Nat.le_add_left 4 _) hroom)
      (fun _ hb => absurd hb List.not_mem_nil) (Nat.zero_le _)]
    rfl

end Sys2Proof.Machine
end
